-- ==== Sys2Proof/Word.lean ====
section
/-! DEFINITION. The word types of the SLD-KQ4-512 and the finite tables its state is made of. -/

namespace Sys2Proof

/-- One byte of memory (R2). -/
abbrev Byte := BitVec 8
/-- One scalar register, address or instruction unit of 64 bits (R1, R70). -/
abbrev Word := BitVec 64

/-- A finite table: entries by number; a number that is not listed holds the table's default. -/
abbrev Tab (α : Type) := List (Nat × α)

/-- The entry of number `n`, or the default `d`. -/
def Tab.look {α : Type} (d : α) : Tab α → Nat → α
  | [], _ => d
  | (k, a) :: t, n => if k = n then a else Tab.look d t n

/-- The entry of number `n` if it is listed. -/
def Tab.find {α : Type} : Tab α → Nat → Option α
  | [], _ => none
  | (k, a) :: t, n => if k = n then some a else Tab.find t n

/-- Puts entry `n`; a table written through `put` alone is sorted by number without repeats. -/
def Tab.put {α : Type} : Tab α → Nat → α → Tab α
  | [], n, a => [(n, a)]
  | (k, b) :: t, n, a =>
    if k = n then (n, a) :: t
    else if n < k then (n, a) :: (k, b) :: t
    else (k, b) :: Tab.put t n a

/-- Removes entry `n`. -/
def Tab.del {α : Type} : Tab α → Nat → Tab α
  | [], _ => []
  | (k, b) :: t, n => if k = n then Tab.del t n else (k, b) :: Tab.del t n

end Sys2Proof
end

