-- ==== Sys2Proof/Machine/Bits.lean ====
section
/-! DEFINITION. Bit fields, sign extension and byte order, shared by the decoder and the machine. -/

namespace Sys2Proof.Machine

/-- Sext(x, n) of R5: the low `n` bits of `x` as a signed integer. -/
def sextNat (n x : Nat) : Int :=
  let y := x % 2 ^ n
  if y < 2 ^ (n - 1) then (y : Int) else (y : Int) - (2 ^ n : Nat)

/-- Bits `hi` to `lo` of a number. -/
def bitsOf (hi lo x : Nat) : Nat := (x >>> lo) % 2 ^ (hi + 1 - lo)

/-- Bit `n` of a number. -/
def bitOf (n x : Nat) : Bool := x.testBit n

/-- `n` bytes, least significant first (R2). -/
def leBytes : Nat → Nat → List Byte
  | 0, _ => []
  | n + 1, x => BitVec.ofNat 8 x :: leBytes n (x / 256)

/-- The number that bytes hold, least significant first (R2). -/
def ofLe : List Byte → Nat
  | [] => 0
  | b :: t => b.toNat + 256 * ofLe t

/-- A sign-extended field added to an address, modulo 2^64. -/
def offBy (base : Word) (off : Int) : Word := base + BitVec.ofInt 64 off

/-- Rounds `n` up to a multiple of `k`. -/
def roundUp (n k : Nat) : Nat := (n + k - 1) / k * k

/-- Ceil(a / b) of R5. -/
def ceilDiv (a b : Nat) : Nat := (a + b - 1) / b

end Sys2Proof.Machine
end

