-- ==== Sys2Proof/Syntax.lean ====
section
/-! DEFINITION. The instructions and events of the SLD-KQ4-512, one constructor for each row of the opcode table. -/

namespace Sys2Proof

/-- A scalar register field naming g0 to g31 (R29). -/
abbrev Reg := BitVec 5
/-- A global context number (R8). -/
abbrev CtxNo := BitVec 10
/-- A global core number (R8). -/
abbrev CoreNo := BitVec 8
/-- A global quad number, die x 16 + quad (R315). -/
abbrev QuadNo := BitVec 6
/-- A compute die D0 to D3 (R12). -/
abbrev DieNo := BitVec 2

/-- The prefix word (R36); its low two bits are 11 and its top two 00. -/
structure Pfx where
  mod1 : BitVec 12
  pol : BitVec 1
  vs3 : BitVec 8
  rm : BitVec 3
  me : BitVec 1
  m : BitVec 3
  deriving DecidableEq, Repr

/-- The fields of a 64-bit instruction besides its major (R30), with the prefix that stands before it, if any. -/
structure Op64 where
  pfx : Option Pfx
  fn3 : BitVec 3
  tkpush : BitVec 2
  tkpop : BitVec 2
  cls4 : BitVec 4
  fn4 : BitVec 4
  mod12 : BitVec 12
  dt : BitVec 1
  c2 : BitVec 1
  c1 : BitVec 1
  vs2 : BitVec 8
  vs1 : BitVec 8
  vd : BitVec 8
  deriving DecidableEq, Repr

/-- The coordinates of a device in the pod (R23, R396), or the pod's dimensions less one. -/
structure Coord3 where
  x : BitVec 6
  y : BitVec 6
  z : BitVec 6
  deriving DecidableEq, Repr

/-- The six torus ports of the hub (R17). -/
inductive PortNo where
  | xPlus | xMinus | yPlus | yMinus | zPlus | zMinus
  deriving DecidableEq, Repr

/-- A BMT frame: its EtherType, the 32-byte header of R415 and its payload. -/
structure Frame where
  ether : BitVec 16
  ver : BitVec 4
  typ : BitVec 8
  zero : BitVec 4
  queue : BitVec 16
  seq : BitVec 32
  addr : Word
  len : BitVec 32
  status : BitVec 32
  aux : Word
  payload : List Byte
  deriving DecidableEq, Repr

/-- Why a record is killed (R335, field kwhy). -/
inductive KillWhy where
  /-- kwhy 1: a trap with `tvec` = 0. -/
  | tvecZero (cause : BitVec 8)
  /-- kwhy 2: a fetch fault at `tvec`. -/
  | tvecFault (cause : BitVec 8)
  /-- kwhy 3: pre-emption not honoured. -/
  | preempt
  /-- kwhy 4: host abort. -/
  | hostAbort
  /-- kwhy 5: the die was withdrawn. -/
  | dieWithdrawn
  deriving DecidableEq, Repr

/-- A unit of the completion counter tree that reports upward (R334). -/
inductive CountUnit where
  | quad (q : QuadNo)
  | die (d : DieNo)
  deriving DecidableEq, Repr

/-- A control-space register that firmware writes at level F and that has no row of its own (R340). -/
inductive CtlReg where
  /-- The `qcfg` of a quad (R319). -/
  | qcfg (q : QuadNo)
  /-- The `lnkcfg` of a port (R398). -/
  | lnkcfg (p : PortNo)
  /-- Root0 of an asid in a die's asid table (R344). -/
  | root0 (d : DieNo) (asid : BitVec 16)
  /-- Root1 of an asid in a die's asid table (R344). -/
  | root1 (d : DieNo) (asid : BitVec 16)
  /-- The `asid` CSR of a context (R349). -/
  | asid (x : CtxNo)
  /-- The size of a queue's backing ring in records, and its base (R329). -/
  | ring (d : DieNo) (prio : BitVec 4)
  | ringBase (d : DieNo) (prio : BitVec 4)
  /-- Re-arms the snapshot registers (R299). -/
  | rearm
  /-- Sets a core to withdraw at its first mismatch (R298). -/
  | firstMismatch (c : CoreNo)
  /-- The EtherType of BMT frames (R415). -/
  | etherType
  /-- Firmware's verdict on a withdrawn core: bit 0 set returns it to service, clear retires it (R298). -/
  | verdict (c : CoreNo)
  /-- Retires the bank of a quad's SRAM whose number is the value modulo 32 (R322). -/
  | retireBank (q : QuadNo)
  deriving DecidableEq, Repr

/-- Where an uncorrectable error arises (R295, R246, R297, R322, R338). -/
inductive ErrSite where
  /-- A granule of memory, by physical address div 8. -/
  | memory (granule : Nat)
  /-- A granule of a line that an L2 slice holds. -/
  | l2 (granule : Nat)
  /-- A granule of a core's L1 line. -/
  | l1 (c : CoreNo) (granule : Nat)
  /-- A granule of an instruction-cache line. -/
  | code (c : CoreNo) (granule : Nat)
  /-- A granule of a quad-cache line. -/
  | quadCache (q : QuadNo) (granule : Nat)
  /-- A granule of the quad store, by offset div 8. -/
  | quadStore (q : QuadNo) (granule : Nat)
  /-- A 32-bit lane word of a vector row. -/
  | row (x : CtxNo) (row : BitVec 8) (lane : BitVec 8)
  /-- A granule of the staging SRAM of a die's collective engine. -/
  | staging (d : DieNo) (granule : Nat)
  /-- A 32-bit lane word of a row of a tile. -/
  | tile (c : CoreNo) (tile : BitVec 3) (row : BitVec 7) (lane : BitVec 7)
  /-- A scalar register. -/
  | scalar (x : CtxNo) (r : Reg)
  /-- The instruction memory of a die's active dispatch controller. -/
  | controller (d : DieNo)
  deriving DecidableEq, Repr

/-- A refused remote operation as the acknowledgement reports it (R407). -/
structure Refused where
  code : BitVec 8
  addr : Word
  deriving DecidableEq, Repr

/-- The packet of an `rsend` (R402, R403). -/
structure SlotPacket where
  src : Coord3
  dst : Coord3
  ctx : CtxNo
  op : Nat
  asid : BitVec 16
  slot : Word
  seq : Word
  info : Word
  /-- Runs of row and scale bytes by offset in the slot. -/
  body : List (Nat × List Byte)
  /-- Offsets of granules that receive the poison code. -/
  pois : List Nat
  deriving DecidableEq, Repr

/-- The element type of a remote reduction (R406, R413). -/
inductive ReduceType where
  | fp32 | int32 | int64 | sat32
  deriving DecidableEq, Repr

/-- One element of a packet: its index, its bits, its poison mark, and for a float the power of two that its scale gives. -/
structure PacketElem where
  ix : Nat
  bits : Word
  pois : Bool
  exp : Int
  deriving DecidableEq, Repr

/-- The packet of an `rredst` (R406). -/
structure ReducePacket where
  src : Coord3
  dst : Coord3
  ctx : CtxNo
  op : Nat
  asid : BitVec 16
  base : Word
  ty : ReduceType
  elems : List PacketElem
  deriving DecidableEq, Repr

/-- A slot-release notice (R405). -/
structure NoticePacket where
  src : Coord3
  dst : Coord3
  ctx : CtxNo
  op : Nat
  asid : BitVec 16
  sdesc : Word
  head : Word
  deriving DecidableEq, Repr

/-- One transfer of a collective on its way to a peer (R412). -/
structure CollPacket where
  src : Coord3
  dst : Coord3
  die : DieNo
  slot : BitVec 6
  k : Nat
  op : Nat
  asid : BitVec 16
  /-- `none` for a put of elements of `width` bytes. -/
  reduce : Option ReduceType
  width : Nat
  base : Word
  rctr : Word
  elems : List PacketElem
  deriving DecidableEq, Repr

/-- What another hub reports about a pod barrier (R409). -/
inductive PodMessage where
  /-- An arrival; `opens` is the participant count of an opening word and `drop` says that the arriver leaves. -/
  | arrival (asid : BitVec 16) (n : Nat) (drop : Bool)
  /-- A participant that had already arrived leaves. -/
  | leave
  /-- A participant's record was killed. -/
  | broken
  /-- A management request returns the barrier to Idle. -/
  | reset
  deriving DecidableEq, Repr

/-- The operand of a management request (R389). -/
inductive Request where
  | dvfs (d : DieNo) (word : Word)
  | powerLimit (watts : Nat)
  | quadBoundary (q : QuadNo) (pin : Bool) (pbnd : BitVec 6)
  | preEmptionMask (d : DieNo) (mask : Word)
  | drainShare (eighths : Nat)
  | confirmVersion
  | retest (core : CoreNo)
  | snapshot
  | logs
  | queueSetup (h : Nat) (asid : BitVec 16) (rbase : Word) (rlog : Nat)
  | podJoin (dx dy dz : Nat) (me : Coord3)
  | linkPin (p : PortNo) (thr : BitVec 16) (pin : Bool) (prate : BitVec 3)
  | podBarrierReset (id : Nat)
  deriving DecidableEq, Repr

/-- The operand of an event: which agent, object, frame or packet it concerns. The model's own: a row of the opcode table
that is an event has no encoding, and its meaning reads its operand from the state's field `arg`. -/
inductive EventArg where
  | none
  | ctx (x : CtxNo)
  | kill (x : CtxNo) (why : KillWhy)
  | core (c : CoreNo)
  /-- A chase term of a core (R215) or an entry of its retirement tracker (R227). -/
  | coreIx (c : CoreNo) (j : Nat)
  | coreVal (c : CoreNo) (v : Word)
  | ctxVal (x : CtxNo) (v : Word)
  | ctl (r : CtlReg) (v : Word)
  /-- An `nmop` command and one of its elements (R366). -/
  | element (n i : Nat)
  /-- The number of a posted operation, command, unit, waiting write, durable line or frame. -/
  | num (n : Nat)
  | dieSlot (d : DieNo) (slot : BitVec 6)
  | die (d : DieNo)
  | dieTemp (d : DieNo) (temp : Nat)
  | dies (a b : DieNo)
  | quad (q : QuadNo)
  | move (q : QuadNo) (up : Bool)
  | tag (t : BitVec 32)
  | count (u : CountUnit) (t : BitVec 32)
  | dieTag (d : DieNo) (t : BitVec 32)
  | frame (f : Frame)
  | request (seq : BitVec 32) (r : Request)
  | site (e : ErrSite)
  | port (p : PortNo)
  | link (dev : Coord3) (p : PortNo)
  | device (dev : Coord3)
  | slotPkt (p : SlotPacket)
  | reducePkt (p : ReducePacket)
  | noticePkt (p : NoticePacket)
  | collPkt (p : CollPacket)
  /-- The answer to a remote operation or collective transfer: its number, its refusal if any, and a wire overflow. -/
  | answer (n : Nat) (refusal : Option Refused) (wovf : Bool)
  /-- What the hub of device `src` reports about a pod barrier. -/
  | pod (src : Coord3) (id : BitVec 4) (m : PodMessage)
  deriving DecidableEq, Repr

/-- The instructions and events of the opcode table. -/
inductive Instr where
  /-- ADD (R117): Writes the wrapping 64-bit sum of ga and gb to gd. -/
  | add (d a b : Reg)
  /-- SUB (R117): Writes the wrapping difference ga minus gb to gd. -/
  | sub (d a b : Reg)
  /-- AND (R117): Writes the bitwise AND of ga and gb to gd. -/
  | and (d a b : Reg)
  /-- OR (R117): Writes the bitwise OR of ga and gb to gd. -/
  | or (d a b : Reg)
  /-- XOR (R117): Writes the bitwise XOR of ga and gb to gd. -/
  | xor (d a b : Reg)
  /-- ANDN (R117): Writes ga AND NOT gb to gd. -/
  | andn (d a b : Reg)
  /-- SLL (R117): Shifts ga left by gb[5:0] into gd. -/
  | sll (d a b : Reg)
  /-- SRL (R117): Shifts ga right logically by gb[5:0] into gd. -/
  | srl (d a b : Reg)
  /-- SRA (R117): Shifts ga right arithmetically by gb[5:0] into gd. -/
  | sra (d a b : Reg)
  /-- SLT (R117): Writes 1 to gd if ga is less than gb as signed values, else 0. -/
  | slt (d a b : Reg)
  /-- SLTU (R117): Writes 1 to gd if ga is less than gb as unsigned values, else 0. -/
  | sltu (d a b : Reg)
  /-- MIN (R117): Writes the signed minimum of ga and gb to gd. -/
  | min (d a b : Reg)
  /-- MAX (R117): Writes the signed maximum of ga and gb to gd. -/
  | max (d a b : Reg)
  /-- MINU (R117): Writes the unsigned minimum of ga and gb to gd. -/
  | minu (d a b : Reg)
  /-- MAXU (R117): Writes the unsigned maximum of ga and gb to gd. -/
  | maxu (d a b : Reg)
  /-- MUL (R117): Writes the low 64 bits of ga times gb to gd. -/
  | mul (d a b : Reg)
  /-- MULH (R117): Writes the high 64 bits of the signed 128-bit product to gd. -/
  | mulh (d a b : Reg)
  /-- MULHU (R117): Writes the high 64 bits of the unsigned 128-bit product to gd. -/
  | mulhu (d a b : Reg)
  /-- DIV (R117): Writes the signed quotient under R111 to gd, setting DZ or IOV and trapping ARITH when enabled. -/
  | div (d a b : Reg)
  /-- DIVU (R117): Writes the unsigned quotient under R111 to gd, setting DZ and trapping ARITH when enabled. -/
  | divu (d a b : Reg)
  /-- REM (R117): Writes the signed remainder under R111 to gd. -/
  | rem (d a b : Reg)
  /-- REMU (R117): Writes the unsigned remainder under R111 to gd. -/
  | remu (d a b : Reg)
  /-- POPC (R117): Writes the number of set bits of ga to gd. -/
  | popc (d a : Reg)
  /-- CLZ (R117): Writes the leading zero count of ga to gd, 64 for zero. -/
  | clz (d a : Reg)
  /-- CTZ (R117): Writes the trailing zero count of ga to gd, 64 for zero. -/
  | ctz (d a : Reg)
  /-- SEXT (R117): Sign-extends ga from bit gb[5:0] into gd. -/
  | sext (d a b : Reg)
  /-- ZEXT (R117): Zero-extends ga from bit gb[5:0] into gd. -/
  | zext (d a b : Reg)
  /-- BSWAP (R117): Writes ga with its eight bytes reversed to gd. -/
  | bswap (d a : Reg)
  /-- ADDI (R118): Writes ga plus the sign-extended imm16 to gd. -/
  | addi (d a : Reg) (imm : BitVec 16)
  /-- ANDI (R118): Writes ga AND the zero-extended imm16 to gd. -/
  | andi (d a : Reg) (imm : BitVec 16)
  /-- ORI (R118): Writes ga OR the zero-extended imm16 to gd. -/
  | ori (d a : Reg) (imm : BitVec 16)
  /-- XORI (R118): Writes ga XOR the zero-extended imm16 to gd. -/
  | xori (d a : Reg) (imm : BitVec 16)
  /-- SLLI (R118): Shifts ga left by an immediate amount 0-63 into gd. -/
  | slli (d a : Reg) (sh : BitVec 6)
  /-- SRLI (R118): Shifts ga right logically by an immediate amount into gd. -/
  | srli (d a : Reg) (sh : BitVec 6)
  /-- SRAI (R118): Shifts ga right arithmetically by an immediate amount into gd. -/
  | srai (d a : Reg) (sh : BitVec 6)
  /-- SLTI (R118): Writes 1 to gd if ga is below the sign-extended immediate as signed values. -/
  | slti (d a : Reg) (imm : BitVec 16)
  /-- SLTIU (R118): Writes 1 to gd if ga is below the sign-extended immediate as unsigned values. -/
  | sltiu (d a : Reg) (imm : BitVec 16)
  /-- LIH (R118): Writes the sign-extended imm21 shifted left by 11 to gd. -/
  | lih (d : Reg) (imm : BitVec 21)
  /-- PCA (R118): Writes PC plus the sign-extended imm21 times 4 to gd. -/
  | pca (d : Reg) (imm : BitVec 21)
  /-- JAL (R119): Jumps PC-relative by off21 words and writes the return address to gd. -/
  | jal (d : Reg) (off : BitVec 21)
  /-- JALR (R119): Jumps to ga plus imm16, writing the return address, or traps MISALIGN on an unaligned target. -/
  | jalr (d a : Reg) (imm : BitVec 16)
  /-- CALLI (R119): Reads a link-table slot in class 15 and calls its target, writing g1. -/
  | calli (slot : BitVec 16)
  /-- BEQ (R119): Branches by off13 words when ga equals gb. -/
  | beq (a b : Reg) (off : BitVec 13)
  /-- BNE (R119): Branches when ga differs from gb. -/
  | bne (a b : Reg) (off : BitVec 13)
  /-- BLT (R119): Branches when ga is less than gb as signed values. -/
  | blt (a b : Reg) (off : BitVec 13)
  /-- BGE (R119): Branches when ga is at least gb as signed values. -/
  | bge (a b : Reg) (off : BitVec 13)
  /-- BLTU (R119): Branches when ga is less than gb as unsigned values. -/
  | bltu (a b : Reg) (off : BitVec 13)
  /-- BGEU (R119): Branches when ga is at least gb as unsigned values. -/
  | bgeu (a b : Reg) (off : BitVec 13)
  /-- LD (R120): Loads 1, 2, 4 or 8 bytes sign-extended into gd, faulting on misalignment, translation or poison. -/
  | ld (d a : Reg) (cls : BitVec 4) (size : BitVec 2) (off : BitVec 10)
  /-- LDZ (R120): Loads 1, 2, 4 or 8 bytes zero-extended into gd. -/
  | ldz (d a : Reg) (cls : BitVec 4) (size : BitVec 2) (off : BitVec 10)
  /-- ST (R120): Stores the low 1, 2, 4 or 8 bytes of gd to memory. -/
  | st (d a : Reg) (cls : BitVec 4) (size : BitVec 2) (off : BitVec 10)
  /-- LDA (R121): Loads sign-extended as an acquire at the encoded scope. -/
  | lda (d a : Reg) (cls : BitVec 4) (size : BitVec 2) (scope : BitVec 3)
  /-- STL (R121): Stores as a release at the encoded scope, writing back dirty bytes as the scope demands. -/
  | stl (d a : Reg) (cls : BitVec 4) (size : BitVec 2) (scope : BitVec 3)
  /-- AMOADD (R122): Atomically adds gb to the word at ga at its home, returning the old value unless gd is g0. -/
  | amoadd (d a b : Reg) (size : BitVec 2) (scope : BitVec 3) (ord : BitVec 2)
  /-- AMOAND (R122): Atomically ANDs gb into the word at ga. -/
  | amoand (d a b : Reg) (size : BitVec 2) (scope : BitVec 3) (ord : BitVec 2)
  /-- AMOOR (R122): Atomically ORs gb into the word at ga. -/
  | amoor (d a b : Reg) (size : BitVec 2) (scope : BitVec 3) (ord : BitVec 2)
  /-- AMOXOR (R122): Atomically XORs gb into the word at ga. -/
  | amoxor (d a b : Reg) (size : BitVec 2) (scope : BitVec 3) (ord : BitVec 2)
  /-- AMOMIN (R122): Atomically stores the signed minimum of the word and gb. -/
  | amomin (d a b : Reg) (size : BitVec 2) (scope : BitVec 3) (ord : BitVec 2)
  /-- AMOMAX (R122): Atomically stores the signed maximum of the word and gb. -/
  | amomax (d a b : Reg) (size : BitVec 2) (scope : BitVec 3) (ord : BitVec 2)
  /-- AMOMINU (R122): Atomically stores the unsigned minimum of the word and gb. -/
  | amominu (d a b : Reg) (size : BitVec 2) (scope : BitVec 3) (ord : BitVec 2)
  /-- AMOMAXU (R122): Atomically stores the unsigned maximum of the word and gb. -/
  | amomaxu (d a b : Reg) (size : BitVec 2) (scope : BitVec 3) (ord : BitVec 2)
  /-- AMOSWAP (R122): Atomically replaces the word with gb. -/
  | amoswap (d a b : Reg) (size : BitVec 2) (scope : BitVec 3) (ord : BitVec 2)
  /-- AMOFADD (R122): Atomically adds gb as FP32 into the 4-byte word, rounding RNE. -/
  | amofadd (d a b : Reg) (scope : BitVec 3) (ord : BitVec 2)
  /-- AMOSADD (R122): Atomically adds gb with signed saturation, returning a status that sets SAT. -/
  | amosadd (d a b : Reg) (size : BitVec 2) (scope : BitVec 3) (ord : BitVec 2)
  /-- CAS (R123): Atomically compares the word at ga with gd and, if equal, writes gb, returning the old value in gd. -/
  | cas (d a b : Reg) (size : BitVec 2) (scope : BitVec 3) (ord : BitVec 2)
  /-- CSRR (R128): Reads the numbered CSR into gd. -/
  | csrr (d : Reg) (csr : BitVec 12)
  /-- CSRW (R128): Writes ga to the numbered CSR and returns the old value in gd. -/
  | csrw (d a : Reg) (csr : BitVec 12)
  /-- CSRS (R128): Sets the bits of ga in the numbered CSR and returns the old value. -/
  | csrs (d a : Reg) (csr : BitVec 12)
  /-- CSRC (R128): Clears the bits of ga in the numbered CSR and returns the old value. -/
  | csrc (d a : Reg) (csr : BitVec 12)
  /-- FADD (R124): Adds two FP32 values with rounding mode rm. -/
  | fadd (d a b : Reg) (rm : BitVec 3)
  /-- FSUB (R124): Subtracts two FP32 values with rounding mode rm. -/
  | fsub (d a b : Reg) (rm : BitVec 3)
  /-- FMUL (R124): Multiplies two FP32 values with rounding mode rm. -/
  | fmul (d a b : Reg) (rm : BitVec 3)
  /-- FDIV (R124): Divides two FP32 values with rounding mode rm. -/
  | fdiv (d a b : Reg) (rm : BitVec 3)
  /-- FSQRT (R124): Takes the FP32 square root of ga. -/
  | fsqrt (d a : Reg) (rm : BitVec 3)
  /-- FMIN (R124): Writes the FP32 minimumNumber of ga and gb. -/
  | fmin (d a b : Reg)
  /-- FMAX (R124): Writes the FP32 maximumNumber of ga and gb. -/
  | fmax (d a b : Reg)
  /-- FCVT_F_I (R124): Converts i64 in ga to FP32. -/
  | fcvtFI (d a : Reg) (rm : BitVec 3)
  /-- FCVT_I_F (R124): Converts FP32 in ga to i64. -/
  | fcvtIF (d a : Reg) (rm : BitVec 3)
  /-- FCVT_F_N (R124): Converts n64 in ga to FP32. -/
  | fcvtFN (d a : Reg) (rm : BitVec 3)
  /-- FCVT_N_F (R124): Converts FP32 in ga to n64. -/
  | fcvtNF (d a : Reg) (rm : BitVec 3)
  /-- FEQ (R124): Writes 1 when the FP32 values are equal. -/
  | feq (d a b : Reg)
  /-- FLT (R124): Writes 1 when ga is less than gb as FP32, setting NV on NaN. -/
  | flt (d a b : Reg)
  /-- FLE (R124): Writes 1 when ga is at most gb as FP32, setting NV on NaN. -/
  | fle (d a b : Reg)
  /-- FCLASS (R124): Writes the class code of the FP32 value in ga. -/
  | fclass (d a : Reg)
  /-- FSGNJ (R124): Writes the magnitude of ga with the sign of gb. -/
  | fsgnj (d a b : Reg)
  /-- FSGNJN (R124): Writes the magnitude of ga with the inverted sign of gb. -/
  | fsgnjn (d a b : Reg)
  /-- FSGNJX (R124): Writes the magnitude of ga with the XOR of both signs. -/
  | fsgnjx (d a b : Reg)
  /-- FENCE (R256): Orders the context's accesses in the masked classes at the encoded scope, waiting for write-backs and covered posted operations. -/
  | fence (scope : BitVec 5) (mask : BitVec 16)
  /-- IFENCE (R352): Writes back as a release and invalidates instruction caches and fetch buffers of the scope. -/
  | ifence (scope : BitVec 5)
  /-- CYC (R126): Writes the core's cycle counter to gd. -/
  | cyc (d : Reg)
  /-- SPAWN (R130): Reads, checks and queues a copy of a continuation record with a release, or reports a full backing area. -/
  | spawn (d a : Reg)
  /-- JOINDEC (R131): Atomically decrements a join counter and queues its embedded record when it reaches zero. -/
  | joindec (a : Reg)
  /-- ARRIVE (R261): Counts the context's arrival on a barrier without waiting. -/
  | barArrive (d b : Reg) (scope : BitVec 3)
  /-- WAIT (R261): Waits until the barrier's current phase completes. -/
  | barWait (d b : Reg) (scope : BitVec 3)
  /-- ARRWAIT (R261): Arrives at a barrier and waits for the phase it arrived in. -/
  | barArrwait (d b : Reg) (scope : BitVec 3)
  /-- DROP (R261): Arrives and leaves a barrier's participant set. -/
  | barDrop (d b : Reg) (scope : BitVec 3)
  /-- VSETVL (R137): Sets vl to the minimum of the request and VLMAX and writes it to gd. -/
  | vsetvl (f : Op64)
  /-- VSETTYPE (R138): Writes vtype from a register or immediate image and clips vl. -/
  | vsettype (f : Op64)
  /-- VLOOP (R139): Opens a hardware loop of g[ga] columns, optionally split. -/
  | vloop (f : Op64)
  /-- VSTRIP (R139): Sets vl to the minimum of vrem and VLMAX and writes it to gd. -/
  | vstrip (f : Op64)
  /-- VNEXT (R139): Steps the loop state and branches while vrem is nonzero. -/
  | vnext (f : Op64)
  /-- VGET (R140): Reads vl, vrem, vsc or VLMAX into a scalar register. -/
  | vget (f : Op64)
  /-- VADD (R144): Adds elements modulo 2^ew. -/
  | vadd (f : Op64)
  /-- VSUB (R144): Subtracts elements modulo 2^ew. -/
  | vsub (f : Op64)
  /-- VRSUB (R144): Computes b minus a modulo 2^ew. -/
  | vrsub (f : Op64)
  /-- VMUL (R144): Writes the low ew bits of the product. -/
  | vmul (f : Op64)
  /-- VMULH (R144): Writes the high ew bits of the signed product. -/
  | vmulh (f : Op64)
  /-- VMULHU (R144): Writes the high ew bits of the unsigned product. -/
  | vmulhu (f : Op64)
  /-- VMAC (R144): Accumulates a times b into the destination element. -/
  | vmac (f : Op64)
  /-- VDIV (R144): Divides elements as signed under R111. -/
  | vdiv (f : Op64)
  /-- VDIVU (R144): Divides elements as unsigned under R111. -/
  | vdivu (f : Op64)
  /-- VREM (R144): Takes signed remainders under R111. -/
  | vrem (f : Op64)
  /-- VREMU (R144): Takes unsigned remainders under R111. -/
  | vremu (f : Op64)
  /-- VMIN (R144): Writes the signed minimum of elements. -/
  | vmin (f : Op64)
  /-- VMAX (R144): Writes the signed maximum of elements. -/
  | vmax (f : Op64)
  /-- VMINU (R144): Writes the unsigned minimum of elements. -/
  | vminu (f : Op64)
  /-- VMAXU (R144): Writes the unsigned maximum of elements. -/
  | vmaxu (f : Op64)
  /-- VAND (R144): Bitwise AND of element patterns. -/
  | vand (f : Op64)
  /-- VOR (R144): Bitwise OR of element patterns. -/
  | vor (f : Op64)
  /-- VXOR (R144): Bitwise XOR of element patterns. -/
  | vxor (f : Op64)
  /-- VANDN (R144): Bitwise a AND NOT b of element patterns. -/
  | vandn (f : Op64)
  /-- VSHL (R145): Shifts elements left. -/
  | vshl (f : Op64)
  /-- VSHR (R145): Shifts elements right logically. -/
  | vshr (f : Op64)
  /-- VSRA (R145): Shifts elements right arithmetically. -/
  | vsra (f : Op64)
  /-- VSHRR (R145): Shifts elements right with fixed-point rounding under vxrm. -/
  | vshrr (f : Op64)
  /-- VSADD (R144): Adds with signed saturation, setting SAT on clamp. -/
  | vsadd (f : Op64)
  /-- VSADDU (R144): Adds with unsigned saturation. -/
  | vsaddu (f : Op64)
  /-- VSSUB (R144): Subtracts with signed saturation. -/
  | vssub (f : Op64)
  /-- VSSUBU (R144): Subtracts with unsigned saturation. -/
  | vssubu (f : Op64)
  /-- VPMAC (R146): Accumulates four-way byte dot products into 32-bit elements. -/
  | vpmac (f : Op64)
  /-- VPOPC (R147): Counts set bits of each element. -/
  | vpopc (f : Op64)
  /-- VCLZ (R147): Counts leading zeros of each element. -/
  | vclz (f : Op64)
  /-- VCTZ (R147): Counts trailing zeros of each element. -/
  | vctz (f : Op64)
  /-- VABSD (R144): Writes the absolute difference of elements. -/
  | vabsd (f : Op64)
  /-- VCMP (R148): Compares every row of a group and writes one mask bit per column. -/
  | vcmp (f : Op64)
  /-- VSEL (R149): Selects b or a per element by the effective mask. -/
  | vsel (f : Op64)
  /-- VBCAST (R150): Broadcasts a scalar or immediate to every active element. -/
  | vbcast (f : Op64)
  /-- VIOTA (R151): Writes element indices or active-column prefix counts. -/
  | viota (f : Op64)
  /-- VFADD (R155): Adds floating-point elements, rounded once. -/
  | vfadd (f : Op64)
  /-- VFSUB (R155): Subtracts floating-point elements. -/
  | vfsub (f : Op64)
  /-- VFMUL (R155): Multiplies floating-point elements. -/
  | vfmul (f : Op64)
  /-- VFMA (R155): Fused multiply-add into the destination. -/
  | vfma (f : Op64)
  /-- VFNMA (R155): Fused multiply-subtract from the destination. -/
  | vfnma (f : Op64)
  /-- VFDIV (R155): Divides floating-point elements. -/
  | vfdiv (f : Op64)
  /-- VFSQRT (R156): Correctly rounded square root of each element. -/
  | vfsqrt (f : Op64)
  /-- VFRCP (R156): Correctly rounded reciprocal of each element. -/
  | vfrcp (f : Op64)
  /-- VFRSQ (R156): Correctly rounded reciprocal square root. -/
  | vfrsq (f : Op64)
  /-- VFEXP2 (R156): Correctly rounded 2 to the power of each element. -/
  | vfexp2 (f : Op64)
  /-- VFLOG2 (R156): Correctly rounded base-2 logarithm. -/
  | vflog2 (f : Op64)
  /-- VFTANH (R156): Correctly rounded hyperbolic tangent. -/
  | vftanh (f : Op64)
  /-- VFMIN (R155): Floating-point minimum, number-preferring or NaN-propagating. -/
  | vfmin (f : Op64)
  /-- VFMAX (R155): Floating-point maximum, number-preferring or NaN-propagating. -/
  | vfmax (f : Op64)
  /-- VFCMP (R158): Compares floating-point rows and writes one mask bit per column. -/
  | vfcmp (f : Op64)
  /-- VFCLASS (R157): Writes the class code of each element. -/
  | vfclass (f : Op64)
  /-- VFSGNJ (R155): Magnitude of a with the sign of b. -/
  | vfsgnj (f : Op64)
  /-- VFSGNJN (R155): Magnitude of a with the inverted sign of b. -/
  | vfsgnjn (f : Op64)
  /-- VFSGNJX (R155): Magnitude of a with the XOR of both signs. -/
  | vfsgnjx (f : Op64)
  /-- VCVT (R161): Converts each element to the destination type. -/
  | vcvt (f : Op64)
  /-- VQUANT (R164): Quantises a float group into q4 or scaled FP8 and writes the block scale bytes. -/
  | vquant (f : Op64)
  /-- VDEQ (R165): Converts a block-scaled group into floats. -/
  | vdeq (f : Op64)
  /-- VNARROW (R162): Converts to a type of half width, packing rows. -/
  | vnarrow (f : Op64)
  /-- VWIDEN (R162): Converts to a type of twice the width, spreading rows. -/
  | vwiden (f : Op64)
  /-- VLD (R191): Loads a group from unit-stride addresses, element by element. -/
  | vld (f : Op64)
  /-- VLDS (R191): Loads a group with an element stride. -/
  | vlds (f : Op64)
  /-- VLDX (R191): Loads a group through an index group. -/
  | vldx (f : Op64)
  /-- VLDR (R191): Loads a group with a row stride. -/
  | vldr (f : Op64)
  /-- VST (R192): Stores a group to unit-stride addresses. -/
  | vst (f : Op64)
  /-- VSTS (R192): Stores a group with an element stride. -/
  | vsts (f : Op64)
  /-- VSTX (R192): Stores a group through an index group. -/
  | vstx (f : Op64)
  /-- VSTR (R192): Stores a group with a row stride. -/
  | vstr (f : Op64)
  /-- VGLD (R197): Gathers at the home slices and sets a link per line. -/
  | vgld (f : Op64)
  /-- VSCC (R198): Scatters conditionally per line on held links and writes a result mask. -/
  | vscc (f : Op64)
  /-- VLDK (R195): Loads scale bytes of a group into a scale register. -/
  | vldk (f : Op64)
  /-- VSTK (R195): Stores scale bytes of a scale register to memory. -/
  | vstk (f : Op64)
  /-- VAMO (R196): Performs one read-modify-write per active element at home, optionally returning old values. -/
  | vamo (f : Op64)
  /-- VLDFF (R194): Loads unit-stride, trimming vl at the first faulting element instead of trapping. -/
  | vldff (f : Op64)
  /-- VPERM (R168): Gathers elements within each row by an index group. -/
  | vperm (f : Op64)
  /-- VSLUP (R169): Slides every row up by a distance with a fill policy. -/
  | vslup (f : Op64)
  /-- VSLDN (R169): Slides every row down by a distance with a fill policy. -/
  | vsldn (f : Op64)
  /-- VRESHAPE (R170): Writes the transpose of the group viewed as rows of L elements. -/
  | vreshape (f : Op64)
  /-- VCOMPR (R171): Packs active columns of every row. -/
  | vcompr (f : Op64)
  /-- VEXPND (R171): Unpacks into active columns of every row. -/
  | vexpnd (f : Op64)
  /-- VRED (R172): Reduces a group with an initial value through the fixed tree. -/
  | vred (f : Op64)
  /-- VREDX (R173): Finds an extreme value and its lowest element index. -/
  | vredx (f : Op64)
  /-- VSCAN (R174): Writes running reductions, inclusive or exclusive, optionally segmented. -/
  | vscan (f : Op64)
  /-- VEXT (R175): Reads one element of a group into a scalar register. -/
  | vext (f : Op64)
  /-- VSORTK (R176): Stably sorts active keys and writes their source indices. -/
  | vsortk (f : Op64)
  /-- VMV (R177): Copies active elements of a group. -/
  | vmv (f : Op64)
  /-- VMV_ROW (R177): Copies whole rows, tail and poison marks included. -/
  | vmvRow (f : Op64)
  /-- MLOG (R180): Combines two mask registers bitwise by a truth table. -/
  | mlog (f : Op64)
  /-- MPOPC (R181): Counts set mask bits below vl into a scalar register. -/
  | mpopc (f : Op64)
  /-- MFIRST (R181): Writes the lowest set mask column below vl, or -1. -/
  | mfirst (f : Op64)
  /-- MPUSH (R179): Pushes the current top ANDed with a mask onto the mask stack. -/
  | mpush (f : Op64)
  /-- MINV (R179): Replaces the top of the mask stack with the entry below AND NOT the top. -/
  | minv (f : Op64)
  /-- MPOP (R179): Pops the top of the mask stack. -/
  | mpop (f : Op64)
  /-- BEMPTY (R182): Branches when no column below vl of the top mask is set. -/
  | bempty (f : Op64)
  /-- BANY (R182): Branches when any column below vl of the top mask is set. -/
  | bany (f : Op64)
  /-- MSET (R180): Sets, clears, or sets the first g[vs1] columns of a mask register. -/
  | mset (f : Op64)
  /-- PMRD (R183): Reads the context's poison column mask into a mask register. -/
  | pmrd (f : Op64)
  /-- PMCLR (R183): Clears the poison mask and the poison-row bitmap. -/
  | pmclr (f : Op64)
  /-- MSHAPE (R235): Sets the context's shape register N. -/
  | mshape (f : Op64)
  /-- WLD (R236): Loads a weight image into the shadow plane of a forme. -/
  | wld (f : Op64)
  /-- WSWAP (R239): Exchanges the active and shadow planes of a forme. -/
  | wswap (f : Op64)
  /-- MMA (R240): Streams group rows through the array and accumulates into tile rows. -/
  | mma (f : Op64)
  /-- MMAT (R240): Multiply-accumulates against the transposed forme plane. -/
  | mmat (f : Op64)
  /-- MZERO (R244): Zeroes tile rows or a whole tile. -/
  | mzero (f : Op64)
  /-- TMV (R243): Moves tile rows into a vector group with conversion. -/
  | tmv (f : Op64)
  /-- TCOL (R243): Moves tile columns into a vector group with conversion. -/
  | tcol (f : Op64)
  /-- TLD (R243): Loads vector rows into tile rows as FP32. -/
  | tld (f : Op64)
  /-- CPY (R219): Queues a copy chain with a completion object after the fork write-backs. -/
  | cpy (f : Op64)
  /-- EVCFG_CNT (R216): Writes a chase counter configuration. -/
  | evcfgCnt (f : Op64)
  /-- EVCFG_TERM (R216): Writes a chase term configuration, placing a hold for queue actions. -/
  | evcfgTerm (f : Op64)
  /-- EVPULSE (R214): Raises a pulse line once earlier entries of its queue have retired. -/
  | evpulse (f : Op64)
  /-- TKWAIT (R213): Pops a token from the named FIFO and retires. -/
  | tkwait (f : Op64)
  /-- TKPUSH (R213): Pushes a token to the named FIFO once earlier entries have retired. -/
  | tkpush (f : Op64)
  /-- WAITC (R226): Stalls until a completion word reaches a value, then acquires at the scope. -/
  | waitc (f : Op64)
  /-- VFENCE (R257): Fences masked classes within the vector queue at a scope. -/
  | vfence (f : Op64)
  /-- NMOP_ADAMW (R366): Starts an AdamW optimiser step over MS arrays as an engine thread. -/
  | nmopAdamw (f : Op64)
  /-- NMOP_SGDM (R366): Starts an SGD-with-momentum step over MS arrays. -/
  | nmopSgdm (f : Op64)
  /-- NMOP_SCADD (R366): Starts a scale-and-add step over MS arrays. -/
  | nmopScadd (f : Op64)
  /-- NMOP_CLR (R366): Starts a clear of an MS parameter array. -/
  | nmopClr (f : Op64)
  /-- NMFEN (R367): Stalls until earlier posted operations of covered scope have performed at home. -/
  | nmfen (f : Op64)
  /-- COLL (R410): Checks a collective loop-nest record and starts it on the die's collective engine. -/
  | coll (f : Op64)
  /-- DREG (R266): Reads a region descriptor and enters it in the region table. -/
  | dreg (f : Op64)
  /-- DUNREG (R267): Frees a region table entry after accesses using it perform. -/
  | dunreg (f : Op64)
  /-- DMODE_OFF (R268): Drains region accesses and sets mode OFF. -/
  | dmodeOff (f : Op64)
  /-- DMODE_FWD (R268): Drains region accesses and sets mode FWD. -/
  | dmodeFwd (f : Op64)
  /-- DMODE_REV (R268): Drains region accesses and sets mode REV. -/
  | dmodeRev (f : Op64)
  /-- GALSET (R276): Sets the galley base, pointer and limit, or extends the limit. -/
  | galset (f : Op64)
  /-- GALMARK (R276): Pushes a galley marker and returns its address. -/
  | galmark (f : Op64)
  /-- GALCUT (R276): Cuts the galley back to a marker, discarding entries. -/
  | galcut (f : Op64)
  /-- ADJLD (R277): Reads adjoint cells of consecutive primal elements into a group. -/
  | adjld (f : Op64)
  /-- ADJCLR (R277): Clears adjoint cells of consecutive primal elements as posted stores. -/
  | adjclr (f : Op64)
  /-- PWB (R373): Posts write-backs of dirty durable lines in a range toward the persist buffer. -/
  | pwb (f : Op64)
  /-- RSEND (R403): Claims the next channel slot and sends a group into it at a remote device. -/
  | rsend (f : Op64)
  /-- RRECV (R404): Loads a received slot into a group after checking its header. -/
  | rrecv (f : Op64)
  /-- RREDST (R406): Adds a group into a remote array as reduction stores. -/
  | rredst (f : Op64)
  /-- RSLOT (R405): Releases the oldest received slot and sends a slot-release notice. -/
  | rslot (f : Op64)
  /-- RPOLL (R405): Reads a channel's head word with acquire into a scalar register. -/
  | rpoll (f : Op64)
  /-- CTXSV (R292): Writes the context block with trap, vector control and queue state. -/
  | ctxsv (f : Op64)
  /-- CTXRS (R292): Checks and restores a context block, replacing the parked entries. -/
  | ctxrs (f : Op64)
  /-- TLBINV (R351): Drops TLB and walk-cache entries of an asid range in a scope. -/
  | tlbinv (f : Op64)
  /-- TRAP (R126): Raises SYSCALL at the current PC. -/
  | sysTrap
  /-- TRET (R288): Returns from a trap to the level in tcause.plev and resumes the front end, releasing parked entries when returning to U. -/
  | tret
  /-- BRK (R126): Raises BREAK at the current PC. -/
  | brk
  /-- SNAP (R126): Fires the common snapshot trigger. -/
  | snap
  /-- WFE (R127): Suspends issue until the context's event latch is set, then clears it. -/
  | wfe
  /-- EXIT (R132): Ends the record, dropping its barriers, freeing rows and decrementing its quad's launch count. -/
  | exitRecord
  /-- YIELD (R133): Queues a continuation at PC+4 and ends the context without join or barrier effects. -/
  | yieldRecord
  /-- WAITC_RECHECK (R226): Re-reads a waited word on a release to its line or every 1,024 cycles. -/
  | waitcRecheck
  /-- VQDRAIN (R291): Lets parked entries issue in program order until blocked. -/
  | vqdrain
  /-- NMOP_ELEMENT (R366): A base-die unit applies the optimiser update to one element. -/
  | nmopElement
  /-- NMOP_COMPLETION (R366): After all element writes perform, the completion object is incremented with a release. -/
  | nmopCompletion
  /-- COLL_TRANSFER (R412): Performs one collective transfer after its counter wait, to a peer. -/
  | collTransfer
  /-- GALLEY_SPILL (R271): The copy engine spills older galley-buffer entries to memory. -/
  | galleySpill
  /-- PSYNC (R374): Stalls until covered durable writes are accepted by the persist buffer. -/
  | psync
  /-- RFEN (R407): Waits for earlier remote operations and raises VIOL for refusals. -/
  | rfen
  /-- TALLOT_WRITE (R232): Writing tallot waits for affected entries and clears reallocated tiles. -/
  | tallotWrite
  /-- WALLOT_WRITE (R232): Writing wallot waits for affected entries and empties reallocated formes. -/
  | wallotWrite
  /-- VCSR_WRITE (R101): An access to vcsr waits for earlier vector and matrix instructions and updates modes and flags. -/
  | vcsrWrite
  /-- CONTROL_SPACE_WRITE (R340): A level-F write to a control-space register that has no row of its own. -/
  | controlSpaceWrite
  /-- TERM_FIRE (R215): An armed chase term fires 3 cycles after becoming true and performs its action. -/
  | termFire
  /-- COPY (R222): A chain entry copies up to three dimensions of elements. -/
  | chainCopy
  /-- GATHER (R222): A chain entry copies indexed rows. -/
  | chainGather
  /-- LOOP (R223): A chain entry repeats a body of earlier entries. -/
  | chainLoop
  /-- IFZ (R224): A chain entry skips the next n entries when a word is zero. -/
  | chainIfz
  /-- TOKEN (R224): A chain entry pushes a token to cv or cm. -/
  | chainToken
  /-- PULSE (R224): A chain entry raises a pulse line of the issuing context. -/
  | chainPulse
  /-- WAITW (R224): A chain entry waits until a word reaches a value, then acquires. -/
  | chainWaitw
  /-- END (R224): A chain entry increments the completion object with a release and ends the chain. -/
  | chainEnd
  /-- RETIREMENT_TRACKER_FREE (R227): An exited record's traffic has performed at home; its tracker entry frees and its join decrement runs. -/
  | retirementTrackerFree
  /-- DRAINING_END (R227): A draining context's durable and remote traffic is acknowledged and the context becomes free. -/
  | drainingEnd
  /-- POSTED_OPERATION (R363): A posted atomic, reduction store or adjoint operation performs at its home. -/
  | postedOperation
  /-- HOME_UNIT_OPERATION (R361): A base-die unit executes an arriving operation whole in arrival order. -/
  | homeUnitOperation
  /-- TRAP_DELIVERY (R283): After older entries complete, parks younger entries, writes trap registers and enters the handler at S. -/
  | trapDelivery
  /-- RECORD_POP (R330): An idle context selects and starts a record under the pop order and affinity. -/
  | recordPop
  /-- RECORD_KILL (R336): Kills a running record, breaking its barriers and draining it. -/
  | recordKill
  /-- PREEMPT_SIGNAL (R337): After 1,024 pops a waiting record's controller signals a lower-priority victim. -/
  | preemptSignal
  /-- PREEMPT_TIMEOUT (R289): A context that neither exits nor yields 2^22 cycles after PREEMPT is killed. -/
  | preemptTimeout
  /-- WFE_TIMEOUT (R127): 65,536 cycles without an event set the event latch. -/
  | wfeTimeout
  /-- BOUNDARY_INTERVAL (R318): At the end of a 2^20-cycle interval the quad decides whether to move its boundary. -/
  | boundaryInterval
  /-- BOUNDARY_MOVE (R317): Moves the quad store boundary one bank, writing back and filling lines. -/
  | boundaryMove
  /-- LAUNCH (R332): A launch frame's descriptor is written to the ring and the launch is admitted or refused. -/
  | launch
  /-- KICK (R417): A kick frame admits a host queue's ring entries up to a new tail. -/
  | kick
  /-- ROOT_QUEUE (R333): Once its dependences complete, a launch's root record is queued. -/
  | rootQueue
  /-- COUNTER_REPORT (R334): A quad or die with no record of a launch present passes its count upward. -/
  | counterReport
  /-- DIE_CONFIRM (R334): A die confirms to the hub that no record of a launch is present below it. -/
  | dieConfirm
  /-- LAUNCH_COMPLETE (R335): Writes back, releases stores and barriers, and sends the completion with its status word. -/
  | launchComplete
  /-- CONTROLLER_TAKEOVER (R338): The standby controller reads the journal, rescans kicks and reconciles after the active one fails. -/
  | controllerTakeover
  /-- WRITE (R418): A host write frame writes data at a VA under the queue's asid. -/
  | hostWrite
  /-- READ (R418): A host read frame reads up to 8,192 bytes and returns a read response. -/
  | hostRead
  /-- ACKNOWLEDGEMENT (R416): A host acknowledgement frame stops retransmission of a device frame. -/
  | acknowledgement
  /-- FRAME_RETRANSMIT (R416): An unacknowledged device frame is resent every 100 µs, up to 64 times. -/
  | frameRetransmit
  /-- IMAGE (R382): An image frame delivers firmware image bytes in WAIT. -/
  | imageFrame
  /-- BOOT_ROM (R382): At power-up the hub self-tests, reads fuses and holds the dies in reset. -/
  | bootRom
  /-- BOOT_STATUS (R382): Every 100 ms in WAIT the hub sends a boot status frame. -/
  | bootStatus
  /-- VERIFY (R383): Once a whole image has arrived, checks its header, svn, key hash and signature. -/
  | verifyImage
  /-- ATTESTATION (R386): Signs a nonce, measurement, errata, svn and persist status under the identity key. -/
  | attestation
  /-- SNAPSHOT_FRAME (R299): A host snapshot frame fires the snapshot trigger. -/
  | snapshotFrame
  /-- DVFS (R387): A management request writes a die's step request word. -/
  | dvfs
  /-- POWER_LIMIT (R388): A management request sets the package power limit. -/
  | powerLimit
  /-- QUAD_BOUNDARY (R319): A management request writes pin and pbnd of a quad's qcfg. -/
  | quadBoundary
  /-- PRE_EMPTION_MASK (R337): A management request sets the expert pre-emption mask. -/
  | preEmptionMask
  /-- DRAIN_SHARE (R380): A management request sets the durable drain share. -/
  | drainShare
  /-- CONFIRM_VERSION (R383): A management request raises the fused minimum svn. -/
  | confirmVersion
  /-- RETEST (R298): A management request returns a withdrawn core to test. -/
  | retest
  /-- SNAPSHOT (R299): A management request fires the trigger and returns snapshot registers. -/
  | snapshotRequest
  /-- LOGS (R300): A management request reads and clears the violation logs. -/
  | logsRequest
  /-- QUEUE_SETUP (R417): A management request sets a host queue's asid, ring base and size. -/
  | queueSetup
  /-- POD_JOIN (R396): A management request sets the pod dimensions and coordinates. -/
  | podJoin
  /-- LINK_PIN (R398): A management request writes thr, pin and prate of a port's lnkcfg. -/
  | linkPin
  /-- POD_BARRIER_RESET (R409): A management request returns a broken pod barrier to Idle on every hub. -/
  | podBarrierReset
  /-- GOVERNOR_STEP (R387): The governor changes a die's clock step, stalling issue up to 2 µs. -/
  | governorStep
  /-- THERMAL_THROTTLE (R388): At 105 °C the governor lowers the hot die's step. -/
  | thermalThrottle
  /-- THERMAL_SHUTDOWN (R388): At 115 °C firmware makes an orderly power-down and removes power. -/
  | thermalShutdown
  /-- POWER_LOSS (R377): The hub stops accepting persist writes within 1 µs and hold-up drains the buffer. -/
  | powerLoss
  /-- PERSIST_ACCEPT (R372): The persist buffer accepts one whole write to a durable line. -/
  | persistAccept
  /-- PERSIST_DRAIN (R372): The persist buffer drains held lines into the durable stacks. -/
  | persistDrain
  /-- UNCORRECTABLE_ERROR (R295): An uncorrectable memory error marks its granule with the poison code. -/
  | uncorrectableError
  /-- DIE_LINK_FAILURE (R359): A failed die link is rerouted through a third die. -/
  | dieLinkFailure
  /-- HUB_LINK_FAILURE (R359): A die whose hub link fails is withdrawn. -/
  | hubLinkFailure
  /-- FLIT_REPLAY (R397): An uncorrectable flit is resent from the replay buffer. -/
  | flitReplay
  /-- LINK_STEP_DOWN (R398): After 2^20 flits below margin a port steps down one rate. -/
  | linkStepDown
  /-- LINK_STEP_UP (R398): After 2^32 flits above twice the margin a port steps up one rate. -/
  | linkStepUp
  /-- LINK_DOWN (R399): A failed link is announced pod-wide and traffic reroutes around the ring. -/
  | linkDown
  /-- DEVICE_FAILURE (R399): A failed device makes packets beyond it refused and breaks its pod barriers. -/
  | deviceFailure
  /-- SLOT_WRITE (R403): The receiving hub writes a slot's rows, scales and info, then seq with a release. -/
  | slotWrite
  /-- REMOTE_REDUCE (R406): The receiving hub adds each active element of a reduce packet at its home. -/
  | remoteReduce
  /-- SLOT_RELEASE_NOTICE (R405): The sender's hub writes a new head into the channel descriptor as a release. -/
  | slotReleaseNotice
  /-- REMOTE_ACKNOWLEDGEMENT (R407): An acknowledgement or refusal of a remote operation returns to the sender. -/
  | remoteAcknowledgement
  /-- POD_BARRIER_ARRIVAL (R409): A pod barrier arrival message updates every hub's copy of the barrier. -/
  | podBarrierArrival
  /-- RECORD_TRANSIT_ARRIVAL (R326): A record sent over the die link arrives at its target die and is accepted into its target queue in arrival order. -/
  | recordTransitArrival
  /-- COLL_TRANSFER_AT_PEER (R412): A collective transfer arriving at a peer device writes or adds its elements at d and then increments rctr with a package-scope release. -/
  | collTransferAtPeer
  /-- HOST_ABORT (R336): The host aborts a launch, killing its running records and removing its queued ones, with kwhy 4. -/
  | hostAbort
  deriving DecidableEq, Repr

end Sys2Proof
end

