-- ==== Sys2Proof/Machine/Encoding.lean ====
section
/-! DEFINITION. The field tables of the 64-bit majors (R57-R64) and the static checks that they give (R68 check 2). -/

namespace Sys2Proof.Machine

/-- The operand codes of R57. `any` is a field whose bits are all used. -/
inductive Opnd where
  | none | gpr | mask | tile | forme | scale | group | any
  deriving DecidableEq, Repr

/-- How a major uses cls4: not at all, as a type override (R34), or as an ordering class. -/
inductive ClsUse where
  | zero | type | order
  deriving DecidableEq, Repr

/-- How a major uses mod12: not at all, as a source modifier (R37), as a tile offset (R63), or as mask bits (R257). -/
inductive ModUse where
  | zero | source | tile | mask
  deriving DecidableEq, Repr

/-- Which prefix a major takes: none, one whose fields are all zero (R136), or one with `pol` and `rm` used as given. -/
inductive PfxUse where
  | never | blank | fields (pol rm : Bool)
  deriving DecidableEq, Repr

/-- One row of the tables R58 to R64. -/
structure Shape where
  /-- The listed values of fn3. -/
  fn3 : List Nat := [0]
  /-- The reason of an unlisted fn3: 2, or 3 where the rule says that the field must be zero. -/
  fn3Reason : Nat := 2
  /-- The listed values of fn4. -/
  fn4 : List Nat := [0]
  /-- The reason of an unlisted fn4: 2, or 3 where the rule says that the field must be zero (R58, R213, R219, R400). -/
  fn4Reason : Nat := 2
  /-- The table gives fn4[1:0] alone, and fn4[3:2] must be 0 (R60). -/
  fn4Low : Bool := false
  vd : Opnd := .none
  vs1 : Opnd := .none
  vs2 : Opnd := .none
  /-- vs1 is x of R57: fixed by the form of R32. -/
  vs1x : Bool := false
  cls : ClsUse := .zero
  mod : ModUse := .zero
  dt : Bool := false
  /-- vs1 is a group that is read, so that c1 and the prefix's mod1 may be set. -/
  c1 : Bool := false
  tok : Bool := true
  pfx : PfxUse := .never

/-- Scope codes 0 to 6 (R9). -/
def scopes : List Nat := [0, 1, 2, 3, 4, 5, 6]

/-- An integer row of R58: its forms, fn4 values and vd. -/
def intShape (forms fn4 : List Nat) (vd : Opnd := .group) : Shape :=
  { fn3 := forms, fn4 := fn4, fn4Reason := if fn4 = [0] then 3 else 2, vd := vd, vs1 := .group, vs1x := true, vs2 := .group,
    cls := .type, mod := .source, dt := decide (vd = .group), c1 := true, pfx := .fields true false }

/-- A row of one group operand (vs2) and a group destination. -/
def unShape (fn4 : List Nat) (rm : Bool) : Shape :=
  { fn4 := fn4, vd := .group, vs2 := .group, cls := .type, mod := .source, dt := true, pfx := .fields true rm }

/-- A floating-point row of R59 with the forms VV and VX. -/
def fpShape (fn4 : List Nat) (vd : Opnd := .group) : Shape :=
  { fn3 := [0, 1], fn4 := fn4, vd := vd, vs1 := .group, vs1x := true, vs2 := .group, cls := .type, mod := .source,
    dt := decide (vd = .group), c1 := true, pfx := .fields true true }

/-- A vector memory row of R60. -/
def memShape (fn4 : List Nat) (vs2 : Opnd) (dt : Bool) : Shape :=
  { fn3 := scopes, fn4 := fn4, fn4Low := decide (fn4.length = 2), vd := .group, vs1 := .gpr, vs2 := vs2, cls := .order, dt := dt, pfx := .fields true false }

/-- A mask row of R62. -/
def maskShape (fn4 : List Nat) (vd vs1 vs2 : Opnd) : Shape :=
  { fn4 := fn4, vd := vd, vs1 := vs1, vs2 := vs2, tok := false }

/-- A row of R64 or R136 without tokens. -/
def sysShape (vd vs1 vs2 : Opnd) : Shape := { vd := vd, vs1 := vs1, vs2 := vs2, tok := false }

/-- The row of a 64-bit major, or none for a reserved one (R58-R64). -/
def shape (major : Nat) : Option Shape :=
  if major ≤ 0x05 then
    let b : Shape := { fn4Reason := 3, tok := false, pfx := .blank }
    match major with
    | 0x00 => some { b with vd := .gpr, vs1 := .gpr }
    | 0x01 => some { b with fn3 := [0, 2], vs1 := .gpr }
    | 0x02 => some { b with fn4 := [0, 1], fn4Reason := 2, vs1 := .gpr }
    | 0x03 => some { b with vd := .gpr }
    | 0x04 => some { b with vs1 := .any }
    | _ => some { b with fn4 := [0, 1, 2, 3], fn4Reason := 2, vd := .gpr }
  else if major < 0x08 then none
  else if major ≤ 0x2B then
    match major with
    | 0x1E => some (intShape [0, 1, 2] [0, 1])
    | 0x23 => some (intShape [0] [0, 1, 2])
    | 0x24 | 0x25 | 0x26 => some { unShape [0] false with fn4Reason := 3 }
    | 0x27 => some (intShape [0, 1] [0])
    | 0x28 => some (intShape [0, 1, 2] [0, 1, 2, 3, 4, 5, 6, 7, 8, 9] .mask)
    | 0x2A => some { intShape [1, 2] [0] with vs2 := .none, mod := .zero, c1 := false }
    | 0x2B => some { unShape [0, 1] false with vs2 := .none, mod := .zero }
    | _ => some (intShape [0, 1, 2] [0])
  else if major < 0x30 then none
  else if major ≤ 0x40 then
    match major with
    | 0x36 | 0x37 | 0x38 | 0x39 | 0x3A | 0x3B | 0x3F => some (unShape [0] true)
    | 0x3C | 0x3D => some (fpShape [0, 1])
    | 0x3E => some (fpShape [0, 1, 2, 3, 4, 5, 6, 7] .mask)
    | 0x40 => some (fpShape [0, 1, 2])
    | _ => some (fpShape [0])
  else if major < 0x50 then none
  else if major ≤ 0x57 then
    match major with
    | 0x50 => some (unShape [1, 2, 3, 4, 5, 6, 7, 8, 9, 10, 11, 12, 13, 14] true)
    | 0x51 => some (unShape [0, 1, 2, 3, 4, 5, 6] true)
    | 0x52 => some { unShape [9, 10, 11] true with cls := .zero }
    | 0x53 | 0x54 => some (unShape [1, 2, 3, 4, 5, 6, 7, 8, 9, 10, 11, 12, 13] true)
    | _ => none
  else if major ≤ 0x6F then
    match major with
    | 0x58 | 0x65 => some (memShape [0, 1] .none true)
    | 0x59 | 0x5B => some (memShape [0, 1] .gpr true)
    | 0x5A => some (memShape [0, 1] .group true)
    | 0x5C => some (memShape [0, 2] .none false)
    | 0x5D | 0x5F => some (memShape [0, 2] .gpr false)
    | 0x5E => some (memShape [0, 2] .group false)
    | 0x60 => some (memShape [0] .group true)
    | 0x61 => some { memShape [0, 1, 2, 3, 4, 5, 6, 7] .group false with fn4Reason := 3 }
    | 0x62 => some { memShape [0, 1] .none false with vd := .scale, pfx := .never }
    | 0x63 => some { memShape [0, 2] .none false with vd := .scale, pfx := .never }
    | 0x64 => some (memShape [0, 1, 2, 3, 4, 5, 6, 7, 8, 9, 10, 11, 12, 13, 14, 15] .group true)
    | _ => none
  else if major ≤ 0x7F then
    let b : Shape := { vd := .group, vs2 := .group, cls := .type, mod := .source, dt := true, pfx := .fields true false }
    let redOps := [0, 1, 2, 3, 4, 5, 6, 7, 8, 9, 10, 11, 12]
    match major with
    | 0x70 => some { b with vs1 := .group, c1 := true }
    | 0x71 | 0x72 => some { b with fn3 := [1, 2], fn4 := [0, 1, 2], vs1x := true }
    | 0x73 => some { b with fn3 := [1, 2], vs1x := true }
    | 0x74 | 0x75 => some b
    | 0x76 => some { b with fn4 := redOps, vs1 := .group, c1 := true, pfx := .fields true true }
    | 0x77 => some { b with fn4 := [0, 1, 2, 3, 4, 5] }
    | 0x78 => some { b with fn3 := [0, 3, 4, 5], fn4 := redOps, pfx := .fields true true }
    | 0x79 => some { b with fn3 := [1, 2], vd := .gpr, vs1x := true, dt := false, pfx := .never }
    | 0x7A => some { b with fn4 := [0, 1, 2, 8, 9, 10], vs1 := .group }
    | 0x7B => some { b with fn4 := [0, 1] }
    | _ => none
  else if major ≤ 0x8F then
    match major with
    | 0x80 => some (maskShape [0, 1, 2, 3, 4, 5, 6, 7, 8, 9, 10, 11, 12, 13, 14, 15] .mask .mask .mask)
    | 0x81 | 0x82 => some (maskShape [0] .gpr .none .mask)
    | 0x83 => some (maskShape [0] .none .none .mask)
    | 0x84 | 0x85 | 0x8A => some (maskShape [0] .none .none .none)
    | 0x86 | 0x87 => some (maskShape [0] .none .any .none)
    | 0x88 => some (maskShape [0, 1, 2] .mask .none .none)
    | 0x89 => some (maskShape [0] .mask .none .none)
    | _ => none
  else if major ≤ 0x9F then
    match major with
    | 0x90 => some { fn3 := [1], vs1 := .gpr }
    | 0x91 => some { fn4 := [0, 1, 2, 3, 4, 5, 6], vd := .forme, vs1 := .gpr, cls := .order }
    | 0x92 => some { vd := .forme }
    | 0x93 | 0x94 => some { vd := .tile, vs1 := .group, vs2 := .forme, mod := .tile, c1 := true }
    | 0x95 => some { fn4 := [0, 1], vd := .tile, mod := .tile }
    | 0x96 | 0x97 => some { vd := .group, vs1 := .tile, mod := .tile }
    | 0x98 => some { vd := .tile, vs1 := .group, mod := .tile, c1 := true }
    | _ => none
  else
    match major with
    | 0xA0 => some { fn3 := scopes, fn4Reason := 3, vs1 := .gpr, vs2 := .gpr, cls := .order }
    | 0xA1 => some { sysShape .none .gpr .none with
        fn3Reason := 3, fn4 := [0, 1, 2, 3, 4, 5, 6, 7, 8, 9, 10, 11, 12, 13, 14, 15] }
    | 0xA2 => some { sysShape .none .none .none with fn3 := [0, 1, 2], fn4 := [0, 1, 2, 3, 4, 5, 6, 7] }
    | 0xA3 | 0xA4 => some { sysShape .none .none .none with fn3Reason := 3, fn4 := [0, 1, 2, 3, 4, 5] }
    | 0xA5 => some { sysShape .none .gpr .gpr with fn3 := scopes, fn4Reason := 3 }
    | 0xA6 => some { sysShape .none .none .none with
        fn3 := scopes, fn4 := [0, 1, 2, 3, 4, 5, 6, 7, 8, 9, 10, 11, 12, 13, 14, 15], mod := .mask }
    | 0xA7 => some { sysShape .none .none .none with fn3Reason := 3, fn4Reason := 3 }
    | 0xA8 => some { sysShape .none .gpr .gpr with fn3 := scopes, fn4 := [0, 1, 2, 3], cls := .order }
    | 0xA9 => some { sysShape .none .none .none with fn3 := scopes, fn4Reason := 3 }
    | 0xAA => some { sysShape .none .gpr .gpr with fn3 := scopes, fn4Reason := 3, cls := .order }
    | 0xB0 => some (sysShape .gpr .gpr .none)
    | 0xB1 => some (sysShape .none .gpr .none)
    | 0xB2 => some { sysShape .none .none .none with fn3Reason := 3, fn4 := [0, 1, 2] }
    | 0xB3 => some { sysShape .none .gpr .gpr with fn3Reason := 3, fn4Reason := 3 }
    | 0xB4 => some { sysShape .gpr .none .none with fn3Reason := 3, fn4Reason := 3 }
    | 0xB5 => some { sysShape .none .gpr .none with fn3Reason := 3, fn4Reason := 3 }
    | 0xB6 => some { sysShape .group .gpr .none with fn3 := scopes, cls := .order }
    | 0xB7 => some { sysShape .none .gpr .none with fn3 := scopes, cls := .order }
    | 0xB8 => some { sysShape .none .gpr .gpr with cls := .order }
    | 0xB9 => some { sysShape .none .none .none with fn3Reason := 3, fn4Reason := 3 }
    | 0xC0 | 0xC2 => some { sysShape .none .gpr .group with fn3 := scopes, fn4Reason := 3, cls := .order }
    | 0xC1 => some { sysShape .group .gpr .none with fn4Reason := 3, cls := .order }
    | 0xC3 => some { sysShape .none .gpr .none with fn4Reason := 3 }
    | 0xC4 => some { sysShape .none .none .none with fn4Reason := 3 }
    | 0xC5 => some { sysShape .gpr .gpr .none with fn4Reason := 3 }
    | 0xC8 | 0xC9 => some { sysShape .none .gpr .none with fn3Reason := 3, fn4Reason := 3 }
    | 0xCA => some { sysShape .gpr .gpr .gpr with fn3 := scopes }
    | _ => none

/-- The operand code of vs1 in force: x of R32, the image of R138, the segment mask of R174, the count of R180. -/
def vs1Opnd (major : Nat) (sh : Shape) (f : Op64) : Opnd :=
  if sh.vs1x then
    match f.fn3.toNat with
    | 0 => .group
    | 1 => .gpr
    | _ => .any
  else if major = 0x01 then (if f.fn3 = 2 then .any else .gpr)
  else if major = 0x78 then (if f.fn3 = 3 ∨ f.fn3 = 5 then .mask else .none)
  else if major = 0x88 then (if f.fn4 = 2 then .gpr else .none)
  else sh.vs1

/-- True when an operand field has only the bits that its code allows (R57). -/
def opndOk (k : Opnd) (v : BitVec 8) : Bool :=
  match k with
  | .none => v == 0
  | .gpr => v.toNat < 32
  | .mask | .tile | .forme => v.toNat < 8
  | .scale => v.toNat < 16
  | .group | .any => true

/-- The vs2 field: bit 15 of a `vtype` image is 0 (R138), and a branch has bits [33:31] 0 (R30). -/
def vs2Ok (major : Nat) (sh : Shape) (f : Op64) : Bool :=
  if major = 0x01 ∧ f.fn3 = 2 then f.vs2.toNat < 128
  else if major = 0x04 ∨ major = 0x86 ∨ major = 0x87 then f.vs2.toNat < 32
  else opndOk sh.vs2 f.vs2

/-- A source modifier that keeps the field rules of R37. -/
def modOk (m : BitVec 12) : Bool :=
  let cls := bitsOf 11 10 m.toNat
  let seg := bitsOf 9 7 m.toNat
  let d := bitsOf 6 2 m.toNat
  if cls = 0 then m == 0
  else decide (seg ≤ 4) && decide (d < 2 ^ (seg + 1)) && decide (bitsOf 1 0 m.toNat = 0)

/-- fn3 is restricted further on the plain vector memory forms (R60, R187). -/
def memFn3Ok (major : Nat) (f : Op64) : Bool :=
  if 0x58 ≤ major ∧ major ≤ 0x65 ∧ major ≠ 0x60 ∧ major ≠ 0x61 ∧ major ≠ 0x64 then
    f.fn4.toNat % 4 != 0 || f.fn3 == 0
  else true

/-- fn4 is a value that the row lists, up to the bits that must be 0. -/
def fn4Listed (sh : Shape) (f : Op64) : Bool :=
  decide ((if sh.fn4Low then f.fn4.toNat % 4 else f.fn4.toNat) ∈ sh.fn4)

/-- The prefix's rm is used: by the instructions that round, of the reductions and scans the float sum alone (R36, R172). -/
def rmUsed (major : Nat) (f : Op64) : Bool := !(major == 0x76 || major == 0x78) || f.fn4 == 8

/-- c1 may be set only where vs1 is a group that is read (R57, R32). -/
def c1Used (major : Nat) (sh : Shape) (f : Op64) : Bool :=
  sh.c1 && vs1Opnd major sh f == .group

/-- dt may be set only with a vector destination; a return-free `vamo` has none (R33, R187). DESIGN CHOICE: `adjld`, of which the
spec says nothing here, takes no dt. -/
def dtUsed (major : Nat) (sh : Shape) (f : Op64) : Bool :=
  sh.dt && !(major == 0x64 && decide (8 ≤ f.fn4.toNat))

/-- True when the prefix can stand before the instruction and every field that it does not use is zero (R27, R36). -/
def pairOk (major : Nat) (sh : Shape) (f : Op64) (p : Pfx) : Bool :=
  match (if major = 0x7B ∧ f.fn4 = 1 then PfxUse.never else sh.pfx) with
  | .never => false
  | .blank => p == ⟨0, 0, 0, 0, 0, 0⟩
  | .fields pol rm =>
    (pol || p.pol == 0) && (rm && rmUsed major f || p.rm == 0) && p.vs3 == 0 && (p.me == 1 || p.m == 0) && (c1Used major sh f || p.mod1 == 0)

/-- A field value that no table lists (R68 check 2, reason 2; some must-be-zero fields of fn3 and fn4 are reason 3). DESIGN CHOICE: tkpop
or tkpush of 11 on majors 0x00 to 0x05 is reason 3 (R136), not the reason 2 that R35 gives a vector major. -/
def listed (major : Nat) (sh : Shape) (f : Op64) : Bool :=
  (decide (f.fn3.toNat ∈ sh.fn3) || decide (sh.fn3Reason = 3)) && memFn3Ok major f &&
  (fn4Listed sh f || decide (sh.fn4Reason = 3)) &&
  !(sh.tok && (f.tkpush == 3 || f.tkpop == 3)) &&
  !(decide (sh.cls = .type) && f.cls4 == 15) &&
  !(match f.pfx with | some p => p.rm == 7 | none => false)

/-- No must-be-zero field is nonzero (R68 check 2, reason 3). -/
def zerosOk (major : Nat) (sh : Shape) (f : Op64) : Bool :=
  decide (f.fn3.toNat ∈ sh.fn3) && decide (f.fn4.toNat ∈ sh.fn4) &&
  opndOk sh.vd f.vd && opndOk (vs1Opnd major sh f) f.vs1 && vs2Ok major sh f &&
  (sh.tok || (f.tkpush == 0 && f.tkpop == 0)) &&
  (decide (sh.cls ≠ .zero) || f.cls4 == 0) &&
  (match sh.mod with
    | .zero => f.mod12 == 0
    | .source | .mask => true
    | .tile => decide (f.mod12.toNat < 128) && !(major == 0x95 && f.fn4 == 1 && f.mod12 != 0)) &&
  (f.dt == 0 || dtUsed major sh f) && (f.c2 == 0 || decide (sh.vs2 = .group)) && (f.c1 == 0 || c1Used major sh f)

/-- The field rules of both modifiers (R37, reason 7). -/
def modsOk (sh : Shape) (f : Op64) : Bool :=
  (decide (sh.mod ≠ .source) || modOk f.mod12) && (match f.pfx with | some p => modOk p.mod1 | none => true)

/-- The static checks of R68 on a 64-bit instruction, in its order: the reason of R69, or none. -/
def static64 (major : Nat) (f : Op64) : Option Nat :=
  if f.pfx.isSome ∧ 0x90 ≤ major then some 4
  else match shape major with
    | none => some 1
    | some sh =>
      if (match f.pfx with | some p => !(pairOk major sh f p) | none => false) then some 4
      else if !(listed major sh f) then some 2
      else if !(zerosOk major sh f) then some 3
      else if !(modsOk sh f) then some 7
      else none

end Sys2Proof.Machine
end

