-- ==== Sys2Proof/WellFormed.lean ====
section
/-! DEFINITION. Which instructions are well formed: those that some listed encoding stands for (R51-R64). -/

namespace Sys2Proof

/-- A 64-bit instruction passes every static check (R68 check 2). -/
def op64Ok (major : Nat) (f : Op64) : Bool := (Machine.static64 major f).isNone

/-- True for an instruction that has an encoding and for every event. -/
def Instr.wf (i : Instr) : Bool :=
  match i with
  | .add d a b => !(d == 0 && a == 0 && b == 0)
  | .sub _ _ _ => true
  | .and _ _ _ => true
  | .or _ _ _ => true
  | .xor _ _ _ => true
  | .andn _ _ _ => true
  | .sll _ _ _ => true
  | .srl _ _ _ => true
  | .sra _ _ _ => true
  | .slt _ _ _ => true
  | .sltu _ _ _ => true
  | .min _ _ _ => true
  | .max _ _ _ => true
  | .minu _ _ _ => true
  | .maxu _ _ _ => true
  | .mul _ _ _ => true
  | .mulh _ _ _ => true
  | .mulhu _ _ _ => true
  | .div _ _ _ => true
  | .divu _ _ _ => true
  | .rem _ _ _ => true
  | .remu _ _ _ => true
  | .popc _ _ => true
  | .clz _ _ => true
  | .ctz _ _ => true
  | .sext _ _ _ => true
  | .zext _ _ _ => true
  | .bswap _ _ => true
  | .addi _ _ _ => true
  | .andi _ _ _ => true
  | .ori _ _ _ => true
  | .xori _ _ _ => true
  | .slli _ _ _ => true
  | .srli _ _ _ => true
  | .srai _ _ _ => true
  | .slti _ _ _ => true
  | .sltiu _ _ _ => true
  | .lih _ _ => true
  | .pca _ _ => true
  | .jal _ _ => true
  | .jalr _ _ _ => true
  | .calli _ => true
  | .beq _ _ _ => true
  | .bne _ _ _ => true
  | .blt _ _ _ => true
  | .bge _ _ _ => true
  | .bltu _ _ _ => true
  | .bgeu _ _ _ => true
  | .ld _ _ _ _ _ => true
  | .ldz _ _ _ _ _ => true
  | .st _ _ _ _ _ => true
  | .lda _ _ _ _ scope => scope != 7
  | .stl _ _ _ _ scope => scope != 7
  | .amoadd _ _ _ size scope _ => decide (2 ≤ size.toNat) && scope != 7
  | .amoand _ _ _ size scope _ => decide (2 ≤ size.toNat) && scope != 7
  | .amoor _ _ _ size scope _ => decide (2 ≤ size.toNat) && scope != 7
  | .amoxor _ _ _ size scope _ => decide (2 ≤ size.toNat) && scope != 7
  | .amomin _ _ _ size scope _ => decide (2 ≤ size.toNat) && scope != 7
  | .amomax _ _ _ size scope _ => decide (2 ≤ size.toNat) && scope != 7
  | .amominu _ _ _ size scope _ => decide (2 ≤ size.toNat) && scope != 7
  | .amomaxu _ _ _ size scope _ => decide (2 ≤ size.toNat) && scope != 7
  | .amoswap _ _ _ size scope _ => decide (2 ≤ size.toNat) && scope != 7
  | .amofadd _ _ _ scope _ => scope != 7
  | .amosadd _ _ _ size scope _ => decide (2 ≤ size.toNat) && scope != 7
  | .cas _ _ _ size scope _ => decide (2 ≤ size.toNat) && scope != 7
  | .csrr _ _ => true
  | .csrw _ _ _ => true
  | .csrs _ _ _ => true
  | .csrc _ _ _ => true
  | .fadd _ _ _ rm => rm != 7
  | .fsub _ _ _ rm => rm != 7
  | .fmul _ _ _ rm => rm != 7
  | .fdiv _ _ _ rm => rm != 7
  | .fsqrt _ _ rm => rm != 7
  | .fmin _ _ _ => true
  | .fmax _ _ _ => true
  | .fcvtFI _ _ rm => rm != 7
  | .fcvtIF _ _ rm => rm != 7
  | .fcvtFN _ _ rm => rm != 7
  | .fcvtNF _ _ rm => rm != 7
  | .feq _ _ _ => true
  | .flt _ _ _ => true
  | .fle _ _ _ => true
  | .fclass _ _ => true
  | .fsgnj _ _ _ => true
  | .fsgnjn _ _ _ => true
  | .fsgnjx _ _ _ => true
  | .fence scope _ => decide (scope.toNat ≤ 6)
  | .sysTrap => true
  | .tret => true
  | .brk => true
  | .ifence scope => decide (scope.toNat ≤ 6)
  | .snap => true
  | .cyc _ => true
  | .wfe => true
  | .spawn _ _ => true
  | .joindec _ => true
  | .exitRecord => true
  | .yieldRecord => true
  | .barArrive _ _ scope => scope != 0 && decide (scope.toNat < 6)
  | .barWait _ _ scope => scope != 0 && decide (scope.toNat < 6)
  | .barArrwait _ _ scope => scope != 0 && decide (scope.toNat < 6)
  | .barDrop _ _ scope => scope != 0 && decide (scope.toNat < 6)
  | .vsetvl f => op64Ok 0x00 f
  | .vsettype f => op64Ok 0x01 f
  | .vloop f => op64Ok 0x02 f
  | .vstrip f => op64Ok 0x03 f
  | .vnext f => op64Ok 0x04 f
  | .vget f => op64Ok 0x05 f
  | .vadd f => op64Ok 0x08 f
  | .vsub f => op64Ok 0x09 f
  | .vrsub f => op64Ok 0x0A f
  | .vmul f => op64Ok 0x0B f
  | .vmulh f => op64Ok 0x0C f
  | .vmulhu f => op64Ok 0x0D f
  | .vmac f => op64Ok 0x0E f
  | .vdiv f => op64Ok 0x0F f
  | .vdivu f => op64Ok 0x10 f
  | .vrem f => op64Ok 0x11 f
  | .vremu f => op64Ok 0x12 f
  | .vmin f => op64Ok 0x13 f
  | .vmax f => op64Ok 0x14 f
  | .vminu f => op64Ok 0x15 f
  | .vmaxu f => op64Ok 0x16 f
  | .vand f => op64Ok 0x17 f
  | .vor f => op64Ok 0x18 f
  | .vxor f => op64Ok 0x19 f
  | .vandn f => op64Ok 0x1A f
  | .vshl f => op64Ok 0x1B f
  | .vshr f => op64Ok 0x1C f
  | .vsra f => op64Ok 0x1D f
  | .vshrr f => op64Ok 0x1E f
  | .vsadd f => op64Ok 0x1F f
  | .vsaddu f => op64Ok 0x20 f
  | .vssub f => op64Ok 0x21 f
  | .vssubu f => op64Ok 0x22 f
  | .vpmac f => op64Ok 0x23 f
  | .vpopc f => op64Ok 0x24 f
  | .vclz f => op64Ok 0x25 f
  | .vctz f => op64Ok 0x26 f
  | .vabsd f => op64Ok 0x27 f
  | .vcmp f => op64Ok 0x28 f
  | .vsel f => op64Ok 0x29 f
  | .vbcast f => op64Ok 0x2A f
  | .viota f => op64Ok 0x2B f
  | .vfadd f => op64Ok 0x30 f
  | .vfsub f => op64Ok 0x31 f
  | .vfmul f => op64Ok 0x32 f
  | .vfma f => op64Ok 0x33 f
  | .vfnma f => op64Ok 0x34 f
  | .vfdiv f => op64Ok 0x35 f
  | .vfsqrt f => op64Ok 0x36 f
  | .vfrcp f => op64Ok 0x37 f
  | .vfrsq f => op64Ok 0x38 f
  | .vfexp2 f => op64Ok 0x39 f
  | .vflog2 f => op64Ok 0x3A f
  | .vftanh f => op64Ok 0x3B f
  | .vfmin f => op64Ok 0x3C f
  | .vfmax f => op64Ok 0x3D f
  | .vfcmp f => op64Ok 0x3E f
  | .vfclass f => op64Ok 0x3F f
  | .vfsgnj f => op64Ok 0x40 f && f.fn4 == 0
  | .vfsgnjn f => op64Ok 0x40 f && f.fn4 == 1
  | .vfsgnjx f => op64Ok 0x40 f && f.fn4 == 2
  | .vcvt f => op64Ok 0x50 f
  | .vquant f => op64Ok 0x51 f
  | .vdeq f => op64Ok 0x52 f
  | .vnarrow f => op64Ok 0x53 f
  | .vwiden f => op64Ok 0x54 f
  | .vld f => op64Ok 0x58 f
  | .vlds f => op64Ok 0x59 f
  | .vldx f => op64Ok 0x5A f
  | .vldr f => op64Ok 0x5B f
  | .vst f => op64Ok 0x5C f
  | .vsts f => op64Ok 0x5D f
  | .vstx f => op64Ok 0x5E f
  | .vstr f => op64Ok 0x5F f
  | .vgld f => op64Ok 0x60 f
  | .vscc f => op64Ok 0x61 f
  | .vldk f => op64Ok 0x62 f
  | .vstk f => op64Ok 0x63 f
  | .vamo f => op64Ok 0x64 f
  | .vldff f => op64Ok 0x65 f
  | .vperm f => op64Ok 0x70 f
  | .vslup f => op64Ok 0x71 f
  | .vsldn f => op64Ok 0x72 f
  | .vreshape f => op64Ok 0x73 f
  | .vcompr f => op64Ok 0x74 f
  | .vexpnd f => op64Ok 0x75 f
  | .vred f => op64Ok 0x76 f
  | .vredx f => op64Ok 0x77 f
  | .vscan f => op64Ok 0x78 f
  | .vext f => op64Ok 0x79 f
  | .vsortk f => op64Ok 0x7A f
  | .vmv f => op64Ok 0x7B f && f.fn4 == 0
  | .vmvRow f => op64Ok 0x7B f && f.fn4 == 1
  | .mlog f => op64Ok 0x80 f
  | .mpopc f => op64Ok 0x81 f
  | .mfirst f => op64Ok 0x82 f
  | .mpush f => op64Ok 0x83 f
  | .minv f => op64Ok 0x84 f
  | .mpop f => op64Ok 0x85 f
  | .bempty f => op64Ok 0x86 f
  | .bany f => op64Ok 0x87 f
  | .mset f => op64Ok 0x88 f
  | .pmrd f => op64Ok 0x89 f
  | .pmclr f => op64Ok 0x8A f
  | .mshape f => op64Ok 0x90 f
  | .wld f => op64Ok 0x91 f
  | .wswap f => op64Ok 0x92 f
  | .mma f => op64Ok 0x93 f
  | .mmat f => op64Ok 0x94 f
  | .mzero f => op64Ok 0x95 f
  | .tmv f => op64Ok 0x96 f
  | .tcol f => op64Ok 0x97 f
  | .tld f => op64Ok 0x98 f
  | .cpy f => op64Ok 0xA0 f
  | .evcfgCnt f => op64Ok 0xA1 f && decide (8 ≤ f.fn4.toNat)
  | .evcfgTerm f => op64Ok 0xA1 f && decide (f.fn4.toNat < 8)
  | .evpulse f => op64Ok 0xA2 f
  | .tkwait f => op64Ok 0xA3 f
  | .tkpush f => op64Ok 0xA4 f
  | .waitc f => op64Ok 0xA5 f
  | .waitcRecheck => true
  | .vfence f => op64Ok 0xA6 f
  | .vqdrain => true
  | .nmopAdamw f => op64Ok 0xA8 f && f.fn4 == 0
  | .nmopSgdm f => op64Ok 0xA8 f && f.fn4 == 1
  | .nmopScadd f => op64Ok 0xA8 f && f.fn4 == 2
  | .nmopClr f => op64Ok 0xA8 f && f.fn4 == 3
  | .nmopElement => true
  | .nmopCompletion => true
  | .nmfen f => op64Ok 0xA9 f
  | .coll f => op64Ok 0xAA f
  | .collTransfer => true
  | .dreg f => op64Ok 0xB0 f
  | .dunreg f => op64Ok 0xB1 f
  | .dmodeOff f => op64Ok 0xB2 f && f.fn4 == 0
  | .dmodeFwd f => op64Ok 0xB2 f && f.fn4 == 1
  | .dmodeRev f => op64Ok 0xB2 f && f.fn4 == 2
  | .galset f => op64Ok 0xB3 f
  | .galmark f => op64Ok 0xB4 f
  | .galcut f => op64Ok 0xB5 f
  | .galleySpill => true
  | .adjld f => op64Ok 0xB6 f
  | .adjclr f => op64Ok 0xB7 f
  | .pwb f => op64Ok 0xB8 f
  | .psync => true
  | .rsend f => op64Ok 0xC0 f
  | .rrecv f => op64Ok 0xC1 f
  | .rredst f => op64Ok 0xC2 f
  | .rslot f => op64Ok 0xC3 f
  | .rfen => true
  | .rpoll f => op64Ok 0xC5 f
  | .ctxsv f => op64Ok 0xC8 f
  | .ctxrs f => op64Ok 0xC9 f
  | .tlbinv f => op64Ok 0xCA f
  | .tallotWrite => true
  | .wallotWrite => true
  | .vcsrWrite => true
  | .controlSpaceWrite => true
  | .termFire => true
  | .chainCopy => true
  | .chainGather => true
  | .chainLoop => true
  | .chainIfz => true
  | .chainToken => true
  | .chainPulse => true
  | .chainWaitw => true
  | .chainEnd => true
  | .retirementTrackerFree => true
  | .drainingEnd => true
  | .postedOperation => true
  | .homeUnitOperation => true
  | .trapDelivery => true
  | .recordPop => true
  | .recordKill => true
  | .preemptSignal => true
  | .preemptTimeout => true
  | .wfeTimeout => true
  | .boundaryInterval => true
  | .boundaryMove => true
  | .launch => true
  | .kick => true
  | .rootQueue => true
  | .counterReport => true
  | .dieConfirm => true
  | .launchComplete => true
  | .controllerTakeover => true
  | .hostWrite => true
  | .hostRead => true
  | .acknowledgement => true
  | .frameRetransmit => true
  | .imageFrame => true
  | .bootRom => true
  | .bootStatus => true
  | .verifyImage => true
  | .attestation => true
  | .snapshotFrame => true
  | .dvfs => true
  | .powerLimit => true
  | .quadBoundary => true
  | .preEmptionMask => true
  | .drainShare => true
  | .confirmVersion => true
  | .retest => true
  | .snapshotRequest => true
  | .logsRequest => true
  | .queueSetup => true
  | .podJoin => true
  | .linkPin => true
  | .podBarrierReset => true
  | .governorStep => true
  | .thermalThrottle => true
  | .thermalShutdown => true
  | .powerLoss => true
  | .persistAccept => true
  | .persistDrain => true
  | .uncorrectableError => true
  | .dieLinkFailure => true
  | .hubLinkFailure => true
  | .flitReplay => true
  | .linkStepDown => true
  | .linkStepUp => true
  | .linkDown => true
  | .deviceFailure => true
  | .slotWrite => true
  | .remoteReduce => true
  | .slotReleaseNotice => true
  | .remoteAcknowledgement => true
  | .podBarrierArrival => true
  | .recordTransitArrival => true
  | .collTransferAtPeer => true
  | .hostAbort => true

end Sys2Proof
end

