-- ==== Sys2Proof/Decode.lean ====
section
/-! DEFINITION. The decoder, total on any bytes and rejecting by the reasons of R69, and after it the encoder. -/

namespace Sys2Proof

/-- Why a unit is refused: the reason of R69 and the fields pfx, len and major of `tinfo`. -/
structure DecodeError where
  reason : Nat
  pfx : Bool
  len : Bool
  major : Nat
  deriving DecidableEq, Repr

/-- A decoded unit: the instruction and its length in bytes (R26). -/
structure Decoded where
  instr : Instr
  bytes : Nat
  deriving DecidableEq, Repr

/-- The refusal of a 32-bit word (R69). -/
def err32 (w : BitVec 32) (reason : Nat) : Except DecodeError Decoded :=
  .error ⟨reason, false, false, if reason = 8 then 0 else (w.extractLsb' 1 5).toNat⟩

/-- ALU (R52): fn11, then the operands gb, ga and gd. -/
def decodeAlu (fn : Nat) (b a d : Reg) : Except Nat Instr :=
  match fn with
  | 0 => .ok (.add d a b)
  | 1 => .ok (.sub d a b)
  | 2 => .ok (.and d a b)
  | 3 => .ok (.or d a b)
  | 4 => .ok (.xor d a b)
  | 5 => .ok (.andn d a b)
  | 6 => .ok (.sll d a b)
  | 7 => .ok (.srl d a b)
  | 8 => .ok (.sra d a b)
  | 9 => .ok (.slt d a b)
  | 10 => .ok (.sltu d a b)
  | 11 => .ok (.min d a b)
  | 12 => .ok (.max d a b)
  | 13 => .ok (.minu d a b)
  | 14 => .ok (.maxu d a b)
  | 16 => .ok (.mul d a b)
  | 17 => .ok (.mulh d a b)
  | 18 => .ok (.mulhu d a b)
  | 20 => .ok (.div d a b)
  | 21 => .ok (.divu d a b)
  | 22 => .ok (.rem d a b)
  | 23 => .ok (.remu d a b)
  | 24 => if b = 0 then .ok (.popc d a) else .error 3
  | 25 => if b = 0 then .ok (.clz d a) else .error 3
  | 26 => if b = 0 then .ok (.ctz d a) else .error 3
  | 27 => .ok (.sext d a b)
  | 28 => .ok (.zext d a b)
  | 29 => if b = 0 then .ok (.bswap d a) else .error 3
  | _ => .error 2

/-- `shi` (R53). -/
def decodeShi (imm : BitVec 16) (a d : Reg) : Except Nat Instr :=
  let kind := imm.extractLsb' 6 2
  let sh := imm.extractLsb' 0 6
  if kind = 3 then .error 2
  else if imm.extractLsb' 8 8 ≠ 0 then .error 3
  else if kind = 0 then .ok (.slli d a sh)
  else if kind = 1 then .ok (.srli d a sh)
  else .ok (.srai d a sh)

/-- `br` (R53). -/
def decodeBr (cond : Nat) (off : BitVec 13) (a b : Reg) : Except Nat Instr :=
  match cond with
  | 0 => .ok (.beq a b off)
  | 1 => .ok (.bne a b off)
  | 2 => .ok (.blt a b off)
  | 3 => .ok (.bge a b off)
  | 4 => .ok (.bltu a b off)
  | 5 => .ok (.bgeu a b off)
  | _ => .error 2

/-- `amo` and `cas` (R54). -/
def decodeAmo (cas : Bool) (fn : BitVec 11) (b a d : Reg) : Except Nat Instr :=
  let ord := fn.extractLsb' 9 2
  let scope := fn.extractLsb' 6 3
  let size := fn.extractLsb' 4 2
  let op := (fn.extractLsb' 0 4).toNat
  if scope = 7 ∨ size.toNat < 2 then .error 2
  else if cas then (if op = 0 then .ok (.cas d a b size scope ord) else .error 3)
  else match op with
    | 0 => .ok (.amoadd d a b size scope ord)
    | 1 => .ok (.amoand d a b size scope ord)
    | 2 => .ok (.amoor d a b size scope ord)
    | 3 => .ok (.amoxor d a b size scope ord)
    | 4 => .ok (.amomin d a b size scope ord)
    | 5 => .ok (.amomax d a b size scope ord)
    | 6 => .ok (.amominu d a b size scope ord)
    | 7 => .ok (.amomaxu d a b size scope ord)
    | 8 => .ok (.amoswap d a b size scope ord)
    | 9 => if size = 2 then .ok (.amofadd d a b scope ord) else .error 2
    | 10 => .ok (.amosadd d a b size scope ord)
    | _ => .error 2

/-- `csr` (R53). An unknown number is a dynamic check (R68 check 5). -/
def decodeCsr (imm : BitVec 16) (a d : Reg) : Except Nat Instr :=
  let csr := imm.extractLsb' 0 12
  let op := imm.extractLsb' 12 2
  if imm.extractLsb' 14 2 ≠ 0 then .error 3
  else if op = 0 then (if a = 0 then .ok (.csrr d csr) else .error 3)
  else if op = 1 then .ok (.csrw d a csr)
  else if op = 2 then .ok (.csrs d a csr)
  else .ok (.csrc d a csr)

/-- `fpu` (R55): the rounding mode, the operation and the operands. -/
def decodeFpu (rm : BitVec 3) (op : Nat) (b a d : Reg) : Except Nat Instr :=
  if rm = 7 then .error 2
  else
    let un (i : Instr) : Except Nat Instr := if b = 0 then .ok i else .error 3
    let nr (i : Instr) : Except Nat Instr := if rm = 0 then .ok i else .error 3
    match op with
    | 0 => .ok (.fadd d a b rm)
    | 1 => .ok (.fsub d a b rm)
    | 2 => .ok (.fmul d a b rm)
    | 3 => .ok (.fdiv d a b rm)
    | 4 => un (.fsqrt d a rm)
    | 5 => nr (.fmin d a b)
    | 6 => nr (.fmax d a b)
    | 7 => un (.fcvtFI d a rm)
    | 8 => un (.fcvtIF d a rm)
    | 9 => un (.fcvtFN d a rm)
    | 10 => un (.fcvtNF d a rm)
    | 11 => nr (.feq d a b)
    | 12 => nr (.flt d a b)
    | 13 => nr (.fle d a b)
    | 14 => if b = 0 then nr (.fclass d a) else .error 3
    | 15 => nr (.fsgnj d a b)
    | 16 => nr (.fsgnjn d a b)
    | 17 => nr (.fsgnjx d a b)
    | _ => .error 2

/-- `sys` (R56). -/
def decodeSys (fn : Nat) (b a d : Reg) : Except Nat Instr :=
  let z (i : Instr) : Except Nat Instr := if a = 0 ∧ b = 0 ∧ d = 0 then .ok i else .error 3
  match fn with
  | 0 => z .sysTrap
  | 1 => z .tret
  | 2 => z .brk
  | 3 => if 7 ≤ b.toNat then .error 2 else if a = 0 ∧ d = 0 then .ok (.ifence b) else .error 3
  | 4 => z .snap
  | 5 => if a = 0 ∧ b = 0 then .ok (.cyc d) else .error 3
  | 6 => z .wfe
  | _ => .error 2

/-- `task` (R56). -/
def decodeTask (fn : Nat) (b a d : Reg) : Except Nat Instr :=
  match fn with
  | 0 => if b = 0 then .ok (.spawn d a) else .error 3
  | 1 => if b = 0 ∧ d = 0 then .ok (.joindec a) else .error 3
  | 2 => if b = 0 ∧ a = 0 ∧ d = 0 then .ok .exitRecord else .error 3
  | 3 => if b = 0 ∧ a = 0 ∧ d = 0 then .ok .yieldRecord else .error 3
  | _ => .error 2

/-- `bar` (R56, R22): fn11[10:5] must be 0, and scope 0, 6 or 7 is no network. -/
def decodeBar (fn : BitVec 11) (b a d : Reg) : Except Nat Instr :=
  let scope := fn.extractLsb' 0 3
  let op := fn.extractLsb' 3 2
  if scope = 0 ∨ 6 ≤ scope.toNat then .error 2
  else if fn.extractLsb' 5 6 ≠ 0 ∨ a ≠ 0 then .error 3
  else if op = 0 then .ok (.barArrive d b scope)
  else if op = 1 then .ok (.barWait d b scope)
  else if op = 2 then .ok (.barArrwait d b scope)
  else .ok (.barDrop d b scope)

/-- One 32-bit instruction (R29, R51-R56), or the reason of its refusal. -/
def decode32 (w : BitVec 32) : Except Nat Instr :=
  let d : Reg := w.extractLsb' 6 5
  let a : Reg := w.extractLsb' 11 5
  let b : Reg := w.extractLsb' 16 5
  let fn : BitVec 11 := w.extractLsb' 21 11
  let imm : BitVec 16 := w.extractLsb' 16 16
  let imm21 : BitVec 21 := w.extractLsb' 11 21
  let cls : BitVec 4 := w.extractLsb' 16 4
  let size : BitVec 2 := w.extractLsb' 20 2
  let off10 : BitVec 10 := w.extractLsb' 22 10
  let scope : BitVec 3 := w.extractLsb' 22 3
  if w = 0 then .error 8
  else match (w.extractLsb' 1 5).toNat with
    | 0x00 => decodeAlu fn.toNat b a d
    | 0x01 => .ok (.addi d a imm)
    | 0x02 => .ok (.andi d a imm)
    | 0x03 => .ok (.ori d a imm)
    | 0x04 => .ok (.xori d a imm)
    | 0x05 => decodeShi imm a d
    | 0x06 => .ok (.slti d a imm)
    | 0x07 => .ok (.sltiu d a imm)
    | 0x08 => .ok (.lih d imm21)
    | 0x09 => .ok (.pca d imm21)
    | 0x0A => .ok (.jal d imm21)
    | 0x0B => .ok (.jalr d a imm)
    | 0x0C => if a = 0 ∧ d = 0 then .ok (.calli imm) else .error 3
    | 0x0D => decodeBr (w.extractLsb' 16 3).toNat (w.extractLsb' 19 13) a d
    | 0x0E => .ok (.ld d a cls size off10)
    | 0x0F => .ok (.ldz d a cls size off10)
    | 0x10 => .ok (.st d a cls size off10)
    | 0x11 => if scope = 7 then .error 2 else if w.extractLsb' 25 7 ≠ 0 then .error 3 else .ok (.lda d a cls size scope)
    | 0x12 => if scope = 7 then .error 2 else if w.extractLsb' 25 7 ≠ 0 then .error 3 else .ok (.stl d a cls size scope)
    | 0x13 => decodeAmo false fn b a d
    | 0x14 => decodeAmo true fn b a d
    | 0x15 => decodeCsr imm a d
    | 0x16 => decodeFpu (fn.extractLsb' 8 3) (fn.extractLsb' 0 8).toNat b a d
    | 0x17 => if 7 ≤ d.toNat then .error 2 else if a = 0 then .ok (.fence d imm) else .error 3
    | 0x18 => decodeSys fn.toNat b a d
    | 0x19 => decodeTask fn.toNat b a d
    | 0x1A => decodeBar fn b a d
    | _ => .error 1

/-- The prefix word's fields (R36). -/
def prefixOf (w : BitVec 32) : Pfx :=
  { mod1 := w.extractLsb' 18 12, pol := w.extractLsb' 17 1, vs3 := w.extractLsb' 9 8, rm := w.extractLsb' 6 3,
    me := w.extractLsb' 5 1, m := w.extractLsb' 2 3 }

/-- The fields of a 64-bit instruction (R30). -/
def fields64 (p : Option Pfx) (w : BitVec 64) : Op64 :=
  { pfx := p, fn3 := w.extractLsb' 61 3, tkpush := w.extractLsb' 59 2, tkpop := w.extractLsb' 57 2, cls4 := w.extractLsb' 53 4,
    fn4 := w.extractLsb' 49 4, mod12 := w.extractLsb' 37 12, dt := w.extractLsb' 36 1, c2 := w.extractLsb' 35 1,
    c1 := w.extractLsb' 34 1, vs2 := w.extractLsb' 26 8, vs1 := w.extractLsb' 18 8, vd := w.extractLsb' 10 8 }

/-- A 64-bit instruction whose fields are all zero. -/
def blank64 : Op64 := ⟨none, 0, 0, 0, 0, 0, 0, 0, 0, 0, 0, 0, 0⟩

/-- The major and the fields of a 64-bit instruction (R58-R64); none for any other. -/
def parts64 (i : Instr) : Option (Nat × Op64) :=
  match i with
  | .vsetvl f => some (0x00, f)
  | .vsettype f => some (0x01, f)
  | .vloop f => some (0x02, f)
  | .vstrip f => some (0x03, f)
  | .vnext f => some (0x04, f)
  | .vget f => some (0x05, f)
  | .vadd f => some (0x08, f)
  | .vsub f => some (0x09, f)
  | .vrsub f => some (0x0A, f)
  | .vmul f => some (0x0B, f)
  | .vmulh f => some (0x0C, f)
  | .vmulhu f => some (0x0D, f)
  | .vmac f => some (0x0E, f)
  | .vdiv f => some (0x0F, f)
  | .vdivu f => some (0x10, f)
  | .vrem f => some (0x11, f)
  | .vremu f => some (0x12, f)
  | .vmin f => some (0x13, f)
  | .vmax f => some (0x14, f)
  | .vminu f => some (0x15, f)
  | .vmaxu f => some (0x16, f)
  | .vand f => some (0x17, f)
  | .vor f => some (0x18, f)
  | .vxor f => some (0x19, f)
  | .vandn f => some (0x1A, f)
  | .vshl f => some (0x1B, f)
  | .vshr f => some (0x1C, f)
  | .vsra f => some (0x1D, f)
  | .vshrr f => some (0x1E, f)
  | .vsadd f => some (0x1F, f)
  | .vsaddu f => some (0x20, f)
  | .vssub f => some (0x21, f)
  | .vssubu f => some (0x22, f)
  | .vpmac f => some (0x23, f)
  | .vpopc f => some (0x24, f)
  | .vclz f => some (0x25, f)
  | .vctz f => some (0x26, f)
  | .vabsd f => some (0x27, f)
  | .vcmp f => some (0x28, f)
  | .vsel f => some (0x29, f)
  | .vbcast f => some (0x2A, f)
  | .viota f => some (0x2B, f)
  | .vfadd f => some (0x30, f)
  | .vfsub f => some (0x31, f)
  | .vfmul f => some (0x32, f)
  | .vfma f => some (0x33, f)
  | .vfnma f => some (0x34, f)
  | .vfdiv f => some (0x35, f)
  | .vfsqrt f => some (0x36, f)
  | .vfrcp f => some (0x37, f)
  | .vfrsq f => some (0x38, f)
  | .vfexp2 f => some (0x39, f)
  | .vflog2 f => some (0x3A, f)
  | .vftanh f => some (0x3B, f)
  | .vfmin f => some (0x3C, f)
  | .vfmax f => some (0x3D, f)
  | .vfcmp f => some (0x3E, f)
  | .vfclass f => some (0x3F, f)
  | .vfsgnj f => some (0x40, f)
  | .vfsgnjn f => some (0x40, f)
  | .vfsgnjx f => some (0x40, f)
  | .vcvt f => some (0x50, f)
  | .vquant f => some (0x51, f)
  | .vdeq f => some (0x52, f)
  | .vnarrow f => some (0x53, f)
  | .vwiden f => some (0x54, f)
  | .vld f => some (0x58, f)
  | .vlds f => some (0x59, f)
  | .vldx f => some (0x5A, f)
  | .vldr f => some (0x5B, f)
  | .vst f => some (0x5C, f)
  | .vsts f => some (0x5D, f)
  | .vstx f => some (0x5E, f)
  | .vstr f => some (0x5F, f)
  | .vgld f => some (0x60, f)
  | .vscc f => some (0x61, f)
  | .vldk f => some (0x62, f)
  | .vstk f => some (0x63, f)
  | .vamo f => some (0x64, f)
  | .vldff f => some (0x65, f)
  | .vperm f => some (0x70, f)
  | .vslup f => some (0x71, f)
  | .vsldn f => some (0x72, f)
  | .vreshape f => some (0x73, f)
  | .vcompr f => some (0x74, f)
  | .vexpnd f => some (0x75, f)
  | .vred f => some (0x76, f)
  | .vredx f => some (0x77, f)
  | .vscan f => some (0x78, f)
  | .vext f => some (0x79, f)
  | .vsortk f => some (0x7A, f)
  | .vmv f => some (0x7B, f)
  | .vmvRow f => some (0x7B, f)
  | .mlog f => some (0x80, f)
  | .mpopc f => some (0x81, f)
  | .mfirst f => some (0x82, f)
  | .mpush f => some (0x83, f)
  | .minv f => some (0x84, f)
  | .mpop f => some (0x85, f)
  | .bempty f => some (0x86, f)
  | .bany f => some (0x87, f)
  | .mset f => some (0x88, f)
  | .pmrd f => some (0x89, f)
  | .pmclr f => some (0x8A, f)
  | .mshape f => some (0x90, f)
  | .wld f => some (0x91, f)
  | .wswap f => some (0x92, f)
  | .mma f => some (0x93, f)
  | .mmat f => some (0x94, f)
  | .mzero f => some (0x95, f)
  | .tmv f => some (0x96, f)
  | .tcol f => some (0x97, f)
  | .tld f => some (0x98, f)
  | .cpy f => some (0xA0, f)
  | .evcfgCnt f => some (0xA1, f)
  | .evcfgTerm f => some (0xA1, f)
  | .evpulse f => some (0xA2, f)
  | .tkwait f => some (0xA3, f)
  | .tkpush f => some (0xA4, f)
  | .waitc f => some (0xA5, f)
  | .vfence f => some (0xA6, f)
  | .vqdrain => some (0xA7, blank64)
  | .nmopAdamw f => some (0xA8, f)
  | .nmopSgdm f => some (0xA8, f)
  | .nmopScadd f => some (0xA8, f)
  | .nmopClr f => some (0xA8, f)
  | .nmfen f => some (0xA9, f)
  | .coll f => some (0xAA, f)
  | .dreg f => some (0xB0, f)
  | .dunreg f => some (0xB1, f)
  | .dmodeOff f => some (0xB2, f)
  | .dmodeFwd f => some (0xB2, f)
  | .dmodeRev f => some (0xB2, f)
  | .galset f => some (0xB3, f)
  | .galmark f => some (0xB4, f)
  | .galcut f => some (0xB5, f)
  | .adjld f => some (0xB6, f)
  | .adjclr f => some (0xB7, f)
  | .pwb f => some (0xB8, f)
  | .psync => some (0xB9, blank64)
  | .rsend f => some (0xC0, f)
  | .rrecv f => some (0xC1, f)
  | .rredst f => some (0xC2, f)
  | .rslot f => some (0xC3, f)
  | .rfen => some (0xC4, blank64)
  | .rpoll f => some (0xC5, f)
  | .ctxsv f => some (0xC8, f)
  | .ctxrs f => some (0xC9, f)
  | .tlbinv f => some (0xCA, f)
  | _ => none

/-- The 64-bit instruction of a major, by fn4 where one major holds several rows (R58-R64). -/
def build64 (major : Nat) (f : Op64) : Option Instr :=
  match major with
  | 0x00 => some (.vsetvl f)
  | 0x01 => some (.vsettype f)
  | 0x02 => some (.vloop f)
  | 0x03 => some (.vstrip f)
  | 0x04 => some (.vnext f)
  | 0x05 => some (.vget f)
  | 0x08 => some (.vadd f)
  | 0x09 => some (.vsub f)
  | 0x0A => some (.vrsub f)
  | 0x0B => some (.vmul f)
  | 0x0C => some (.vmulh f)
  | 0x0D => some (.vmulhu f)
  | 0x0E => some (.vmac f)
  | 0x0F => some (.vdiv f)
  | 0x10 => some (.vdivu f)
  | 0x11 => some (.vrem f)
  | 0x12 => some (.vremu f)
  | 0x13 => some (.vmin f)
  | 0x14 => some (.vmax f)
  | 0x15 => some (.vminu f)
  | 0x16 => some (.vmaxu f)
  | 0x17 => some (.vand f)
  | 0x18 => some (.vor f)
  | 0x19 => some (.vxor f)
  | 0x1A => some (.vandn f)
  | 0x1B => some (.vshl f)
  | 0x1C => some (.vshr f)
  | 0x1D => some (.vsra f)
  | 0x1E => some (.vshrr f)
  | 0x1F => some (.vsadd f)
  | 0x20 => some (.vsaddu f)
  | 0x21 => some (.vssub f)
  | 0x22 => some (.vssubu f)
  | 0x23 => some (.vpmac f)
  | 0x24 => some (.vpopc f)
  | 0x25 => some (.vclz f)
  | 0x26 => some (.vctz f)
  | 0x27 => some (.vabsd f)
  | 0x28 => some (.vcmp f)
  | 0x29 => some (.vsel f)
  | 0x2A => some (.vbcast f)
  | 0x2B => some (.viota f)
  | 0x30 => some (.vfadd f)
  | 0x31 => some (.vfsub f)
  | 0x32 => some (.vfmul f)
  | 0x33 => some (.vfma f)
  | 0x34 => some (.vfnma f)
  | 0x35 => some (.vfdiv f)
  | 0x36 => some (.vfsqrt f)
  | 0x37 => some (.vfrcp f)
  | 0x38 => some (.vfrsq f)
  | 0x39 => some (.vfexp2 f)
  | 0x3A => some (.vflog2 f)
  | 0x3B => some (.vftanh f)
  | 0x3C => some (.vfmin f)
  | 0x3D => some (.vfmax f)
  | 0x3E => some (.vfcmp f)
  | 0x3F => some (.vfclass f)
  | 0x40 => if f.fn4 = 0 then some (.vfsgnj f) else if f.fn4 = 1 then some (.vfsgnjn f) else some (.vfsgnjx f)
  | 0x50 => some (.vcvt f)
  | 0x51 => some (.vquant f)
  | 0x52 => some (.vdeq f)
  | 0x53 => some (.vnarrow f)
  | 0x54 => some (.vwiden f)
  | 0x58 => some (.vld f)
  | 0x59 => some (.vlds f)
  | 0x5A => some (.vldx f)
  | 0x5B => some (.vldr f)
  | 0x5C => some (.vst f)
  | 0x5D => some (.vsts f)
  | 0x5E => some (.vstx f)
  | 0x5F => some (.vstr f)
  | 0x60 => some (.vgld f)
  | 0x61 => some (.vscc f)
  | 0x62 => some (.vldk f)
  | 0x63 => some (.vstk f)
  | 0x64 => some (.vamo f)
  | 0x65 => some (.vldff f)
  | 0x70 => some (.vperm f)
  | 0x71 => some (.vslup f)
  | 0x72 => some (.vsldn f)
  | 0x73 => some (.vreshape f)
  | 0x74 => some (.vcompr f)
  | 0x75 => some (.vexpnd f)
  | 0x76 => some (.vred f)
  | 0x77 => some (.vredx f)
  | 0x78 => some (.vscan f)
  | 0x79 => some (.vext f)
  | 0x7A => some (.vsortk f)
  | 0x7B => if f.fn4 = 0 then some (.vmv f) else some (.vmvRow f)
  | 0x80 => some (.mlog f)
  | 0x81 => some (.mpopc f)
  | 0x82 => some (.mfirst f)
  | 0x83 => some (.mpush f)
  | 0x84 => some (.minv f)
  | 0x85 => some (.mpop f)
  | 0x86 => some (.bempty f)
  | 0x87 => some (.bany f)
  | 0x88 => some (.mset f)
  | 0x89 => some (.pmrd f)
  | 0x8A => some (.pmclr f)
  | 0x90 => some (.mshape f)
  | 0x91 => some (.wld f)
  | 0x92 => some (.wswap f)
  | 0x93 => some (.mma f)
  | 0x94 => some (.mmat f)
  | 0x95 => some (.mzero f)
  | 0x96 => some (.tmv f)
  | 0x97 => some (.tcol f)
  | 0x98 => some (.tld f)
  | 0xA0 => some (.cpy f)
  | 0xA1 => if f.fn4.toNat < 8 then some (.evcfgTerm f) else some (.evcfgCnt f)
  | 0xA2 => some (.evpulse f)
  | 0xA3 => some (.tkwait f)
  | 0xA4 => some (.tkpush f)
  | 0xA5 => some (.waitc f)
  | 0xA6 => some (.vfence f)
  | 0xA7 => some .vqdrain
  | 0xA8 => if f.fn4 = 0 then some (.nmopAdamw f) else if f.fn4 = 1 then some (.nmopSgdm f) else if f.fn4 = 2 then some (.nmopScadd f) else some (.nmopClr f)
  | 0xA9 => some (.nmfen f)
  | 0xAA => some (.coll f)
  | 0xB0 => some (.dreg f)
  | 0xB1 => some (.dunreg f)
  | 0xB2 => if f.fn4 = 0 then some (.dmodeOff f) else if f.fn4 = 1 then some (.dmodeFwd f) else some (.dmodeRev f)
  | 0xB3 => some (.galset f)
  | 0xB4 => some (.galmark f)
  | 0xB5 => some (.galcut f)
  | 0xB6 => some (.adjld f)
  | 0xB7 => some (.adjclr f)
  | 0xB8 => some (.pwb f)
  | 0xB9 => some .psync
  | 0xC0 => some (.rsend f)
  | 0xC1 => some (.rrecv f)
  | 0xC2 => some (.rredst f)
  | 0xC3 => some (.rslot f)
  | 0xC4 => some .rfen
  | 0xC5 => some (.rpoll f)
  | 0xC8 => some (.ctxsv f)
  | 0xC9 => some (.ctxrs f)
  | 0xCA => some (.tlbinv f)
  | _ => none

/-- One 64-bit instruction with the prefix that stands before it, if any (R30, R68 check 2). -/
def decode64 (p : Option Pfx) (w : BitVec 64) : Except DecodeError Instr :=
  let major := (w.extractLsb' 2 8).toNat
  let f := fields64 p w
  match Machine.static64 major f with
  | some r => .error ⟨r, p.isSome, true, major⟩
  | none =>
    match build64 major f with
    | some i => .ok i
    | none => .error ⟨1, p.isSome, true, major⟩

/-- The length in bytes that the first word selects (R26). -/
def unitLength (w0 : BitVec 32) : Nat :=
  if w0.extractLsb' 0 2 = 1 then 8 else if w0.extractLsb' 0 2 = 3 then 12 else 4

/-- One unit from its words, the first at the lowest address; words that the unit does not use are ignored (R26, R27). -/
def decodeWords (w0 w1 w2 : BitVec 32) : Except DecodeError Decoded :=
  if w0.extractLsb' 0 2 = 1 then
    match decode64 none (w1 ++ w0) with
    | .ok i => .ok ⟨i, 8⟩
    | .error e => .error e
  else if w0.extractLsb' 0 2 = 3 then
    if w1.extractLsb' 0 2 = 3 then .error ⟨4, true, false, 0⟩
    else if w1.extractLsb' 0 2 ≠ 1 then .error ⟨4, true, false, (w1.extractLsb' 1 5).toNat⟩
    else if w0.extractLsb' 30 2 ≠ 0 then .error ⟨4, true, true, (w1.extractLsb' 2 8).toNat⟩
    else match decode64 (some (prefixOf w0)) (w2 ++ w1) with
      | .ok i => .ok ⟨i, 12⟩
      | .error e => .error e
  else match decode32 w0 with
    | .ok i => .ok ⟨i, 4⟩
    | .error r => err32 w0 r

/-- One word of bytes in memory order (R2); missing bytes read 0. -/
def wordOfBytes (bs : List Byte) : BitVec 32 := BitVec.ofNat 32 (Machine.ofLe (bs.take 4))

/-- The decoder on bytes at rising addresses: total, with the bytes that are missing read as 0. -/
def decodeBytes (bs : List Byte) : Except DecodeError Decoded :=
  decodeWords (wordOfBytes bs) (wordOfBytes (bs.drop 4)) (wordOfBytes (bs.drop 8))

/-- The instruction that the decoder reads from an instruction whose bits are `w`, numbered as the opcode table numbers
them; the bits above `nbits` are 0. -/
def decodeTableWord (nbits w : Nat) : Option Instr :=
  match decodeBytes (Machine.leBytes 12 (w % 2 ^ nbits)) with
  | .ok r => some r.instr
  | .error _ => none

/-! The encoder, from the same tables. -/

/-- Format SR (R29). -/
def encSR (major : BitVec 5) (fn : BitVec 11) (b a d : Reg) : BitVec 32 := fn ++ b ++ a ++ d ++ major ++ 0#1
/-- Format SI (R29). -/
def encSI (major : BitVec 5) (imm : BitVec 16) (a d : Reg) : BitVec 32 := imm ++ a ++ d ++ major ++ 0#1
/-- Format SB (R29). -/
def encSB (cond : BitVec 3) (off : BitVec 13) (a b : Reg) : BitVec 32 := off ++ cond ++ a ++ b ++ 0x0D#5 ++ 0#1
/-- Formats SJ and SU (R29). -/
def encSU (major : BitVec 5) (imm : BitVec 21) (d : Reg) : BitVec 32 := imm ++ d ++ major ++ 0#1
/-- Format SM (R29). -/
def encSM (major : BitVec 5) (off : BitVec 10) (size : BitVec 2) (cls : BitVec 4) (a d : Reg) : BitVec 32 :=
  off ++ size ++ cls ++ a ++ d ++ major ++ 0#1
/-- The fn11 of an atomic (R54). -/
def amoFn (ord : BitVec 2) (scope : BitVec 3) (size : BitVec 2) (op : BitVec 4) : BitVec 11 := ord ++ scope ++ size ++ op

/-- The word of a 32-bit instruction; none for any other. -/
def encode32 (i : Instr) : Option (BitVec 32) :=
  let alu (fn : BitVec 11) (d a b : Reg) := some (encSR 0x00 fn b a d)
  let amo (op : BitVec 4) (d a b : Reg) (size : BitVec 2) (scope : BitVec 3) (ord : BitVec 2) :=
    some (encSR 0x13 (amoFn ord scope size op) b a d)
  let fpu (rm : BitVec 3) (op : BitVec 8) (d a b : Reg) := some (encSR 0x16 (rm ++ op) b a d)
  let bar (op : BitVec 2) (scope : BitVec 3) (d b : Reg) := some (encSR 0x1A ((0#6 ++ op) ++ scope) b 0 d)
  match i with
  | .add d a b => alu 0 d a b
  | .sub d a b => alu 1 d a b
  | .and d a b => alu 2 d a b
  | .or d a b => alu 3 d a b
  | .xor d a b => alu 4 d a b
  | .andn d a b => alu 5 d a b
  | .sll d a b => alu 6 d a b
  | .srl d a b => alu 7 d a b
  | .sra d a b => alu 8 d a b
  | .slt d a b => alu 9 d a b
  | .sltu d a b => alu 10 d a b
  | .min d a b => alu 11 d a b
  | .max d a b => alu 12 d a b
  | .minu d a b => alu 13 d a b
  | .maxu d a b => alu 14 d a b
  | .mul d a b => alu 16 d a b
  | .mulh d a b => alu 17 d a b
  | .mulhu d a b => alu 18 d a b
  | .div d a b => alu 20 d a b
  | .divu d a b => alu 21 d a b
  | .rem d a b => alu 22 d a b
  | .remu d a b => alu 23 d a b
  | .popc d a => alu 24 d a 0
  | .clz d a => alu 25 d a 0
  | .ctz d a => alu 26 d a 0
  | .sext d a b => alu 27 d a b
  | .zext d a b => alu 28 d a b
  | .bswap d a => alu 29 d a 0
  | .addi d a imm => some (encSI 0x01 imm a d)
  | .andi d a imm => some (encSI 0x02 imm a d)
  | .ori d a imm => some (encSI 0x03 imm a d)
  | .xori d a imm => some (encSI 0x04 imm a d)
  | .slli d a sh => some (encSI 0x05 (0#8 ++ 0#2 ++ sh) a d)
  | .srli d a sh => some (encSI 0x05 (0#8 ++ 1#2 ++ sh) a d)
  | .srai d a sh => some (encSI 0x05 (0#8 ++ 2#2 ++ sh) a d)
  | .slti d a imm => some (encSI 0x06 imm a d)
  | .sltiu d a imm => some (encSI 0x07 imm a d)
  | .lih d imm => some (encSU 0x08 imm d)
  | .pca d imm => some (encSU 0x09 imm d)
  | .jal d off => some (encSU 0x0A off d)
  | .jalr d a imm => some (encSI 0x0B imm a d)
  | .calli slot => some (encSI 0x0C slot 0 0)
  | .beq a b off => some (encSB 0 off a b)
  | .bne a b off => some (encSB 1 off a b)
  | .blt a b off => some (encSB 2 off a b)
  | .bge a b off => some (encSB 3 off a b)
  | .bltu a b off => some (encSB 4 off a b)
  | .bgeu a b off => some (encSB 5 off a b)
  | .ld d a cls size off => some (encSM 0x0E off size cls a d)
  | .ldz d a cls size off => some (encSM 0x0F off size cls a d)
  | .st d a cls size off => some (encSM 0x10 off size cls a d)
  | .lda d a cls size scope => some (encSM 0x11 (0#7 ++ scope) size cls a d)
  | .stl d a cls size scope => some (encSM 0x12 (0#7 ++ scope) size cls a d)
  | .amoadd d a b size scope ord => amo 0 d a b size scope ord
  | .amoand d a b size scope ord => amo 1 d a b size scope ord
  | .amoor d a b size scope ord => amo 2 d a b size scope ord
  | .amoxor d a b size scope ord => amo 3 d a b size scope ord
  | .amomin d a b size scope ord => amo 4 d a b size scope ord
  | .amomax d a b size scope ord => amo 5 d a b size scope ord
  | .amominu d a b size scope ord => amo 6 d a b size scope ord
  | .amomaxu d a b size scope ord => amo 7 d a b size scope ord
  | .amoswap d a b size scope ord => amo 8 d a b size scope ord
  | .amofadd d a b scope ord => amo 9 d a b 2 scope ord
  | .amosadd d a b size scope ord => amo 10 d a b size scope ord
  | .cas d a b size scope ord => some (encSR 0x14 (amoFn ord scope size 0) b a d)
  | .csrr d csr => some (encSI 0x15 (0#2 ++ 0#2 ++ csr) 0 d)
  | .csrw d a csr => some (encSI 0x15 (0#2 ++ 1#2 ++ csr) a d)
  | .csrs d a csr => some (encSI 0x15 (0#2 ++ 2#2 ++ csr) a d)
  | .csrc d a csr => some (encSI 0x15 (0#2 ++ 3#2 ++ csr) a d)
  | .fadd d a b rm => fpu rm 0 d a b
  | .fsub d a b rm => fpu rm 1 d a b
  | .fmul d a b rm => fpu rm 2 d a b
  | .fdiv d a b rm => fpu rm 3 d a b
  | .fsqrt d a rm => fpu rm 4 d a 0
  | .fmin d a b => fpu 0 5 d a b
  | .fmax d a b => fpu 0 6 d a b
  | .fcvtFI d a rm => fpu rm 7 d a 0
  | .fcvtIF d a rm => fpu rm 8 d a 0
  | .fcvtFN d a rm => fpu rm 9 d a 0
  | .fcvtNF d a rm => fpu rm 10 d a 0
  | .feq d a b => fpu 0 11 d a b
  | .flt d a b => fpu 0 12 d a b
  | .fle d a b => fpu 0 13 d a b
  | .fclass d a => fpu 0 14 d a 0
  | .fsgnj d a b => fpu 0 15 d a b
  | .fsgnjn d a b => fpu 0 16 d a b
  | .fsgnjx d a b => fpu 0 17 d a b
  | .fence scope mask => some (encSI 0x17 mask 0 scope)
  | .sysTrap => some (encSR 0x18 0 0 0 0)
  | .tret => some (encSR 0x18 1 0 0 0)
  | .brk => some (encSR 0x18 2 0 0 0)
  | .ifence scope => some (encSR 0x18 3 scope 0 0)
  | .snap => some (encSR 0x18 4 0 0 0)
  | .cyc d => some (encSR 0x18 5 0 0 d)
  | .wfe => some (encSR 0x18 6 0 0 0)
  | .spawn d a => some (encSR 0x19 0 0 a d)
  | .joindec a => some (encSR 0x19 1 0 a 0)
  | .exitRecord => some (encSR 0x19 2 0 0 0)
  | .yieldRecord => some (encSR 0x19 3 0 0 0)
  | .barArrive d b scope => bar 0 scope d b
  | .barWait d b scope => bar 1 scope d b
  | .barArrwait d b scope => bar 2 scope d b
  | .barDrop d b scope => bar 3 scope d b
  | _ => none

/-- The prefix word (R36). -/
def encodePrefix (p : Pfx) : BitVec 32 := 0#2 ++ p.mod1 ++ p.pol ++ p.vs3 ++ p.rm ++ p.me ++ p.m ++ 3#2

/-- The 64-bit word (R30). -/
def encode64 (major : Nat) (f : Op64) : BitVec 64 :=
  f.fn3 ++ f.tkpush ++ f.tkpop ++ f.cls4 ++ f.fn4 ++ f.mod12 ++ f.dt ++ f.c2 ++ f.c1 ++ f.vs2 ++ f.vs1 ++ f.vd ++
    BitVec.ofNat 8 major ++ 1#2

/-- The words of a well-formed instruction, the first at the lowest address; none for an event. -/
def encode (i : Instr) : Option (List (BitVec 32)) :=
  match encode32 i with
  | some w => some [w]
  | none =>
    match parts64 i with
    | none => none
    | some (major, f) =>
      let w := encode64 major f
      let ws := [w.extractLsb' 0 32, w.extractLsb' 32 32]
      match f.pfx with
      | none => some ws
      | some p => some (encodePrefix p :: ws)

end Sys2Proof
end

