-- ==== Sys2Proof/Config.lean ====
section
/-! DEFINITION. What an implementation fixes, and the free values that the spec leaves open: constants without a body. -/

namespace Sys2Proof.Config

/-- The free value of draw `n`: every value that the spec leaves open and that does not depend on operands. -/
opaque freeWord : Nat → Word

/-- What the hub derives from the device's fused secret as the seed of its identity key pair, byte by byte; the spec gives neither the
secret nor the derivation (R386). -/
opaque identitySeed : Nat → Byte

/-- The public key carried in an image's payload; its place is not given (R383). -/
opaque imageKey : List Byte → List Byte

/-- A payload is the firmware released for the package (R353). -/
opaque released : List Byte → Bool

/-- The encodings that another payload's fount table marks absent, each by its length, its major and its form; the table's format
is private to the generation (R353). -/
opaque imageAbsent : List Byte → List (Bool × Nat × Nat)

/-- The entry of the supervisor image in a payload; its place is not given (R384). -/
opaque imageTvec : List Byte → Word

/-- The key hash fused in the hub (R383). -/
opaque fusedKeyHash : Nat

/-- The set of a slice's link directory that a line falls in, 0 to 255 (R343 does not give the indexing). -/
opaque linkSet : Nat → Nat

/-- The step that a die's governor allows for a load, a power cap and a temperature; its policy is not given (R387). -/
opaque governor : Nat → Nat → Nat

/-- Looks at an unset event latch after which the model lets the 65,536 cycles of R127 have passed. -/
def wfeLooks : Nat := 16

/-- Records that a queue buffers in the die (R329). -/
def queueBuffer : Nat := 4096
/-- Records of the backing ring that the released firmware sets at every priority (R329). -/
def queueRing : Nat := 65536
/-- The base of the backing ring that firmware sets at boot for a die and a priority; the spec gives none (R329, R384). -/
opaque ringBase : Nat → Nat → Word
/-- The journal area that firmware sets at boot for a die; the spec gives none (R338, R384). -/
opaque journalBase : Nat → Word
/-- Records of a die's join reserve (R327). -/
def joinReserve : Nat := 1024

end Sys2Proof.Config
end

