-- ==== Sys2Proof/Machine/State.lean ====
section
/-! DEFINITION. The state of the machine as plain data: contexts, cores, quads, dies, memories, hub; faults and refusals;
the state right after reset. -/

namespace Sys2Proof.Machine

/-- Why the machine stops. -/
inductive Fault where
  /-- Raised by `step` alone, when the package has no power and nothing of the agenda restores it (R377, R388): no agent of
  the package can take a step. Safe: nothing is claimed of a machine without power. -/
  | noPower
  deriving DecidableEq, Repr

/-- Why the model gives no meaning. -/
inductive Refusal where
  /-- Raised by an arm of `exec` whose instruction has no meaning yet. Safe. -/
  | notModelled (mnemonic : String)
  deriving DecidableEq, Repr

/-! ## What happens before (R251, R252) -/

/-- For each thread, the stamp below which its durable writes happen before something. -/
abbrev Clock := Tab Nat

/-- A release as an acquire may meet it: the agent, the scope, and the durable writes that happen before it. -/
structure Release where
  agent : CtxNo
  scope : Nat
  clock : Clock
  deriving DecidableEq, Repr

/-- What the machine's durable writes and its synchronisation make happen before what, which the recovery of durable lines asks
(R252, R378). -/
structure Before where
  /-- Stamps given to durable writes. -/
  stamp : Nat := 0
  /-- By thread and by place of knowledge of a running record or engine operation: the writes that happen before. -/
  own : Tab Clock := []
  /-- The launch tag of a record or engine operation, by its number. -/
  tags : Tab Nat := []
  /-- The release sequence that stands in a word (R251). -/
  words : Tab (List Release) := []
  /-- Releases that the reads of a record have met, with the class of the read: a fence may act as their acquire (R256). -/
  seen : Tab (List (Nat × Release)) := []
  /-- The fences of a record that act as releases of its later writes, with their masks (R256). -/
  marks : Tab (List (Nat × Release)) := []
  /-- The fences so far, by context and scope (R256). -/
  fences : Tab Clock := []
  /-- The arrivals of a barrier's phase (R262). -/
  bars : Tab Clock := []
  /-- The tokens held in a FIFO, the oldest first; tokens of which nothing is known are left out at the end (R210). -/
  toks : Tab (List Clock) := []
  /-- The accesses of completed launches, by tag (R333). -/
  done : Tab Clock := []
  deriving DecidableEq, Repr

/-! ## Contexts -/

/-- The privilege levels U, S and F (R281). -/
inductive Level where
  | u | s | f
  deriving DecidableEq, Repr

/-- `dmode` (R268). -/
inductive DMode where
  | off | fwd | rev
  deriving DecidableEq, Repr

/-- A context takes a record when idle, runs it, and drains its traffic after `exit` (R25, R227). -/
inductive Status where
  | idle | running | draining
  deriving DecidableEq, Repr

/-- A vector row: its bits, and a poison mark for each 4-bit nibble (R70, R295). -/
structure Row where
  bits : BitVec 8192 := 0
  pois : BitVec 2048 := 0
  deriving DecidableEq, Repr

/-- `vtype` (R75); the defaults are the values at record start (R71). -/
structure VType where
  ks : Bool := false
  k : BitVec 4 := 0
  g : BitVec 3 := 0
  kind : BitVec 4 := 2
  ew : BitVec 3 := 3
  deriving DecidableEq, Repr

/-- `vsc` (R82). -/
structure Vsc where
  sp : Bool := false
  nd : Bool := false
  n : BitVec 48 := 0
  deriving DecidableEq, Repr

/-- `vcsr` (R100); the flags are NV, DZ, OF, UF, NX, SAT, IOV, WOVF, MDERR from bit 0, the enables NV to IOV from bit 0. -/
structure Vcsr where
  enables : BitVec 7 := 0
  flags : BitVec 9 := 0
  sat8 : Bool := false
  vxrm : BitVec 2 := 0
  frm : BitVec 3 := 0
  deriving DecidableEq, Repr

/-- The trap registers (R282). -/
structure TrapRegs where
  tvec : Word := 0
  tcause : Word := 0
  tepc : Word := 0
  telem : Word := 0
  trow : Word := 0
  taddr : Word := 0
  tinfo : Word := 0
  deriving DecidableEq, Repr

/-- The queues of a core (R206). -/
inductive QueueNo where
  | vector | matrix | copy
  deriving DecidableEq, Repr

/-- The six token FIFOs, in the order of R64. -/
inductive Fifo where
  | vm | mv | vc | cv | mc | cm
  deriving DecidableEq, Repr

/-- The counts of R211 and the tokens held, for one FIFO. -/
structure Tokens where
  u : Int := 0
  f : Int := 0
  held : Nat := 0
  deriving DecidableEq, Repr

/-- A dispatched instruction that has not completed, with what it captured at dispatch (R79, R206, R268, R281). -/
structure Entry where
  seq : Nat
  queue : QueueNo
  instr : Instr
  pc : Word
  bytes : Nat
  vl : Nat
  vt : VType
  vstart : Nat
  /-- The scalar operands g[vs1], rounded for a float instruction (R153), and g[vs2]. -/
  sa : Word
  sb : Word
  level : Level
  asid : BitVec 16
  mode : DMode
  shape : Nat
  /-- The top of the mask stack, for the matrix majors (R234). -/
  top : BitVec 2048
  /-- The strip of a split loop that it belongs to: the loop and the strip's number in it (R84). -/
  strip : Option (Nat × Nat)
  popped : Bool
  parked : Bool
  /-- It raised the trap that parked it (R284). -/
  trapped : Bool := false
  /-- The last chain of its context ended while no promise was left for its pop (R211). -/
  doomed : Bool := false
  /-- What happens before it by the time of its dispatch, and what a release by it covers of the accesses before it (R252). -/
  hb : Clock := []
  past : Clock := []
  deriving DecidableEq, Repr

/-- An open loop of a chain (R223). -/
structure OpenLoop where
  entry : Word
  left : Nat
  iter : Nat
  srcAdv : Word
  dstAdv : Word
  deriving DecidableEq, Repr

/-- A copy chain (R219-R225), with the level, asid and mode of its issue. -/
structure Chain where
  head : Word
  at_ : Word
  /-- The object of the `cpy`; 0 in a chain that the chase started. -/
  obj : Word
  chase : Bool
  scope : Nat
  push : Nat
  level : Level
  asid : BitVec 16
  fwd : Bool
  tag : BitVec 32
  loops : List OpenLoop
  /-- The start number of the record that issued it. -/
  start : Nat
  /-- The issuing record has exited, so an error is logged (R225). -/
  exited : Bool
  /-- Its number as a thread, and the durable writes that happen before its accesses (R258). -/
  no : Nat := 0
  hb : Clock := []
  deriving DecidableEq, Repr

/-- A galley entry that has not been spilled (R271): its address, its bytes, and the granules that hold the poison code. -/
structure GalleyEntry where
  addr : Word
  bytes : List Byte
  pois : List Nat
  deriving DecidableEq, Repr

/-- What a context keeps for a barrier (R261): the phase of its last arrival, or the mark of an ended participation. -/
inductive Part where
  | phase (p : Nat)
  | ended
  deriving DecidableEq, Repr

/-- The wait of a `bar` whose arrival is counted (R261). -/
structure BarWait where
  key : Nat
  phase : Nat
  deriving DecidableEq, Repr

/-- An asynchronous trap that is pending (R287). -/
structure AsyncTrap where
  cause : Nat
  addr : Word
  info : Word
  deriving DecidableEq, Repr

/-- A continuation record with what travels with it (R324, R325). -/
structure Rec where
  w0 : Word
  w1 : Word
  w2 : Word
  w3 : Word
  tag : BitVec 32
  asid : BitVec 16
  cr : Word
  /-- The scope of the acquire that the popping context makes (R130, R333). -/
  scope : Nat
  /-- Pops of its level since it was queued (R331). -/
  waited : Nat
  /-- Pops of the die since it was queued or last signalled for (R337). -/
  pops : Nat
  /-- Its place among the records that have entered a join reserve (R327). -/
  no : Nat := 0
  /-- The durable writes that happen before its start (R252). -/
  hb : Clock := []
  /-- What a yielded record keeps of the barriers on which it is a participant (R133, R261). -/
  parts : Tab Part := []
  deriving DecidableEq, Repr

/-- The record that a context runs. -/
structure Running where
  w0 : Word
  w2 : Word
  tag : BitVec 32
  /-- The order in which records started (R337). -/
  start : Nat
  deriving DecidableEq, Repr

/-- A remote operation of a context that has not been reported (R407). -/
structure Remote where
  op : Nat
  major : Nat
  /-- The scope and the class of an `rredst`, which is a posted operation (R363, R406). -/
  scope : Nat
  cls : Nat
  refused : Option Refused
  acked : Bool
  /-- The hub's port that it left by. -/
  port : Nat
  deriving DecidableEq, Repr

/-- A loop context (R70). -/
structure Ctx where
  status : Status := .idle
  pc : Word := 0
  g : Tab Word := []
  /-- Scalar registers that hold an uncorrectable error (R295). -/
  gp : List Nat := []
  v : Tab Row := []
  m : Tab (BitVec 2048) := []
  k : Tab (BitVec 16384) := []
  /-- The mask stack, the top first. -/
  stack : List (BitVec 2048) := []
  vl : Nat := 256
  vt : VType := {}
  vstart : BitVec 16 := 0
  vrem : Word := 0
  vsc : Vsc := {}
  /-- Hardware loops begun since the record began, and whether a `vstrip` of a split loop awaits its `vnext` (R84). -/
  loopNo : Nat := 0
  inStrip : Bool := false
  vcsr : Vcsr := {}
  pm : BitVec 2048 := 0
  prows : BitVec 64 := 0
  mode : DMode := .off
  galbase : Word := 0
  galptr : Word := 0
  gallim : Word := 0
  galBuf : List GalleyEntry := []
  level : Level := .u
  trap : TrapRegs := {}
  /-- Traps held and not yet returned from (R288), and for a trap with q = 1 the resume point of R284. -/
  held : Nat := 0
  resume : Option Word := none
  /-- The record started at S, and has neither reached U nor executed `ctxrs` (R288). -/
  begunS : Bool := false
  /-- A trap has been entered and no instruction at `tvec` has been fetched yet (R283). -/
  entering : Bool := false
  asid : BitVec 16 := 0
  /-- Dispatched entries that have not completed, oldest first. -/
  queue : List Entry := []
  /-- Entries dispatched since the record began. -/
  seq : Nat := 0
  tokens : Tab Tokens := []
  shape : Nat := 128
  latch : Bool := false
  /-- The line of the most recent `lda` (R127), as physical address div 64. -/
  ldaLine : Option Nat := none
  /-- Unsuccessful looks at the event latch since `wfe` began to wait. -/
  wfeLooks : Nat := 0
  chain : Option Chain := none
  /-- Chains started by the chase that wait for the slot (R218, R220). -/
  chainQueue : List Chain := []
  parts : Tab Part := []
  /-- By the address of the `bar` that waits and its level. -/
  barWaits : Tab BarWait := []
  async : List AsyncTrap := []
  rec_ : Option Running := none
  /-- Pre-empted, or signalled: no second signal is sent (R289, R337). -/
  signalled : Bool := false
  remote : List Remote := []
  deriving DecidableEq, Repr

/-! ## Cores, quads, dies -/

/-- A cached line of 64 bytes with its per-byte dirty mask and the marks of its granules (R15, R254, R295). -/
structure Line where
  data : BitVec 512 := 0
  dirty : BitVec 64 := 0
  pois : BitVec 8 := 0
  /-- The way of its set, in a quad cache (R312). -/
  way : Nat := 0
  /-- The dirty bytes that were written through the window of the quad store (R316). -/
  win : BitVec 64 := 0
  /-- The granules that an error of the quad's SRAM has poisoned (R322). -/
  err : BitVec 8 := 0
  /-- The first write of each thread that the dirty bytes of a durable line hold (R378). -/
  by_ : Tab Nat := []
  deriving DecidableEq, Repr

/-- A masked write of a line: its bytes, the marks of its poisoned granules, and for a durable line the first write of each
thread that it holds and the vector store that it belongs to, if any. -/
structure Patch where
  data : BitVec 512
  mask : BitVec 64
  pois : BitVec 8
  by_ : Tab Nat := []
  op : Nat := 0
  deriving DecidableEq, Repr

/-- A TLB entry (R348): the asid, the page size, the page's VA and its leaf. -/
structure TlbEntry where
  asid : BitVec 16
  big : Bool
  page : Nat
  pte : Word
  deriving DecidableEq, Repr

/-- A walk-cache entry: the table that a prefix of the address leads to (R348). -/
structure WalkEntry where
  asid : BitVec 16
  lvl : Nat
  key : Nat
  table : Nat
  deriving DecidableEq, Repr

/-- A row of a tile: 128 FP32 elements with their marks (R229). -/
structure TileRow where
  bits : BitVec 4096 := 0
  pois : BitVec 128 := 0
  deriving DecidableEq, Repr

/-- The state of a plane that the front end keeps (R231). -/
structure PlaneTag where
  fmt : Nat
  k : Nat
  n : Nat
  deriving DecidableEq, Repr

/-- A loaded plane of a forme (R230). A column of weights takes 2,048 bits, a column block 1,024 bits of metadata (two bits
for each stored element) and 128 bits of scales. -/
structure Plane where
  tag : PlaneTag
  weights : Tab (BitVec 2048)
  mdata : Tab (BitVec 1024)
  scales : Tab (BitVec 128)
  /-- Marks by column, one for each logical row. -/
  pois : Tab (BitVec 1024)
  deriving DecidableEq, Repr

/-- A forme: both planes, and their states in program order (R230, R231). -/
structure Forme where
  active : Option Plane := none
  shadow : Option Plane := none
  activeTag : Option PlaneTag := none
  shadowTag : Option PlaneTag := none
  deriving DecidableEq, Repr

/-- A counter of the chase (R215, R216). -/
structure Counter where
  owner : CtxNo
  word : Word
  count : Nat
  deriving DecidableEq, Repr

/-- Where a term stands between its edges: its inputs are not all true; they have become true and it will fire; it has fired and
they have not been false since (R215). -/
inductive TermPhase where
  | low | due | fired
  deriving DecidableEq, Repr

/-- A term of the chase with the level and asid of its `evcfg` (R215-R218). -/
structure Term where
  owner : CtxNo
  word : Word
  armed : Bool
  phase : TermPhase
  /-- The dispatch number at which its hold stands (R217). -/
  holdAt : Nat
  level : Level
  asid : BitVec 16
  deriving DecidableEq, Repr

/-- An entry of the retirement tracker (R227). -/
structure Tracker where
  x : CtxNo
  tag : BitVec 32
  asid : BitVec 16
  level : Level
  join : Word
  /-- The start number of the ended record, whose chains it waits for. -/
  start : Nat
  /-- Posted operations that it waits for. -/
  posted : List Nat
  deriving DecidableEq, Repr

/-- A core (R12, R15). -/
structure Core where
  l1 : Tab Line := []
  icache : Tab Line := []
  tlb : List TlbEntry := []
  tiles : Tab (Tab TileRow) := []
  formes : Tab Forme := []
  tallot : Word := 0xBA98BA98
  wallot : Word := 0xBA98BA98
  cyc : Word := 0
  /-- The counts p of R297 and R246. -/
  proofLane : Nat := 0
  proofCol : Nat := 0
  corrected : Nat := 0
  withdrawn : Bool := false
  retired : Bool := false
  firstMismatch : Bool := false
  counters : Tab Counter := []
  terms : Tab Term := []
  tracker : Tab Tracker := []
  deriving DecidableEq, Repr

/-- A violation-log entry (R300). -/
structure LogEntry where
  addr : Word
  who : BitVec 16
  kind : Nat
  reason : Nat
  tag : BitVec 32
  cyc : Word
  deriving DecidableEq, Repr

/-- A violation log: the first 8 refusals and the count of those lost (R300). -/
structure VLog where
  entries : List LogEntry := []
  lost : Nat := 0
  deriving DecidableEq, Repr

/-- `qcfg` but for bnd (R319). -/
structure Qcfg where
  thr : BitVec 16 := 0x0400
  pin : Bool := false
  pbnd : BitVec 6 := 0
  deriving DecidableEq, Repr

/-- A quad (R312-R322). -/
structure Quad where
  cache : Tab Line := []
  store : List Host.Cell := []
  storeMarks : List Nat := []
  bound : Nat := 0
  /-- The move that the last interval decided and that has not been made: up or down (R317, R318). -/
  moving : Option Bool := none
  owner : Option (BitVec 32) := none
  dmin : Nat := 0
  dmax : Nat := 0
  back : Word := 0
  /-- The physical numbers of the 64 KiB pages of the owner's backing area, as they were translated at admission (R315). -/
  pages : List Nat := []
  cfg : Qcfg := {}
  sPlus : Nat := 0
  sMinus : Nat := 0
  cPlus : Nat := 0
  cMinus : Nat := 0
  /-- The line that one more way would hold of each sampling set: the shadow tags (R318). -/
  shadow : Tab Nat := []
  /-- Retired banks (R322). -/
  banks : List Nat := []
  tlb : List TlbEntry := []
  /-- Counts of the completion counter tree by launch tag (R334). -/
  counts : Tab Int := []
  deriving DecidableEq, Repr

/-- An active or ended collective record (R410-R412). -/
structure Coll where
  x : CtxNo
  tag : BitVec 32
  asid : BitVec 16
  level : Level
  scope : Nat
  obj : Word
  /-- The 16 doublewords of the record. -/
  words : List Word
  next : Nat
  /-- The transfers in flight: the number of the operation, and the transfer's k. -/
  flight : Tab Nat
  failed : Bool
  /-- The start number of the issuing record. -/
  start : Nat
  /-- Its number as a thread, and the durable writes that happen before its accesses (R258). -/
  no : Nat := 0
  hb : Clock := []
  deriving DecidableEq, Repr

/-- A DVFS request word (R387). -/
structure Dvfs where
  ex : Bool := false
  step : BitVec 4 := 8
  pcap : BitVec 10 := 0
  deriving DecidableEq, Repr

/-- A backing ring: its base and how many records it holds (R329). -/
structure Ring where
  base : Word
  size : Nat
  deriving DecidableEq, Repr

/-- An entry of the handle table (R333). -/
structure HandleEntry where
  writer : Option (BitVec 32)
  readers : Nat
  deriving DecidableEq, Repr

/-- The journal area of a die and the last record in it (R338): the step's number, for each queue the records that have left it
and those that its ring holds, the host queues with a pending kick, and the live launches with their handle entries. -/
structure Journal where
  base : Word := 0
  seqNo : Nat := 0
  heads : List Nat := []
  ringed : List Nat := []
  kicks : List Nat := []
  live : List (BitVec 32) := []
  handles : Tab HandleEntry := []
  deriving DecidableEq, Repr

/-- A compute die (R12, R16). -/
structure Die where
  queues : Tab (List Rec) := []
  starve : Tab Nat := []
  reserve : List Rec := []
  transit : List Rec := []
  /-- Records popped from each queue, and whether its overdue records have been tested since the last pop (R337, R338). -/
  popped : Tab Nat := []
  tested : Bool := true
  /-- The backing rings that firmware has set (R329). -/
  rings : Tab Ring := []
  counts : Tab Int := []
  /-- Link directory: (line, context), the most recently set first (R343). -/
  links : List (Nat × CtxNo) := []
  /-- The asid table (R344). -/
  root0 : Tab Nat := []
  root1 : Tab Nat := []
  walks : List WalkEntry := []
  collTlb : List TlbEntry := []
  /-- Controllers that still work: 2, 1 or 0; the active one has failed and its standby has not finished the take-over (R338). -/
  controllers : Nat := 2
  takeover : Bool := false
  journal : Journal := {}
  noVictims : BitVec 12 := 0
  dvfs : Dvfs := {}
  clock : Nat := 8
  temp : Nat := 0
  thermal : Nat := 8
  withdrawn : Bool := false
  hubUp : Bool := true
  /-- Dies whose direct link to this one has failed (R359). -/
  linkDown : List Nat := []
  coll : Tab Coll := []
  /-- Granules of the staging SRAM that hold an uncorrectable error (R16, R295). -/
  staging : List Nat := []
  /-- The instruction caches of the dispatch controllers (R352). -/
  icache : Tab Line := []
  deriving DecidableEq, Repr

/-! ## Shared objects -/

/-- The states of a barrier (R261). -/
inductive BarState where
  | idle | open_ | broken
  deriving DecidableEq, Repr

/-- The participants of a pod barrier on another device: those that have arrived in the current phase, and how many there are, by
the largest number of arrivals in one phase (R409). -/
structure PodPart where
  dev : Coord3
  now : Nat
  most : Nat
  deriving DecidableEq, Repr

/-- A barrier; `drops` counts the decrements that wait for the next phase, `brks` lists the phases that ended broken. -/
structure Barrier where
  state : BarState := .idle
  n : Nat := 0
  a : Nat := 0
  drops : Nat := 0
  phase : Nat := 0
  /-- The owning launch's tag, or at pod scope the owning asid (R260). -/
  owner : Nat := 0
  brks : List Nat := []
  /-- The phase at which it last became Idle: every mark of an earlier phase is one of an ended participation. -/
  idleAt : Nat := 0
  devs : List PodPart := []
  deriving DecidableEq, Repr

/-- The operations of a read-modify-write at home (R122, R196, R273, R274). -/
inductive AtomOp where
  | add | and | or | xor | min | max | minu | maxu | swap | fadd | bfadd | sadd | clear
  deriving DecidableEq, Repr

/-- Where an address is executed (R340, R342, R360, R371, R316). -/
inductive Home where
  | slice | unit | durable | store (q : Nat)
  deriving DecidableEq, Repr

/-- One read-modify-write at home: its physical address (or window offset), bytes, operation, operand and its poison. -/
structure Atom where
  home : Home
  addr : Nat
  size : Nat
  op : AtomOp
  val : Nat
  pois : Bool
  deriving DecidableEq, Repr

/-- A posted operation (R363). -/
structure Posted where
  no : Nat
  x : CtxNo
  tag : BitVec 32
  cls : Nat
  scope : Nat
  /-- It entered the vector queue (R257). -/
  vector : Bool
  /-- It is an adjoint access (R268). -/
  adj : Bool
  /-- It has arrived at its base-die unit (R361). -/
  arrived : Bool
  atoms : List Atom
  /-- The start number of the issuing record, and the release that the operation is (R259). -/
  start : Nat := 0
  rel : Option Release := none
  deriving DecidableEq, Repr

/-- An optimiser command in progress (R364-R366). -/
structure Nmop where
  no : Nat
  x : CtxNo
  tag : BitVec 32
  asid : BitVec 16
  level : Level
  op : Nat
  scope : Nat
  obj : Word
  /-- The 12 doublewords of the parameter block. -/
  block : List Word
  /-- Physical bases of x, g, m and v. -/
  bases : List Nat
  /-- Elements not yet applied. -/
  left : List Nat
  /-- The durable writes that happen before its accesses (R258). -/
  hb : Clock := []
  deriving DecidableEq, Repr

/-- A valid entry of a region table (R264). -/
structure Region where
  base : Word
  len : Word
  type : BitVec 2
  adj : Word
  notape : Bool
  keepadj : Bool
  deriving DecidableEq, Repr

/-! ## The hub -/

/-- The boot states of the hub (R382); `off` is a package without power. -/
inductive Boot where
  | off | rom | wait | verify | load | run
  deriving DecidableEq, Repr

/-- A live launch (R332-R336). -/
structure Launch where
  tag : BitVec 32
  queue : Nat
  entry : Nat
  entryVa : Word
  asid : BitVec 16
  root : Word
  frame : Word
  arg : Word
  prio : Nat
  dmin : Nat
  dmax : Nat
  back : Word
  /-- The physical numbers of the 64 KiB pages of the backing area, translated at admission (R315). -/
  pages : List Nat
  /-- (handle, writes) of the descriptor. -/
  handles : List (Nat × Bool)
  die : DieNo
  deps : List (BitVec 32)
  dab : Bool
  rooted : Bool
  total : Int
  /-- The hub has asked for confirmation; the dies that have confirmed (R334). -/
  asked : Bool
  confirmed : List Nat
  complete : Bool
  aborted : Bool
  kwhy : Nat
  kcause : Nat
  kctx : Nat
  nviol : Nat
  /-- The durable writes of the host that happen before it (R418). -/
  hb : Clock := []
  deriving DecidableEq, Repr

/-- A host queue (R416, R417). -/
structure HostQueue where
  asid : BitVec 16 := 0
  rbase : Word := 0
  rlog : Nat := 0
  setUp : Bool := false
  tail : Nat := 0
  /-- Entries that have been admitted or refused as launches. -/
  admitted : Nat := 0
  free : Nat := 0
  /-- Entries done out of order, waiting to extend the free count. -/
  done : List Nat := []
  seqIn : BitVec 32 := 0
  seqOut : BitVec 32 := 0
  deriving DecidableEq, Repr

/-- A device frame that the host has not acknowledged, with its retransmissions (R416). -/
structure Unacked where
  frame : Frame
  sent : Nat
  deriving DecidableEq, Repr

/-- A write on its way to a durable line (R372), with the context whose durable-scope store it is (R376). -/
structure DurableWrite where
  line : Nat
  put : Patch
  x : Option CtxNo
  deriving DecidableEq, Repr

/-- An entry of a home history: the line's contents, the first write of each thread in the write that gave it, and the vector store
that it belongs to (R378). -/
structure HistoryEntry where
  data : BitVec 512
  pois : BitVec 8
  by_ : Tab Nat
  op : Nat := 0
  deriving DecidableEq, Repr

/-- The home history of a durable line (R378): entries from the start of the power cycle, the newest first, and how many of
the newest may still be chosen. -/
structure History where
  entries : List HistoryEntry
  eligible : Nat
  deriving DecidableEq, Repr

/-- A torus port's `lnkcfg` (R398). -/
structure Port where
  thr : BitVec 16 := 0x0100
  pin : Bool := false
  prate : BitVec 3 := 0
  cur : Nat := 0
  st : Nat := 0
  /-- Flits sent again from the replay buffer (R397). -/
  replays : Nat := 0
  deriving DecidableEq, Repr

/-- What a core's snapshot records for a context (R299). -/
structure SnapCtx where
  pc : Word
  level : Level
  cause : Word
  queued : List Nat
  deriving DecidableEq, Repr

/-- The snapshot registers (R299). -/
structure Snapshot where
  seqNo : BitVec 16 := 0
  armed : Bool := true
  missed : Nat := 0
  latchedSeq : Option (BitVec 16) := none
  ctxs : Tab SnapCtx := []
  /-- The cores' counts as they stood, and the free values from which every block's local count is taken. -/
  cycs : Tab Word := []
  cycFrom : Nat := 0
  deriving DecidableEq, Repr

/-- A boot report (R385): the persist status word, the measurement, `errata`, the identity key, retired cores, retired banks by
quad, ring sizes by priority, and corrected-event counts by core. -/
structure BootReport where
  persist : Nat
  measurement : Nat
  errata : Word
  key : List Byte
  cores : List Nat
  banks : List (Nat × List Nat)
  rings : List Nat
  corrected : List (Nat × Nat)
  deriving DecidableEq, Repr

/-- The persist status word (R379). -/
structure PersistStatus where
  cycles : Nat := 1
  bad : Bool := false
  drain : Bool := true
  loss : Bool := false
  deriving DecidableEq, Repr

/-- A listed encoding: its length, its major, and the fields that select its form: fn3 and fn4, or fn3 or fn11 of a 32-bit one. -/
structure Encoding where
  long : Bool
  major : Nat
  fn : Nat
  deriving DecidableEq, Repr

/-- The hub die (R12, R17, R369-R419). -/
structure Hub where
  boot : Boot := .rom
  /-- Lanes of the Ethernet port that are up (R382). -/
  lanes : Nat := 0
  /-- The EtherType of BMT frames (R415). -/
  etherType : BitVec 16 := 0x88B5
  /-- Image bytes received in WAIT, by offset, zeros included (R382). -/
  image : Tab Byte := []
  imageStatus : Nat := 0
  svn : Nat := 0
  minSvn : Nat := 0
  measurement : Nat := 0
  errataGen : Nat := 1
  errataMask : BitVec 56 := 0
  /-- Encodings that the fount table marks absent (R353, R67). -/
  absent : List Encoding := []
  nextTag : Nat := 1
  launches : Tab Launch := []
  handles : Tab HandleEntry := []
  queues : Tab HostQueue := []
  /-- The launches whose completion a reconciliation has found, by tag, and that have not completed (R338). -/
  found : List Nat := []
  /-- The queues of the launches that have arrived and wait, in the order of arrival (R332). -/
  arrivals : List Nat := []
  unacked : List Unacked := []
  hostLost : Bool := false
  /-- Every frame sent to the host, the newest first. -/
  sent : List Frame := []
  /-- Boot reports sent, the newest first. -/
  reports : List BootReport := []
  /-- Lines that the persist buffer holds and has not drained (R372). -/
  buffer : List Nat := []
  waiting : List DurableWrite := []
  history : Tab History := []
  persist : PersistStatus := {}
  drainShare : Nat := 0
  ports : Tab Port := []
  dims : Nat × Nat × Nat := (1, 1, 1)
  me : Coord3 := ⟨0, 0, 0⟩
  downLinks : List (Coord3 × PortNo) := []
  failed : List Coord3 := []
  nextOp : Nat := 1
  /-- Packets sent to other devices, the newest first. -/
  outSlots : List SlotPacket := []
  outReduces : List ReducePacket := []
  outNotices : List NoticePacket := []
  outColls : List CollPacket := []
  outPods : List (Nat × PodMessage) := []
  /-- Acknowledgements sent: the device, the operation's number, its refusal, and a wire overflow. -/
  outAcks : List (Coord3 × Nat × Option Refused × Bool) := []
  tlb : List TlbEntry := []
  /-- The package power limit in watts (R388). -/
  powerLimit : Nat := 3600
  snap : Snapshot := {}
  vlogs : Tab VLog := []
  deriving DecidableEq, Repr

/-! ## The machine -/

/-- What happens at a step that the agenda names. -/
inductive Turn where
  /-- The next instruction of a context, or its wait. -/
  | run (x : CtxNo)
  /-- An event of the opcode table with its operand. -/
  | event (i : Instr) (a : EventArg)
  /-- A core's L1 evicts a line, writing its dirty bytes to the quad cache or home. -/
  | evictL1 (c : CoreNo) (line : Nat)
  /-- A quad cache evicts a line. -/
  | evictQuad (q : QuadNo) (line : Nat)
  /-- A core drops an instruction-cache line. -/
  | dropCode (c : CoreNo) (line : Nat)
  /-- A TLB drops its oldest entry. -/
  | dropTlb (c : CoreNo)
  /-- An L2 slice evicts a line. -/
  | evictL2 (line : Nat)
  /-- The proof lane or the proof column of a core finds a mismatch at the next checked instruction of a context. -/
  | upset (x : CtxNo) (twice : Bool)
  /-- A record of a die's join reserve enters its queue, which has room (R327). -/
  | reserve (d : DieNo)
  deriving DecidableEq, Repr

/-- The whole machine. -/
structure State where
  ctxs : Tab Ctx := []
  cores : Tab Core := []
  quads : Tab Quad := []
  dies : Tab Die := []
  /-- HBM4 and durable memory by physical address (R340), in canonical form. -/
  mem : List Host.Cell := []
  /-- The lines that the L2 slices hold (R342). -/
  l2 : Tab Line := []
  /-- Granules (physical address div 8) that hold the poison code (R295), in rising order. -/
  marks : List Nat := []
  /-- Region tables: asid x 64 + index (R264). -/
  regions : Tab Region := []
  /-- Barriers by scope, unit and id (R22). -/
  bars : Tab Barrier := []
  posted : List Posted := []
  nmops : List Nmop := []
  hub : Hub := {}
  /-- The context whose turn it is, and what happens before its turn: the model's schedule. -/
  cur : CtxNo := 0
  agenda : List Turn := []
  /-- The last step was one of the package's own: the next is a context's. -/
  yours : Bool := false
  /-- The operand of the event that takes place. -/
  arg : EventArg := .none
  /-- The model's account of what happens before what among durable writes (R252, R378). -/
  before : Before := {}
  /-- Numbers given to posted operations, commands and started records. -/
  serial : Nat := 0
  /-- A pending verdict of the checking hardware: a context, and whether the replay mismatches too (R297). -/
  upset : Option (CtxNo × Bool) := none
  /-- How many free values have been drawn. -/
  fresh : Nat := 0
  deriving DecidableEq, Repr

/-- The state right after reset: the package has just powered up, the hub is in ROM (R382), nothing runs. -/
def State.reset : State := {}

end Sys2Proof.Machine
end

