-- ==== Sys2Proof/Machine/Access.lean ====
section
/-! DEFINITION. The accessors of the state, through which every register, core, quad and die is read and written, and the
computation type of the machine. -/

namespace Sys2Proof.Machine

/-! ## Computations -/

/-- A trap as its rule determines it (R286). -/
structure TrapInfo where
  cause : Nat
  addr : Word := 0
  info : Word := 0
  elem : Nat := 0
  row : Nat := 0
  /-- The reason that the refusing block logs with a VIOL (R300); no trap register holds it. -/
  reason : Nat := 0
  /-- The element at which a queued instruction starts again, where that is not `elem` (R81, R272, R274). -/
  start : Option Nat := none
  deriving DecidableEq, Repr

/-- Why a computation does not finish: a trap, or a wait that ends without effect and is tried again. -/
inductive Stop where
  | trap (t : TrapInfo)
  | wait
  deriving DecidableEq, Repr

/-- A computation over the state; on a stop the state holds the effects made before it. -/
abbrev M := EStateM Stop State

/-- Raises a trap. -/
def raise {α : Type} (t : TrapInfo) : M α := throw (.trap t)

/-- Stops until a later try. -/
def stall {α : Type} : M α := throw .wait

/-- Runs `f` on each element in order. -/
def each {α : Type} : List α → (α → M Unit) → M Unit
  | [], _ => pure ()
  | a :: t, f => do f a; each t f

/-- Folds over a list in order. -/
def foldM {α β : Type} : List α → β → (β → α → M β) → M β
  | [], b, _ => pure b
  | a :: t, b, f => do
    let b' ← f b a
    foldM t b' f

/-- Draws one free value. -/
def draw : M Word := fun s => .ok (Config.freeWord s.fresh) { s with fresh := s.fresh + 1 }

/-! ## Numbers of the hierarchy (R8) -/

/-- The core of a context. -/
def coreOf (x : CtxNo) : Nat := x.toNat / 4
/-- The quad of a context, die x 16 + quad. -/
def quadOf (x : CtxNo) : Nat := x.toNat / 16
/-- The die of a context. -/
def dieOf (x : CtxNo) : Nat := x.toNat / 256
/-- The quad of a core. -/
def coreQuad (c : Nat) : Nat := c / 4
/-- The die of a core. -/
def coreDie (c : Nat) : Nat := c / 64
/-- The die of a quad. -/
def quadDie (q : Nat) : Nat := q / 16
/-- The contexts of a core. -/
def ctxsOfCore (c : Nat) : List CtxNo := [0, 1, 2, 3].map fun i => BitVec.ofNat 10 (4 * c + i)

/-! ## Parts of the state -/

/-- A context. -/
def State.ctx (s : State) (x : CtxNo) : Ctx := Tab.look {} s.ctxs x.toNat
/-- Replaces a context. -/
def State.setCtx (s : State) (x : CtxNo) (c : Ctx) : State := { s with ctxs := Tab.put s.ctxs x.toNat c }
/-- Changes a context. -/
def State.modCtx (s : State) (x : CtxNo) (f : Ctx → Ctx) : State := s.setCtx x (f (s.ctx x))
/-- A core. -/
def State.core (s : State) (c : Nat) : Core := Tab.look {} s.cores c
/-- Changes a core. -/
def State.modCore (s : State) (c : Nat) (f : Core → Core) : State := { s with cores := Tab.put s.cores c (f (s.core c)) }
/-- A quad. -/
def State.quad (s : State) (q : Nat) : Quad := Tab.look {} s.quads q
/-- Changes a quad. -/
def State.modQuad (s : State) (q : Nat) (f : Quad → Quad) : State := { s with quads := Tab.put s.quads q (f (s.quad q)) }
/-- A die. -/
def State.die (s : State) (d : Nat) : Die := Tab.look {} s.dies d
/-- Changes a die. -/
def State.modDie (s : State) (d : Nat) (f : Die → Die) : State := { s with dies := Tab.put s.dies d (f (s.die d)) }
/-- Changes the hub. -/
def State.modHub (s : State) (f : Hub → Hub) : State := { s with hub := f s.hub }

/-- Changes the state. -/
def upd (f : State → State) : M Unit := modify f
/-- Changes a context. -/
def updCtx (x : CtxNo) (f : Ctx → Ctx) : M Unit := modify fun s => s.modCtx x f
/-- Reads a context. -/
def ctxM (x : CtxNo) : M Ctx := do return (← get).ctx x
/-- A new serial number. -/
def serialM : M Nat := fun s => .ok s.serial { s with serial := s.serial + 1 }

/-! ## Registers of a context -/

/-- A scalar register; g0 reads 0 (R7, R29). -/
def Ctx.rg (c : Ctx) (r : Reg) : Word := if r = 0 then 0 else Tab.look 0 c.g r.toNat
/-- Writes a scalar register, whose error is gone; a write to g0 is discarded (R29, R295). -/
def Ctx.wg (c : Ctx) (r : Reg) (w : Word) : Ctx :=
  if r = 0 then c else { c with g := Tab.put c.g r.toNat w, gp := c.gp.filter fun n => n != r.toNat }
/-- The scalar register that a g operand of a 64-bit instruction names (R57). -/
def gpr (f : BitVec 8) : Reg := BitVec.ofNat 5 f.toNat
/-- A vector row. -/
def Ctx.row (c : Ctx) (r : Nat) : Row := Tab.look {} c.v r
/-- Writes a vector row. -/
def Ctx.setRow (c : Ctx) (r : Nat) (w : Row) : Ctx := { c with v := Tab.put c.v r w }
/-- A mask register. -/
def Ctx.mask (c : Ctx) (m : Nat) : BitVec 2048 := Tab.look 0 c.m m
/-- Writes a mask register. -/
def Ctx.setMask (c : Ctx) (m : Nat) (w : BitVec 2048) : Ctx := { c with m := Tab.put c.m m w }
/-- A scale register. -/
def Ctx.scale (c : Ctx) (k : Nat) : BitVec 16384 := Tab.look 0 c.k k
/-- Writes a scale register. -/
def Ctx.setScale (c : Ctx) (k : Nat) (w : BitVec 16384) : Ctx := { c with k := Tab.put c.k k w }
/-- The top of the mask stack, all ones when it is empty (R178). -/
def Ctx.top (c : Ctx) : BitVec 2048 := match c.stack with | [] => BitVec.allOnes 2048 | t :: _ => t
/-- The tag of the launch whose record the context runs, or 0. -/
def Ctx.tag (c : Ctx) : BitVec 32 := match c.rec_ with | some r => r.tag | none => 0

/-- The start number of the context's record. -/
def Ctx.start (c : Ctx) : Nat := match c.rec_ with | some r => r.start | none => 0

/-! ## Rows and elements (R72) -/

/-- The element of column `c` at width `ew`. -/
def Row.elem (w : Row) (ew c : Nat) : Nat := (w.bits >>> (c * ew)).toNat % 2 ^ ew
/-- True when any part of the element is poisoned. -/
def Row.bad (w : Row) (ew c : Nat) : Bool := (w.pois >>> (c * ew / 4)).toNat % 2 ^ (ew / 4) != 0
/-- Writes an element without poison. -/
def Row.put (w : Row) (ew c v : Nat) : Row :=
  let m := BitVec.ofNat 8192 (2 ^ ew - 1) <<< (c * ew)
  let p := BitVec.ofNat 2048 (2 ^ (ew / 4) - 1) <<< (c * ew / 4)
  { bits := (w.bits &&& ~~~m) ||| (BitVec.ofNat 8192 (v % 2 ^ ew) <<< (c * ew)), pois := w.pois &&& ~~~p }
/-- Writes 0 to an element and marks it poisoned. -/
def Row.spoil (w : Row) (ew c : Nat) : Row :=
  let w' := w.put ew c 0
  { w' with pois := w'.pois ||| (BitVec.ofNat 2048 (2 ^ (ew / 4) - 1) <<< (c * ew / 4)) }

/-! ## Control registers (R75, R82, R100) -/

/-- The width in bits of an ew code (R75). -/
def ewBits (ew : Nat) : Nat := 4 * 2 ^ ew
/-- The element width of a `vtype`. -/
def VType.bitsW (t : VType) : Nat := ewBits t.ew.toNat
/-- The group size of a `vtype`. -/
def VType.size (t : VType) : Nat := 2 ^ t.g.toNat
/-- VLMAX of a `vtype` (R72). -/
def VType.vlmax (t : VType) : Nat := 8192 / t.bitsW
/-- The word that `vtype` reads as. -/
def VType.word (t : VType) : Nat :=
  (if t.ks then 2 ^ 14 else 0) + t.k.toNat * 2 ^ 10 + t.g.toNat * 2 ^ 7 + t.kind.toNat * 8 + t.ew.toNat
/-- The `vtype` of an image (R75, R76), or none when it is invalid. -/
def vtypeOf (image : Nat) : Option VType :=
  let t : VType := { ks := image.testBit 14, k := BitVec.ofNat 4 (bitsOf 13 10 image), g := BitVec.ofNat 3 (bitsOf 9 7 image),
                     kind := BitVec.ofNat 4 (bitsOf 6 3 image), ew := BitVec.ofNat 3 (bitsOf 2 0 image) }
  let ok := match t.kind.toNat with
    | 0 | 1 => decide (1 ≤ t.ew.toNat ∧ t.ew.toNat ≤ 4) && !t.ks
    | 2 => (t.ew == 2 || t.ew == 3) && !t.ks
    | 3 => t.ew == 2 && !t.ks
    | 4 | 5 => t.ew == 1
    | 6 => t.ew == 0 && t.ks
    | _ => false
  if image < 2 ^ 15 ∧ ok = true ∧ t.g.toNat ≤ 5 ∧ (t.ks = true ∨ t.k = 0) then some t else none
/-- The word that `vsc` reads as (R82). -/
def Vsc.word (v : Vsc) : Word :=
  BitVec.ofNat 64 ((if v.sp then 2 ^ 63 else 0) + (if v.nd then 2 ^ 62 else 0) + v.n.toNat)
/-- `vsc` from a written word; reserved bits are discarded. -/
def vscOf (w : Word) : Vsc := { sp := w.toNat.testBit 63, nd := w.toNat.testBit 62, n := w.extractLsb' 0 48 }
/-- The word that `vcsr` reads as (R100). -/
def Vcsr.word (v : Vcsr) : Word :=
  BitVec.ofNat 64 (v.enables.toNat * 2 ^ 18 + v.flags.toNat * 2 ^ 6 + (if v.sat8 then 32 else 0) + v.vxrm.toNat * 8 + v.frm.toNat)
/-- `vcsr` after a write: 6 and 7 leave frm unchanged, reserved bits are discarded (R100). -/
def Vcsr.write (v : Vcsr) (w : Word) : Vcsr :=
  let frm : BitVec 3 := w.extractLsb' 0 3
  { enables := w.extractLsb' 18 7, flags := w.extractLsb' 6 9, sat8 := w.toNat.testBit 5, vxrm := w.extractLsb' 3 2,
    frm := if 6 ≤ frm.toNat then v.frm else frm }
/-- `dmode` as read (R268). -/
def DMode.code : DMode → Nat
  | .off => 0
  | .fwd => 1
  | .rev => 2
/-- The level's code in plev (R282). -/
def Level.code : Level → Nat
  | .u => 0
  | .s => 1
  | .f => 2

/-! ## Causes (R286) -/

/-- BADHANDLE with the code of a rule. -/
def badHandle (code : Nat) (addr : Word := 0) : TrapInfo := { cause := 0x03, addr := addr, info := BitVec.ofNat 64 code }
/-- MISALIGN at an address. -/
def misalign (a : Word) : TrapInfo := { cause := 0x05, addr := a }
/-- PRIV at an instruction address. -/
def privTrap (pc : Word) : TrapInfo := { cause := 0x04, addr := pc }
/-- ILLEGAL or UNIMPL with the fields of R69. -/
def illegalInfo (reason : Nat) (pfx len : Bool) (major : Nat) : Word :=
  BitVec.ofNat 64 (reason * 2 ^ 12 + (if pfx then 512 else 0) + (if len then 256 else 0) + major)

end Sys2Proof.Machine
end

