-- ==== Sys2Proof/Machine/Flags.lean ====
section
/-! DEFINITION. Number formats, rounding and every flag computation (R91-R112). Values are exact until they are rounded. -/

namespace Sys2Proof.Machine

/-! ## Flags, in the order of `vcsr`[14:6] (R100, R107) -/

def fNV : Nat := 1
def fDZ : Nat := 2
def fOF : Nat := 4
def fUF : Nat := 8
def fNX : Nat := 16
def fSAT : Nat := 32
def fIOV : Nat := 64
def fWOVF : Nat := 128
def fMDERR : Nat := 256

/-- Sets flags in `vcsr`; flags are sticky (R100). -/
def Vcsr.raise (v : Vcsr) (fl : Nat) : Vcsr := { v with flags := v.flags ||| BitVec.ofNat 9 fl }
/-- True when a flag that is raised has its trap enable set (R107). -/
def Vcsr.traps (v : Vcsr) (fl : Nat) : Bool := v.enables.toNat &&& fl != 0

/-! ## Formats (R92) -/

/-- The floating-point formats. -/
inductive Fmt where
  | fp32 | fp16 | bf16 | e4m3 | e5m2
  deriving DecidableEq, Repr

/-- The width of a format in bits. -/
def Fmt.width : Fmt → Nat
  | .fp32 => 32
  | .fp16 | .bf16 => 16
  | .e4m3 | .e5m2 => 8
/-- Fraction bits. -/
def Fmt.frac : Fmt → Nat
  | .fp32 => 23
  | .fp16 => 10
  | .bf16 => 7
  | .e4m3 => 3
  | .e5m2 => 2
/-- The exponent bias. -/
def Fmt.bias : Fmt → Nat
  | .fp32 | .bf16 => 127
  | .fp16 | .e5m2 => 15
  | .e4m3 => 7
/-- The magnitude code of the largest finite value. -/
def Fmt.maxCode : Fmt → Nat
  | .fp32 => 0x7F7FFFFF
  | .fp16 => 0x7BFF
  | .bf16 => 0x7F7F
  | .e4m3 => 0x7E
  | .e5m2 => 0x7B
/-- The canonical NaN (R92, R93). -/
def Fmt.nan : Fmt → Nat
  | .fp32 => 0x7FC00000
  | .fp16 => 0x7E00
  | .bf16 => 0x7FC0
  | .e4m3 => 0x7F
  | .e5m2 => 0x7E
/-- The sign bit's weight. -/
def Fmt.signBit (f : Fmt) : Nat := 2 ^ (f.width - 1)

/-- An exact value. A finite magnitude is m x 2^e, or lies strictly between that and (m + 1) x 2^e when `st` is set. -/
inductive Val where
  | nan
  | inf (neg : Bool)
  | fin (neg : Bool) (m : Nat) (e : Int) (st : Bool)
  deriving DecidableEq, Repr

/-- A signed zero. -/
def Val.zero (neg : Bool) : Val := .fin neg 0 0 false
/-- The exact value of an integer. -/
def Val.ofInt (i : Int) : Val := .fin (decide (i < 0)) i.natAbs 0 false
/-- True for a zero. -/
def Val.isZero : Val → Bool
  | .fin _ m _ st => m == 0 && !st
  | _ => false
/-- True for a NaN. -/
def Val.isNan : Val → Bool
  | .nan => true
  | _ => false
/-- True for an infinity. -/
def Val.isInf : Val → Bool
  | .inf _ => true
  | _ => false
/-- The sign of a value as an operand carries it. -/
def Val.neg : Val → Bool
  | .nan => false
  | .inf n => n
  | .fin n _ _ _ => n
/-- The value with its sign inverted. -/
def Val.negate : Val → Val
  | .nan => .nan
  | .inf n => .inf (!n)
  | .fin n m e st => .fin (!n) m e st
/-- The value x 2^k, exactly. -/
def Val.scale (k : Int) : Val → Val
  | .fin n m e st => .fin n m (e + k) st
  | v => v

/-- The value of a code (R92). -/
def Fmt.decode (f : Fmt) (bits : Nat) : Val :=
  let neg := decide (f.signBit ≤ bits % (2 * f.signBit))
  let mag := bits % f.signBit
  let ex := mag >>> f.frac
  let fr := mag % 2 ^ f.frac
  let exMax := (f.signBit >>> f.frac) - 1
  if f = .e4m3 ∧ mag = 0x7F then .nan
  else if f ≠ .e4m3 ∧ ex = exMax then (if fr = 0 then .inf neg else .nan)
  else if ex = 0 then .fin neg fr (1 - (f.bias : Int) - f.frac) false
  else .fin neg (fr + 2 ^ f.frac) ((ex : Int) - f.bias - f.frac) false

/-! ## Rounding (R102-R105) -/

/-- The rounding modes (R102). -/
inductive Rm where
  | rne | rtz | rdn | rup | rna | sr
  deriving DecidableEq, Repr

/-- The mode of a code 0 to 5. -/
def rmOf (n : Nat) : Rm :=
  match n with
  | 0 => .rne
  | 1 => .rtz
  | 2 => .rdn
  | 3 => .rup
  | 4 => .rna
  | _ => .sr

/-- The dither table of R104. -/
def dither (i : Nat) : Nat := ((i % 4096 + 1) * 6180339887498949 % 10 ^ 16) * 65536 / 10 ^ 16

/-- Whether a magnitude between lo and hi rounds up: `num`/`den` is its place between them (with `st`, strictly above it), and
`odd` says that lo's code is odd (R103, R104). -/
def roundsUp (mode : Rm) (idx : Nat) (neg odd : Bool) (num den : Nat) (st : Bool) : Bool :=
  let exact := num == 0 && !st
  match mode with
  | .rne => decide (den < 2 * num) || (2 * num == den && (st || odd))
  | .rtz => false
  | .rdn => neg && !exact
  | .rup => !neg && !exact
  | .rna => decide (den ≤ 2 * num)
  | .sr => !exact && decide (65536 ≤ num * 65536 / den + dither idx)

/-- Bits needed for a magnitude. -/
def bitLen (n : Nat) : Nat := if n = 0 then 0 else n.log2 + 1

/-- A finite magnitude on the grid of step 2^qe: the step count below it, and its place above that as num / den. -/
def onGrid (m : Nat) (e qe : Int) : Nat × Nat × Nat :=
  if qe ≤ e then (m * 2 ^ (e - qe).toNat, 0, 1)
  else
    let sh := (qe - e).toNat
    (m >>> sh, m % 2 ^ sh, 2 ^ sh)

/-- Round(x, fmt, mode) of R103 with dither index `idx` and `sat8` of R94: the code and the flags. -/
def roundTo (f : Fmt) (mode : Rm) (sat8 : Bool) (idx : Nat) (x : Val) : Nat × Nat :=
  let sgn (neg : Bool) : Nat := if neg then f.signBit else 0
  let tooBig (neg : Bool) : Nat × Nat :=
    if f = .e4m3 then ((if sat8 then f.nan else sgn neg + f.maxCode), fOF ||| fNX)
    else
      let big := match mode with
        | .rtz => false
        | .rdn => neg
        | .rup => !neg
        | _ => true
      (sgn neg + f.maxCode + (if big then 1 else 0), fOF ||| fNX)
  match x with
  | .nan => (f.nan, 0)
  | .inf neg => if f = .e4m3 then tooBig neg
      else (sgn neg + (if f = .fp32 then 0x7F800000 else if f = .fp16 then 0x7C00 else if f = .bf16 then 0x7F80 else 0x7C), 0)
  | .fin neg m e st =>
    if m = 0 ∧ st = false then (sgn neg, 0)
    else
      let emin : Int := 1 - f.bias
      let top : Int := e + bitLen m - 1
      let b : Int := if top < emin then emin else top
      let (lo, num, den) := onGrid m e (b - f.frac)
      let exact := num == 0 && !st
      let q := if roundsUp mode idx neg (lo % 2 == 1) num den st then lo + 1 else lo
      let code := q + (b - emin).toNat * 2 ^ f.frac
      if f.maxCode < code then tooBig neg
      else (sgn neg + code, (if exact then 0 else fNX) ||| (if !exact && decide (top < emin) then fUF else 0))

/-- A finite value rounded to an integer, and whether it is inexact (R106, R159). -/
def roundInt (mode : Rm) (idx : Nat) (neg : Bool) (m : Nat) (e : Int) (st : Bool) : Int × Bool :=
  let (lo, num, den) := onGrid m e 0
  let q := if roundsUp mode idx neg (lo % 2 == 1) num den st then lo + 1 else lo
  ((if neg then -(q : Int) else q), !(num == 0 && !st))

/-- The fixed-point shift of R105 on an exact integer. -/
def shiftRound (vxrm : Nat) (x : Int) (s : Nat) : Int :=
  if s = 0 then x
  else
    let q := x / (2 ^ s : Nat)
    let r := (x % (2 ^ s : Nat)).toNat
    let h := r / 2 ^ (s - 1)
    let lo := r % 2 ^ (s - 1)
    match vxrm with
    | 0 => if h = 1 ∧ (lo ≠ 0 ∨ q % 2 = 1) then q + 1 else q
    | 1 => q + h
    | 2 => if (h = 1 ∨ lo ≠ 0) ∧ q % 2 = 0 then q + 1 else q
    | _ => q

/-! ## Integers (R91, R111, R112) -/

/-- The value of a pattern of width `w`. -/
def intVal (signed : Bool) (w x : Nat) : Int := if signed then sextNat w x else ((x % 2 ^ w : Nat) : Int)
/-- The pattern of an integer modulo 2^w. -/
def intBits (w : Nat) (i : Int) : Nat := (i % (2 ^ w : Nat)).toNat
/-- INT_MIN or 0. -/
def intMin (signed : Bool) (w : Nat) : Int := if signed then -((2 ^ (w - 1) : Nat) : Int) else 0
/-- INT_MAX or UMAX. -/
def intMax (signed : Bool) (w : Nat) : Int := if signed then (2 ^ (w - 1) : Nat) - 1 else (2 ^ w : Nat) - 1
/-- Clamps to a type's range and sets SAT when it clamps (R112). -/
def clampTo (signed : Bool) (w : Nat) (i : Int) : Int × Nat :=
  if i < intMin signed w then (intMin signed w, fSAT) else if intMax signed w < i then (intMax signed w, fSAT) else (i, 0)

/-- Quotient and remainder of R111 on patterns, with the flag. -/
def divide (signed : Bool) (w a b : Nat) : Nat × Nat × Nat :=
  let x := intVal signed w a
  let y := intVal signed w b
  if y = 0 then (intBits w (if signed ∧ x < 0 then intMin signed w else intMax signed w), intBits w x, fDZ)
  else if signed = true ∧ x = intMin true w ∧ y = -1 then (intBits w x, 0, fIOV)
  else (intBits w (x.tdiv y), intBits w (x.tmod y), 0)

/-! ## Exact arithmetic (R103, R106) -/

/-- A finite value as an integer multiple of 2^k, for k at or below its exponent. -/
def scaled (neg : Bool) (m : Nat) (e k : Int) : Int :=
  let v : Int := (m * 2 ^ (e - k).toNat : Nat)
  if neg then -v else v

/-- The exact sum of two finite values; an exact zero is +0, or -0 under RDN, but for two zeros of one sign (R103). -/
def addFin (mode : Rm) (an : Bool) (am : Nat) (ae : Int) (bn : Bool) (bm : Nat) (be : Int) : Val :=
  let k := if ae < be then ae else be
  let s := scaled an am ae k + scaled bn bm be k
  if s = 0 then
    if am = 0 ∧ bm = 0 ∧ an = bn then Val.zero an else Val.zero (decide (mode = .rdn))
  else .fin (decide (s < 0)) s.natAbs k false

/-- a + b with its flag (R106). -/
def addVal (mode : Rm) (a b : Val) : Val × Nat :=
  match a, b with
  | .nan, _ => (.nan, 0)
  | _, .nan => (.nan, 0)
  | .inf x, .inf y => if x = y then (.inf x, 0) else (.nan, fNV)
  | .inf x, _ => (.inf x, 0)
  | _, .inf y => (.inf y, 0)
  | .fin an am ae _, .fin bn bm be _ => (addFin mode an am ae bn bm be, 0)

/-- a x b with its flag (R106). -/
def mulVal (a b : Val) : Val × Nat :=
  match a, b with
  | .nan, _ => (.nan, 0)
  | _, .nan => (.nan, 0)
  | .inf x, v => if v.isZero then (.nan, fNV) else (.inf (x != v.neg), 0)
  | v, .inf y => if v.isZero then (.nan, fNV) else (.inf (y != v.neg), 0)
  | .fin an am ae _, .fin bn bm be _ => (.fin (an != bn) (am * bm) (ae + be) false, 0)

/-- d + a x b, fused; 0 x inf sets NV even when d is a NaN (R155). -/
def fmaVal (mode : Rm) (d a b : Val) : Val × Nat :=
  let (p, fl) := mulVal a b
  let (s, fl') := addVal mode d p
  (s, fl ||| fl')

/-- a / b with its flags; the quotient has 96 bits below the dividend's and a sticky remainder (R103, R106). -/
def divVal (a b : Val) : Val × Nat :=
  match a, b with
  | .nan, _ => (.nan, 0)
  | _, .nan => (.nan, 0)
  | .inf x, .inf _ => (.nan, if x then fNV else fNV)
  | .inf x, v => (.inf (x != v.neg), 0)
  | v, .inf y => (Val.zero (y != v.neg), 0)
  | .fin an am ae _, .fin bn bm be _ =>
    if bm = 0 then (if am = 0 then (.nan, fNV) else (.inf (an != bn), fDZ))
    else
      let n := am * 2 ^ 96
      (.fin (an != bn) (n / bm) (ae - 96 - be) (n % bm != 0), 0)

/-- Floor of the square root, by bits from the top. -/
def isqrt (n : Nat) : Nat → Nat → Nat
  | 0, r => r
  | b + 1, r => let t := r + 2 ^ b
                if t * t ≤ n then isqrt n b t else isqrt n b r

/-- The square root with its flag (R106). -/
def sqrtVal (a : Val) : Val × Nat :=
  match a with
  | .nan => (.nan, 0)
  | .inf n => if n then (.nan, fNV) else (.inf false, 0)
  | .fin neg m e _ =>
    if m = 0 then (Val.zero neg, 0)
    else if neg then (.nan, fNV)
    else
      let (m1, e1) := if e % 2 = 0 then (m, e) else (2 * m, e - 1)
      let n := m1 * 2 ^ 128
      let r := isqrt n (bitLen n / 2 + 1) 0
      (.fin false r (e1 / 2 - 64) (r * r != n), 0)

/-- 1 / sqrt(a) with its flags, from floor(sqrt(2^320 / m)) and a sticky bit that is exact (R156). -/
def rsqrtVal (a : Val) : Val × Nat :=
  match a with
  | .nan => (.nan, 0)
  | .inf n => if n then (.nan, fNV) else (Val.zero false, 0)
  | .fin neg m e _ =>
    if m = 0 then (.inf neg, fDZ)
    else if neg then (.nan, fNV)
    else
      let (m1, e1) := if e % 2 = 0 then (m, e) else (2 * m, e - 1)
      let q := 2 ^ 320 / m1
      let r := isqrt q (bitLen q / 2 + 1) 0
      (.fin false r (-160 - e1 / 2) (r * r * m1 != 2 ^ 320), 0)

/-- Compares two finite or infinite values: -1, 0 or 1, with equal zeros. -/
def cmpVal (a b : Val) : Int :=
  match a, b with
  | .inf x, .inf y => if x = y then 0 else if x then -1 else 1
  | .inf x, _ => if x then -1 else 1
  | _, .inf y => if y then 1 else -1
  | .fin an am ae _, .fin bn bm be _ =>
    let k := if ae < be then ae else be
    let d := scaled an am ae k - scaled bn bm be k
    if d < 0 then -1 else if d = 0 then 0 else 1
  | _, _ => 0

/-- The order of minimum and maximum, with -0 < +0 (R93). -/
def ltMin (a b : Val) : Bool :=
  let c := cmpVal a b
  decide (c < 0) || (c == 0 && a.isZero && b.isZero && a.neg && !b.neg)

/-! ## Transcendental functions (R156) -/

/-- Bits of the fixed-point enclosures. -/
def fxBits : Nat := 320
/-- One in fixed point. -/
def fxOne : Nat := 2 ^ fxBits
/-- ln 2 in fixed point, to a few units: the sum of 1 / (k 2^k). -/
def fxLn2 : Nat := (List.range 330).foldl (fun a k => a + fxOne / ((k + 1) * 2 ^ (k + 1))) 0
/-- exp(t) for 0 <= t < 1 in fixed point, to a few hundred units. -/
def fxExp (t : Nat) : Nat :=
  ((List.range 100).foldl (fun (a : Nat × Nat) k => let term := a.2 * t / fxOne / (k + 1); (a.1 + term, term)) (fxOne, fxOne)).1
/-- 2^f for 0 <= f < 1 in fixed point. -/
def fxExp2 (f : Nat) : Nat := fxExp (f * fxLn2 / fxOne)
/-- ln(y) for 1 <= y < 2 in fixed point, from the series of the inverse hyperbolic tangent. -/
def fxLn (y : Nat) : Nat :=
  let z := (y - fxOne) * fxOne / (y + fxOne)
  let z2 := z * z / fxOne
  2 * ((List.range 120).foldl (fun (a : Nat × Nat) k => (a.1 + a.2 / (2 * k + 1), a.2 * z2 / fxOne)) (0, z)).1

/-- An irrational value known to 2^16 units of 2^e around `y`, as an exact value with a sticky bit: the finest grid, from `s` on,
that separates it from its neighbours. DEDUCED: no result of R156 for an operand of 24 bits lies within 2^-200 of a value of 60 bits,
so a grid of 60 bits or more always does. -/
def encloseAt (neg : Bool) (y : Nat) (e : Int) : (tries s : Nat) → Val
  | 0, s => .fin neg (y >>> s) (e + s) true
  | t + 1, s =>
    let lo := (y - 65536) >>> s
    if lo = (y + 65536) >>> s then .fin neg lo (e + s) true else encloseAt neg y e t (s + 1)

/-- The enclosure on the finest grid from 2^24 units up. -/
def enclose (neg : Bool) (y : Nat) (e : Int) : Val := encloseAt neg y e 200 24

/-- A magnitude m x 2^e in fixed point, rounded down. -/
def toFx (m : Nat) (e : Int) : Nat := if 0 ≤ e + fxBits then m * 2 ^ (e + fxBits).toNat else m / 2 ^ (-(e + fxBits)).toNat

/-- True when the magnitude m x 2^e is below 2^k. -/
def below (m : Nat) (e k : Int) : Bool := decide (e + bitLen m ≤ k)

/-- 2^a for a finite nonzero a. -/
def exp2Fin (neg : Bool) (m : Nat) (e : Int) : Val :=
  if ¬ below m e 11 then (if neg then .fin false 1 (-4000) true else .fin false 1 4000 true)
  else if below m e (-80) then (if neg then .fin false (2 ^ 90 - 1) (-90) true else .fin false (2 ^ 70) (-70) true)
  else
    let x := toFx m e
    let k := x / fxOne
    let f := x % fxOne
    if f = 0 then .fin false 1 (if neg then -(k : Int) else k) false
    else if neg then enclose false (fxExp2 (fxOne - f)) (-(k : Int) - 1 - fxBits)
    else enclose false (fxExp2 f) ((k : Int) - fxBits)

/-- log2 of a finite positive value. -/
def log2Fin (m : Nat) (e : Int) : Val :=
  let l := m.log2
  let ex : Int := e + l
  if m = 2 ^ l then Val.ofInt ex
  else
    let y := m * 2 ^ (fxBits - l)
    let v : Int := ex * fxOne + (fxLn y * fxOne / fxLn2 : Nat)
    enclose (decide (v < 0)) v.natAbs (-(fxBits : Int))

/-- tanh of a finite nonzero value. -/
def tanhFin (neg : Bool) (m : Nat) (e : Int) : Val :=
  if ¬ below m e 5 then .fin neg (2 ^ 90 - 1) (-90) true
  else if below m e (-50) then .fin neg (m * 2 ^ 64 - 1) (e - 64) true
  else
    let w := 2 * toFx m e * fxOne / fxLn2
    let k := w / fxOne
    let f := w % fxOne
    let u := (if f = 0 then fxOne else fxExp2 (fxOne - f) / 2) / 2 ^ k
    enclose neg ((fxOne - u) * fxOne / (fxOne + u)) (-(fxBits : Int))

/-! ## Element types (R34, R75) -/

/-- The type of an element. -/
inductive Ty where
  | int (signed : Bool) (w : Nat)
  | flt (f : Fmt)
  | q4
  deriving DecidableEq, Repr

/-- The width of a type in bits. -/
def Ty.width : Ty → Nat
  | .int _ w => w
  | .flt f => f.width
  | .q4 => 4

/-- The type of a cls4 code 1 to 14 (R34). -/
def tyOfCode (n : Nat) : Ty :=
  match n with
  | 1 => .int true 8
  | 2 => .int true 16
  | 3 => .int true 32
  | 4 => .int true 64
  | 5 => .int false 8
  | 6 => .int false 16
  | 7 => .int false 32
  | 8 => .int false 64
  | 9 => .flt .fp16
  | 10 => .flt .fp32
  | 11 => .flt .bf16
  | 12 => .flt .e4m3
  | 13 => .flt .e5m2
  | _ => .q4

/-- The type of a `vtype` (R75, R76). -/
def VType.ty (t : VType) : Ty :=
  match t.kind.toNat with
  | 0 => .int true t.bitsW
  | 1 => .int false t.bitsW
  | 2 => .flt (if t.ew = 2 then .fp16 else .fp32)
  | 3 => .flt .bf16
  | 4 => .flt .e4m3
  | 5 => .flt .e5m2
  | _ => .q4

/-! ## Block-scaled formats (R95-R99) -/

/-- Twice the magnitudes of the codes of a q4 kind, in increasing order (R96). -/
def q4Mags (kind : Nat) : List Nat :=
  match kind with
  | 0 => [0, 2, 4, 6, 8, 10, 12, 14, 16]
  | 1 => [0, 1, 2, 3, 4, 6, 8, 12]
  | 2 => [0, 2, 4, 8, 16, 32, 64, 128]
  | _ => [0, 2, 4, 6, 8, 10, 12, 16]

/-- kmax of a q4 kind (R96). -/
def q4Max (kind : Nat) : Nat :=
  match kind with
  | 0 => 7
  | 1 => 6
  | 2 => 64
  | _ => 8

/-- The value of a q4 code under its block's scale byte (R95, R96). -/
def q4Val (byte code : Nat) : Val :=
  let kind := byte / 64 % 4
  let e := byte % 64
  if e = 63 then .nan
  else
    let neg := decide (8 ≤ code % 16)
    let mag := if kind = 0 then (if neg then 2 * (16 - code % 16) else 2 * (code % 16)) else (q4Mags kind).getD (code % 8) 0
    .fin neg mag ((e : Int) - 32) false

/-- The place of a magnitude, twice which is num / den, in a rising list from an index on: the index of its lower neighbour,
and the neighbours. -/
def findMag (num den : Nat) : Nat → List Nat → Nat × Nat × Nat
  | i, a :: b :: t => if num < b * den then (i, a, b) else findMag num den (i + 1) (b :: t)
  | i, [a] => (i, a, a)
  | i, [] => (i, 0, 0)

/-- Rounds a finite value to a code of a q4 kind at scale 1; the largest magnitude saturates and sets SAT (R98, R103). DESIGN CHOICE:
no q4 encoding sets UF, since the spec gives q4 no smallest normal value. -/
def roundQ4 (kind : Nat) (mode : Rm) (idx : Nat) (neg : Bool) (m : Nat) (e : Int) : Nat × Nat :=
  let mags := if kind = 0 ∧ neg = false then (q4Mags 0).take 8 else q4Mags kind
  let (num, den) := if 0 ≤ e + 1 then (m * 2 ^ (e + 1).toNat, 1) else (m, 2 ^ (-(e + 1)).toNat)
  let code (i : Nat) : Nat := if kind = 0 then (if neg then (16 - i) % 16 else i) else i + (if neg then 8 else 0)
  let last := mags.length - 1
  let top := mags.getD last 0
  if top * den < num then (code last, fSAT ||| fNX)
  else
    let (i, lo, hi) := findMag num den 0 mags
    if lo * den = num ∨ hi = lo then (code i, 0)
    else
      let up := roundsUp mode idx neg (i % 2 == 1) (num - lo * den) ((hi - lo) * den) false
      (code (if up then i + 1 else i), fNX)

/-- Ceil(Log2(M / k)) for a positive finite M = m x 2^e (R98). -/
def ceilLog2 (m : Nat) (e : Int) (k : Nat) : Int :=
  -- the least q with m x 2^e <= k x 2^q
  let q0 : Int := e + bitLen m - bitLen k - 1
  let ok (q : Int) : Bool :=
    if e ≤ q then decide (m ≤ k * 2 ^ (q - e).toNat) else decide (m * 2 ^ (e - q).toNat ≤ k)
  if ok q0 then q0 else if ok (q0 + 1) then q0 + 1 else if ok (q0 + 2) then q0 + 2 else q0 + 3

/-- The element types that a block scale may be chosen for (R164). -/
inductive QKind where
  | q4 (kind : Nat)
  | fp8 (f : Fmt)
  deriving DecidableEq, Repr

/-- kmax of an encoding (R98). -/
def QKind.kmax : QKind → Nat
  | .q4 k => q4Max k
  | .fp8 .e4m3 => 448
  | .fp8 _ => 57344

/-- The larger magnitude of two finite values. -/
def maxMag (a : Nat × Int) (v : Val) : Nat × Int :=
  match v with
  | .fin _ m e _ => if decide (cmpVal (.fin false a.1 a.2 false) (.fin false m e false) < 0) then (m, e) else a
  | _ => a

/-- ChooseScale of R98: the byte without its kind bits. -/
def chooseScale (k : QKind) (xs : List Val) : Nat :=
  if xs.any (fun x => x.isNan || x.isInf) then (match k with | .q4 _ => 63 | .fp8 _ => 255)
  else
    let (m, e) := xs.foldl maxMag (0, 0)
    if m = 0 then 0
    else
      let q := ceilLog2 m e k.kmax
      match k with
      | .q4 _ => (if q + 31 < 0 then 0 else if 62 < q + 31 then 62 else (q + 31).toNat)
      | .fp8 _ => (if q + 127 < 0 then 0 else if 254 < q + 127 then 254 else (q + 127).toNat)

/-- One element encoded under its block's byte (R98): the code and the flags OF, UF, NX excluded but SAT. DESIGN CHOICE: a scaled FP8
element that saturates sets SAT and NX, and not OF, which R103 names for an overflow. -/
def encodeBlock (k : QKind) (byte : Nat) (mode : Rm) (idx : Nat) (x : Val) : Nat × Nat :=
  match k with
  | .q4 kind =>
    if byte % 64 = 63 then (0, 0)
    else match x.scale (31 - (byte % 64 : Nat)) with
      | .fin neg m e _ => roundQ4 kind mode idx neg m e
      | _ => (0, 0)
  | .fp8 f =>
    if byte = 255 then (0, 0)
    else
      let y := x.scale (127 - (byte : Int))
      let r := roundTo f mode false idx y
      if r.2 &&& fOF != 0 then (f.maxCode + (if y.neg then f.signBit else 0), fSAT ||| fNX)
      else match y with
        | .fin neg m e _ =>
          -- a scaled magnitude above the largest value saturates whatever the mode
          if decide (0 < cmpVal (.fin false m e false) (f.decode f.maxCode)) then
            (f.maxCode + (if neg then f.signBit else 0), fSAT ||| fNX) else r
        | _ => r

/-- The value of an element of a type, under its block's scale byte when the type is block-scaled (R95, R97). -/
def valueOf (ty : Ty) (scaledFp8 : Bool) (byte bits : Nat) : Val :=
  match ty with
  | .int s w => Val.ofInt (intVal s w bits)
  | .q4 => q4Val byte bits
  | .flt f => if scaledFp8 then (if byte = 255 then .nan else (f.decode bits).scale ((byte : Int) - 127)) else f.decode bits

/-! ## Conversion (R159) -/

/-- A value written to a type: the bits and the flags. -/
def convertVal (ty : Ty) (mode : Rm) (sat8 : Bool) (idx : Nat) (x : Val) : Nat × Nat :=
  match ty with
  | .flt f => roundTo f mode sat8 idx x
  | .q4 => (0, 0)
  | .int s w =>
    match x with
    | .nan => (0, fNV)
    | .inf n => (intBits w (if n then intMin s w else intMax s w), fNV)
    | .fin neg m e st =>
      let (i, inexact) := roundInt mode idx neg m e st
      if i < intMin s w then (intBits w (intMin s w), fNV)
      else if intMax s w < i then (intBits w (intMax s w), fNV)
      else (intBits w i, if inexact then fNX else 0)

/-- Integer to integer: clamps to the destination's range (R159, R112). -/
def convertInt (s : Bool) (w : Nat) (i : Int) : Nat × Nat :=
  let (j, fl) := clampTo s w i
  (intBits w j, fl)

/-! ## Operations of the float instructions (R124, R155-R158) -/

/-- minimumNumber and maximumNumber, or the NaN-propagating forms (R106). -/
def minMax (isMax nanProp : Bool) (a b : Val) : Val :=
  match a, b with
  | .nan, .nan => .nan
  | .nan, v => if nanProp then .nan else v
  | v, .nan => if nanProp then .nan else v
  | a, b => if isMax then (if ltMin a b then b else a) else (if ltMin b a then b else a)

/-- The class code of R124, from the bits. -/
def classCode (f : Fmt) (bits : Nat) : Nat :=
  let sgn := if f.signBit ≤ bits % (2 * f.signBit) then 8 else 0
  match f.decode bits with
  | .nan => 4 + sgn
  | .inf _ => 3 + sgn
  | .fin _ m e _ =>
    let cat := if m = 0 then 0 else if bits % f.signBit < 2 ^ f.frac then 1 else 2
    let integral := decide (0 ≤ e) || m % 2 ^ (-e).toNat == 0
    cat + sgn + (if integral then 16 else 0)

/-- `fsgnj`, `fsgnjn`, `fsgnjx` on bits (R124, R155): a NaN a gives the canonical NaN. -/
def signInject (f : Fmt) (op a b : Nat) : Nat :=
  if (f.decode a).isNan then f.nan
  else
    let sa := decide (f.signBit ≤ a % (2 * f.signBit))
    let sb := decide (f.signBit ≤ b % (2 * f.signBit))
    let s := match op with
      | 0 => sb
      | 1 => !sb
      | _ => sa != sb
    a % f.signBit + (if s then f.signBit else 0)

/-- The float conditions of R158, with the flag of R106. -/
def fcond (op : Nat) (a b : Val) : Bool × Nat :=
  let un := a.isNan || b.isNan
  let c := cmpVal a b
  let nv := if un then fNV else 0
  match op with
  | 0 => (!un && c == 0, 0)
  | 1 => (un || c != 0, 0)
  | 2 => (!un && decide (c < 0), nv)
  | 3 => (!un && decide (c ≤ 0), nv)
  | 4 => (!un && decide (0 < c), nv)
  | 5 => (!un && decide (0 ≤ c), nv)
  | 6 => (un, 0)
  | _ => (!un, 0)

/-- The functions of one operand of R156 before rounding, with the flags named in its table. -/
def unaryVal (op : Nat) (a : Val) : Val × Nat :=
  match op with
  | 0 => sqrtVal a
  | 1 => divVal (.fin false 1 0 false) a
  | 2 => rsqrtVal a
  | 3 => (match a with
      | .nan => .nan
      | .inf n => if n then Val.zero false else .inf false
      | .fin n m e _ => if m = 0 then .fin false 1 0 false else exp2Fin n m e, 0)
  | 4 => match a with
      | .nan => (.nan, 0)
      | .inf n => if n then (.nan, fNV) else (.inf false, 0)
      | .fin n m e _ => if m = 0 then (.inf true, fDZ) else if n then (.nan, fNV) else (log2Fin m e, 0)
  | _ => (match a with
      | .nan => .nan
      | .inf n => .fin n 1 0 false
      | .fin n m e _ => if m = 0 then a else tanhFin n m e, 0)

/-! ## Read-modify-write at home (R110, R122, R196) -/

/-- The new value of a location of `size` bytes, and whether a saturating operation saturated. -/
def atomApply (op : AtomOp) (size old val : Nat) : Nat × Bool :=
  let w := 8 * size
  match op with
  | .add => ((old + val) % 2 ^ w, false)
  | .and => (old &&& val, false)
  | .or => (old ||| val, false)
  | .xor => (old ^^^ val, false)
  | .min => (if intVal true w val < intVal true w old then val else old, false)
  | .max => (if intVal true w old < intVal true w val then val else old, false)
  | .minu => (if val < old then val else old, false)
  | .maxu => (if old < val then val else old, false)
  | .swap => (val, false)
  | .fadd => ((roundTo .fp32 .rne false 0 (addVal .rne (Fmt.decode .fp32 old) (Fmt.decode .fp32 val)).1).1, false)
  | .bfadd => ((roundTo .bf16 .rne false 0 (addVal .rne (Fmt.decode .bf16 old) (Fmt.decode .bf16 val)).1).1, false)
  | .sadd => let r := clampTo true w (intVal true w old + intVal true w val); (intBits w r.1, r.2 != 0)
  | .clear => (0, false)

end Sys2Proof.Machine
end

