-- ==== Sys2Proof/Machine/Before.lean ====
section
/-! DEFINITION. What happens before what among the durable writes of the package, which the recovery of a durable line asks: clocks
by thread, carried by program order, releases and acquires, fences, forks, joins, tokens, barriers and launches (R20, R248, R251,
R252, R256-R258, R262, R333, R378, R418).

A thread is a chain of writes of which each happens before the next: the writes of a record in one class, of a chain, of a host
queue. What the model does not follow is left out, so that a write counts as happening before something only where a rule says so. -/

namespace Sys2Proof.Machine

/-! ## Clocks -/

/-- The writes of two clocks. -/
def joinClock (a b : Clock) : Clock := a.foldl (fun t e => Tab.put t e.1 (Nat.max e.2 (Tab.look 0 t e.1))) b
/-- The writes of several clocks. -/
def joinAll (l : List Clock) : Clock := l.foldl (fun a b => joinClock b a) []
/-- The first write of each thread in two sets of writes. -/
def firstStamps (a b : Tab Nat) : Tab Nat :=
  a.foldl (fun t e => Tab.put t e.1 (match Tab.find t e.1 with | some n => Nat.min n e.2 | none => e.2)) b

/-! ## Scope sets (R20) -/

/-- The scope set of an agent, of a context or of its engine operations, contains another of the package. -/
def scopeHas (scope : Nat) (a b : CtxNo) : Bool :=
  match scope with
  | 0 => a == b
  | 1 => coreOf a == coreOf b
  | 2 => quadOf a == quadOf b
  | 3 => dieOf a == dieOf b
  | _ => true

/-- A release synchronises with an acquire that reads it: each one's scope set includes both agents (R20, R251). -/
def Release.meets (r : Release) (x : CtxNo) (scope : Nat) : Bool := scopeHas r.scope r.agent x && scopeHas scope x r.agent

/-- What an acquire learns from the releases that it reads. -/
def metClock (rs : List Release) (x : CtxNo) (scope : Nat) : Clock := joinAll ((rs.filter fun r => r.meets x scope).map fun r => r.clock)

/-! ## Threads and places of knowledge

Each record and each engine operation has a number, its start number or its own; its threads and places have numbers from 256 times
one more than that. -/

/-- The first of the numbers of a record or engine operation. -/
def baseOf (no : Nat) : Nat := (no + 1) * 256

/-- How an access of a context is ordered (R248): its class, whether it is one of the vector queue, whether it belongs to a strip of
a split loop, what happens before its instruction by dispatch, and the vector store that it is part of; by default a scalar access
of class 15. -/
structure Access where
  cls : Nat := 15
  vector : Bool := false
  strip : Bool := false
  hb : Clock := []
  op : Nat := 0
  /-- The start number of the record that makes it, when the context has ended it. -/
  start : Option Nat := none
  deriving DecidableEq, Repr

/-- Places 0 to 15: the accesses of a class; 16 to 31: those of the vector queue in strips of a split loop, which are ordered with
no access of another strip; 38: scalar ones in such strips. -/
def Access.part (a : Access) : Nat := if a.strip then (if a.vector then 16 + a.cls else 38) else a.cls
/-- What a `psync` knows: the record's scalar accesses and those that a `pwb` has covered (R252, R374). -/
def persistPart : Nat := 32
/-- What every later access of the record knows. -/
def frontPart : Nat := 33
/-- What the later entries of a queue know. -/
def queuePart : QueueNo → Nat
  | .vector => 34
  | .matrix => 35
  | .copy => 36
/-- The accesses of an engine operation. -/
def enginePart : Nat := 37
/-- The posted operations of a record, by scope rank (at most 5): scalar ones, and those of the vector queue by class. -/
def postedPart (vector : Bool) (cls rank : Nat) : Nat := 64 + (if vector then 8 + cls * 8 else 0) + rank % 8
/-- What later accesses of a class know from a `fence`, and from a `vfence`. -/
def fencePart (vector : Bool) (cls : Nat) : Nat := (if vector then 240 else 208) + cls
/-- The accesses of the vector queue in a class. -/
def vectorPart (cls : Nat) : Nat := 224 + cls

/-- The classes of a mask. -/
def maskClasses (mask : Nat) : List Nat := (List.range 16).filter fun k => mask.testBit k

/-- A clock of the account. -/
def Before.at_ (b : Before) (n : Nat) : Clock := Tab.look [] b.own n
/-- What is known at several places. -/
def Before.over_ (b : Before) (base : Nat) (parts : List Nat) : Clock := joinAll (parts.map fun p => b.at_ (base + p))
/-- Adds to what is known at a place. -/
def Before.learn (b : Before) (n : Nat) (k : Clock) : Before := if k = [] then b else { b with own := Tab.put b.own n (joinClock k (b.at_ n)) }
/-- Adds to what is known at several places. -/
def Before.learnAll (b : Before) (base : Nat) (parts : List Nat) (k : Clock) : Before := parts.foldl (fun t p => t.learn (base + p) k) b

/-- The number of the record that a context runs. -/
def State.base (s : State) (x : CtxNo) : Nat := baseOf (s.ctx x).start
/-- The number of the record that an agent acts for: one that its context has ended, or the one that it runs. -/
def State.baseFor (s : State) (x : CtxNo) (start : Option Nat) : Nat :=
  match start with
  | some n => baseOf n
  | none => s.base x

/-- Changes the account, of which there is nothing to say before the first durable write. -/
def State.modBefore (s : State) (f : Before → Before) : State := if s.before.stamp = 0 then s else { s with before := f s.before }

/-! ## Accesses of a context (R248) -/

/-- A thread writes a durable line: the write takes the next stamp. -/
def State.stamped (s : State) (who : Nat) : State :=
  { s with before := { s.before with stamp := s.before.stamp + 1 }.learn who [(who, s.before.stamp + 1)] }

/-- An access of a class: what happens before it, and what then happens before later ones. A scalar access is covered by a later
`psync`. An access of class 15 stands before every later one, but not before those of other strips. -/
def Before.access (b : Before) (base : Nat) (a : Access) : Before :=
  let prior := if a.cls = 15 ∧ a.strip = false then b.over_ base (38 :: List.range 32) else b.at_ (base + a.cls)
  let known := joinAll [prior, b.at_ (base + fencePart false a.cls), b.at_ (base + a.part),
    if a.vector then joinAll [a.hb, b.at_ (base + queuePart .vector), b.at_ (base + fencePart true a.cls)] else b.at_ (base + frontPart)]
  b.learnAll base
    ((if a.strip ∧ a.vector = false then [] else [a.part]) ++ (if a.vector then [vectorPart a.cls] else [persistPart]) ++
      (if a.cls = 15 ∧ a.strip = false then [frontPart] ++ (if a.vector then [queuePart .vector] else []) else [])) known
def State.access (s : State) (x : CtxNo) (a : Access) : State := s.modBefore fun b => b.access (s.baseFor x a.start) a

/-- What a release covers: every access so far of the context, with its posted operations of a scope rank (R254, R255). A release of
the vector queue covers the accesses of the queue and those that stood before it at its dispatch. -/
def Before.releases (b : Before) (base rank : Nat) (a : Access) (past : Clock) : Clock :=
  let posted := (List.range (rank + 1)).flatMap fun r => postedPart false 15 r :: (List.range 16).map fun k => postedPart true k r
  if a.vector then joinClock past (joinClock a.hb (b.over_ base (posted ++ (List.range 16).map vectorPart ++ [queuePart .vector])))
  else b.over_ base (List.range 34 ++ [38] ++ posted ++ (List.range 16).map vectorPart)

/-- An acquire learns what it has met (R251): it stands before every later access, and before a later `psync`. -/
def Before.acquires (b : Before) (base : Nat) (a : Access) (k : Clock) : Before :=
  b.learnAll base ([a.part] ++ (if a.vector then [vectorPart a.cls] else [persistPart]) ++
    (if a.strip then [] else [frontPart] ++ (if a.vector then [queuePart .vector] else []))) k

/-! ## Words (R251, R256) -/

/-- The 8-byte word of a physical address. -/
def physWord (pa : Nat) : Nat := pa / 8
/-- The 8-byte word of an offset of a quad's window. -/
def windowWord (q o : Nat) : Nat := 2 ^ 52 + q * 2 ^ 20 + o / 8

/-- A plain write of a word ends its release sequence; a write that follows fences of its record which mask its class is their
release. -/
def Before.wrote (b : Before) (base word cls : Nat) : Before :=
  let rs := ((Tab.look [] b.marks base).filter fun m => m.1.testBit cls).map fun m => m.2
  if rs = [] then (if (Tab.find b.words word).isSome then { b with words := Tab.del b.words word } else b)
  else { b with words := Tab.put b.words word rs }
/-- The write of a word is a release too; what a read-modify-write continues stays. -/
def Before.publish (b : Before) (word : Nat) (r : Release) : Before := { b with words := Tab.put b.words word (Tab.look [] b.words word ++ [r]) }
/-- A read-modify-write of a word continues its release sequence; fences of its record may make it a release. -/
def Before.modified (b : Before) (base word cls : Nat) : Before :=
  (((Tab.look [] b.marks base).filter fun m => m.1.testBit cls).map fun m => m.2).foldl (fun t r => t.publish word r) b
/-- A read of a class that meets releases may be the acquire of a later fence. -/
def Before.saw (b : Before) (base word cls : Nat) : Before :=
  match Tab.find b.words word with
  | none => b
  | some rs =>
    let old := Tab.look [] b.seen base
    { b with seen := Tab.put b.seen base (old ++ (rs.map fun r => (cls, r)).filter fun e => !old.contains e) }

def State.wroteWord (s : State) (x : CtxNo) (word : Nat) (a : Access) : State := s.modBefore fun b => b.wrote (s.baseFor x a.start) word a.cls
def State.sawWord (s : State) (x : CtxNo) (word : Nat) (a : Access) : State := s.modBefore fun b => b.saw (s.baseFor x a.start) word a.cls
/-- A write of a word by a context, which it has made, is a release that covers the accesses of a clock. -/
def State.publish (s : State) (x : CtxNo) (scope word : Nat) (k : Clock) : State := s.modBefore fun b => b.publish word ⟨x, scope, k⟩
/-- An acquire by a context that reads a word. -/
def State.learnWord (s : State) (x : CtxNo) (scope word : Nat) (a : Access) : State :=
  s.modBefore fun b => b.acquires (s.base x) a (metClock (Tab.look [] b.words word) x scope)

/-! ## Fences (R256, R257) -/

/-- A `fence`, or with `vector` a `vfence`: what stands before it is the accesses of the masked classes, the releases that their reads
have met, and the earlier fences whose scope sets and its own include both agents; the later accesses of the masked classes follow it.
The second component is what stands before it. -/
def Before.fence (b : Before) (base : Nat) (x : CtxNo) (scope rank mask : Nat) (vector : Bool) : Before × Clock :=
  let ks := maskClasses mask
  let posted := (List.range (rank + 1)).flatMap fun r =>
    (if vector then [] else [postedPart false 15 r]) ++ [postedPart true 15 r] ++ ks.map fun k => postedPart true k r
  let mine := b.over_ base (posted ++ if vector then ks.map vectorPart ++ ks.map (fencePart true)
    else ks ++ ks.map (fun k => 16 + k) ++ ks.map (fencePart false) ++ (if mask = 0xFFFF then [frontPart, 38] else []))
  let met := metClock (((Tab.look [] b.seen base).filter fun e => mask.testBit e.1).map fun e => e.2) x scope
  let order := if scope = 0 then [] else joinAll ((b.fences.filter fun f =>
    Release.meets ⟨BitVec.ofNat 10 (f.1 / 8), f.1 % 8, []⟩ x scope).map fun f => f.2)
  let k := joinAll [mine, met, order]
  let b1 := b.learnAll base (ks.map (fencePart vector)) k
  ({ b1 with
    fences := if scope = 0 then b1.fences else Tab.put b1.fences (x.toNat * 8 + scope) (joinClock k (Tab.look [] b1.fences (x.toNat * 8 + scope)))
    marks := Tab.put b1.marks base (Tab.look [] b1.marks base ++ [(mask, ⟨x, scope, k⟩)]) }, k)

/-! ## Tokens (R210, R252) -/

/-- The number of a FIFO of a record. -/
def tokenKey (base fifo : Nat) : Nat := base + fifo
/-- A push puts the producer's accesses behind the tokens held. -/
def Before.push (b : Before) (key held : Nat) (k : Clock) : Before :=
  if k = [] then b
  else
    let l := Tab.look [] b.toks key
    { b with toks := Tab.put b.toks key (l ++ List.replicate (held - l.length) [] ++ [k]) }
/-- A pop takes what its token carries. -/
def Before.pop (b : Before) (key : Nat) : Before × Clock :=
  match Tab.look [] b.toks key with
  | [] => (b, [])
  | k :: t => ({ b with toks := Tab.put b.toks key t }, k)

/-- A pop that is taken back puts its token in front again, without what it carried. -/
def Before.unpop (b : Before) (key : Nat) : Before :=
  match Tab.look [] b.toks key with
  | [] => b
  | l => { b with toks := Tab.put b.toks key ([] :: l) }

/-! ## Records, engine operations and launches -/

/-- A record or an engine operation of a launch begins, with what happens before it. -/
def State.begins (s : State) (no : Nat) (tag : BitVec 32) (hb : Clock) : State :=
  let b : Before := { s.before with tags := Tab.put s.before.tags (baseOf no) tag.toNat }
  { s with before := b.learnAll (baseOf no) [persistPart, frontPart, queuePart .vector, queuePart .matrix, queuePart .copy] hb }

/-- What happens before an engine operation of a context in a class (R258): the context's accesses and posted operations of the class,
every one for class 15. -/
def State.forkClock (s : State) (x : CtxNo) (cls : Nat) : Clock :=
  let b := s.before
  if cls = 15 then b.releases (s.base x) 5 {} []
  else b.over_ (s.base x) ([cls, 16 + cls, frontPart, fencePart false cls, fencePart true cls] ++
    (List.range 6).flatMap fun r => [postedPart false 15 r, postedPart true cls r, postedPart true 15 r])

/-- The numbers of a launch's records and engine operations. -/
def Before.numbers (b : Before) (tag : BitVec 32) : List Nat := (b.tags.filter fun e => e.2 == tag.toNat).map fun e => e.1

/-- A launch completes: its accesses stand before those of every launch that depends on it (R333). -/
def State.finishes (s : State) (tag : BitVec 32) : State :=
  let b := s.before
  let ns := b.numbers tag
  let mine (e : Nat) : Bool := ns.contains (e / 256 * 256)
  { s with before := { b with
      done := Tab.put b.done tag.toNat (joinAll ((b.own.filter fun e => mine e.1).map fun e => e.2))
      own := b.own.filter fun e => !mine e.1
      tags := b.tags.filter fun e => !ns.contains e.1
      seen := b.seen.filter fun e => !ns.contains e.1
      marks := b.marks.filter fun e => !ns.contains e.1
      toks := b.toks.filter fun e => !mine e.1 } }

end Sys2Proof.Machine
end

