-- ==== Sys2Proof/Machine/Memory.lean ====
section
/-! DEFINITION. Physical memory, the caches, address translation, read-modify-writes at home and the accesses of an agent (R196,
R259, R295, R312-R320, R340-R350, R358-R363, R370-R372). -/

namespace Sys2Proof.Machine

/-! ## Bytes in canonical form -/

/-- Writes one byte; 0, which an unlisted address reads as, is not listed. -/
def putByte (m : List Host.Cell) (a : Nat) (b : Byte) : List Host.Cell := if b = 0 then Tab.del m a else Tab.put m a b

/-- One byte of a memory; an unlisted address reads 0. -/
def getByte (m : List Host.Cell) (a : Nat) : Byte := Tab.look 0 m a

/-- Addresses strictly rising, all at or above a bound, and no zero byte listed. -/
def wfFrom (n : Nat) : List Host.Cell → Bool
  | [] => true
  | (a, b) :: t => decide (n ≤ a) && (b != 0) && wfFrom (a + 1) t

/-- The canonical form of a memory. -/
def Memory.wf (m : List Host.Cell) : Bool := wfFrom 0 m

/-- Adds a granule to a rising list of marks. -/
def addMark (n : Nat) : List Nat → List Nat
  | [] => [n]
  | k :: t => if k = n then k :: t else if n < k then n :: k :: t else k :: addMark n t

/-! ## Lines -/

/-- `n` bytes of a line at offset `o`, least significant first. -/
def lineGet (d : BitVec 512) (o n : Nat) : Nat := (d >>> (8 * o)).toNat % 2 ^ (8 * n)
/-- Puts `n` bytes into a line at offset `o`. -/
def linePut (d : BitVec 512) (o n v : Nat) : BitVec 512 :=
  let m := BitVec.ofNat 512 (2 ^ (8 * n) - 1) <<< (8 * o)
  (d &&& ~~~m) ||| (BitVec.ofNat 512 (v % 2 ^ (8 * n)) <<< (8 * o))
/-- The byte mask of `n` bytes at offset `o`. -/
def byteMask (o n : Nat) : BitVec 64 := BitVec.ofNat 64 (2 ^ n - 1) <<< o
/-- The bit mask of a byte mask. -/
def spread (m : BitVec 64) : BitVec 512 :=
  (List.range 64).foldl (fun a i => if m.getLsbD i then a ||| (255#512 <<< (8 * i)) else a) 0

/-- The bytes of granules. -/
def granules (g : BitVec 8) : BitVec 64 :=
  (List.range 8).foldl (fun a i => if g.getLsbD i then a ||| (255#64 <<< (8 * i)) else a) 0

/-- The marks after a masked write (R295): a granule that is written takes a mark from a poisoned write, loses its mark when
all 8 bytes are written, and otherwise keeps it. -/
def mergeMarks (old : BitVec 8) (mask : BitVec 64) (pois : BitVec 8) : BitVec 8 :=
  (List.range 8).foldl (fun a g =>
    let w := (mask >>> (8 * g)).toNat % 256
    let b := if w = 0 then old.getLsbD g else pois.getLsbD g || (decide (w ≠ 255) && old.getLsbD g)
    if b then a ||| (1#8 <<< g) else a) 0

/-- A masked write into a line. -/
def mergeLine (d : BitVec 512) (p : BitVec 8) (wd : BitVec 512) (mask : BitVec 64) (wp : BitVec 8) : BitVec 512 × BitVec 8 :=
  let m := spread mask
  ((d &&& ~~~m) ||| (wd &&& m), mergeMarks p mask wp)

/-! ## Homes (R340-R342, R370) -/

/-- True in the durable range (R340). -/
def isDurable (pa : Nat) : Bool := decide (0x20000000000 ≤ pa ∧ pa < 0x40000000000)
/-- True in HBM4 (R340). -/
def isHbm (pa : Nat) : Bool := decide (pa < 0x8000000000)
/-- True in control space (R340). -/
def isControl (pa : Nat) : Bool := decide (0xF000000000000 ≤ pa ∧ pa < 0xF010000000000)
/-- The die that homes an HBM4 address. -/
def homeDie (pa : Nat) : Nat := bitsOf 38 37 pa
/-- The channel of its die that homes an HBM4 address (R341). -/
def homeChannel (pa : Nat) : Nat := bitsOf 13 8 pa ^^^ bitsOf 19 14 pa ^^^ bitsOf 25 20 pa ^^^ bitsOf 31 26 pa
/-- The number of the home's slice and base-die unit in the package. -/
def homeUnit (pa : Nat) : Nat := homeDie pa * 64 + homeChannel pa
/-- The durable controller that homes a durable address (R340, R369). -/
def homeController (pa : Nat) : Nat := bitsOf 40 39 (pa - 0x20000000000)

/-- The bytes of a line in the memory itself, and the marks of its granules. -/
def State.rawLine (s : State) (ln : Nat) : BitVec 512 × BitVec 8 :=
  (s.mem.foldl (fun a c => if c.1 / 64 = ln then a ||| (BitVec.ofNat 512 c.2.toNat <<< (8 * (c.1 % 64))) else a) 0,
   s.marks.foldl (fun a g => if g / 8 = ln then a ||| (1#8 <<< (g % 8)) else a) 0)

/-- Writes bytes of a line into the memory itself. -/
def State.rawWrite (s : State) (ln : Nat) (w : Patch) : State :=
  let old := s.rawLine ln
  let np := mergeMarks old.2 w.mask w.pois
  let mem := (List.range 64).foldl
    (fun m i => if w.mask.getLsbD i then putByte m (64 * ln + i) (BitVec.ofNat 8 (lineGet w.data i 1)) else m) s.mem
  let keep := s.marks.filter fun g => g / 8 != ln
  { s with mem := mem,
           marks := (List.range 8).foldl (fun l g => if np.getLsbD g then addMark (8 * ln + g) l else l) keep }

/-- The set of an L2 slice that a line falls in; DESIGN CHOICE of the index: the address bits that do not choose the slice. -/
def l2Set (ln : Nat) : Nat := homeUnit (64 * ln) * 1024 + ln / 256 % 256 * 4 + ln % 4
/-- A line's slice holds it or has a way for it: 16 ways in each set (R342). -/
def State.l2Room (s : State) (ln : Nat) : Bool :=
  (Tab.find s.l2 ln).isSome || decide ((s.l2.filter fun l => l2Set l.1 = l2Set ln).length < 16)

/-- A line as its home holds it: its L2 slice or its channel, and for a durable line the persist buffer or the stack, which the
memory holds together (R342, R370). -/
def State.homeLine (s : State) (ln : Nat) : BitVec 512 × BitVec 8 :=
  if isDurable (64 * ln) then s.rawLine ln
  else match Tab.find s.l2 ln with
    | some l => (l.data, l.pois)
    | none => s.rawLine ln

/-- A masked write at the L2 slice: into its line, which is allocated when its set has a way, or past it to the channel. -/
def State.l2Write (s : State) (ln : Nat) (w : Patch) : State :=
  if s.l2Room ln then
    let v := s.homeLine ln
    let m := mergeLine v.1 v.2 w.data w.mask w.pois
    let old := Tab.look {} s.l2 ln
    { s with l2 := Tab.put s.l2 ln { old with data := m.1, dirty := old.dirty ||| w.mask, pois := m.2 } }
  else s.rawWrite ln w

/-- A read at the slice allocates the line, clean, when its set has a way (R342). Accesses of MS pages and of durable lines reach no
slice. -/
def State.l2Fill (s : State) (ln : Nat) : State :=
  if isDurable (64 * ln) ∨ (Tab.find s.l2 ln).isSome = true ∨ s.l2Room ln = false then s
  else
    let v := s.rawLine ln
    { s with l2 := Tab.put s.l2 ln { data := v.1, pois := v.2 } }

/-- A line leaves its L2 slice: its dirty bytes and its marks go to the channel. -/
def State.dropL2 (s : State) (ln : Nat) : State :=
  match Tab.find s.l2 ln with
  | some l => { (s.rawWrite ln { data := l.data, mask := l.dirty ||| granules l.pois, pois := l.pois }) with l2 := Tab.del s.l2 ln }
  | none => s

/-- Breaks every link on a line (R199). -/
def State.breakLine (s : State) (ln : Nat) : State :=
  let d := homeDie (64 * ln)
  if (s.die d).links.any (fun l => l.1 == ln) then
    s.modDie d fun e => { e with links := e.links.filter fun l => l.1 != ln }
  else s

/-- Two writes of a line as one, the second on top. -/
def Patch.join (o w : Patch) : Patch :=
  let m := mergeLine o.data o.pois w.data w.mask w.pois
  { data := m.1, mask := o.mask ||| w.mask, pois := m.2, by_ := firstStamps w.by_ o.by_, op := w.op }

/-- Adds a write to those that wait for the persist buffer. The writes of one vector store to a line are one write (R378). -/
def addWaiting (w : DurableWrite) (l : List DurableWrite) : List DurableWrite :=
  if w.put.op ≠ 0 ∧ (l.any fun o => o.line == w.line && o.put.op == w.put.op) = true then
    l.map fun o => if o.line = w.line ∧ o.put.op = w.put.op then { o with put := o.put.join w.put } else o
  else l ++ [w]

/-- A masked write at a line's home: at its L2 slice, or for a durable line to the persist buffer's waiting writes (R372); `x` is
the context whose durable-scope store it is. -/
def State.homeWrite (s : State) (x : Option CtxNo) (ln : Nat) (w : Patch) : State :=
  if w.mask = 0 then s
  else if isDurable (64 * ln) then s.modHub fun h => { h with waiting := addWaiting ⟨ln, w, x⟩ h.waiting }
  else (s.l2Write ln w).breakLine ln

/-- A thread's write of a durable line takes its stamp. -/
def State.stampLine (s : State) (who ln : Nat) : State := if isDurable (64 * ln) then s.stamped who else s
/-- The mark of a thread's write. -/
def State.signed (s : State) (who ln : Nat) : Tab Nat := if isDurable (64 * ln) then [(who, s.before.stamp)] else []

/-- The write of up to 8 bytes within a granule. -/
def patchOf (pa n v : Nat) (pois : Bool) (by_ : Tab Nat) (op : Nat := 0) : Patch :=
  let o := pa % 64
  { data := linePut 0 o n v, mask := byteMask o n, pois := if pois then 1#8 <<< (o / 8) else 0, by_ := by_, op := op }

/-- The write of a whole line, of no thread. -/
def fullPatch (data : BitVec 512) (pois : BitVec 8) : Patch := { data := data, mask := BitVec.allOnes 64, pois := pois }

/-- Reads up to 8 bytes within a granule at home, with its mark. -/
def State.homeRead (s : State) (pa n : Nat) : Nat × Bool :=
  let l := s.homeLine (pa / 64)
  (lineGet l.1 (pa % 64) n, l.2.getLsbD (pa % 64 / 8))

/-- Writes up to 8 bytes within a granule at home, as a thread; thread 0 is an agent of which nothing is known. -/
def State.homePut (s : State) (x : Option CtxNo) (pa n v : Nat) (pois : Bool) (who : Nat := 0) (op : Nat := 0) : State :=
  (s.homeWrite x (pa / 64) (patchOf pa n v pois (s.signed who (pa / 64)) op)).stampLine who (pa / 64)

/-- Reads and writes at the base die, which no L2 slice holds: the accesses of MS pages (R342, R360). -/
def State.unitRead (s : State) (pa n : Nat) : Nat × Bool :=
  let l := s.rawLine (pa / 64)
  (lineGet l.1 (pa % 64) n, l.2.getLsbD (pa % 64 / 8))
def State.unitPut (s : State) (pa n v : Nat) (pois : Bool) : State := s.rawWrite (pa / 64) (patchOf pa n v pois [])

/-! ## The persist buffer (R372, R378) -/

/-- Lines that the 8 MiB buffer holds. -/
def persistLines : Nat := 131072

/-- The lines of a buffer with room for one more: a full buffer has drained its first line to the stack. -/
def makeRoom (buffer : List Nat) (ln : Nat) : List Nat :=
  if persistLines ≤ buffer.length ∧ buffer.contains ln = false then buffer.tail else buffer

/-- A history after one more write: an entry, or another part of the newest entry when the write is of the same vector store, whose
bytes in the line persist together (R378). -/
def History.add (h : History) (e : HistoryEntry) : History :=
  match h.entries with
  | o :: t =>
    if e.op ≠ 0 ∧ o.op = e.op then { h with entries := { e with by_ := firstStamps e.by_ o.by_ } :: t }
    else ⟨e :: h.entries, h.eligible + 1⟩
  | [] => ⟨[e], h.eligible + 1⟩

/-- The buffer accepts a waiting write, the oldest of its line, once it has room; the history of the line grows by an entry. -/
def State.acceptOne (s : State) (w : DurableWrite) (rest : List DurableWrite) : State :=
  let old := s.rawLine w.line
  let s1 := s.rawWrite w.line w.put
  let new := s1.rawLine w.line
  let h0 := Tab.look ⟨[{ data := old.1, pois := old.2, by_ := [] }], 1⟩ s.hub.history w.line
  s1.modHub fun h => { h with
    waiting := rest,
    buffer := addMark w.line (makeRoom h.buffer w.line),
    history := Tab.put h.history w.line (h0.add ⟨new.1, new.2, w.put.by_, w.put.op⟩) }

/-- Accepts the listed waiting writes in their order. -/
def State.acceptAll (s : State) : List DurableWrite → State
  | [] => s
  | w :: t => (s.acceptOne w t).acceptAll t

/-- Every waiting write is accepted. -/
def State.acceptWaiting (s : State) : State := s.acceptAll s.hub.waiting

/-- Accepts the waiting writes of one durable line, oldest first (R371, R372). -/
def State.acceptLine (s : State) (ln : Nat) : State :=
  let rest := s.hub.waiting.filter fun w => w.line != ln
  (s.hub.waiting.filter fun w => w.line == ln).foldl (fun t w => t.acceptOne w rest) s

/-- An entry holds a write that happens before what knows `kn`. -/
def HistoryEntry.known (kn : Tab Nat) (e : HistoryEntry) : Bool := e.by_.any fun w => decide (w.2 < Tab.look 0 kn w.1)
/-- A line recovers to no entry older than the newest one that holds a known write (R378). -/
def History.settle (kn : Tab Nat) (h : History) : History :=
  match h.entries.findIdx? (HistoryEntry.known kn) with
  | some i => { h with eligible := Nat.min h.eligible (i + 1) }
  | none => h
/-- After a persist wait completes, the writes that happen before it recover (R378). -/
def State.settleHistory (s : State) (kn : Tab Nat) : State :=
  s.modHub fun h => { h with history := h.history.map fun e => (e.1, e.2.settle kn) }

/-! ## Caches (R15, R254, R312, R318, R320, R360, R370)

A cache takes a line only where it has room; what leaves it to make room is an eviction, which the agenda names. -/

/-- Lines of a core's L1 and of its instruction cache (R15). -/
def l1Lines : Nat := 4096
def codeLines : Nat := 1024

/-- How many banks of a quad are retired (R322). -/
def Quad.retired (q : Quad) : Nat := q.banks.length
/-- The ways of the quad cache: the working banks from the boundary up (R312). -/
def Quad.ways (q : Quad) : List Nat := (List.range (32 - q.retired)).drop q.bound
/-- True when the quad's SRAM serves any cache way (R312). -/
def Quad.hasCache (q : Quad) : Bool := decide (q.bound + q.retired < 32)
/-- The set of the quad cache that a line falls in. DESIGN CHOICE of the index: the low bits of its number. -/
def quadSet (ln : Nat) : Nat := ln % 4096
/-- A way that a line's set has free; the way that the next move of the boundary takes is filled last. -/
def Quad.freeWay (q : Quad) (ln : Nat) : Option Nat :=
  q.ways.reverse.find? fun w => !(q.cache.any fun l => decide (quadSet l.1 = quadSet ln) && l.2.way == w)

/-- One set in 32 carries shadow tags (R318). -/
def sampled (ln : Nat) : Bool := decide (quadSet ln % 32 = 0)
/-- An access of the quad cache to a sampling set, in a quad that measures: a miss that one more way would have made a hit, and a
hit that one fewer would have made a miss, count 32 each (R318). DESIGN CHOICE of the replacement that the two other caches would
have: the cache of one way fewer lacks the way that the boundary would take, which fills last; the extra way holds the line that
last found no way or was evicted. -/
def Quad.sample (q : Quad) (ln : Nat) : Quad :=
  if sampled ln = true ∧ q.cfg.pin = false then
    match Tab.find q.cache ln with
    | some l => if l.way = q.bound then { q with cMinus := q.cMinus + 32 } else q
    | none =>
      { q with
        cPlus := if Tab.find q.shadow (quadSet ln) = some ln then q.cPlus + 32 else q.cPlus
        shadow := if (q.freeWay ln).isNone then Tab.put q.shadow (quadSet ln) ln
          else if Tab.find q.shadow (quadSet ln) = some ln then Tab.del q.shadow (quadSet ln) else q.shadow }
  else q

/-- The shadow tags lose a line that leaves the cache for another reason. -/
def Quad.unshade (q : Quad) (ln : Nat) : Quad :=
  if Tab.find q.shadow (quadSet ln) = some ln then { q with shadow := Tab.del q.shadow (quadSet ln) } else q

/-- A line as a quad sees it: its cached copy or the home's. -/
def State.quadView (s : State) (q ln : Nat) : BitVec 512 × BitVec 8 :=
  match Tab.find (s.quad q).cache ln with
  | some l => (l.data, l.pois)
  | none => s.homeLine ln

/-- A read of a line at its home: the writes to a durable line that wait at the hub are accepted before it (R358, R372), and another
line takes a way of its L2 slice (R342). -/
def State.reachHome (s : State) (ln : Nat) : State := (s.acceptLine ln).l2Fill ln

/-- An access of a quad cache: a line that it does not hold is allocated, clean, where its set has a way. -/
def State.quadFill (s : State) (q ln : Nat) : State :=
  match Tab.find (s.quad q).cache ln with
  | some _ => if sampled ln then s.modQuad q fun e => e.sample ln else s
  | none =>
    let t := s.reachHome ln
    let v := t.homeLine ln
    match (t.quad q).freeWay ln with
    | some w => t.modQuad q fun e => { e.sample ln with cache := Tab.put e.cache ln { data := v.1, pois := v.2, way := w } }
    | none => if sampled ln then t.modQuad q fun e => e.sample ln else t

/-- A masked write into the quad cache, write-back; a line without a way passes to home (R312). `win`: through the window. -/
def State.quadWrite (s : State) (x : Option CtxNo) (q ln : Nat) (w : Patch) (win : Bool := false) : State :=
  if w.mask = 0 then s
  else
    let s1 := s.quadFill q ln
    match Tab.find (s1.quad q).cache ln with
    | some l =>
      let m := mergeLine l.data l.pois w.data w.mask w.pois
      s1.modQuad q fun e => { e with cache := Tab.put e.cache ln { l with
        data := m.1, dirty := l.dirty ||| w.mask, pois := m.2, err := l.err &&& m.2, by_ := firstStamps w.by_ l.by_
        win := if win then l.win ||| w.mask else l.win &&& ~~~w.mask } }
    | none => s1.homeWrite x ln w

/-- Writes a core's dirty bytes of one line back to the quad cache. -/
def State.cleanL1 (s : State) (x : Option CtxNo) (c ln : Nat) : State :=
  match Tab.find (s.core c).l1 ln with
  | some l =>
    (s.modCore c fun e => { e with l1 := Tab.put e.l1 ln { l with dirty := 0, by_ := [] } }).quadWrite x (coreQuad c) ln
      { data := l.data, mask := l.dirty, pois := l.pois, by_ := l.by_ }
  | none => s

/-- Writes bytes of one line of a quad cache back to home: every dirty byte, or with `keep` those that did not come through the
window (R316); with them the granules that an error poisoned (R322). -/
def State.cleanQuad (s : State) (x : Option CtxNo) (q ln : Nat) (keep : Bool := false) : State :=
  match Tab.find (s.quad q).cache ln with
  | some l =>
    let m := if keep then l.dirty &&& ~~~l.win else l.dirty
    (s.modQuad q fun e => { e with cache := Tab.put e.cache ln { l with
        dirty := l.dirty &&& ~~~m, win := l.win &&& ~~~m, by_ := if l.dirty &&& ~~~m = 0 then [] else l.by_ } }).homeWrite x ln
      { data := l.data, mask := if m = 0 then 0 else m ||| granules l.err, pois := l.pois, by_ := l.by_ }
  | none => s

/-- Writes every dirty byte of a core's L1 back to the quad cache (R254). -/
def State.flushL1 (s : State) (x : Option CtxNo) (c : Nat) : State :=
  ((s.core c).l1.filter fun l => l.2.dirty != 0).foldl (fun t l => t.cleanL1 x c l.1) s

/-- Writes dirty bytes of a quad cache back to home (R254): all, or with `keep` all but the window's (R316). -/
def State.flushQuad (s : State) (x : Option CtxNo) (q : Nat) (keep : Bool := false) : State :=
  ((s.quad q).cache.filter fun l => l.2.dirty != 0).foldl (fun t l => t.cleanQuad x q l.1 keep) s

/-- Drops a line from a core's L1 after writing its dirty bytes back. -/
def State.dropL1 (s : State) (x : Option CtxNo) (c ln : Nat) : State :=
  (s.cleanL1 x c ln).modCore c fun e => { e with l1 := Tab.del e.l1 ln }

/-- Drops a line from a quad cache after writing its dirty bytes back. -/
def State.dropQuad (s : State) (x : Option CtxNo) (q ln : Nat) : State :=
  (s.cleanQuad x q ln).modQuad q fun e => { e.unshade ln with cache := Tab.del e.cache ln }

/-- A quad cache evicts a line; the shadow tags keep a line of a sampling set in the extra way (R318). -/
def State.evictQuad (s : State) (q ln : Nat) : State :=
  let held := (Tab.find (s.quad q).cache ln).isSome
  (s.dropQuad none q ln).modQuad q fun e =>
    if sampled ln = true ∧ held = true then { e with shadow := Tab.put e.shadow (quadSet ln) ln } else e

/-- Before an access at home, a context's core and quad write a line back and drop it (R196, R197, R220, R273); what they write to
a durable line arrives before the access (R358, R372). -/
def State.purge (s : State) (x : CtxNo) (ln : Nat) : State :=
  ((s.dropL1 none (coreOf x) ln).dropQuad none (quadOf x) ln).acceptLine ln

/-! ## Violation logs (R300) -/

/-- The number of the log of the L2 slice that homes an address, or of the hub (R340). -/
def logOf (pa : Nat) : Nat := if isHbm pa then homeUnit pa else if isDurable pa then 320 + homeController pa else 341
/-- The log of a quad's SRAM controller. -/
def logQuad (q : Nat) : Nat := 256 + q
/-- The log of a torus port. -/
def logPort (p : Nat) : Nat := 330 + p
/-- The log of the BMT host agent. -/
def logHost : Nat := 340

/-- Logs a refusal: the first 8 are kept and the others counted (R300); its cycle count is a free value (R14). An entry counts
for the launch whose tag it carries (R335). -/
def State.logViol (s : State) (block : Nat) (addr : Word) (who : Nat) (kind reason : Nat) (tag : BitVec 32) : State :=
  let e : LogEntry := ⟨addr, BitVec.ofNat 16 who, kind, reason, tag, Config.freeWord s.fresh⟩
  let l := Tab.look {} s.hub.vlogs block
  if l.entries.length < 8 then
    { s.modHub fun h => { h with
        vlogs := Tab.put h.vlogs block { l with entries := l.entries ++ [e] }
        launches := h.launches.map fun p =>
          if p.2.tag = tag then (p.1, { p.2 with nviol := Nat.min (p.2.nviol + 1) 65535 }) else p }
      with fresh := s.fresh + 1 }
  else s.modHub fun h => { h with vlogs := Tab.put h.vlogs block { l with lost := Nat.min (l.lost + 1) 65535 } }

/-! ## Translation (R344-R349) -/

/-- The kinds of access (R346, R347). -/
inductive Acc where
  | read | write | fetch | atomic
  deriving DecidableEq, Repr

/-- The code of a kind in `tinfo` (R347). -/
def Acc.code : Acc → Nat
  | .read => 0
  | .write => 1
  | .fetch => 2
  | .atomic => 3

/-- Where an agent's translations are cached (R348). -/
inductive Site where
  | core (c : Nat)
  | coll (d : Nat)
  | hub
  deriving DecidableEq, Repr

/-- The die whose asid table and walkers serve a site; the hub uses those of D0. -/
def Site.die : Site → Nat
  | .core c => coreDie c
  | .coll d => d
  | .hub => 0

/-- The conditions 1 to 5 of R346 on an entry read at a level: the code of the first that fails. -/
def pteCode (e : Word) (lvl : Nat) : Option Nat :=
  let n := e.toNat
  let leaf := n.testBit 8
  let d := n.testBit 6
  let ms := n.testBit 5
  let pa := bitsOf 51 16 n * 65536
  if ¬ n.testBit 0 then some 0x01
  else if bitsOf 63 52 n ≠ 0 ∨ bitsOf 15 9 n ≠ 0 ∨ (¬ leaf ∧ bitsOf 7 1 n ≠ 0) then some 0x02
  else if (leaf ∧ lvl = 1) ∨ (¬ leaf ∧ lvl = 3) then some 0x03
  else if leaf ∧ lvl = 2 ∧ bitsOf 28 16 n ≠ 0 then some 0x04
  else if leaf ∧ ((n.testBit 2 ∧ ¬ n.testBit 1) ∨ (ms ∧ d) ∨ (d ≠ isDurable pa) ∨ (ms ∧ ¬ isHbm pa)) then some 0x05
  else none

/-- The permission conditions 6 to 9 of R346: the code of the first that fails. -/
def permCode (e : Word) (acc : Acc) (level : Level) : Option Nat :=
  let n := e.toNat
  let r := n.testBit 1
  let w := n.testBit 2
  if acc = .read ∧ ¬ r then some 0x11
  else if (acc = .write ∧ ¬ w) ∨ (acc = .atomic ∧ ¬ (r ∧ w)) then some 0x12
  else if acc = .fetch ∧ ¬ n.testBit 3 then some 0x13
  else if level = .u ∧ ¬ n.testBit 4 then some 0x14
  else none

/-- PAGE or PROT with the fields of R347. -/
def pageTrap (va : Word) (acc : Acc) (lvl code : Nat) (cell : Bool) : TrapInfo :=
  { cause := if code ≤ 0x08 then 0x06 else 0x07, addr := va,
    info := BitVec.ofNat 64 (acc.code * 2 ^ 18 + lvl * 2 ^ 16 + code * 2 ^ 8 + (if cell then 1 else 0)) }

/-- The result of a walk: a leaf with its size, or a code with its level and the log entry to make. -/
inductive Walk where
  | leaf (pte : Word) (big : Bool) (tables : List WalkEntry)
  | fail (code lvl : Nat) (log : Option (Nat × Nat))
  deriving DecidableEq, Repr

/-- The walk of R344 from the table of a level, with `left` levels left; a walk cache may give the next table. -/
def walkFrom (s : State) (cache : List WalkEntry) (asid : BitVec 16) (va : Nat) :
    (left lvl t : Nat) → (acc : List WalkEntry) → Walk
  | 0, lvl, _, _ => .fail 0x03 lvl none
  | left + 1, lvl, t, acc =>
    let shift := if lvl = 1 then 42 else if lvl = 2 then 29 else 16
    let key := va >>> shift
    match cache.find? (fun w => w.asid == asid && w.lvl == lvl && w.key == key) with
    | some w => walkFrom s cache asid va left (lvl + 1) w.table acc
    | none =>
      let a := t + (key % 8192) * 8
      if isControl a then .fail 0x07 lvl (some (a, 2))
      else if ¬ (isHbm a ∨ isDurable a) then .fail 0x07 lvl (some (a, 1))
      else
        let r := s.homeRead a 8
        if r.2 then .fail 0x08 lvl none
        else
          let e : Word := BitVec.ofNat 64 r.1
          match pteCode e lvl with
          | some code => .fail code lvl none
          | none =>
            if e.toNat.testBit 8 then .leaf e (decide (lvl = 2)) acc
            else walkFrom s cache asid va left (lvl + 1) (bitsOf 51 16 e.toNat * 65536) (⟨asid, lvl, key, bitsOf 51 16 e.toNat * 65536⟩ :: acc)

/-- True when a TLB entry maps an address. -/
def TlbEntry.maps (e : TlbEntry) (asid : BitVec 16) (va : Nat) : Bool :=
  e.asid == asid && (if e.big then va / 2 ^ 29 == e.page else va / 2 ^ 16 == e.page)

/-- Puts an entry at the front of a TLB of `cap` entries; the oldest leaves. -/
def tlbAdd {α : Type} (cap : Nat) (l : List α) (e : α) : List α := (e :: l).take cap

/-- The set of the quad's 8-way TLB that an entry falls in. DESIGN CHOICE of the index: the low bits of the page number. -/
def TlbEntry.set (e : TlbEntry) : Nat := e.page % 512
/-- Puts an entry at the front of a quad's TLB: 512 sets of 8 ways, of which the oldest entry leaves (R348). -/
def tlbPut (l : List TlbEntry) (e : TlbEntry) : List TlbEntry :=
  let same := l.filter fun o => o.set == e.set
  e :: (if same.length < 8 then l else match same.getLast? with | some o => l.erase o | none => l)

/-- The entries that a site can hit, nearest first. -/
def State.tlbs (s : State) : Site → List TlbEntry
  | .core c => (s.core c).tlb ++ (s.quad (coreQuad c)).tlb
  | .coll d => (s.die d).collTlb
  | .hub => s.hub.tlb

/-- Fills a site's TLBs with an entry (R348). -/
def State.tlbFill (s : State) (site : Site) (e : TlbEntry) : State :=
  match site with
  | .core c =>
    let s1 := if (s.core c).tlb.contains e then s else s.modCore c fun k => { k with tlb := tlbAdd 128 k.tlb e }
    if (s1.quad (coreQuad c)).tlb.contains e then s1
    else s1.modQuad (coreQuad c) fun q => { q with tlb := tlbPut q.tlb e }
  | .coll d => if (s.die d).collTlb.contains e then s else s.modDie d fun k => { k with collTlb := tlbAdd 64 k.collTlb e }
  | .hub => if s.hub.tlb.contains e then s else s.modHub fun h => { h with tlb := tlbAdd 64 h.tlb e }

/-- The physical address that a leaf gives. -/
def paOf (pte : Word) (big : Bool) (va : Nat) : Nat :=
  if big then bitsOf 51 29 pte.toNat * 2 ^ 29 + va % 2 ^ 29 else bitsOf 51 16 pte.toNat * 2 ^ 16 + va % 2 ^ 16

/-- True for an address whose bits [63:56] repeat bit 55 (R344). -/
def canonical (va : Word) : Bool := let h := va.toNat >>> 55; h == 0 || h == 511

/-- Translates an address for an access: its physical address and leaf, or PAGE or PROT (R344, R346). A TLB takes no entry of a
walk that ends in either (R348). -/
def xlate (site : Site) (asid : BitVec 16) (level : Level) (acc : Acc) (cell : Bool) (va : Word) : M (Nat × Word) := do
  if ¬ canonical va then raise (pageTrap va acc 0 0x06 cell)
  let s ← get
  let check (e : TlbEntry) : M (Nat × Word) :=
    match permCode e.pte acc level with
    | some code => raise (pageTrap va acc (if e.big then 2 else 3) code cell)
    | none => do
      upd fun s => s.tlbFill site e
      pure (paOf e.pte e.big va.toNat, e.pte)
  match (s.tlbs site).find? (fun e => e.maps asid va.toNat) with
  | some e => check e
  | none =>
    let d := s.die site.die
    let root := Tab.look 0 (if va.toNat.testBit 55 then d.root1 else d.root0) asid.toNat
    match walkFrom s d.walks asid va.toNat 3 1 root [] with
    | .fail code lvl log =>
      (match log with
        | some (a, reason) => upd fun s => s.logViol (logOf a) (BitVec.ofNat 64 a) 0xFC00 1 reason 0
        | none => pure ())
      raise (pageTrap va acc lvl code cell)
    | .leaf pte big tables =>
      upd fun s => s.modDie site.die fun k => { k with walks := (tables ++ k.walks).take 512 }
      check ⟨asid, big, if big then va.toNat / 2 ^ 29 else va.toNat / 2 ^ 16, pte⟩

/-! ## Places -/

/-- Where an access goes: an offset of a quad's store, or a physical address with its leaf. -/
inductive Place where
  | window (q o : Nat)
  | phys (pa : Nat) (pte : Word)
  deriving DecidableEq, Repr

/-- True in the quad-store window (R314). -/
def inWindow (va : Word) : Bool := va.toNat >>> 23 == 0x00FFFF0000000000 >>> 23

/-- What an address maps to as the tables of a site stand, without a permission check: the physical address, the leaf, and
whether the page is a large one. -/
def State.peek (s : State) (site : Site) (asid : BitVec 16) (va : Word) : Option (Nat × Word × Bool) :=
  if !canonical va || inWindow va then none
  else
    match (s.tlbs site).find? fun e => e.maps asid va.toNat with
    | some e => some (paOf e.pte e.big va.toNat, e.pte, e.big)
    | none =>
      let d := s.die site.die
      match walkFrom s d.walks asid va.toNat 3 1 (Tab.look 0 (if va.toNat.testBit 55 then d.root1 else d.root0) asid.toNat) [] with
      | .leaf pte big _ => some (paOf pte big va.toNat, pte, big)
      | .fail _ _ _ => none

/-- Who makes an access: a context or one of its engine operations, with the level and the asid that it is checked under. -/
structure Agent where
  x : CtxNo
  level : Level
  asid : BitVec 16
  tag : BitVec 32
  /-- The start number of the record that it acts for, when the context has ended it. -/
  start : Option Nat := none
  /-- The access is an engine's (R300, kind 4). -/
  engine : Bool := false
  /-- The instruction may not name the window (R314). -/
  noWindow : Bool := false
  deriving DecidableEq, Repr

/-- The log kind of an access (R300). -/
def logKind (ag : Agent) (acc : Acc) : Nat :=
  if ag.engine then 4 else match acc with | .read | .fetch => 1 | .write => 2 | .atomic => 3

/-- VIOL at an address (R286). -/
def viol (va : Word) (reason : Nat) : TrapInfo := { cause := 0x08, addr := va, reason := reason }

/-- The backing address of an elastic offset (R315). -/
def Quad.backing (qd : Quad) (q o : Nat) : Word :=
  BitVec.ofNat 64 (qd.back.toNat + q * (qd.dmax - qd.dmin) * 0x40000 + (o - qd.dmin * 0x40000))

/-- The line of an elastic offset in physical memory, by the translation of the backing area that firmware made when the launch was
admitted and holds since (R315). -/
def State.backLine (s : State) (q o : Nat) : Nat :=
  let qd := s.quad q
  let at_ := ((qd.backing q o) - qd.back).toNat
  qd.pages.getD (at_ / 0x10000) 0 * 1024 + at_ % 0x10000 / 64

/-- Counts an access to the quad store: to an offset of bank B that misses the quad cache, or to bank B - 1 (R318). -/
def State.countStore (s : State) (q o : Nat) : State :=
  let k := s.quad q
  let bank := o / 0x40000
  if k.cfg.pin then s
  else if bank = k.bound ∧ (Tab.find k.cache (s.backLine q o)).isNone = true then s.modQuad q fun e => { e with sPlus := e.sPlus + 1 }
  else if bank + 1 = k.bound ∧ k.dmin < k.bound then s.modQuad q fun e => { e with sMinus := e.sMinus + 1 }
  else s

/-- The writes to the backing line of an elastic offset that wait at the hub are accepted before an access of the line. -/
def State.acceptBack (s : State) (q o : Nat) : State :=
  if o / 0x40000 < (s.quad q).bound then s else s.acceptLine (s.backLine q o)

/-- The MS, NC and D attributes of a leaf (R345). -/
def pteMs (p : Word) : Bool := p.toNat.testBit 5
def pteNc (p : Word) : Bool := p.toNat.testBit 7
def pteD (p : Word) : Bool := p.toNat.testBit 6

/-! ## The quad store (R312-R317) -/

/-- Reads up to 8 bytes within a granule of the quad store. -/
def State.storeRead (s : State) (q o n : Nat) : Nat × Bool :=
  let qd := s.quad q
  if o / 0x40000 < qd.bound then
    (ofLe ((List.range n).map fun i => getByte qd.store (o + i)), qd.storeMarks.contains (o / 8))
  else
    let v := s.quadView q (s.backLine q o)
    (lineGet v.1 (o % 64) n, v.2.getLsbD (o % 64 / 8))

/-- Writes bytes of a byte memory. -/
def putBytes (m : List Host.Cell) (a : Nat) : List Byte → List Host.Cell
  | [] => m
  | b :: t => putBytes (putByte m a b) (a + 1) t

/-- Writes up to 8 bytes within a granule of the quad store, as a thread. -/
def State.storeWrite (s : State) (q o n v : Nat) (pois : Bool) (who : Nat := 0) (op : Nat := 0) : State :=
  let qd := s.quad q
  if o / 0x40000 < qd.bound then
    s.modQuad q fun e => { e with
      store := putBytes e.store o (leBytes n v),
      storeMarks := if pois then addMark (o / 8) e.storeMarks
        else if n = 8 then e.storeMarks.filter (fun g => g != o / 8) else e.storeMarks }
  else
    let ln := s.backLine q o
    (s.quadWrite none q ln (patchOf o n v pois (s.signed who ln) op) true).stampLine who ln

/-- A read of an elastic offset allocates its line in the quad cache (R315). -/
def State.storeFill (s : State) (q o : Nat) : State := if o / 0x40000 < (s.quad q).bound then s else s.quadFill q (s.backLine q o)

/-! ## Read-modify-writes at home (R122, R196, R259, R361, R371) -/

/-- Reads a location at its home. -/
def State.atomRead (s : State) (h : Home) (addr size : Nat) : Nat × Bool :=
  match h with
  | .store q => s.storeRead q addr size
  | .unit => s.unitRead addr size
  | _ => s.homeRead addr size

/-- Writes a location at its home, as a thread; a durable one is persistent at once (R371). -/
def State.atomWrite (s : State) (x : CtxNo) (h : Home) (addr size v : Nat) (pois : Bool) (who : Nat := 0) : State :=
  match h with
  | .store q => s.storeWrite q addr size v pois who
  | .unit => s.unitPut addr size v pois
  | .durable => (s.homePut (some x) addr size v pois who).acceptLine (addr / 64)
  | _ => s.homePut (some x) addr size v pois who

/-- An atomic breaks the links on its line, whatever it writes (R199), and the line takes a way of its slice (R342). -/
def State.breakHome (s : State) (h : Home) (addr : Nat) : State :=
  match h with
  | .slice => (s.breakLine (addr / 64)).l2Fill (addr / 64)
  | _ => s

/-- One read-modify-write by a thread: the old value, whether the location held the poison code, and whether the operation
saturated. A poisoned location keeps its code (R196); a poisoned operand writes the code (R273). -/
def State.atomDo (s : State) (x : CtxNo) (a : Atom) (who : Nat := 0) : State × Nat × Bool × Bool :=
  let r := s.atomRead a.home a.addr a.size
  let s1 := s.breakHome a.home a.addr
  if a.pois then (s1.atomWrite x a.home a.addr a.size 0 true who, r.1, r.2, false)
  else if r.2 && a.op != .clear then (s1, r.1, true, false)
  else
    let n := atomApply a.op a.size r.1 a.val
    (s1.atomWrite x a.home a.addr a.size n.1 false who, r.1, r.2, n.2)

/-- The 8-byte word of an atomic. -/
def Atom.word (a : Atom) : Nat :=
  match a.home with
  | .store q => windowWord q a.addr
  | _ => physWord a.addr

/-- A read-modify-write of a context by an access that is ordered as its class says (R248). -/
def State.atomBy (s : State) (x : CtxNo) (at_ : Atom) (a : Access := {}) : State × Nat × Bool × Bool :=
  let r := s.atomDo x at_ (s.baseFor x a.start + a.part)
  (((r.1.sawWord x at_.word a).modBefore fun b => b.modified (r.1.baseFor x a.start) at_.word a.cls).access x a, r.2)

/-- The home and address of a place. -/
def Place.home : Place → Home × Nat
  | .window q o => (.store q, o)
  | .phys pa pte => (if pteD pte then .durable else if pteMs pte then .unit else .slice, pa)

/-- The 8-byte word of a place. -/
def Place.word : Place → Nat
  | .window q o => windowWord q o
  | .phys pa _ => physWord pa

/-- Before an atomic, the context's core and quad write the line back and drop it (R196). -/
def State.purgePlace (s : State) (x : CtxNo) : Place → State
  | .window q o => s.acceptBack q o
  | .phys pa _ => s.purge x (pa / 64)

/-- Where a posted operation goes: requests of one agent to one home arrive in order (R358). -/
def Posted.unit (p : Posted) : Home × Nat :=
  match p.atoms with
  | [] => (.slice, 0)
  | a :: _ => (a.home, if a.home = .durable then homeController a.addr else homeUnit a.addr)

/-- Scope codes nest; code 6 counts as 4 (R363). -/
def scopeRank (c : Nat) : Nat := if c = 6 then 4 else c

/-- The copies of an atomic's line in a context's core and quad are written back and dropped: a later load of the context sees the
atomic (R200, R250). -/
def State.purgeAtom (s : State) (x : CtxNo) (a : Atom) : State :=
  match a.home with
  | .store _ => s
  | _ => s.purge x (a.addr / 64)

/-- The thread of a posted operation. -/
def Posted.thread (p : Posted) : Nat := baseOf p.start + postedPart p.vector p.cls (scopeRank p.scope)

/-- A posted operation performs: its atomics apply in order, the copies of their lines that its context would hit are dropped, and
saturation is reported to its context while the record that issued it runs (R110, R122, R200). An operation that is a release is met
from here on. -/
def State.performPosted (s : State) (p : Posted) : State :=
  let r := p.atoms.foldl (fun (a : State × Bool) b =>
    let d := (a.1.purgeAtom p.x b).atomDo p.x b p.thread
    (d.1, a.2 || d.2.2.2)) (s, false)
  let s1 := { r.1 with posted := r.1.posted.filter fun q => q.no != p.no }
  let s2 := if r.2 = true ∧ p.scope ≠ 7 then s1.modCtx p.x fun c => { c with vcsr := c.vcsr.raise fSAT } else s1
  match p.rel with
  | none => s2
  | some rel => p.atoms.foldl (fun t a => t.modBefore fun b => b.publish a.word rel) s2

/-- A base-die unit executes the operations that reach its channel in the order of their arrival: before an access of its own, the
posted operations that have arrived there perform (R361). -/
def State.settleUnit (s : State) (pa : Nat) : State :=
  (s.posted.filter fun p => p.arrived && decide (p.unit = (.unit, homeUnit pa))).foldl State.performPosted s

/-! ## The place of an access -/

/-- Finds the place of an access, or raises its PAGE, PROT or VIOL, which the refusing block logs (R314, R340, R346). Before a
durable line is accessed, the writes to it that wait at the hub are accepted, since the access arrives behind them (R358, R372);
before a line of an MS page is, what has arrived at its unit performs (R361). -/
def place (ag : Agent) (site : Site) (acc : Acc) (cell : Bool) (va : Word) : M Place := do
  if inWindow va then
    if acc = .fetch then raise (pageTrap va acc 0 0x15 cell)
    let q := quadOf ag.x
    let o := va.toNat % 0x800000
    let qd := (← get).quad q
    let foreign := decide (qd.owner ≠ some ag.tag)
    if ag.noWindow ∨ foreign then
      upd fun s => s.logViol (logQuad q) va ag.x.toNat (logKind ag acc) 2 ag.tag
      raise (viol va 2)
    if qd.dmax * 0x40000 ≤ o then
      upd fun s => s.logViol (logQuad q) va ag.x.toNat (logKind ag acc) 1 ag.tag
      raise (viol va 1)
    upd fun s => (s.countStore q o).acceptBack q o
    pure (.window q o)
  else
    let (pa, pte) ← xlate site ag.asid ag.level acc cell va
    if isHbm pa then
      if pteMs pte then upd fun s => s.settleUnit pa
      pure (.phys pa pte)
    else if isDurable pa then
      upd fun s => s.acceptLine (pa / 64)
      pure (.phys pa pte)
    else
      upd fun s => s.logViol (logOf pa) (BitVec.ofNat 64 pa) ag.x.toNat (logKind ag acc) (if isControl pa then 2 else 1) ag.tag
      raise (viol va (if isControl pa then 2 else 1))

/-! ## Accesses through the caches -/

/-- Reads and writes of a page at home: an MS page has no L2 home (R342). -/
def State.pageLine (s : State) (pte : Word) (ln : Nat) : BitVec 512 × BitVec 8 := if pteMs pte then s.rawLine ln else s.homeLine ln
def State.pageRead (s : State) (pte : Word) (pa n : Nat) : Nat × Bool := if pteMs pte then s.unitRead pa n else s.homeRead pa n
def State.pagePut (s : State) (x : Option CtxNo) (pte : Word) (pa n v : Nat) (pois : Bool) (who : Nat := 0) (op : Nat := 0) : State :=
  if pteMs pte then s.unitPut pa n v pois else s.homePut x pa n v pois who op

/-- A read of a page's line at home: an MS page has no slice. -/
def State.reachPage (s : State) (pte : Word) (ln : Nat) : State := if pteMs pte then s else s.reachHome ln

/-- A line as a core's L1 takes it: from the quad cache, or from home on a page that the quad cache does not hold (R320). -/
def State.coreView (s : State) (c ln : Nat) (pte : Word) : BitVec 512 × BitVec 8 :=
  if pteMs pte then s.rawLine ln else s.quadView (coreQuad c) ln

/-- A core's L1 holds a line or has room for it (R15). -/
def Core.l1Room (k : Core) (ln : Nat) : Bool := (Tab.find k.l1 ln).isSome || decide (k.l1.length < l1Lines)

/-- Allocates a line in a core's L1, clean, where it has room. -/
def State.l1Fill (s : State) (c ln : Nat) (pte : Word) : State :=
  match Tab.find (s.core c).l1 ln with
  | some _ => s
  | none =>
    let s1 := if pteMs pte then s else s.quadFill (coreQuad c) ln
    if (s.core c).l1Room ln then
      let v := s1.coreView c ln pte
      s1.modCore c fun e => { e with l1 := Tab.put e.l1 ln { data := v.1, pois := v.2 } }
    else s1

/-- A line as a core sees it. -/
def State.lineSeen (s : State) (c ln : Nat) (pte : Word) : BitVec 512 × BitVec 8 :=
  match Tab.find (s.core c).l1 ln with
  | some l => (l.data, l.pois)
  | none => s.coreView c ln pte

/-- Reads up to 8 bytes within a granule as a core does (R254, R320, R360, R370). -/
def State.readPlace (s : State) (c : Nat) (p : Place) (n : Nat) : State × Nat × Bool :=
  match p with
  | .window q o =>
    let s1 := s.storeFill q o
    (s1, s1.storeRead q o n)
  | .phys pa pte =>
    if pteNc pte then
      let s1 := s.reachPage pte (pa / 64)
      (s1, s1.pageRead pte pa n)
    else
      let s1 := s.l1Fill c (pa / 64) pte
      let l := s1.lineSeen c (pa / 64) pte
      (s1, lineGet l.1 (pa % 64) n, l.2.getLsbD (pa % 64 / 8))

/-- Writes up to 8 bytes within a granule as a core does, as a thread and as part of a vector store: write-back on ordinary and
durable pages, through to home on MS and NC pages (R192, R320, R370); a line that the L1 has no room for is written in the quad cache.
The store breaks the links on its line at once (R199). -/
def State.putPlace (s : State) (x : CtxNo) (p : Place) (n v : Nat) (pois : Bool) (who op : Nat) : State :=
  match p with
  | .window q o => s.storeWrite q o n v pois who op
  | .phys pa pte =>
    let ln := pa / 64
    if pteMs pte ∨ pteNc pte then (s.dropL1 none (coreOf x) ln).pagePut (some x) pte pa n v pois who op
    else
      let c := coreOf x
      let s1 := (s.breakLine ln).l1Fill c ln pte
      let w := patchOf pa n v pois (s.signed who ln) op
      match Tab.find (s1.core c).l1 ln with
      | some l =>
        let m := mergeLine l.data l.pois w.data w.mask w.pois
        let new : Line := { l with data := m.1, dirty := l.dirty ||| w.mask, pois := m.2, by_ := firstStamps w.by_ l.by_ }
        (s1.modCore c fun e => { e with l1 := Tab.put e.l1 ln new }).stampLine who ln
      | none => (s1.quadWrite none (coreQuad c) ln w).stampLine who ln

/-- A write of a context by an access that is ordered as its class says (R248). -/
def State.writePlace (s : State) (x : CtxNo) (p : Place) (n v : Nat) (pois : Bool) (a : Access := {}) : State :=
  ((s.putPlace x p n v pois (s.baseFor x a.start + a.part) a.op).wroteWord x p.word a).access x a

/-- The home's part of an engine's read, which finds the line in neither the L1 nor the quad cache (R220, R342). -/
def State.engineReach (s : State) (c : Nat) (p : Place) : State :=
  match p with
  | .window q o => s.acceptBack q o
  | .phys pa pte =>
    if (Tab.find (s.core c).l1 (pa / 64)).isSome = true ∨ (Tab.find (s.quad (coreQuad c)).cache (pa / 64)).isSome = true then s
    else s.reachPage pte (pa / 64)

/-- Reads up to 8 bytes within a granule as an engine of a core does: through the L1 and quad cache without allocation (R220). -/
def State.engineRead (s : State) (c : Nat) (p : Place) (n : Nat) : Nat × Bool :=
  match p with
  | .window q o => s.storeRead q o n
  | .phys pa pte =>
    let l := s.lineSeen c (pa / 64) pte
    (lineGet l.1 (pa % 64) n, l.2.getLsbD (pa % 64 / 8))

/-- A write by an engine joins the last one that waits for the same durable line: it is one write of up to 64 bytes (R372). -/
def mergeLast (w : DurableWrite) : List DurableWrite → List DurableWrite
  | [] => [w]
  | [o] =>
    if o.line = w.line ∧ o.x = none ∧ o.put.by_.map (fun e => e.1) = w.put.by_.map (fun e => e.1) ∧ o.put.mask &&& w.put.mask = 0 then
      [⟨w.line, o.put.join w.put, none⟩]
    else [o, w]
  | o :: t => o :: mergeLast w t

/-- Writes up to 8 bytes within a granule as a copy chain does, of the number `no`: at home, with the core's and the quad's copies
dropped (R220). -/
def State.engineWrite (s : State) (x : CtxNo) (p : Place) (n v : Nat) (pois : Bool) (no : Nat) : State :=
  let who := baseOf no + enginePart
  let t := match p with
    | .window q o => s.storeWrite q o n v pois who
    | .phys pa pte =>
      let s1 := s.purge x (pa / 64)
      if pteMs pte then s1.unitPut pa n v pois
      else if isDurable pa then
        let w : DurableWrite := ⟨pa / 64, patchOf pa n v pois (s1.signed who (pa / 64)), none⟩
        (s1.modHub fun h => { h with waiting := mergeLast w h.waiting }).stampLine who (pa / 64)
      else s1.homePut none pa n v pois
  t.modBefore fun b => b.wrote (baseOf no) p.word 0

/-- The agent that a running context is. -/
def agentOf (x : CtxNo) (c : Ctx) : Agent := { x := x, level := c.level, asid := c.asid, tag := c.tag }

/-- A read of a context by an access that is ordered as its class says (R120, R248, R253): the value and its poison. -/
def State.readBy (s : State) (x : CtxNo) (p : Place) (n : Nat) (a : Access := {}) : State × Nat × Bool :=
  let r := s.readPlace (coreOf x) p n
  ((r.1.sawWord x p.word a).access x a, r.2)

/-- A context's load of `n` bytes at an address. -/
def loadVa (ag : Agent) (va : Word) (n : Nat) (a : Access := {}) : M (Nat × Bool) := do
  let p ← place ag (.core (coreOf ag.x)) .read false va
  let (s, v) := (← get).readBy ag.x p n { a with start := ag.start }
  set s
  pure v

/-- A context's load that raises POISON on a poisoned granule (R120, R295). -/
def loadClean (ag : Agent) (va : Word) (n : Nat) (a : Access := {}) : M Nat := do
  let (v, bad) ← loadVa ag va n a
  if bad then raise { cause := 0x0F, addr := va }
  pure v

/-- A context's store of `n` bytes at an address. -/
def storeVa (ag : Agent) (va : Word) (n v : Nat) (pois : Bool) (a : Access := {}) : M Unit := do
  let p ← place ag (.core (coreOf ag.x)) .write false va
  upd fun s => s.writePlace ag.x p n v pois { a with start := ag.start }

/-- `k` doublewords from an 8-byte-aligned address, each checked and clean, by accesses that are ordered as their class says. -/
def loadWordsBy (ag : Agent) (a : Access) (va : Word) : (k : Nat) → M (List Word)
  | 0 => pure []
  | k + 1 => do
    let v ← loadClean ag va 8 a
    let t ← loadWordsBy ag a (va + 8) k
    pure (BitVec.ofNat 64 v :: t)
/-- The same by the front end, in class 15. -/
def loadWords (ag : Agent) (va : Word) (k : Nat) : M (List Word) := loadWordsBy ag {} va k

end Sys2Proof.Machine
end

