-- ==== Sys2Proof/Machine/Order.lean ====
section
/-! DEFINITION. Posted operations, acquires, releases and persist waits, tokens, and the waits for the queues (R110, R122, R127,
R210, R248-R259, R316, R361-R363, R374-R378). -/

namespace Sys2Proof.Machine

/-! ## Event latches (R127) -/

/-- Sets the event latch of a context. -/
def State.latch (s : State) (x : CtxNo) : State := s.modCtx x fun c => { c with latch := true, wfeLooks := 0 }

/-- A release write by `x` reaches a line: contexts whose most recent `lda` read it are woken (R127). -/
def State.wakeLine (s : State) (x : CtxNo) (ln : Nat) : State :=
  { s with ctxs := s.ctxs.map fun e => if e.2.ldaLine = some ln ∧ e.1 ≠ x.toNat then (e.1, { e.2 with latch := true }) else e }

/-! ## Posted operations (R363) -/

/-- A wait at scope `c` covers an operation of scope `p`; 7 marks an operation whose record has ended. -/
def scopeCovers (c p : Nat) : Bool := decide (p ≠ 7 ∧ scopeRank p ≤ scopeRank c)

/-- The posted operations that a wait must perform: the covered ones, and those that a unit executes before a covered one: the
operations that have arrived there (R361), which stand first in their order, and earlier ones of the same context (R358). -/
def dueOps (covers : Posted → Bool) : List Posted → List Posted
  | [] => []
  | p :: t =>
    if covers p || t.any (fun q => covers q && (p.arrived || q.x == p.x) && decide (q.unit = p.unit)) then p :: dueOps covers t
    else dueOps covers t

/-- Waits until every covered posted operation has performed at home. -/
def State.settle (s : State) (covers : Posted → Bool) : State :=
  (dueOps covers s.posted).foldl State.performPosted s

/-- Adds a posted operation; `rel` is the release that it is. -/
def State.post (s : State) (x : CtxNo) (cls scope : Nat) (vector adj : Bool) (atoms : List Atom) (rel : Option Release := none) : State :=
  let p : Posted := { no := s.serial, x := x, tag := (s.ctx x).tag, cls := cls, scope := scope, vector := vector, adj := adj,
                      arrived := false, atoms := atoms, start := (s.ctx x).start, rel := rel }
  { s with posted := s.posted ++ [p], serial := s.serial + 1 }

/-! ## Write-backs and invalidations (R254) -/

/-- The write-backs that a release at a scope makes before it performs; code 6 counts as 4. No release writes window lines back
(R316). -/
def State.writeBacks (s : State) (x : CtxNo) (scope : Nat) : State :=
  let s1 := if 2 ≤ scope then s.flushL1 none (coreOf x) else s
  if 3 ≤ scope then s1.flushQuad none (quadOf x) true else s1

/-- The invalidations that an acquire at a scope makes: dirty bytes are written back first, so that no stale byte stays beside
them; lines with dirty bytes of the window stay. -/
def State.invalidate (s : State) (x : CtxNo) (scope : Nat) : State :=
  let s1 := if 2 ≤ scope then (s.flushL1 none (coreOf x)).modCore (coreOf x) fun k => { k with l1 := [] } else s
  if 3 ≤ scope then
    (s1.flushQuad none (quadOf x) true).modQuad (quadOf x) fun q => { q with shadow := [], cache := q.cache.filter fun l => l.2.dirty != 0 }
  else s1

/-! ## Persistence, releases and fences (R252, R254-R258, R374-R378) -/

/-- The lines of a cache that are durable. -/
def durableLines (t : Tab Line) : List Nat := (t.filter fun l => isDurable (64 * l.1)).map fun l => l.1

/-- Writes back the dirty durable bytes of a context's core and quad (R374); with `keep`, for a release, not those that came through
the window (R316). -/
def State.flushDurable (s : State) (x : CtxNo) (keep : Bool := false) : State :=
  let s1 := (durableLines (s.core (coreOf x)).l1).foldl (fun t l => t.cleanL1 (some x) (coreOf x) l) s
  (durableLines (s1.quad (quadOf x)).cache).foldl (fun t l => t.cleanQuad (some x) (quadOf x) l keep) s1

/-- A persist wait: posted operations perform, dirty durable bytes are written back, the persist buffer accepts, and the recovery
of what happens before the wait is settled (R374, R378). `keep`: for a release, which leaves the window's bytes (R316). -/
def State.persistWith (s : State) (x : CtxNo) (keep : Bool) (covers : Posted → Bool) (known : State → Clock) : State :=
  let s1 := (((s.settle covers).flushDurable x keep)).acceptWaiting
  s1.settleHistory (known s1)

/-- The posted operations that a `psync` of a context waits for: those of scalar accesses, and the durable ones. -/
def syncCovers (x : CtxNo) (p : Posted) : Bool :=
  p.x == x && decide (p.scope ≠ 7) && (!p.vector || p.atoms.any fun a => decide (a.home = .durable))

/-- What happens before a `psync` (R252): the record's scalar accesses and what its `pwb` have covered. -/
def State.persistClock (s : State) (x : CtxNo) : Clock :=
  s.before.over_ (s.base x) (persistPart :: (List.range 8).map (postedPart false 15))

/-- A `psync` of a context. -/
def State.persistWait (s : State) (x : CtxNo) : State := s.persistWith x false (syncCovers x) fun t => t.persistClock x

/-- What a `pwb` of a class covers: the accesses of its classes, the posted ones included (R252). -/
def State.coverClass (s : State) (x : CtxNo) (cls : Nat) : State :=
  s.modBefore fun b => b.learn (s.base x + persistPart) (if cls = 15 then b.releases (s.base x) 5 {} []
    else b.over_ (s.base x) ([cls, 16 + cls] ++ (List.range 8).map (postedPart true cls)))

/-- The write-backs of a release at a scope, which at scope 6 go on into the persist domain (R254). -/
def State.scopeBacks (s : State) (x : CtxNo) (scope : Nat) : State :=
  let s1 := s.writeBacks x (scopeRank scope)
  if scope = 6 then (s1.flushDurable x true).acceptWaiting else s1

/-- The posted operations of a context in the classes that a fork edge covers. -/
def forkCovers (x : CtxNo) (cls : Nat) (p : Posted) : Bool :=
  p.x == x && decide (p.scope ≠ 7) && (cls == 15 || p.cls == 15 || p.cls == cls)

/-- The fork edge of an engine operation of a class at a scope: the context's posted operations of the class perform, and the
write-backs of the scope are made (R252, R258). -/
def State.fork (s : State) (x : CtxNo) (cls scope : Nat) : State := (s.settle (forkCovers x cls)).scopeBacks x scope

/-- What a release at a scope covers of a record's accesses. -/
def State.releaseClock (s : State) (base scope : Nat) (a : Access := {}) (past : Clock := []) : Clock :=
  s.before.releases base (scopeRank scope) a past

/-- Everything that a release waits for beside the context's earlier accesses: posted operations of covered scope, write-backs,
and at scope 6 the work of a `psync` (R254, R255, R375). -/
def State.release (s : State) (x : CtxNo) (scope : Nat) (a : Access := {}) (past : Clock := []) : State :=
  let s1 := (s.settle fun p => p.x == x && scopeCovers scope p.scope).writeBacks x scope
  if scope = 6 then s1.persistWith x true (syncCovers x) fun t => t.releaseClock (t.base x) scope a past else s1

/-- The invalidations of an acquire at a scope, of which 6 counts as 4 (R254, R375). -/
def State.acquire (s : State) (x : CtxNo) (scope : Nat) : State := s.invalidate x (scopeRank scope)

/-- A context's write of a word, which it has made, is a release: an acquire that meets it synchronises with it (R251). -/
def State.publishWord (s : State) (x : CtxNo) (scope word : Nat) (a : Access := {}) (past : Clock := []) : State :=
  s.publish x scope word (s.releaseClock (s.base x) scope a past)

/-- The parts of a fence beside the context's earlier accesses (R256): posted operations of masked classes or class 15 and
covered scope, write-backs and invalidations, and what then happens before later accesses. A mask of 0 orders nothing. -/
def State.fence (s : State) (x : CtxNo) (scope mask : Nat) (vectorOnly : Bool) : State :=
  if mask = 0 then s
  else
    let rank := scopeRank scope
    let s1 := (((s.settle fun p => p.x == x && scopeCovers scope p.scope && (p.vector || !vectorOnly) &&
      (mask.testBit p.cls || p.cls == 15)).writeBacks x rank).acquire x rank)
    s1.modBefore fun b => (b.fence (s1.base x) x scope rank mask vectorOnly).1

/-- What a fence has put before the later accesses of a class that it masks. -/
def State.fenceClock (s : State) (x : CtxNo) (mask : Nat) (vectorOnly : Bool) : Clock :=
  s.before.over_ (s.base x) ((maskClasses mask).map (fencePart vectorOnly))

/-- The persist part of a `fence.dur`: a `psync`, which what the fence orders happens before (R252, R375). -/
def State.fencePersist (s : State) (x : CtxNo) (mask : Nat) : State :=
  s.persistWith x false (syncCovers x) fun t => joinClock (t.fenceClock x mask false) (t.persistClock x)

/-- The persist part of a `vfence.dur`: it waits for the durable posted operations of the vector queue in the masked classes (R257). -/
def State.vfencePersist (s : State) (x : CtxNo) (mask : Nat) : State :=
  s.persistWith x false (fun p => p.x == x && decide (p.scope ≠ 7) && p.vector && (mask.testBit p.cls || p.cls == 15) &&
    p.atoms.any fun a => decide (a.home = .durable)) fun t => t.fenceClock x mask true

/-! ## Tokens (R35, R210) -/

/-- The FIFO of an engine's partner (R35): the engine's first partner is 1, its second 2; a push goes to the partner, a pop comes
from it. -/
def fifoOf (q : QueueNo) (partner : Nat) (push : Bool) : Option Fifo :=
  match q, partner, push with
  | .vector, 1, true => some .vm
  | .vector, 2, true => some .vc
  | .matrix, 1, true => some .mv
  | .matrix, 2, true => some .mc
  | .copy, 1, true => some .cv
  | .copy, 2, true => some .cm
  | .vector, 1, false => some .mv
  | .vector, 2, false => some .cv
  | .matrix, 1, false => some .vm
  | .matrix, 2, false => some .cm
  | .copy, 1, false => some .vc
  | .copy, 2, false => some .mc
  | _, _, _ => none

/-- The index of a FIFO (R64). -/
def Fifo.ix : Fifo → Nat
  | .vm => 0
  | .mv => 1
  | .vc => 2
  | .cv => 3
  | .mc => 4
  | .cm => 5
/-- The FIFO of an index. -/
def fifoIx (n : Nat) : Fifo :=
  match n with
  | 0 => .vm
  | 1 => .mv
  | 2 => .vc
  | 3 => .cv
  | 4 => .mc
  | _ => .cm
/-- The engine that pops a FIFO. -/
def Fifo.consumer : Fifo → QueueNo
  | .vm => .matrix
  | .mv => .vector
  | .vc => .copy
  | .cv => .vector
  | .mc => .copy
  | .cm => .matrix
/-- The engine that pushes a FIFO. -/
def Fifo.producer : Fifo → QueueNo
  | .vm => .vector
  | .mv => .matrix
  | .vc => .vector
  | .cv => .copy
  | .mc => .matrix
  | .cm => .copy

/-- The counts of a FIFO. -/
def Ctx.tok (c : Ctx) (f : Fifo) : Tokens := Tab.look {} c.tokens f.ix
/-- Changes the counts of a FIFO. -/
def Ctx.setTok (c : Ctx) (f : Fifo) (t : Tokens) : Ctx := { c with tokens := Tab.put c.tokens f.ix t }

/-- The pop and the push of an entry's instruction. -/
structure TokenUse where
  pop : Option Fifo := none
  push : Option Fifo := none
  deriving DecidableEq, Repr

/-- The tokens of a 64-bit instruction of an engine (R35). -/
def opTokens (f : Op64) (q : QueueNo) : TokenUse := ⟨fifoOf q f.tkpop.toNat false, fifoOf q f.tkpush.toNat true⟩

/-- The tokens that an entry's instruction takes and gives. -/
def instrTokens (i : Instr) (q : QueueNo) : TokenUse :=
  match i with
  | .tkwait f => ⟨some (fifoIx f.fn4.toNat), none⟩
  | .tkpush f => ⟨none, some (fifoIx f.fn4.toNat)⟩
  | .evpulse _ => ⟨none, none⟩
  | _ => match parts64 i with
    | some (_, f) => opTokens f q
    | none => ⟨none, none⟩

/-! ## Waiting for the queues -/

/-- How an instruction of the vector queue accesses memory: its class, and whether it only loads; an acquire, which orders every
class, and the galley's instructions count as class 15. `vfence` makes no access (R257). -/
def vectorAccess (i : Instr) : Option (Nat × Bool) :=
  match parts64 i with
  | none => none
  | some (m, f) =>
    if m = 0x58 ∨ m = 0x59 ∨ m = 0x5A ∨ m = 0x5B ∨ m = 0x65 ∨ m = 0x62 ∨ m = 0xB6 then
      some (if f.fn4 = 1 ∨ (m = 0xB6 ∧ f.fn3 ≠ 0) then 15 else f.cls4.toNat, true)
    else if 0x5C ≤ m ∧ m ≤ 0x64 ∨ m = 0xB7 ∨ m = 0xC0 ∨ m = 0xC1 ∨ m = 0xC2 then some (f.cls4.toNat, false)
    else if 0xB3 ≤ m ∧ m ≤ 0xB5 then some (15, false)
    else none

/-- A dispatched vector access has not performed and is not parked. -/
def Entry.accesses (e : Entry) : Bool := decide (e.queue = .vector) && !e.parked && (vectorAccess e.instr).isSome

/-- A queued entry pops a token that a `wld` of the queue before it pushes: an access behind the pop follows the reads of the `wld`
(R238). -/
def Ctx.behindLoad (c : Ctx) (e : Entry) : Bool :=
  !e.parked && c.queue.any fun o => decide (o.seq < e.seq) && !o.parked &&
    match o.instr with
    | .wld _ => (instrTokens o.instr o.queue).push.isSome &&
        decide ((instrTokens o.instr o.queue).push = (instrTokens e.instr e.queue).pop)
    | _ => false

/-- The bytes that a vector access may touch, as an interval; none when they may lie anywhere: an indexed access, a mode in which the
access touches more than its own bytes, or an interval that leaves the address space. -/
def Entry.span (e : Entry) : Option (Nat × Nat) :=
  match parts64 e.instr with
  | none => none
  | some (m, _) =>
    let n := e.vt.size * e.vl
    let w := if e.vt.bitsW < 8 then 1 else e.vt.bitsW / 8
    let sb := e.sb.toInt
    let far : Option Int :=
      if e.mode ≠ .off then none
      else if m = 0x58 ∨ m = 0x5C ∨ m = 0x65 ∨ m = 0x62 ∨ m = 0x63 then some 0
      else if m = 0x59 ∨ m = 0x5D then some (((n - 1 : Nat) : Int) * sb)
      else if m = 0x5B ∨ m = 0x5F then some (((e.vt.size - 1 : Nat) : Int) * sb)
      else none
    match far with
    | none => none
    | some f =>
      let lo := (e.sa.toNat : Int) + min 0 f
      let hi := (e.sa.toNat : Int) + max 0 f + ((n * w : Nat) : Int)
      if 0 ≤ lo ∧ hi ≤ 2 ^ 64 then some (lo.toNat, hi.toNat) else none

/-- A vector access may touch `n` bytes at an address. -/
def Entry.mayTouch (e : Entry) (va n : Nat) : Bool :=
  match e.span with
  | some (lo, hi) => decide (va < hi ∧ lo < va + n)
  | none => true

/-- An older entry that a scalar access of a class to `n` bytes at an address waits for: one that its class orders before it (R248),
a load for a store (R249), and a store that may touch its bytes (R250, R252). -/
def memBlocks (cls : Nat) (store : Bool) (va n : Nat) (e : Entry) : Bool :=
  decide (e.queue = .vector) && !e.parked && match vectorAccess e.instr with
    | none => false
    | some (k, load) => k == cls || k == 15 || cls == 15 || (if load then store else e.mayTouch va n)

/-- A dispatched vector access of the context keeps an access that is ordered behind every one from performing. -/
def Ctx.vecBusy (c : Ctx) : Bool := c.queue.any fun e => e.accesses || c.behindLoad e
/-- An older entry keeps a scalar access of a class to `n` bytes at an address from performing. -/
def Ctx.memBlocked (c : Ctx) (cls : Nat) (store : Bool) (va : Word) (n : Nat) : Bool :=
  c.queue.any fun e => memBlocks cls store va.toNat n e || c.behindLoad e
/-- Some dispatched entry has not completed and is not parked. -/
def Ctx.busy (c : Ctx) : Bool := c.queue.any fun e => !e.parked

/-- A remote operation that a wait at a scope for the classes of a mask includes, not yet acknowledged or refused: at pod scope
every one, at another scope a reduce store of covered scope, which is a posted operation (R363, R408). -/
def Remote.awaited (r : Remote) (scope mask : Nat) : Bool :=
  !r.acked && (decide (scope = 5) ||
    decide (r.major = 0xC2) && scopeCovers scope r.scope && (mask.testBit r.cls || r.cls == 15))
/-- The depth of the mask stack in program order: the entries of the stack with the pushes and pops that are queued (R178). -/
def Ctx.depth (c : Ctx) : Nat :=
  c.queue.foldl (fun n e => if e.parked then n else match e.instr with
    | .mpush _ => n + 1
    | .mpop _ => n - 1
    | _ => n) c.stack.length

/-- A vector entry that has not issued may still make a posted operation or a durable atomic or adjoint one (R363, R371). -/
def Entry.posts (e : Entry) : Bool :=
  decide (e.queue = .vector) && !e.parked && match parts64 e.instr with
    | some (m, _) => decide (m = 0x64 ∨ m = 0xB7 ∨ (0x58 ≤ m ∧ m ≤ 0x5F ∧ e.mode = .rev))
    | none => false

/-- Waits for the remote operations that a wait at a scope includes. -/
def remoteWait (x : CtxNo) (scope : Nat) (mask : Nat := 0xFFFF) : M Unit := do
  if (← ctxM x).remote.any fun r => r.awaited scope mask then stall

/-- The front end's part of the fork edge of a command in a class: it waits for the reduce stores to other devices, which are posted
operations (R363, R366, R406, R410). -/
def forkRemote (x : CtxNo) (cls : Nat) : M Unit := do
  if (← ctxM x).remote.any fun r => !r.acked && decide (r.major = 0xC2) && (cls == 15 || r.cls == 15 || r.cls == cls) then stall

/-- The invalidations of an acquire (R254); at scope 6 it acts as one at scope 4 (R375). -/
def acquireM (x : CtxNo) (scope : Nat) : M Unit := upd fun s => s.acquire x scope

/-- A single atomic of a context's record or engine operation, as a thread: its place is checked as an atomic access, its line is
purged, and it applies (R122, R316). -/
def atomM (ag : Agent) (va : Word) (size : Nat) (op : AtomOp) (val : Nat) (who : Nat := 0) : M (Nat × Bool × Bool) := do
  let p ← place ag (.core (coreOf ag.x)) .atomic false va
  let h := p.home
  let r := ((← get).purgePlace ag.x p).atomDo ag.x ⟨h.1, h.2, size, op, val, false⟩ who
  set r.1
  pure r.2

/-- The number by which contexts watch a line (R127): of memory its own, of a quad store one above every line of memory. -/
def Place.line : Place → Nat
  | .window q o => 0x1000000000000 + q * 0x20000 + o / 64
  | .phys pa _ => pa / 64

/-- Wakes the contexts that watch a place (R127). -/
def State.wakePlace (s : State) (x : CtxNo) (p : Place) : State := s.wakeLine x p.line

/-- The scope of an engine operation's completion release: package when the object is homed on another die than `d`, a durable one at
the hub die (R258, R366, R369). -/
def completionScope (d scope : Nat) (p : Place) : Nat :=
  match p with
  | .phys pa _ => if (isDurable pa ∨ homeDie pa ≠ d) ∧ scope < 4 then 4 else scope
  | .window _ _ => scope

/-- The increment of a completion object by an engine operation of `x` on die `d`, of the number `no`, before whose accesses stands
`hb`: its accesses have performed, its durable writes are accepted (R374), the scope's write-backs are made, 1 is added at home as
a release that covers its accesses, and the event latch of the issuing context is set (R127, R258). -/
def State.completeObject (s : State) (x : CtxNo) (d scope : Nat) (p : Place) (no : Nat) (hb : Clock) : State :=
  let sc := completionScope d scope p
  let who := baseOf no + enginePart
  let known (t : State) : Clock := joinClock hb (t.before.at_ who)
  let s1 := (s.writeBacks x (scopeRank sc)).acceptWaiting
  let s2 := if sc = 6 then s1.persistWith x true (syncCovers x) known else s1
  let h := p.home
  let s3 := ((s2.purgePlace x p).atomDo x ⟨h.1, h.2, 8, .add, 1, false⟩ who).1
  ((s3.publish x sc p.word (known s3)).latch x).wakePlace x p

end Sys2Proof.Machine
end

