-- ==== Sys2Proof/Machine/Records.lean ====
section
/-! DEFINITION. Barriers, continuation records and their queues, the end of a record and its kill (R132, R199, R227, R260-R262,
R324-R336). -/

namespace Sys2Proof.Machine

/-! ## Pulses of the chase (R215) -/

/-- Raises a line: each enabled counter of the core that counts it, of the owner context for lines 0 to 7, counts one more, up
to 65,535. -/
def State.countPulse (s : State) (core : Nat) (owner : Option CtxNo) (line : Nat) : State :=
  s.modCore core fun k => { k with
    counters := k.counters.map fun e =>
      if e.2.word.getLsbD 25 = true ∧ e.2.word.toNat % 64 = line ∧ (owner = none ∨ owner = some e.2.owner) then
        (e.1, { e.2 with count := Nat.min (e.2.count + 1) 65535 }) else e }

/-- A level input of a term: a counter reached, or a token held. -/
def State.termInput (s : State) (core : Nat) (owner : CtxNo) (bit : Nat) : Bool :=
  if bit < 8 then
    match Tab.find (s.core core).counters bit with
    | some n => n.word.getLsbD 25 && decide (bitsOf 23 8 n.word.toNat ≤ n.count)
    | none => false
  else decide (0 < ((s.ctx owner).tok (fifoIx (bit - 8))).held)

/-- The bits of a mask. -/
def maskBits (m : Nat) : List Nat := (List.range 14).filter fun b => m.testBit b

/-- The inputs of a term make it true (R215). -/
def State.termTrue (s : State) (core : Nat) (t : Term) : Bool :=
  let ors := maskBits (bitsOf 31 16 t.word.toNat)
  (maskBits (bitsOf 15 0 t.word.toNat)).all (s.termInput core t.owner) && (ors.isEmpty || ors.any (s.termInput core t.owner))

/-- A term after its inputs may have changed: an armed one that becomes true is due to fire, whatever its inputs do then; one that
has fired waits until they have been false. DESIGN CHOICE: a term that stays true after it fires does not become true again. -/
def Term.look (t : Term) (now : Bool) : Term :=
  match t.phase with
  | .low => if t.armed = true ∧ now = true then { t with phase := .due } else t
  | .due => t
  | .fired => if now then t else { t with phase := .low }

/-- The chase of a core looks at its inputs. -/
def State.lookTerms (s : State) (core : Nat) : State :=
  let terms := (s.core core).terms.map fun e => (e.1, e.2.look (s.termTrue core e.2))
  if terms = (s.core core).terms then s else s.modCore core fun k => { k with terms := terms }

/-- A pulse, with the terms that it makes true. -/
def State.pulse (s : State) (core : Nat) (owner : Option CtxNo) (line : Nat) : State := (s.countPulse core owner line).lookTerms core

/-- A context's counters and terms are discarded and its holds released (R218). -/
def State.dropChase (s : State) (x : CtxNo) : State :=
  let k := s.core (coreOf x)
  if k.counters.any (fun e => e.2.owner == x) || k.terms.any (fun e => e.2.owner == x) then
    s.modCore (coreOf x) fun k => { k with
      counters := k.counters.filter fun e => e.2.owner != x
      terms := k.terms.filter fun e => e.2.owner != x }
  else s

/-- Breaks every link of a context (R199). -/
def State.dropLinks (s : State) (x : CtxNo) : State :=
  if s.dies.any fun d => d.2.links.any fun l => l.2 == x then
    { s with dies := s.dies.map fun d => (d.1, { d.2 with links := d.2.links.filter fun l => l.2 != x }) }
  else s

/-! ## Barriers (R22, R260-R262) -/

/-- The unit of a scope that a context belongs to. -/
def barUnit (scope : Nat) (x : CtxNo) : Nat :=
  match scope with
  | 1 => coreOf x
  | 2 => quadOf x
  | 3 => dieOf x
  | _ => 0
/-- How many barriers a unit of a scope has (R22). -/
def barIds (scope : Nat) : Nat :=
  match scope with
  | 1 => 8
  | 2 | 5 => 16
  | _ => 32
/-- The largest participant count of a scope (R260). -/
def barLimit (scope : Nat) : Nat :=
  match scope with
  | 1 => 4
  | 2 => 16
  | 3 => 256
  | 4 => 1024
  | _ => 0x10000000
/-- The table key of a barrier. -/
def barKey (scope unit id : Nat) : Nat := (scope * 1024 + unit) * 64 + id
/-- The scope of a key. -/
def barScope (key : Nat) : Nat := key / 65536
/-- The unit of a key. -/
def barUnitOf (key : Nat) : Nat := key / 64 % 1024
/-- The id of a key. -/
def barId (key : Nat) : Nat := key % 64

/-- A barrier. -/
def State.bar (s : State) (key : Nat) : Barrier := Tab.look {} s.bars key

/-- Sets a barrier; when it becomes Idle, each context that holds a phase number for it keeps the mark of an ended participation
instead (R261). -/
def State.setBar (s : State) (key : Nat) (b : Barrier) : State :=
  let s1 := { s with bars := Tab.put s.bars key (if b.state = .idle then { b with idleAt := b.phase } else b) }
  if b.state = .idle then
    { s1 with ctxs := s1.ctxs.map fun (e : Nat × Ctx) =>
        match Tab.find e.2.parts key with
        | some (.phase _) => (e.1, { e.2 with parts := Tab.put e.2.parts key .ended })
        | _ => e }
  else s1

/-- Sets a context's part in a barrier. -/
def State.setPart (s : State) (x : CtxNo) (key : Nat) (p : Option Part) : State :=
  s.modCtx x fun c => { c with parts := match p with | some q => Tab.put c.parts key q | none => Tab.del c.parts key }

/-- Sends a pod barrier's event to the other hubs (R409). -/
def State.podSend (s : State) (key : Nat) (m : PodMessage) : State :=
  if barScope key = 5 ∧ s.hub.dims ≠ (1, 1, 1) then s.modHub fun h => { h with outPods := (barId key, m) :: h.outPods } else s

/-- Opens an idle barrier with the count of an opening word and an owner (R260, R261). -/
def openBar (b : Barrier) (n owner : Nat) : Barrier := { b with state := .open_, n := n, a := 0, drops := 0, owner := owner, devs := [] }

/-- Counts an arrival (R261): when a = n the phase completes, which wakes the participants (R127), raises the chase lines of a
quad barrier (R321), and leaves the barrier open or, with n = 0, idle. -/
def State.countArrival (s : State) (key : Nat) : State :=
  let b := s.bar key
  if b.n ≤ b.a + 1 then
    let n := b.n - b.drops
    let s1 := { s with ctxs := s.ctxs.map fun (e : Nat × Ctx) => if (Tab.find e.2.parts key).isSome then (e.1, { e.2 with latch := true }) else e }
    let devs := b.devs.map fun d => { d with now := 0 }
    let s2 := s1.setBar key { b with state := if n = 0 then .idle else .open_, n := n, a := 0, drops := 0, phase := b.phase + 1, devs := devs }
    if barScope key = 2 then
      [0, 1, 2, 3].foldl (fun t i => t.pulse (4 * barUnitOf key + i) none (16 + barId key)) s2
    else s2
  else s.setBar key { b with a := b.a + 1 }

/-- The number of a barrier's phase among the arrivals of the account. -/
def phaseKey (key phase : Nat) : Nat := key * 2 ^ 32 + phase
/-- An arrival is a release at the barrier's scope, which covers every earlier access of the context (R262). -/
def State.arrives (s : State) (x : CtxNo) (key phase : Nat) : State :=
  let k := s.releaseClock (s.base x) (barScope key)
  s.modBefore fun b => { b with bars := Tab.put b.bars (phaseKey key phase) (joinClock k (Tab.look [] b.bars (phaseKey key phase))) }
/-- A wait that ends with status 0 is an acquire that follows every arrival of its phase (R262). -/
def State.awaited (s : State) (x : CtxNo) (key phase : Nat) : State :=
  s.modBefore fun b => b.acquires (s.base x) {} (Tab.look [] b.bars (phaseKey key phase))

/-- `arrive` (R261): the status, 0x14 when the barrier is broken. -/
def State.barArrive (s : State) (x : CtxNo) (key n owner : Nat) : State × Nat :=
  let b := s.bar key
  if b.state = .broken then (s, 0x14)
  else
    let s1 := if b.state = .idle then s.setBar key (openBar b n owner) else s
    let s2 := (s1.podSend key (.arrival (s.ctx x).asid n false)).setPart x key (some (.phase b.phase))
    ((s2.arrives x key b.phase).countArrival key, 0)

/-- A broken barrier after one more participant has left: Idle when none is left, but a pod barrier stays broken until a management
request resets it (R261, R409). -/
def lowerBroken (key : Nat) (b : Barrier) : Barrier :=
  { b with n := b.n - 1, state := if b.n ≤ 1 ∧ barScope key ≠ 5 then .idle else .broken }

/-- `drop`, `exit` (R261). -/
def State.barDrop (s : State) (x : CtxNo) (key n owner : Nat) : State × Nat :=
  let b := s.bar key
  let part := Tab.find (s.ctx x).parts key
  match b.state with
  | .broken =>
    (((s.setPart x key none).setBar key (lowerBroken key b)).podSend key .leave, 0x14)
  | .idle =>
    if part = some .ended then (s.setPart x key none, 0)
    else
      let s1 := (s.setBar key { openBar b n owner with drops := 1 }).podSend key (.arrival (s.ctx x).asid n true)
      (((s1.setPart x key none).arrives x key b.phase).countArrival key, 0)
  | .open_ =>
    let s1 := (s.setPart x key none).setBar key { b with drops := b.drops + 1 }
    if part = some (.phase b.phase) then (s1.podSend key .leave, 0)
    else (((s1.podSend key (.arrival (s.ctx x).asid n true)).arrives x key b.phase).countArrival key, 0)

/-- Breaks a barrier for the kill of one participant (R261). -/
def State.breakBar (s : State) (key : Nat) : State :=
  let b := s.bar key
  match b.state with
  | .idle => s
  | .open_ =>
    let n := b.n - b.drops - 1
    let devs := b.devs.map fun d => { d with now := 0 }
    s.setBar key { b with state := if n = 0 ∧ barScope key ≠ 5 then .idle else .broken, n := n, a := 0, drops := 0,
                          phase := b.phase + 1, brks := b.phase :: b.brks, devs := devs }
  | .broken => s.setBar key (lowerBroken key b)

/-- The keys of the barriers in which a context takes part or holds a mark. -/
def Ctx.barKeys (c : Ctx) : List Nat := c.parts.map fun p => p.1

/-- `exit` drops every barrier on which the record is a participant, each as a release at its scope, and clears its marks
(R132, R261, R262). -/
def State.dropBars (s : State) (x : CtxNo) : State :=
  (s.ctx x).barKeys.foldl (fun t k =>
    match Tab.find (t.ctx x).parts k with
    | some (.phase _) => ((t.release x (barScope k)).barDrop x k 0 0).1
    | _ => t.setPart x k none) s

/-- A kill breaks every barrier on which the record is a participant (R336). -/
def State.breakBars (s : State) (x : CtxNo) : State :=
  (s.ctx x).barKeys.foldl (fun t k =>
    match Tab.find (t.ctx x).parts k with
    | some (.phase _) => ((t.setPart x k none).breakBar k).podSend k .broken
    | _ => t.setPart x k none) s

/-! ## Queues of records (R324-R331) -/

/-- Adds to a quad's count of a launch (R334). -/
def State.quadCount (s : State) (q : Nat) (tag : BitVec 32) (n : Int) : State :=
  if tag = 0 then s else s.modQuad q fun e => { e with counts := Tab.put e.counts tag.toNat (Tab.look 0 e.counts tag.toNat + n) }
/-- Adds to a die's count of a launch. -/
def State.dieCount (s : State) (d : Nat) (tag : BitVec 32) (n : Int) : State :=
  if tag = 0 then s else s.modDie d fun e => { e with counts := Tab.put e.counts tag.toNat (Tab.look 0 e.counts tag.toNat + n) }

/-- The priority of a record's word 0. -/
def recPrio (w0 : Word) : Nat := bitsOf 59 56 w0.toNat
/-- The flag s of a record (R290). -/
def recS (w0 : Word) : Bool := w0.getLsbD 60
/-- The die whose queue takes a record queued by an agent of a die (R324). -/
def recDie (own : Nat) (w0 : Word) : Nat := if w0.getLsbD 63 then bitsOf 62 61 w0.toNat else own
/-- The code pointer of a record. -/
def recCp (w0 : Word) : Word := BitVec.ofInt 64 (sextNat 56 w0.toNat)

/-- Why a record may not be queued. -/
inductive RecFault where
  | priv | bad
  deriving DecidableEq, Repr

/-- The checks of R130 on a record's word 0 at the level of the agent that queues it. -/
def recCheck (level : Level) (w0 : Word) : Option RecFault :=
  if (recPrio w0 < 2 ∧ level ≠ .f) ∨ (recS w0 = true ∧ level = .u) then some .priv
  else if 12 ≤ recPrio w0 ∨ (w0.getLsbD 63 = false ∧ bitsOf 62 61 w0.toNat ≠ 0) then some .bad
  else none

/-- A queue of a die. -/
def Die.level (d : Die) (p : Nat) : List Rec := Tab.look [] d.queues p
/-- The backing ring of a priority. -/
def Die.ring (d : Die) (p : Nat) : Ring := Tab.look ⟨0, Config.queueRing⟩ d.rings p
/-- How many records a queue holds before its buffer and its backing ring are full (R329). -/
def Die.capacity (d : Die) (p : Nat) : Nat := Config.queueBuffer + (d.ring p).size
/-- The records of a queue that have spilled to its backing ring, where they keep their places (R329). -/
def Die.spilled (d : Die) (p : Nat) : List Rec := (d.level p).drop Config.queueBuffer

/-- A record that an agent of die `own` queued goes to a queue. -/
def boundFor (own d p : Nat) (r : Rec) : Bool := recDie own r.w0 == d && recPrio r.w0 == p

/-- True when a queue of a die is full (R329). DESIGN CHOICE: the records on their way to it count, so that each finds a place when it
arrives (R326). -/
def State.queueFull (s : State) (d p : Nat) : Bool :=
  let coming := s.dies.foldl (fun n o => n + (o.2.transit.filter (boundFor o.1 d p)).length) 0
  decide ((s.die d).capacity p ≤ ((s.die d).level p).length + coming)

/-- Puts a record at the end of its queue. -/
def State.enqueue (s : State) (d : Nat) (r : Rec) : State :=
  s.modDie d fun e => { e with queues := Tab.put e.queues (recPrio r.w0) (e.level (recPrio r.w0) ++ [r]) }

/-- Queues a record that an agent of die `own` queues: in its own die's queue, or in transit to another die (R326). -/
def State.send (s : State) (own : Nat) (r : Rec) : State :=
  if recDie own r.w0 = own then s.enqueue own r else s.modDie own fun e => { e with transit := e.transit ++ [r] }

/-- The records on their way from one die to another enter their queues there, in the order in which they were sent. -/
def State.arriveAll (s : State) (own d : Nat) : State :=
  if own = d then s
  else
    let mine (r : Rec) : Bool := recDie own r.w0 == d
    ((s.die own).transit.filter mine).foldl (fun t r => t.enqueue d r)
      (s.modDie own fun e => { e with transit := e.transit.filter fun r => !mine r })

/-- A record of a die's join reserve enters its queue, behind the records that its die has sent there. -/
def State.fromReserve (s : State) (own : Nat) (r : Rec) : State :=
  ((s.modDie own fun e => { e with reserve := e.reserve.erase r }).arriveAll own (recDie own r.w0)).enqueue (recDie own r.w0) r

/-- The record of the join reserves that has waited longest for a queue, with the die whose reserve holds it. -/
def State.oldestReserved (s : State) (d p : Nat) : Option (Nat × Rec) :=
  (s.dies.flatMap fun o => (o.2.reserve.filter (boundFor o.1 d p)).map fun r => (o.1, r)).foldl
    (fun best r => match best with
      | none => some r
      | some b => if r.2.no < b.2.no then some r else some b) none

/-- `n` of the records that wait for a queue enter it while it has room, the oldest first. -/
def State.drainSome (s : State) (d p : Nat) : (n : Nat) → State
  | 0 => s
  | n + 1 =>
    match s.oldestReserved d p with
    | none => s
    | some r => if s.queueFull d p then s else (s.fromReserve r.1 r.2).drainSome d p n

/-- The records that wait in the join reserves for a queue enter it while it has room, the oldest first: they go before any later
record (R327). -/
def State.drainReserve (s : State) (d p : Nat) : State :=
  s.drainSome d p (s.dies.foldl (fun n o => n + o.2.reserve.length) 0)

/-- The scope of the release and acquire of a record that goes from one die to another or stays (R130). -/
def recScope (own : Nat) (w0 : Word) : Nat := if recDie own w0 = own then 3 else 4

/-- Queues the embedded record of a join, through the join reserve when its queue is full; none when the reserve is full too
(R131, R327). DESIGN CHOICE: the reserve is that of the decrementing agent's die, for a record with dv = 1 too. -/
def State.sendJoin (s : State) (own : Nat) (r : Rec) : Option State :=
  let d := recDie own r.w0
  let t := s.drainReserve d (recPrio r.w0)
  if t.queueFull d (recPrio r.w0) then
    if (t.die own).reserve.length < Config.joinReserve then
      some { t.modDie own fun e => { e with reserve := e.reserve ++ [{ r with no := t.serial }] } with serial := t.serial + 1 }
    else none
  else some (t.send own r)

/-- The records of a die's join reserve whose queue has room enter it, those of one queue at a time (R327). -/
def reserveMove (s : State) (d : Nat) : Option State :=
  match (s.die d).reserve.find? fun r => !s.queueFull (recDie d r.w0) (recPrio r.w0) with
  | some r => some (s.drainReserve (recDie d r.w0) (recPrio r.w0))
  | none => none

/-- The asid of the launch whose record a context runs, which every record that it queues starts with (R349). -/
def State.launchAsid (s : State) (tag : BitVec 32) (asid : BitVec 16) : BitVec 16 :=
  match Tab.find s.hub.launches tag.toNat with
  | some l => l.asid
  | none => asid

/-! ## Joins (R131, R327, R328) -/

/-- The scope of a join's release and acquire: die when the block is homed on the agent's die (R131). -/
def joinScope (own : Nat) (p : Place) : Nat :=
  match p with
  | .window _ _ => 3
  | .phys pa _ => if isHbm pa ∧ homeDie pa = own then 3 else 4

/-- What a join decrement met. -/
inductive JoinEnd where
  | done | full
  | zero | priv | bad
  deriving DecidableEq, Repr

/-- A computation that waits has no effect. -/
def whole {α : Type} (m : M α) : M α := fun s =>
  match m s with
  | .error .wait _ => .error .wait s
  | r => r

/-- The decrement of a join block at a place, a release, and after the last one an acquire, and the queuing of its embedded record
(R131), which a release at package scope precedes when it goes to another die (R326). `ag` is the decrementing agent; a poisoned
counter raises POISON. A join that waits has no effect. -/
def joinM (ag : Agent) (block : Word) : M JoinEnd := whole do
  let own := dieOf ag.x
  let p ← place ag (.core (coreOf ag.x)) .atomic false block
  let h := p.home
  let sc := joinScope own p
  let base := (← get).baseFor ag.x ag.start
  remoteWait ag.x sc
  upd fun s => (s.release ag.x sc).purgePlace ag.x p
  let (v, bad) := (← get).atomRead h.1 h.2 8
  if bad then raise { cause := 0x0F, addr := block }
  if v = 0 then pure .zero
  else
    upd fun s => (s.atomDo ag.x ⟨h.1, h.2, 8, .add, 2 ^ 64 - 1, false⟩ (base + 15)).1.wakePlace ag.x p
    upd fun s => s.publish ag.x sc p.word (s.releaseClock base sc)
    if v ≠ 1 then pure .done
    else
      upd fun s => (s.acquire ag.x sc).modBefore fun b => b.acquires base {} (metClock (Tab.look [] b.words p.word) ag.x sc)
      match ← loadWords ag (block + 8) 4 with
      | [w0, w1, w2, w3] =>
        match recCheck ag.level w0 with
        | some .priv => pure .priv
        | some .bad => pure .bad
        | none =>
          if sc < recScope own w0 then
            remoteWait ag.x 4
            upd fun s => s.release ag.x 4
          let asid := (← get).launchAsid ag.tag ag.asid
          let r : Rec := {
            w0 := w0, w1 := w1, w2 := w2, w3 := w3, tag := ag.tag, asid := asid, cr := block + 8, scope := recScope own w0
            waited := 0, pops := 0, hb := (← get).releaseClock base 4 }
          match (← get).sendJoin own r with
          | some s => do set (s.quadCount (quadOf ag.x) ag.tag 1); pure .done
          | none => pure .full
      | _ => pure .bad

/-- Logs a failed join of an `exit` drain: at the block's home, or at the hub for a durable block, with the physical address;
where the block does not translate, at slice 0 of the agent's die with the virtual one (R328). -/
def State.logJoin (s : State) (ag : Agent) (block : Word) (reason : Nat) : State :=
  if inWindow block then s.logViol (logQuad (quadOf ag.x)) block ag.x.toNat 4 reason ag.tag
  else match s.peek (.core (coreOf ag.x)) ag.asid block with
    | some (pa, _, _) => s.logViol (if isHbm pa then logOf pa else 341) (BitVec.ofNat 64 pa) ag.x.toNat 4 reason ag.tag
    | none => s.logViol (dieOf ag.x * 64) block ag.x.toNat 4 reason ag.tag

/-- The join decrement of an `exit` drain; failures are logged, a VIOL by the block that refuses it (R328). None while it must wait
for the join reserve: nothing of it has happened then. -/
def State.drainJoin (s : State) (ag : Agent) (block : Word) : Option State :=
  if block = 0 then some s
  else
    match joinM ag block s with
    | .ok .done s1 => some s1
    | .ok .full _ => none
    | .ok _ s1 => some (s1.logJoin ag block 3)
    | .error (.trap t) s1 =>
      some (if t.cause = 0x08 then s1 else s1.logJoin ag block (if t.cause = 0x06 then 1 else if t.cause = 0x0F then 4 else 2))
    | .error .wait _ => none

/-! ## Remote operations (R407) -/

/-- The reason code of a refused remote operation in a log. -/
def remoteReason (r : Refused) : Nat := if r.code = 0x02 then 1 else if r.code = 0x03 then 4 else 2

/-- Logs a refused remote operation at the port that it left by (R300). -/
def State.logRemote (s : State) (x : CtxNo) (r : Remote) : State :=
  match r.refused with
  | some f => s.logViol (logPort r.port) f.addr x.toNat 4 (remoteReason f) (s.ctx x).tag
  | none => s

/-- A record that ends reports the refusals that no `rfen` has reported in the log (R407). -/
def State.logRefused (s : State) (x : CtxNo) : State :=
  (((s.ctx x).remote.filter fun r => r.acked && r.refused.isSome).foldl (fun t r => t.logRemote x r) s).modCtx x fun c => { c with
    remote := c.remote.filter fun r => !r.acked }

/-! ## The end of a record (R132, R133, R227) -/

/-- The agent of a context's drain: the level of the record at its end. A refused access is logged as an engine's (R328). -/
def drainAgent (x : CtxNo) (c : Ctx) : Agent := { x := x, level := c.level, asid := c.asid, tag := c.tag, start := some c.start, engine := true }

/-- True while durable-scope stores or remote operations of a context are outstanding (R227, R376). -/
def State.outstanding (s : State) (x : CtxNo) : Bool :=
  s.hub.waiting.any (fun w => w.x == some x) ||
  s.posted.any (fun p => p.x == x && decide (p.scope ≠ 7) && p.atoms.any fun a => decide (a.home = .durable)) ||
  (s.ctx x).remote.any fun r => !r.acked

/-- The ordinary posted operations of a running record. -/
def State.ordinary (s : State) (x : CtxNo) : List Nat := (s.posted.filter fun p => p.x == x && decide (p.scope ≠ 7)).map fun p => p.no

/-- True while a chain of the context's running record is in flight (R220). DESIGN CHOICE: a start by the chase that waits for the slot
counts as in flight. -/
def Ctx.chained (c : Ctx) : Bool := c.chain.any (fun h => !h.exited) || c.chainQueue.any fun h => !h.exited

/-- A chain of the record that started at a number is in flight. -/
def Ctx.chaining (c : Ctx) (start : Nat) : Bool := c.chain.any (fun h => h.start == start) || c.chainQueue.any fun h => h.start == start

/-- The oldest pop of a FIFO from the copy engine that has no token is to raise TOKEN_UNDERRUN, when more pops than promises are
dispatched (R211). -/
def Ctx.doom (c : Ctx) (f : Fifo) : Ctx :=
  let t := c.tok f
  if t.u < 0 then
    match ((c.queue.filter fun e => decide ((instrTokens e.instr e.queue).pop = some f) && !e.popped).drop t.held).head? with
    | some e => { c with queue := c.queue.map fun o => if o.seq = e.seq then { o with doomed := true } else o }
    | none => c
  else c

/-- The slot passes to the next chain that waits for it (R220). -/
def Ctx.passSlot (c : Ctx) : Ctx :=
  match c.chainQueue with
  | [] => { c with chain := none }
  | h :: t => { c with chain := some h, chainQueue := t }

/-- A context's chain ends: the slot passes on, and the end of the last one in flight leaves pops without a token (R211). -/
def Ctx.nextChain (c : Ctx) : Ctx :=
  let n := c.passSlot
  if c.chained = true ∧ n.chained = false then (n.doom .cv).doom .cm else n

/-- What every end of a record discards: queue slots, tokens, chase entries and links; an error of its chains is logged from here on
(R132, R199, R212, R218, R225). -/
def State.discardKeep (s : State) (x : CtxNo) : State :=
  ((s.dropChase x).dropLinks x).modCtx x fun c => { c with
    queue := [], tokens := [], galBuf := [], barWaits := [], async := [], ldaLine := none,
    chain := c.chain.map fun h => { h with exited := true },
    chainQueue := c.chainQueue.map fun h => { h with exited := true } }

/-- As `discardKeep`, and the marks of its posted operations as its own. -/
def State.discard (s : State) (x : CtxNo) : State :=
  let s1 := s.discardKeep x
  { s1 with posted := s1.posted.map fun p => if p.x = x then { p with scope := 7 } else p }

/-- A context without a record. `tvec` keeps its value across records (R282), and a chain keeps its slot. -/
def freeCtx (c : Ctx) : Ctx := { trap := { tvec := c.trap.tvec }, chain := c.chain, chainQueue := c.chainQueue }

/-- The context becomes free. -/
def State.freeContext (s : State) (x : CtxNo) : State := s.modCtx x freeCtx

/-- The lowest free entry of a core's retirement tracker (R227). -/
def freeTracker (k : Core) : Option Nat := (List.range 8).find? fun j => (Tab.find k.tracker j).isNone

/-- Writes one galley entry to memory as class-15 writes of an agent; an address that no longer translates is skipped. -/
def State.spillOne (ag : Agent) (s : State) (e : GalleyEntry) : State :=
  (List.range 16).foldl (fun t i =>
    match storeVa ag (e.addr + BitVec.ofNat 64 (8 * i)) 8 (ofLe ((e.bytes.drop (8 * i)).take 8)) (e.pois.contains i) {} t with
    | .ok _ t1 => t1
    | .error _ t1 => t1) s

/-- Spills the galley buffer, the oldest entry first (R271). -/
def State.spillGalley (s : State) (x : CtxNo) : State :=
  ((s.ctx x).galBuf.foldl (State.spillOne (agentOf x (s.ctx x))) s).modCtx x fun c => { c with galBuf := [] }

/-- The state after a record has dropped its barriers, spilled its galley, and left its quad's count (`bars`: by `exit`). -/
def State.leave (s : State) (x : CtxNo) (bars : Bool) : State :=
  (if bars then ((s.dropBars x).spillGalley x).quadCount (quadOf x) (s.ctx x).tag (-1) else s.spillGalley x).logRefused x

/-- The end of a record by `exit` (`bars`: it drops its barriers, its quad's count falls by 1, and its join block is decremented
after the drain) or by `yield`, once every earlier instruction has completed (R132, R133, R227). With nothing in flight the join is
made at once; a tracker entry holds it while it must wait for the join reserve. None while it must wait for a tracker entry. -/
def State.endRecord (s : State) (x : CtxNo) (bars : Bool) : Option State :=
  let c := s.ctx x
  let join : Word := if bars then (match c.rec_ with | some r => r.w2 | none => 0) else 0
  let s1 := s.leave x bars
  if s1.outstanding x then
    some ((s1.discardKeep x).modCtx x fun c => { c with
      status := .draining, parts := [], rec_ := c.rec_.map fun r => { r with w2 := join } })
  else
    let ops := s1.ordinary x
    let busy := !ops.isEmpty || (s1.ctx x).chained
    match if busy then none else (s1.discard x).drainJoin (drainAgent x c) join with
    | some s2 => some (s2.freeContext x)
    | none =>
      match freeTracker (s1.core (coreOf x)) with
      | none => none
      | some j =>
        some (((s1.discard x).modCore (coreOf x) fun k => { k with
          tracker := Tab.put k.tracker j ⟨x, c.tag, c.asid, c.level, join, c.start, ops⟩ }).freeContext x)

end Sys2Proof.Machine
end

