-- ==== Sys2Proof/Machine/Ops.lean ====
section
/-! DEFINITION. The named operations of the machine: killing a record, taking a trap and returning from one, running a
front-end instruction, and dispatching, issuing and completing a queue entry. -/

namespace Sys2Proof.Machine

/-- What a step answers. -/
abbrev Out := Host.Outcome State Fault Refusal

/-! ## Kill and abort (R336) -/

/-- The code of a kill's reason in the completion status (R335). -/
def killWhy : KillWhy → Nat
  | .tvecZero _ => 1
  | .tvecFault _ => 2
  | .preempt => 3
  | .hostAbort => 4
  | .dieWithdrawn => 5
/-- The cause that led to a kill (R335). -/
def killCause : KillWhy → Nat
  | .tvecZero c => c.toNat
  | .tvecFault c => c.toNat
  | _ => 0

/-- Ends the running record of a context by a kill: barriers break, what it holds is discarded, no join decrement is made, the
quad's count drops, and the context drains its durable and remote operations. -/
def State.endKilled (s : State) (x : CtxNo) : State :=
  let c := s.ctx x
  if c.status = .running then
    let s1 := ((s.breakBars x).quadCount (quadOf x) c.tag (-1)).logRefused x
    if s1.outstanding x then
      (s1.discardKeep x).modCtx x fun c => { c with status := .draining, rec_ := c.rec_.map fun r => { r with w2 := 0 } }
    else (s1.discard x).freeContext x
  else s

/-- Removes the records of a launch that are queued, in a join reserve or in transit, each with a count of its die. -/
def State.removeQueued (s : State) (tag : BitVec 32) : State :=
  let other (r : Rec) : Bool := r.tag != tag
  let gone (l : List Rec) : Nat := (l.filter fun r => r.tag == tag).length
  let dies := s.dies.map fun (d : Nat × Die) =>
    let n := d.2.queues.foldl (fun n q => n + gone q.2) (gone d.2.reserve + gone d.2.transit)
    let queues := d.2.queues.map fun q => (q.1, q.2.filter other)
    (d.1, if n = 0 then d.2 else { d.2 with
      queues := queues, reserve := d.2.reserve.filter other, transit := d.2.transit.filter other
      starve := d.2.starve.filter fun e => !(Tab.look [] queues e.1).isEmpty
      counts := Tab.put d.2.counts tag.toNat (Tab.look 0 d.2.counts tag.toNat - n) })
  { s with dies := dies }

/-- Ends every chain of a launch; a slot that it frees passes to the next chain that waits for it (R220, R336). -/
def State.endChains (s : State) (tag : BitVec 32) : State :=
  { s with ctxs := s.ctxs.map fun e =>
      if e.2.chain.any (fun h => h.tag == tag) || e.2.chainQueue.any (fun h => h.tag == tag) then
        let c := { e.2 with chainQueue := e.2.chainQueue.filter fun h => h.tag != tag }
        (e.1, if c.chain.any (fun h => h.tag == tag) then c.nextChain else c)
      else e }

/-- The collectives of a launch send no further transfer (R414). -/
def State.endColls (s : State) (tag : BitVec 32) : State :=
  { s with dies := s.dies.map fun (d : Nat × Die) => (d.1, { d.2 with
      coll := d.2.coll.map fun (c : Nat × Coll) => if c.2.tag = tag then (c.1, { c.2 with failed := true }) else c }) }

/-- A die's active controller writes a journal record before it acts (R338). -/
def State.journal (s : State) (d : Nat) : State :=
  s.modDie d fun e => { e with journal := { e.journal with
    seqNo := e.journal.seqNo + 1
    heads := (List.range 12).map fun p => Tab.look 0 e.popped p
    ringed := (List.range 12).map fun p => (e.spilled p).length
    kicks := s.hub.arrivals.eraseDups
    live := (s.hub.launches.filter fun l => l.2.die.toNat == d).map fun l => l.2.tag
    handles := s.hub.handles } }

/-- Marks the launches that depend on an aborted one (R335, field dab). -/
def State.markDab (s : State) (tag : BitVec 32) : State :=
  s.modHub fun h => { h with launches := h.launches.map fun p => if p.2.deps.contains tag then (p.1, { p.2 with dab := true }) else p }

/-- Aborts a launch: queued records are removed, running records are killed, chains and collectives end. -/
def State.abortLaunch (s : State) (tag : BitVec 32) : State :=
  let running := s.ctxs.filter fun e => decide (e.2.status = .running) && e.2.tag == tag
  (((running.foldl (fun t e => t.endKilled (BitVec.ofNat 10 e.1)) (s.removeQueued tag)).endChains tag).endColls tag).markDab tag

/-- Notes the first kill of a launch. -/
def noteKill (x : CtxNo) (why : KillWhy) (l : Launch) : Launch :=
  if l.aborted then l else { l with aborted := true, kwhy := killWhy why, kcause := killCause why, kctx := x.toNat }

/-- Kills the record of a context; the first kill of a launch aborts the launch (R336). -/
def State.kill (s : State) (x : CtxNo) (why : KillWhy) : State :=
  let tag := (s.ctx x).tag
  let s1 := s.endKilled x
  match Tab.find s1.hub.launches tag.toNat with
  | none => s1
  | some l =>
    if l.aborted then s1
    else ((s1.journal l.die.toNat).modHub fun h => { h with
      launches := Tab.put h.launches tag.toNat (noteKill x why l) }).abortLaunch tag

/-! ## Tokens (R35, R210-R212) -/

/-- TOKEN_UNDERRUN with the fields of R211. -/
def tokenTrap (f : Fifo) (full : Bool) : TrapInfo :=
  { cause := 0x0A, info := BitVec.ofNat 64 (f.ix + (if full then 16 else 0)) }

/-- The token checks and effects of a dispatch (R211). -/
def tokenDispatch (x : CtxNo) (c : Ctx) (u : TokenUse) : M Unit := do
  match u.pop with
  | none => pure ()
  | some f =>
    if (c.tok f).u ≤ 0 ∧ ¬ ((f = .cv ∨ f = .cm) ∧ c.chained = true) then raise (tokenTrap f false)
  match u.push with
  | none => pure ()
  | some f =>
    if (c.tok f).u = 16 then raise (tokenTrap f true)
    if (c.tok f).f = 16 then stall
  match u.pop with
  | none => pure ()
  | some f => updCtx x fun c => let t := c.tok f; c.setTok f { t with u := t.u - 1 }
  match u.push with
  | none => pure ()
  | some f => updCtx x fun c => let t := c.tok f; c.setTok f { t with u := t.u + 1, f := t.f + 1 }

/-- A token is pushed with what its producer's accesses make known (R252). -/
def State.tokenGiven (s : State) (x : CtxNo) (f : Fifo) (k : Clock) : State :=
  s.modBefore fun b => b.push (tokenKey (s.base x) f.ix) ((s.ctx x).tok f).held k
/-- A pop hands its token's knowledge to the later entries of the queue. -/
def State.tokenTaken (s : State) (x : CtxNo) (q : QueueNo) (f : Fifo) : State :=
  s.modBefore fun b => let r := b.pop (tokenKey (s.base x) f.ix); r.1.learn (s.base x + queuePart q) r.2
/-- A pop is taken back: the token is the oldest again. -/
def State.tokenReturned (s : State) (x : CtxNo) (f : Fifo) : State :=
  s.modBefore fun b => b.unpop (tokenKey (s.base x) f.ix)

/-- Takes back the promises and the pop of an entry that is discarded: its instruction will be dispatched again (R285). -/
def Ctx.untoken (c : Ctx) (e : Entry) (popped : Bool) : Ctx :=
  let u := instrTokens e.instr e.queue
  let c1 := match u.pop with
    | none => c
    | some f =>
      let t := c.tok f
      c.setTok f { u := t.u + 1, f := if popped then t.f + 1 else t.f, held := if popped then t.held + 1 else t.held }
  match u.push with
  | none => c1
  | some f => let t := c1.tok f; c1.setTok f { t with u := t.u - 1, f := t.f - 1 }

/-- A unit belongs to the context `own` of its core (R232). -/
def owns (word : Word) (j : Nat) (x : CtxNo) : Bool :=
  word.getLsbD (4 * j + 3) && bitsOf (4 * j + 1) (4 * j) word.toNat == x.toNat % 4

/-- A forme of a core. -/
def Core.forme (k : Core) (w : Nat) : Forme := Tab.look {} k.formes w
/-- Changes a forme. -/
def State.modForme (s : State) (x : CtxNo) (w : Nat) (f : Forme → Forme) : State :=
  s.modCore (coreOf x) fun k => { k with formes := Tab.put k.formes w (f (k.forme w)) }
/-- The planes' states after a `wswap` in program order (R231, R239). -/
def Forme.swapTags (w : Forme) : Forme := { w with activeTag := w.shadowTag, shadowTag := w.activeTag }

/-- The planes' states of forme `j` in program order: those of its planes, after the loads and swaps in the queue; a load that is
trapped leaves its plane empty (R231). -/
def Forme.planned (w : Forme) (j : Nat) (q : List Entry) : Forme :=
  let t := q.foldl (fun (t : Option PlaneTag × Option PlaneTag) e =>
    match e.instr with
    | .wld f => if f.vd.toNat = j then (t.1, if e.trapped && e.parked then none else some ⟨f.fn4.toNat, e.vl, e.shape⟩) else t
    | .wswap f => if f.vd.toNat = j then (t.2, t.1) else t
    | _ => t) (w.active.map fun p => p.tag, w.shadow.map fun p => p.tag)
  { w with activeTag := t.1, shadowTag := t.2 }

/-- The formes that loads and swaps of a queue name. -/
def formesOf (q : List Entry) : List Nat :=
  q.filterMap fun e => match e.instr with
    | .wld f => some f.vd.toNat
    | .wswap f => some f.vd.toNat
    | _ => none

/-- The front end's plane states after a change of the queue of a context other than a dispatch or an issue. -/
def State.replan (s : State) (x : CtxNo) : State :=
  let k := s.core (coreOf x)
  let q := (s.ctx x).queue
  let named := formesOf q
  ((List.range 8).filter fun j => owns k.wallot j x && ((Tab.find k.formes j).isSome || named.contains j)).foldl
    (fun t j => t.modForme x j fun w => w.planned j q) s

/-- Takes back what the dispatch of an entry changed: its tokens, and the shape of the front end. -/
def State.undispatch (s : State) (x : CtxNo) (e : Entry) (popped : Bool) : State :=
  let s0 := match (instrTokens e.instr e.queue).pop with
    | some f => if popped then s.tokenReturned x f else s
    | none => s
  let s1 := (s0.modCtx x fun c => c.untoken e popped).lookTerms (coreOf x)
  match e.instr with
  | .mshape _ => s1.modCtx x fun c => { c with shape := e.shape }
  | _ => s1

/-- Discards the entries of level S that a trap at level S discards, the youngest first: those that are not older than the entry of
the number `from_`, which raised it (R285). -/
def State.dropS (s : State) (x : CtxNo) (from_ : Nat) : State :=
  let c := s.ctx x
  let gone (e : Entry) : Bool := e.level == .s && decide (from_ ≤ e.seq)
  if c.level = .u then s
  else
    (((c.queue.filter gone).foldr (fun e t => t.undispatch x e e.popped) s).modCtx x fun c =>
      { c with queue := c.queue.filter fun e => !gone e }).replan x

/-! ## Taking a trap and returning from it (R282-R288) -/

/-- The word of `tcause` (R282). -/
def causeWord (cause : Nat) (as q : Bool) (plev : Level) : Word :=
  BitVec.ofNat 64 (cause + (if as then 2 ^ 14 else 0) + (if q then 2 ^ 15 else 0) + plev.code * 2 ^ 12)

/-- The trap registers as a trap writes them (R282, R283). -/
def trapRegs (tvec : Word) (t : TrapInfo) (as q : Bool) (plev : Level) (epc : Word) : TrapRegs :=
  { tvec := tvec, tcause := causeWord t.cause as q plev, tepc := epc, telem := BitVec.ofNat 64 t.elem,
    trow := BitVec.ofNat 64 t.row, taddr := t.addr, tinfo := t.info }

/-- The strip after a strip of the current split loop has been dispatched whole, and every vector instruction of it has completed
(R85). -/
def Ctx.nextStripDone (c : Ctx) : Option (Nat × Nat) → Bool
  | some (l, n) => decide (c.loopNo = l ∧ n + 2 ≤ c.vsc.n.toNat) &&
      !(c.queue.any fun e => decide (e.queue = .vector) && e.strip == some (l, n + 1))
  | none => false

/-- `vsc` as a trap leaves it: a trap that an instruction raises at U in a split loop writes nd for its strip (R85), which in FWD and
REV, where strips execute one after another, is 0 (R270). -/
def Ctx.trapVsc (c : Ctx) (as : Bool) (strip : Option (Nat × Nat)) : Vsc :=
  if c.level = .u ∧ as = false ∧ c.vsc.sp = true then { c.vsc with nd := decide (c.mode = .off) && c.nextStripDone strip } else c.vsc

/-- The context as a trap leaves it: entries that have not completed are parked, the registers are written, the latch is set,
and the handler runs at S (R283). -/
def Ctx.trapped (c : Ctx) (t : TrapInfo) (as q : Bool) (epc : Word) (strip : Option (Nat × Nat) := none) : Ctx :=
  { c with
    queue := c.queue.map fun e => { e with parked := true }
    trap := trapRegs c.trap.tvec t as q c.level epc
    vsc := c.trapVsc as strip
    resume := if q then some c.pc else if c.level = .u then none else c.resume
    held := if c.level = .u then 1 else c.held + 1
    entering := true, latch := true, wfeLooks := 0, level := .s, pc := c.trap.tvec }

/-- Takes a trap: with `tvec` = 0 the record is killed; otherwise the context's links break, a trap at level S discards the
entries of level S, and the context enters its handler (R283, R285). -/
def State.enterTrap (s : State) (x : CtxNo) (t : TrapInfo) (as q : Bool) (epc : Word)
    (strip : Option (Nat × Nat) := none) (from_ : Nat := (s.ctx x).seq) : State :=
  if (s.ctx x).trap.tvec = 0 then s.kill x (.tvecZero (BitVec.ofNat 8 t.cause))
  else ((s.dropLinks x).dropS x from_).modCtx x fun c => c.trapped t as q epc strip

/-- No trap is held: the record started at S, has executed no `ctxrs`, and has returned from every trap (R288). -/
def Ctx.noTrap (c : Ctx) : Bool := c.begunS && decide (c.held = 0)

/-- The entry that a trap with q = 1 parked, while the trap is held: it restarts at the index in `vstart` (R80, R285). -/
def Ctx.trappedEntry (c : Ctx) : Option Entry :=
  match c.queue with
  | e :: _ =>
    if c.trap.tcause.getLsbD 15 = true ∧ c.noTrap = false ∧ e.level = .u ∧ e.trapped = true ∧ e.queue = .vector then some e else none
  | [] => none

/-- The context as `tret` leaves it (R284, R288); the wait of an interrupted `bar` goes on only where U resumes at it (R261): the level of plev, or U when no trap is held; the resume point; and at level U
the parked entries released, the oldest of them restarting at `vstart`. A return to S leaves the parked U entries parked; older entries
of S that a trap at S has parked go on. -/
def Ctx.returned (c : Ctx) : Ctx :=
  if c.noTrap = true ∨ c.trap.tcause.getLsbD 12 = false then
    let pc := if c.trap.tcause.getLsbD 15 = true ∧ c.noTrap = false then c.resume.getD c.trap.tepc else c.trap.tepc
    { c with
      level := .u, held := 0, resume := none, begunS := false, pc := pc
      barWaits := c.barWaits.filter fun w => decide (w.1 = pc.toNat * 4)
      queue := c.queue.map fun e => { e with parked := false } }
  else
    { c with
      level := .s, held := c.held - 1, pc := c.trap.tepc
      queue := c.queue.map fun e => if e.level = .u then e else { e with parked := false } }

/-! ## Fields of an instruction -/

/-- The address after an instruction of `n` bytes. -/
def Ctx.after (c : Ctx) (n : Nat) : Word := c.pc + BitVec.ofNat 64 n

/-- PRIV below level S (R65). -/
def needS (c : Ctx) : M Unit := if c.level = .u then raise (privTrap c.pc) else pure ()

/-- The bytes of a 64-bit instruction with its prefix, if any. -/
def opBytes (f : Op64) : Nat := if f.pfx.isSome then 12 else 8

/-- ILLEGAL with a reason of the dynamic checks (R68, R69). -/
def dynIllegal (c : Ctx) (major : Nat) (f : Op64) (reason : Nat) : TrapInfo :=
  { cause := 0x01, addr := c.pc, info := illegalInfo reason f.pfx.isSome true major }

/-- The source modifier of vs1, in the prefix. -/
def opMod1 (f : Op64) : BitVec 12 := match f.pfx with | some p => p.mod1 | none => 0
/-- The zero policy (R36). -/
def opPol (f : Op64) : Bool := match f.pfx with | some p => p.pol == 1 | none => false
/-- The rounding mode: the prefix's rm, or frm when there is no prefix or rm is 6 (R102, R154). -/
def opRm (c : Ctx) (f : Op64) : Rm :=
  match f.pfx with
  | some p => if p.rm = 6 then rmOf c.vcsr.frm.toNat else rmOf p.rm.toNat
  | none => rmOf c.vcsr.frm.toNat
/-- The element type: of `vtype`, or of the cls4 override (R34). -/
def opTy (vt : VType) (f : Op64) : Ty := if f.cls4 = 0 then vt.ty else tyOfCode f.cls4.toNat

/-- The format of a float type. -/
def Ty.fmt : Ty → Fmt
  | .flt f => f
  | _ => .fp32
/-- The scalar g[vs1] as dispatch captures it: for the VX form of a float instruction it is FP32, rounded once to the element type,
without a flag (R153). DESIGN CHOICE: a NaN becomes the canonical one, whose sign 0 `vfsgnj` then takes. -/
def Ctx.scalarAt (c : Ctx) (i : Instr) (f : Op64) : Word :=
  let w := c.rg (gpr f.vs1)
  match parts64 i with
  | some (major, _) =>
    if 0x30 ≤ major ∧ major ≤ 0x40 ∧ f.fn3 ≠ 0 then
      BitVec.ofNat 64 (roundTo (opTy c.vt f).fmt (opRm c f) c.vcsr.sat8 0 (Fmt.decode .fp32 (w.toNat % 2 ^ 32))).1
    else w
  | none => w

/-! ## Queue entries (R206-R213) -/

/-- What an entry does when it issues. -/
abbrev Body := CtxNo → Entry → M Unit

/-- A hold stands on an entry: a term of the context with a queue action, armed before the entry was dispatched (R217). -/
def State.heldEntry (s : State) (x : CtxNo) (e : Entry) : Bool :=
  (s.core (coreOf x)).terms.any fun t =>
    let action := bitsOf 34 32 t.2.word.toNat
    t.2.owner == x && t.2.armed && decide (t.2.holdAt ≤ e.seq) &&
    decide (action = (match e.queue with | .vector => 1 | .matrix => 2 | .copy => 3))

/-! ### Rows that an entry touches -/

/-- The vector rows of a field, taken for the largest footprint of its group. -/
def fieldRows (k : Opnd) (g : Nat) (v : BitVec 8) : List Nat :=
  match k with
  | .group => (List.range (2 * g)).map fun i => v.toNat + i
  | _ => []

/-- The vector rows that an instruction may read or write. -/
def instrRows (i : Instr) (g : Nat) : List Nat :=
  match parts64 i with
  | none => []
  | some (major, f) =>
    match shape major with
    | none => []
    | some sh => fieldRows sh.vd g f.vd ++ fieldRows (vs1Opnd major sh f) g f.vs1 ++ fieldRows sh.vs2 g f.vs2

/-- Two entries of different queues may name one vector row. -/
def rowsMeet (a b : Entry) : Bool :=
  let ra := instrRows a.instr a.vt.size
  (instrRows b.instr b.vt.size).any fun r => ra.contains r

/-- The scale registers that an entry writes: those of `vldk` and `vquant` (R164, R195). -/
def Entry.scaleWrites (e : Entry) : List Nat :=
  match e.instr with
  | .vldk f => [f.vd.toNat % 16]
  | .vquant _ => [e.vt.k.toNat]
  | _ => []
/-- The scale registers that an entry may read: its type's, and that of `vstk`. -/
def Entry.scaleReads (e : Entry) : List Nat :=
  (match e.instr with
  | .vstk f => [f.vd.toNat % 16]
  | _ => []) ++ (if e.vt.ks then [e.vt.k.toNat] else [])
/-- One of two entries writes a scale register that the other uses, so the younger waits (R166, R195). -/
def scalesMeet (a b : Entry) : Bool :=
  (a.scaleWrites.any fun k => (b.scaleReads ++ b.scaleWrites).contains k) || b.scaleWrites.any fun k => a.scaleReads.contains k

/-- The class whose earlier accesses the fork edge of an engine's instruction covers (R219, R238, R258). -/
def forkClass (i : Instr) : Option Nat :=
  match i with
  | .wld f => some f.cls4.toNat
  | .cpy f => some f.cls4.toNat
  | _ => none

/-- An engine's instruction waits for an older vector access of its class. -/
def forkWaits (e o : Entry) : Bool :=
  match forkClass e.instr, vectorAccess o.instr with
  | some k, some (j, _) => k == j || k == 15 || j == 15
  | _, _ => false

/-- An instruction of a split loop that another strip's may overtake: it computes on vector rows, or is a plain load or store,
and neither takes nor gives a token. -/
def splitFree (e : Entry) : Bool :=
  decide (e.mode = .off) && match parts64 e.instr with
  | some (m, f) => f.tkpop == 0 && f.tkpush == 0 &&
      (decide (0x08 ≤ m ∧ m ≤ 0x54 ∧ m ≠ 0x28 ∧ m ≠ 0x3E ∧ m ≠ 0x51) || decide (0x58 ≤ m ∧ m ≤ 0x5F) && f.fn4 == 0)
  | none => false
/-- Instructions of consecutive strips of a split loop that are free of each other's registers run in either order (R84). The
device chooses which strips it overlaps; DESIGN CHOICE: an entry overtakes the previous strip's only while that one cannot issue. -/
def overtakes (e o : Entry) : Bool :=
  match o.strip, e.strip with
  | some (l, n), some (l', n') => decide (l = l' ∧ n' = n + 1) && splitFree o && splitFree e
  | _, _ => false

/-- An older entry that has not completed keeps an entry from issuing: one of its queue (R208) but for the overlap of R84, or one
that touches its rows or scale registers or whose access its fork edge covers. -/
def blocks (e o : Entry) : Bool :=
  decide (o.seq < e.seq) && !o.parked &&
    (decide (o.queue = e.queue) && !overtakes e o || rowsMeet o e || scalesMeet o e || forkWaits e o)

/-- The token that an entry pops has been pushed, or it has popped before (R210, R212). -/
def tokenReady (c : Ctx) (e : Entry) : Bool :=
  match (instrTokens e.instr e.queue).pop with
  | none => true
  | some f => e.popped || decide (0 < (c.tok f).held)

/-- An entry may issue. -/
def State.ready (s : State) (x : CtxNo) (e : Entry) : Bool :=
  let c := s.ctx x
  !(c.queue.any (blocks e)) && tokenReady c e && !(s.heldEntry x e)

/-! ### Stalls and the traps that end them (R209, R217) -/

/-- The lowest unsatisfiable term that holds a context's queue (R217). The pulses of a counter are those of its owner, and so are
the chains that may raise its line. -/
def State.deadHold (s : State) (x : CtxNo) (q : QueueNo) : Option Nat :=
  let k := s.core (coreOf x)
  let c := s.ctx x
  let pulses (y : CtxNo) (line : Nat) : Nat := ((s.ctx y).queue.filter fun e =>
    match e.instr with | .evpulse f => decide (f.fn4.toNat % 8 = line) | _ => false).length
  let dead (bit : Nat) : Bool :=
    if bit < 8 then
      let n := Tab.look ⟨0, 0, 0⟩ k.counters bit
      let line := n.word.toNat % 64
      let thr := bitsOf 23 8 n.word.toNat
      let reached := n.word.getLsbD 25 && decide (thr ≤ n.count)
      let mine := (Tab.find k.counters bit).isSome && n.word.getLsbD 25
      !reached && (!mine || (decide (line < 8) && decide (n.count + pulses n.owner line < thr) && !(s.ctx n.owner).chained))
    else if bit < 14 then
      let t := c.tok (fifoIx (bit - 8))
      decide (t.held = 0) && decide (t.f = 0)
    else false
  let bits (m : Nat) : List Nat := (List.range 16).filter fun b => m.testBit b
  let action := match q with | .vector => 1 | .matrix => 2 | .copy => 3
  (List.range 8).find? fun j =>
    match Tab.find k.terms j with
    | none => false
    | some t =>
      let ands := bits (bitsOf 15 0 t.word.toNat)
      let ors := bits (bitsOf 31 16 t.word.toNat)
      t.owner == x && t.armed && decide (bitsOf 34 32 t.word.toNat = action) &&
      (ands.any dead || (!ors.isEmpty && ors.all dead))

/-- An entry pops a token that no entry outside a list and no chain can push. -/
def starved (c : Ctx) (st : List Entry) (e : Entry) : Bool :=
  match (instrTokens e.instr e.queue).pop with
  | none => false
  | some f => !e.popped && decide ((c.tok f).held = 0) && !c.chained &&
      c.queue.all fun o => o.parked || decide ((instrTokens o.instr o.queue).push ≠ some f) || st.contains o

/-- The entries that cannot complete before a hold on the context's queues is released, in program order. -/
def State.stuck (s : State) (x : CtxNo) : List Entry :=
  let c := s.ctx x
  c.queue.foldl (fun st e =>
    if !e.parked && (s.heldEntry x e || st.any (blocks e) || starved c st e) then st ++ [e] else st) []

/-- A trap at dispatch waits for the older entries (R283); HOLD_UNDERRUN for those that can complete without the hold's release. -/
def State.trapWaits (s : State) (x : CtxNo) (t : TrapInfo) : Bool :=
  if t.cause = 0x16 then
    let st := s.stuck x
    (s.ctx x).queue.any fun e => !e.parked && !st.contains e
  else (s.ctx x).busy

/-- HOLD_UNDERRUN with the term that holds the queue (R217). -/
def holdTrap (j : Nat) : TrapInfo := { cause := 0x16, info := BitVec.ofNat 64 j }

/-- A stall of the front end on entries of which one cannot complete before a hold that no dispatched instruction can end: the term.
Such a stall would wait on an instruction that has not been dispatched (DEDUCED from R209; R217 names the stall on a full share). -/
def State.deadStall (s : State) (x : CtxNo) (waits : Entry → Bool) : Option Nat :=
  let st := s.stuck x
  if st.any waits then
    [.vector, .matrix, .copy].findSome? fun q => if st.any fun e => decide (e.queue = q) && s.heldEntry x e then s.deadHold x q else none
  else none

/-- Waits for entries of the context's queues; a stall that no dispatched instruction can end raises HOLD_UNDERRUN. -/
def waitOn (x : CtxNo) (waits : Entry → Bool) : M Unit := do
  let s ← get
  if (s.ctx x).queue.any waits then
    match s.deadStall x waits with
    | some j => raise (holdTrap j)
    | none => stall

/-- Waits until every earlier vector access has performed (R248). -/
def waitVector (x : CtxNo) : M Unit := do
  let c ← ctxM x
  waitOn x fun e => e.accesses || c.behindLoad e
/-- Waits for the older vector accesses that a scalar access of a class to `n` bytes at an address follows. -/
def waitMem (x : CtxNo) (cls : Nat) (store : Bool) (va : Word) (n : Nat) : M Unit := do
  let c ← ctxM x
  waitOn x fun e => memBlocks cls store va.toNat n e || c.behindLoad e
/-- Waits until every earlier entry has completed. -/
def waitAll (x : CtxNo) : M Unit := waitOn x fun e => !e.parked
/-- Waits for the vector entries that make posted, durable atomic or adjoint operations. -/
def waitPosting (x : CtxNo) : M Unit := waitOn x Entry.posts

/-- The wait of a `psync`: queued durable atomics and adjoint operations count, queued stores do not (R374). -/
def persistM (x : CtxNo) : M Unit := do
  waitPosting x
  upd fun s => s.persistWait x

/-- The work of a release by the front end before its write performs (R254). -/
def releaseM (x : CtxNo) (scope : Nat) : M Unit := do
  waitVector x
  remoteWait x scope
  upd fun s => s.release x scope

/-! ### Front-end instructions -/

/-- Runs a front-end instruction: its body answers the next pc. A trap waits for the older entries and is then taken with
`tepc` the instruction; a wait is tried again (R283, R284, R287). -/
def front (body : CtxNo → Ctx → M Word) (s : State) : Out :=
  let x := s.cur
  match body x (s.ctx x) s with
  | .ok pc s' => .next (s'.modCtx x fun c => { c with pc := pc })
  | .error .wait s' => .next s'
  | .error (.trap t) s' => if s.trapWaits x t then .next s else .next (s'.enterTrap x t false false (s.ctx x).pc)

/-- A 32-bit instruction that only writes `f` of the context to a scalar register. -/
def setReg (d : Reg) (f : Ctx → Word) : State → Out :=
  front fun x c => do
    updCtx x fun c => c.wg d (f c)
    pure (c.after 4)

/-- Pops the entry's token when it issues (R211). -/
def takeToken (x : CtxNo) (e : Entry) : M Unit :=
  match (instrTokens e.instr e.queue).pop with
  | none => pure ()
  | some f => if e.popped then pure ()
      else do
        updCtx x fun c => let t := c.tok f; c.setTok f { t with f := t.f - 1, held := t.held - 1 }
        upd fun s => (s.tokenTaken x e.queue f).lookTerms (coreOf x)

/-- What an entry's push makes known: the accesses of its engine before it (R252). -/
def State.pushClock (s : State) (x : CtxNo) (q : QueueNo) : Clock :=
  s.before.over_ (s.base x) (match q with
    | .vector => queuePart .vector :: ((List.range 16).map vectorPart ++ (List.range 6).flatMap fun r => (List.range 16).map fun k => postedPart true k r)
    | q => [queuePart q])

/-- Pushes the entry's token when it retires; a `cpy` pushes when its chain ends (R210). Every access of the vector engine before its
push happens before the pop: its posted operations too have performed then (R252). -/
def giveToken (x : CtxNo) (e : Entry) : M Unit :=
  match e.instr with
  | .cpy _ => pure ()
  | _ => match (instrTokens e.instr e.queue).push with
    | none => pure ()
    | some f => do
      if e.queue = .vector then upd fun s => s.settle fun p => p.x == x && decide (p.scope ≠ 7) && p.vector
      upd fun s => s.tokenGiven x f (s.pushClock x e.queue)
      updCtx x fun c => let t := c.tok f; c.setTok f { t with held := t.held + 1 }
      upd fun s => s.lookTerms (coreOf x)

/-- The instructions that change the mask stack, and those that take its top at dispatch (R179, R234). -/
def changesTop (i : Instr) : Bool := match i with | .mpush _ | .minv _ | .mpop _ => true | _ => false
def takesTop (i : Instr) : Bool := match i with | .mma _ | .mmat _ | .tmv _ | .tcol _ | .tld _ => true | _ => false

/-! ### Entries in a queue image (R293)

The layout is the model's own: each number is a byte that counts bytes, and those bytes, the least significant first. -/

/-- How many bytes a number takes. -/
def byteLen (n : Nat) : Nat := if n = 0 then 0 else n.log2 / 8 + 1
/-- The bytes of numbers. -/
def putNats : List Nat → List Byte
  | [] => []
  | n :: t => BitVec.ofNat 8 (byteLen n) :: leBytes (byteLen n) n ++ putNats t

/-- Fields of stated widths as one number, the first in its lowest bits; the last may be of any width. -/
def packFields : List (Nat × Nat) → Nat
  | [] => 0
  | (w, v) :: t => v + 2 ^ w * packFields t
/-- The fields of such a number. -/
def takeFields (n : Nat) : List Nat → List Nat
  | [] => [n]
  | w :: t => n % 2 ^ w :: takeFields (n / 2 ^ w) t

/-- A truth value as a number. -/
def flagNat (b : Bool) : Nat := if b then 1 else 0
/-- A queue as a number. -/
def QueueNo.code : QueueNo → Nat
  | .vector => 0
  | .matrix => 1
  | .copy => 2
/-- An instruction's words as one number. -/
def instrNat (i : Instr) : Nat := ((encode i).getD []).foldr (fun w n => w.toNat + 2 ^ 32 * n) 0

/-- The scalars of an entry that its instruction uses. -/
def Entry.usedScalars (e : Entry) : Nat × Nat :=
  match parts64 e.instr with
  | some (m, f) => match Machine.shape m with
    | some sh => (if vs1Opnd m sh f = .gpr then e.sa.toNat else 0, if sh.vs2 = .gpr then e.sb.toNat else 0)
    | none => (0, 0)
  | none => (0, 0)

/-- The columns of its first `vl` that an entry's captured mask switches off. -/
def Entry.maskedOff (e : Entry) : Nat :=
  if takesTop e.instr then (~~~e.top).toNat % 2 ^ e.vl else 0

/-- How an entry's strip stands in an image: how many loops ago its loop began, within 255, and its number in it. -/
def Entry.stripNat (loopNo : Nat) (e : Entry) : Nat :=
  match e.strip with
  | some (l, n) => if loopNo - l ≤ 255 then (n % 2 ^ 48) * 256 + (loopNo - l) + 2 ^ 56 else 0
  | none => 0

/-- The widths of an entry's fields before the last: flags, asid, `vl`, `vtype`, `vstart`, shape, strip, pc, and the instruction. -/
def entryWidths : List Nat := [16, 16, 12, 16, 16, 8, 57, 64, 96]

/-- An entry of a context in its loop `loopNo` as one number, behind an entry with the switched-off columns `prev`: the same columns are
not repeated. The last field holds its scalars, or its columns. -/
def Entry.nat (loopNo prev : Nat) (e : Entry) : Nat :=
  let sc := e.usedScalars
  packFields (entryWidths.zip
    [e.queue.code + 4 * e.level.code + 16 * e.mode.code + 64 * flagNat e.popped + 128 * flagNat (e.maskedOff = prev) +
      256 * flagNat e.trapped + 512 * flagNat e.doomed + 1024 * flagNat (takesTop e.instr), e.asid.toNat, e.vl, e.vt.word, e.vstart,
      e.shape, e.stripNat loopNo, e.pc.toNat, instrNat e.instr] ++
    [(0, if takesTop e.instr then (if e.maskedOff = prev then 0 else e.maskedOff) else sc.2 + 2 ^ 64 * sc.1)])

/-- The numbers of entries in program order. -/
def entriesNats (loopNo : Nat) : (prev : Nat) → List Entry → List Nat
  | _, [] => []
  | prev, e :: t => e.nat loopNo prev :: entriesNats loopNo e.maskedOff t

/-! ### Checking (R246, R297, R298) -/

/-- Sends PREEMPT to a context, once (R289). -/
def State.preempt (s : State) (x : CtxNo) (prio : Nat) : State :=
  let c := s.ctx x
  if c.status = .running ∧ c.signalled = false then
    (s.latch x).modCtx x fun c => { c with signalled := true, async := c.async ++ [⟨0x11, 0, BitVec.ofNat 64 (prio % 16)⟩] }
  else s

/-- Withdraws the core of a context after CHECK: it takes no new record, and its other contexts receive PREEMPT. No record
waits, so the priority that they see is a free value. -/
def State.withdraw (s : State) (x : CtxNo) : State :=
  let s1 := s.modCore (coreOf x) fun k => { k with withdrawn := true }
  let p := (Config.freeWord s1.fresh).toNat
  { (ctxsOfCore (coreOf x)).foldl (fun t y => if y = x then t else t.preempt y p) s1 with fresh := s1.fresh + 1 }

/-- The first mismatch replays and is counted, unless firmware withdraws the core at it; the second withdraws the core and
raises CHECK before the instruction has written anything. -/
def mismatch (x : CtxNo) (twice : Bool) (t : M TrapInfo) : M Unit := do
  let k := (← get).core (coreOf x)
  upd fun s => { s with upset := none }
  if !k.firstMismatch then upd fun s => s.modCore (coreOf x) fun k => { k with corrected := Nat.min (k.corrected + 1) 65535 }
  if twice = true ∨ k.firstMismatch = true then
    upd fun s => s.withdraw x
    raise (← t)

/-- The proof lane checks the element-wise instructions of majors 0x08 to 0x54 and `vmv`, the proof column `mma` and `mmat`;
each counts what it checks. The lane cluster that a mismatch names is a free value. -/
def proofCheck (x : CtxNo) (e : Entry) : M Unit := do
  let s ← get
  let k := s.core (coreOf x)
  let hit := match s.upset with | some (y, twice) => if y = x then some twice else none | none => none
  match parts64 e.instr with
  | none => pure ()
  | some (major, f) =>
    if 0x08 ≤ major ∧ major ≤ 0x54 ∨ major = 0x7B ∧ f.fn4 = 0 then
      upd fun s => s.modCore (coreOf x) fun k => { k with proofLane := k.proofLane + 1 }
      match hit with
      | none => pure ()
      | some twice => mismatch x twice do
          let cl := (← draw).toNat % 8
          let col := (32 * cl + k.proofLane % 32) * 32 / (opTy e.vt f).width
          pure { cause := 0x10, info := BitVec.ofNat 64 (16 * cl), elem := col, start := some e.vstart }
    else if major = 0x93 ∨ major = 0x94 then
      upd fun s => s.modCore (coreOf x) fun k => { k with proofCol := k.proofCol + 1 }
      match hit with
      | none => pure ()
      | some twice => mismatch x twice (pure { cause := 0x10, info := 1 })
    else pure ()

/-- Runs an entry: its pop, its effects and its push. -/
def runEntry (body : Body) (x : CtxNo) (e : Entry) : M Unit := do
  takeToken x e
  proofCheck x e
  body x e
  giveToken x e

/-- Adds an entry to the context's queues in program order. -/
def insertEntry (e : Entry) : List Entry → List Entry
  | [] => [e]
  | o :: t => if e.seq < o.seq then e :: o :: t else o :: insertEntry e t

/-- Instructions that restart as a whole after a trap (R81, R195, R198). -/
def wholeRestart (i : Instr) : Bool :=
  match parts64 i with
  | some (major, _) => decide (0x61 ≤ major ∧ major ≤ 0x63) || decide (0x70 ≤ major ∧ major ≤ 0x8A ∧ major ≠ 0x7B) ||
      decide (0x90 ≤ major ∧ major ≠ 0xB6 ∧ major ≠ 0xB7)
  | none => true

/-- The queue with the entry that trapped restarting at the index in `vstart`, or as a whole (R81). -/
def Ctx.rearmed (c : Ctx) : List Entry :=
  match c.trappedEntry, c.queue with
  | some _, e :: t => { e with vstart := if wholeRestart e.instr then 0 else c.vstart.toNat } :: t
  | _, q => q

/-- A trap of an entry: at U it is parked to restart at the trapping element, at the trap's own start, or as a whole, and the trap
has q = 1; at S it is discarded and its instruction runs again (R80, R284, R285). `popped` says whether its pop has had its effect,
which it keeps (R211, R212). The POISON of `vext` is a front-end trap: the entry goes as if it had not been dispatched, and nothing
after it has been (R175, R286). -/
def State.entryTrap (s : State) (x : CtxNo) (e : Entry) (t : TrapInfo) (popped : Bool := true) : State :=
  let start := t.start.getD (if wholeRestart e.instr then 0 else t.elem)
  let front := match e.instr with | .vext _ => decide (t.cause = 0x0F) | _ => false
  if e.level = .u ∧ front = false then
    ((s.modCtx x fun c => { c with
      vstart := if e.queue = .vector then BitVec.ofNat 16 start else c.vstart
      queue := insertEntry { e with popped := popped, vstart := start, trapped := true, doomed := false } c.queue }).enterTrap x t false true e.pc e.strip).replan x
  else ((s.undispatch x e popped).replan x).enterTrap x t false false e.pc e.strip e.seq

/-- The entries of each queue, the reserve of each context and its cap (R207). -/
def queueTotal : QueueNo → Nat
  | .vector => 64
  | .matrix => 32
  | .copy => 16
def queueReserve : QueueNo → Nat
  | .vector => 8
  | .matrix => 4
  | .copy => 3
def queueCap : QueueNo → Nat
  | .vector => 40
  | .matrix => 20
  | .copy => 7

/-- The entries of a context in a queue. -/
def Ctx.inQueue (c : Ctx) (q : QueueNo) : Nat := (c.queue.filter fun e => decide (e.queue = q)).length

/-- A context has reached its cap of a queue, or no entry is free outside the reserves of the core's other contexts (R207). -/
def State.shareFull (s : State) (x : CtxNo) (q : QueueNo) : Bool :=
  let mine := (s.ctx x).inQueue q
  let others := ((ctxsOfCore (coreOf x)).filter fun y => y != x).foldl (fun n y => n + Nat.max ((s.ctx y).inQueue q) (queueReserve q)) 0
  decide (queueCap q ≤ mine) || decide (queueReserve q ≤ mine ∧ queueTotal q ≤ mine + others)

/-- The vector instruction consumes `vstart` at U, and starts at element 0 at S (R79, R80, R285). -/
def Ctx.startAt (c : Ctx) : Nat := if c.level = .u then c.vstart.toNat else 0

/-- The entry of an instruction at dispatch, with what it captures (R79, R206, R268, R281). -/
def Ctx.entry (c : Ctx) (q : QueueNo) (i : Instr) (f : Op64) (vstart : Nat) : Entry :=
  { seq := c.seq, queue := q, instr := i, pc := c.pc, bytes := (opBytes f), vl := c.vl, vt := c.vt, vstart := vstart,
    sa := c.scalarAt i f, sb := c.rg (gpr f.vs2), level := c.level, asid := c.asid, mode := c.mode, shape := c.shape,
    top := if q = .matrix then c.top else 0, strip := if c.inStrip then some (c.loopNo, c.vsc.n.toNat) else none
    popped := false, parked := false }

/-- Waits for a place in the queue; a stall that no dispatched instruction can end raises HOLD_UNDERRUN (R217). -/
def queuePlace (x : CtxNo) (q : QueueNo) : M Unit := do
  if (← get).shareFull x q then
    match (← get).deadHold x q with
    | some j => raise (holdTrap j)
    | none => stall

/-- An instruction that takes the top waits for the older ones that change it. -/
def waitTop (x : CtxNo) (i : Instr) : M Unit :=
  if takesTop i then waitOn x fun e => !e.parked && changesTop e.instr else pure ()

/-- An entry with what happens before it by its dispatch (R252); before an engine's operation, what its fork covers (R258). -/
def State.known (s : State) (x : CtxNo) (e : Entry) : Entry :=
  if s.before.stamp = 0 then e
  else
    let hb := match forkClass e.instr with
      | some k => s.forkClock x k
      | none => s.before.at_ (s.base x + frontPart)
    { e with hb := hb, past := s.before.at_ (s.base x + persistPart) }

/-- The accesses of a vector entry that has completed stand before the younger engine operations whose fork covers them (R258). -/
def State.feedForks (s : State) (x : CtxNo) (e : Entry) : State :=
  match vectorAccess e.instr with
  | some (k, _) =>
    if s.before.stamp = 0 ∨ ((s.ctx x).queue.any fun y => decide (e.seq < y.seq) && forkWaits y e) = false then s
    else
      let know := s.before.at_ (s.base x + vectorPart k)
      s.modCtx x fun c => { c with
        queue := c.queue.map fun y => if decide (e.seq < y.seq) && forkWaits y e then { y with hb := joinClock know y.hb } else y }
  | none => s

/-- An entry issues in a state whose queues do not hold it; none when it must wait, and when it would trap while an older entry
has not completed (R283). -/
def issueEntry (body : Body) (x : CtxNo) (e : Entry) (s : State) : Option State :=
  match runEntry body x e s with
  | .ok _ s2 => some (s2.feedForks x e)
  | .error .wait _ => none
  | .error (.trap t) s2 =>
    if (s.ctx x).queue.any fun o => decide (o.seq < e.seq) && !o.parked then none else some (s2.entryTrap x e t)

/-- The access of an entry in a class: it belongs to the vector queue, and its writes to one store. -/
def State.entryAccess (s : State) (x : CtxNo) (e : Entry) (cls : Nat) : Access :=
  { cls := cls, vector := true, strip := e.strip.isSome, hb := e.hb, op := s.base x * 2 ^ 32 + e.seq + 1 }

/-- Dispatches an instruction of an engine: the checks of the front end, the token promises and a place in the queue, in this
order. DESIGN CHOICE: a trap of these checks leaves `vstart` as it was, that of a whole-group or mask instruction too (R81 speaks
of one that runs). A ready entry issues and completes at once; another waits in its queue. `keeps` is what the front end keeps of it in
program order. -/
def dispatch (q : QueueNo) (i : Instr) (f : Op64) (usesVstart : Bool) (check : CtxNo → Ctx → M Unit) (keeps : CtxNo → State → State)
    (body : Body) (s : State) : Out :=
  let x := s.cur
  let c := s.ctx x
  let pre : M Unit := do
    check x c
    waitTop x i
    tokenDispatch x c (instrTokens i q)
    queuePlace x q
  match pre s with
  | .error .wait _ => .next s
  | .error (.trap t) s' => if s.trapWaits x t then .next s else .next (s'.enterTrap x t false false c.pc)
  | .ok _ s' =>
    let e := s'.known x (c.entry q i f (if usesVstart then c.startAt else 0))
    let s1 := (keeps x s').modCtx x fun c => { c with
      pc := c.after (opBytes f), seq := c.seq + 1, vstart := if usesVstart = true ∧ c.level = .u then 0 else c.vstart }
    let later : State := s1.modCtx x fun c => { c with queue := insertEntry e c.queue }
    .next (if s1.ready x e then (issueEntry body x e s1).getD later else later)

/-- The agent of an entry's accesses: the level and asid of its dispatch (R281). -/
def entryAgent (x : CtxNo) (c : Ctx) (e : Entry) : Agent := { x := x, level := e.level, asid := e.asid, tag := c.tag }

/-! ## Fetch (R26, R352) -/

/-- Fetches 4 bytes at an address through the core's instruction cache, which takes a line while it has room and fills past the L1
and the quad cache (R352). -/
def fetchWord (ag : Agent) (va : Word) : M (BitVec 32) := do
  match ← place ag (.core (coreOf ag.x)) .fetch false va with
  | .window _ _ => raise (pageTrap va .fetch 0 0x15 false)
  | .phys pa pte =>
    let ln := pa / 64
    if (Tab.find ((← get).core (coreOf ag.x)).icache ln).isNone then upd fun s => s.reachPage pte ln
    let s ← get
    let k := s.core (coreOf ag.x)
    let (line, pois) := match Tab.find k.icache ln with
      | some l => (l.data, l.pois)
      | none => s.pageLine pte ln
    -- a line with a poisoned granule is not kept
    if (Tab.find k.icache ln).isNone = true ∧ k.icache.length < codeLines ∧ pois = 0 then
      upd fun s => s.modCore (coreOf ag.x) fun k => { k with icache := Tab.put k.icache ln { data := line, pois := pois } }
    if pois.getLsbD (pa % 64 / 8) then raise { cause := 0x0F, addr := va }
    pure (BitVec.ofNat 32 (lineGet line (pa % 64) 4))

/-- Fetches and decodes the instruction at the pc; ILLEGAL is raised with the fields of R69 (R26, R68). -/
def fetchInstr (ag : Agent) (pc : Word) : M Decoded := do
  if pc.toNat % 4 ≠ 0 then raise (misalign pc)
  let w0 ← fetchWord ag pc
  let n := unitLength w0
  let w1 ← if 8 ≤ n then fetchWord ag (pc + 4) else pure 0
  let n' := if n = 12 ∧ w1.toNat % 4 = 1 then 12 else Nat.min n 8
  let w2 ← if n' = 12 then fetchWord ag (pc + 8) else pure 0
  match decodeWords w0 w1 w2 with
  | .ok d => pure d
  | .error e => raise { cause := 0x01, addr := pc, info := illegalInfo e.reason e.pfx e.len e.major }

/-- The field of a 32-bit word that selects its form in its major (R52-R56). -/
def formOf (major w : Nat) : Nat :=
  match major with
  | 0x00 | 0x18 | 0x19 | 0x1A => bitsOf 31 21 w
  | 0x05 => bitsOf 23 22 w
  | 0x0D => bitsOf 18 16 w
  | 0x13 => bitsOf 24 21 w
  | 0x15 => bitsOf 29 28 w
  | 0x16 => bitsOf 28 21 w
  | _ => 0

/-- The listed encoding that an instruction is (R51-R64). -/
def encodingOf (i : Instr) : Option Encoding :=
  match parts64 i with
  | some (major, f) => some ⟨true, major, f.fn4.toNat * 8 + f.fn3.toNat⟩
  | none => (encode32 i).map fun w => ⟨false, bitsOf 5 1 w.toNat, formOf (bitsOf 5 1 w.toNat) w.toNat⟩

/-- UNIMPL for an encoding that the fount table marks absent (R67). -/
def unimplCheck (i : Instr) (pc : Word) : M Unit := do
  match encodingOf i with
  | none => pure ()
  | some e =>
    let pfx := match parts64 i with | some (_, f) => f.pfx.isSome | none => false
    if (← get).hub.absent.contains e then raise { cause := 0x02, addr := pc, info := illegalInfo 0 pfx e.long e.major }

end Sys2Proof.Machine
end

