-- ==== Sys2Proof/Machine/Operands.lean ====
section
/-! DEFINITION. Every operand form of the vector instructions: groups, element types and overrides, source modifiers, the
effective mask, the element loop, and the dynamic checks of an arithmetic instruction (R31-R37, R68, R73, R80, R142, R143,
R153). -/

namespace Sys2Proof.Machine

/-- What an instruction of an engine's queue is: how the front end checks it and what it does when it issues. -/
structure QueueDef where
  queue : QueueNo := .vector
  /-- It consumes `vstart` (R79, R80). -/
  usesVstart : Bool := true
  check : CtxNo → Ctx → M Unit
  /-- What the front end keeps of it in program order. -/
  keeps : CtxNo → State → State := fun _ s => s
  body : Body

/-- Dispatches an instruction by its definition. -/
def runDef (i : Instr) (f : Op64) (d : QueueDef) : State → Out := dispatch d.queue i f d.usesVstart d.check d.keeps d.body

/-! ## Fields -/

/-- The effective mask: the top of the mask stack, and the prefix's mask when me = 1 (R36). -/
def effMask (c : Ctx) (f : Op64) : BitVec 2048 :=
  match f.pfx with
  | some p => if p.me = 1 then c.top &&& c.mask p.m.toNat else c.top
  | none => c.top

/-- The column that a source modifier reads (R37). -/
def srcCol (m : BitVec 12) (c : Nat) : Nat :=
  let cls := bitsOf 11 10 m.toNat
  let s := 2 ^ (bitsOf 9 7 m.toNat + 1)
  let d := bitsOf 6 2 m.toNat
  let p := c % s
  let b := c - p
  match cls with
  | 0 => c
  | 1 => b + (p + d) % s
  | 2 => b + (p ^^^ d)
  | _ => b + d

/-- One element of a group: its bits and its poison. -/
def Ctx.elem (c : Ctx) (base ew r col : Nat) : Nat × Bool :=
  let w := c.row (base + r)
  (w.elem ew col, w.bad ew col)
/-- Writes an element. -/
def Ctx.putElem (c : Ctx) (row ew col v : Nat) : Ctx := c.setRow row ((c.row row).put ew col v)
/-- MarkPoison (R143, R296): the element's bits become 0 and are marked, and the column mask and the row bitmap note it. -/
def Ctx.markPoison (c : Ctx) (row ew col : Nat) : Ctx :=
  { c.setRow row ((c.row row).spoil ew col) with
    pm := c.pm ||| (1#2048 <<< col), prows := c.prows ||| (1#64 <<< (row / 4)) }

/-- The operand a: the vs2 group through mod12 (R142). -/
def operandA (c : Ctx) (f : Op64) (ew r col : Nat) : Nat × Bool := c.elem f.vs2.toNat ew r (srcCol f.mod12 col)
/-- The operand b of an integer or raw instruction: the vs1 group through mod1, the scalar, or the immediate (R142). -/
def operandB (c : Ctx) (e : Entry) (f : Op64) (ew r col : Nat) : Nat × Bool :=
  match f.fn3.toNat with
  | 0 => c.elem f.vs1.toNat ew r (srcCol (opMod1 f) col)
  | 1 => (e.sa.toNat % 2 ^ ew, false)
  | _ => (intBits ew (sextNat 8 f.vs1.toNat), false)
/-- The operand b of a float instruction: in the VX form the scalar that the entry holds, rounded at dispatch (R153). -/
def operandFb (c : Ctx) (e : Entry) (f : Op64) (fmt : Fmt) (r col : Nat) : Nat × Bool :=
  match f.fn3.toNat with
  | 0 => c.elem f.vs1.toNat fmt.width r (srcCol (opMod1 f) col)
  | _ => (e.sa.toNat, false)

/-! ## The element loop (R80, R143) -/

/-- The element numbers from `vstart` up. -/
def Entry.elems (e : Entry) (g : Nat) : List Nat := (List.range (g * e.vl)).drop e.vstart

/-- What Operate gives for one element. -/
inductive Res where
  | val (bits flags : Nat)
  | poison
  | keep
  deriving DecidableEq, Repr

/-- One element's result written to a row and column of width `ew`: poison is marked; a flag whose enable is set traps before
the write (R107, R143). -/
def putRes (x : CtxNo) (i r row ew col : Nat) : Res → M Unit
  | .keep => pure ()
  | .poison => updCtx x fun c => c.markPoison row ew col
  | .val b fl => do
    let c ← ctxM x
    if c.vcsr.traps fl then raise { cause := 0x09, info := BitVec.ofNat 64 fl, elem := i, row := r }
    updCtx x fun c => { c.putElem row ew col b with vcsr := c.vcsr.raise fl }

/-- The element-wise loop: active elements get their result, inactive ones 0 under the zero policy. `dst` gives the row and
column of a source element's destination. -/
def elementwise (x : CtxNo) (e : Entry) (f : Op64) (dew : Nat) (dst : Nat → Nat → Nat × Nat)
    (op : Ctx → (i r col : Nat) → Res) : M Unit :=
  each (e.elems e.vt.size) fun i => do
    let c ← ctxM x
    let r := i / e.vl
    let col := i % e.vl
    let (row, dcol) := dst r col
    if (effMask c f).getLsbD col then putRes x i r row dew dcol (op c i r col)
    else if opPol f then updCtx x fun c => c.putElem row dew dcol 0
    else pure ()

/-- The usual destination: the same row and column of the vd group. -/
def sameDst (f : Op64) (r col : Nat) : Nat × Nat := (f.vd.toNat + r, col)

/-! ## Dynamic checks (R68 check 5) -/

/-- A group's first row is a multiple of its size (R31). -/
def aligned (v : BitVec 8) (g : Nat) : Bool := v.toNat % g == 0

/-- Raises ILLEGAL with a reason of check 5. -/
def illegalM {α : Type} (c : Ctx) (major : Nat) (f : Op64) (reason : Nat) : M α := raise (dynIllegal c major f reason)

/-- Group alignment over vd, vs1, vs2 in that order; `gd` is the size of the destination group. -/
def checkAlign (c : Ctx) (major : Nat) (f : Op64) (gd : Nat) : M Unit :=
  let g := c.vt.size
  match shape major with
  | none => pure ()
  | some sh =>
    let bad := (sh.vd == .group && !aligned f.vd gd) || (vs1Opnd major sh f == .group && !aligned f.vs1 g) ||
      (sh.vs2 == .group && !aligned f.vs2 g)
    if bad then illegalM c major f 5 else pure ()

/-- The element type and its override (R34): the type is accepted, `vl` fits it, and q4 needs a scale register. -/
def checkType (c : Ctx) (major : Nat) (f : Op64) (accepts : Ty → Bool) : M Unit :=
  let ty := opTy c.vt f
  if !(accepts ty) || decide (8192 / ty.width < c.vl) || (decide (ty = .q4) && !c.vt.ks) then illegalM c major f 6 else pure ()

/-- Two groups share a row. -/
def overlap (a ga b gb : Nat) : Bool := decide (a < b + gb ∧ b < a + ga)

/-- A source with a modifier shares no row with the destination (R37). DESIGN CHOICE: the destination is the vd group alone, so a modified
source of `vsortk` that meets its second destination, vs1, is an overlap of operands (reason 5). -/
def checkModifier (c : Ctx) (major : Nat) (f : Op64) (gd : Nat) : M Unit :=
  let g := c.vt.size
  match shape major with
  | none => pure ()
  | some sh =>
    let bad := sh.vd == .group &&
      ((f.mod12 != 0 && decide (sh.mod = .source) && sh.vs2 == .group && overlap f.vd.toNat gd f.vs2.toNat g) ||
       (opMod1 f != 0 && vs1Opnd major sh f == .group && overlap f.vd.toNat gd f.vs1.toNat g))
    if bad then illegalM c major f 7 else pure ()

/-- The checks of an arithmetic instruction. -/
def arithCheck (major : Nat) (f : Op64) (accepts : Ty → Bool) (c : Ctx) : M Unit := do
  checkAlign c major f c.vt.size
  checkType c major f accepts
  checkModifier c major f c.vt.size

/-- The integer class (R141). -/
def intTy : Ty → Bool
  | .int _ _ => true
  | _ => false
/-- The raw class (R141). -/
def rawTy : Ty → Bool := fun _ => true
/-- FP16, FP32 and BF16 (R153). -/
def fpTy : Ty → Bool
  | .flt .fp32 => true
  | .flt .fp16 => true
  | .flt .bf16 => true
  | _ => false
/-- The signedness of an integer type. -/
def Ty.signed : Ty → Bool
  | .int s _ => s
  | _ => false

/-! ## Mask results (R148, R158) -/

/-- The mask of a comparison over a group: a column's bit is 1 when the condition holds in every row at or above `vstart`. -/
def compareMask (e : Entry) (g : Nat) (old eff : BitVec 2048) (pol : Bool) (holds : Nat → Nat → Bool) : BitVec 2048 :=
  (List.range e.vl).foldl (fun m c =>
    if (g - 1) * e.vl + c < e.vstart then m
    else
      let bit : BitVec 2048 := 1#2048 <<< c
      if eff.getLsbD c then
        let t := (List.range g).all fun r => decide (r * e.vl + c < e.vstart) || holds r c
        if t then m ||| bit else m &&& ~~~bit
      else if pol then m &&& ~~~bit
      else m) old

end Sys2Proof.Machine
end

