-- ==== Sys2Proof/Machine/Scalar.lean ====
section
/-! DEFINITION. The scalar integer instructions (R111, R117, R118). -/

namespace Sys2Proof.Machine

/-- A register-register operation on 64-bit values (R117). -/
def aluOp (d a b : Reg) (op : Word → Word → Word) : State → Out := setReg d fun c => op (c.rg a) (c.rg b)
/-- A unary operation (R117). -/
def aluUnary (d a : Reg) (op : Word → Word) : State → Out := setReg d fun c => op (c.rg a)
/-- A register-immediate operation (R118). -/
def aluImm (d a : Reg) (op : Word → Word) : State → Out := setReg d fun c => op (c.rg a)

/-- 1 for true, 0 for false. -/
def flagWord (b : Bool) : Word := if b then 1 else 0
/-- The shift amount of R117: bits [5:0]. -/
def amount (w : Word) : Nat := w.toNat % 64
/-- The number of set bits below bit `n`. -/
def popCount (w : Nat) (n : Nat) : Nat := ((List.range n).filter fun i => w.testBit i).length
/-- Leading zeros of an `n`-bit number. -/
def leadZeros (w n : Nat) : Nat := n - bitLen (w % 2 ^ n)
/-- Trailing zeros of an `n`-bit number. -/
def trailZeros (w n : Nat) : Nat := ((List.range n).find? fun i => w.testBit i).getD n
/-- A word with its eight bytes reversed. -/
def byteSwap (w : Word) : Word := BitVec.ofNat 64 (ofLe (leBytes 8 w.toNat).reverse)
/-- Sext(a[n:0], n + 1) and Zext(a[n:0], n + 1). -/
def sextAt (w : Word) (n : Nat) : Word := BitVec.ofInt 64 (sextNat (n + 1) w.toNat)
def zextAt (w : Word) (n : Nat) : Word := BitVec.ofNat 64 (w.toNat % 2 ^ (n + 1))

def execAdd (d a b : Reg) : State → Out := aluOp d a b fun x y => x + y
def execSub (d a b : Reg) : State → Out := aluOp d a b fun x y => x - y
def execAnd (d a b : Reg) : State → Out := aluOp d a b fun x y => x &&& y
def execOr (d a b : Reg) : State → Out := aluOp d a b fun x y => x ||| y
def execXor (d a b : Reg) : State → Out := aluOp d a b fun x y => x ^^^ y
def execAndn (d a b : Reg) : State → Out := aluOp d a b fun x y => x &&& ~~~y
def execSll (d a b : Reg) : State → Out := aluOp d a b fun x y => x <<< amount y
def execSrl (d a b : Reg) : State → Out := aluOp d a b fun x y => x >>> amount y
def execSra (d a b : Reg) : State → Out := aluOp d a b fun x y => x.sshiftRight (amount y)
def execSlt (d a b : Reg) : State → Out := aluOp d a b fun x y => flagWord (x.slt y)
def execSltu (d a b : Reg) : State → Out := aluOp d a b fun x y => flagWord (x.ult y)
def execMin (d a b : Reg) : State → Out := aluOp d a b fun x y => if y.slt x then y else x
def execMax (d a b : Reg) : State → Out := aluOp d a b fun x y => if x.slt y then y else x
def execMinu (d a b : Reg) : State → Out := aluOp d a b fun x y => if y.ult x then y else x
def execMaxu (d a b : Reg) : State → Out := aluOp d a b fun x y => if x.ult y then y else x
def execMul (d a b : Reg) : State → Out := aluOp d a b fun x y => x * y
def execMulh (d a b : Reg) : State → Out := aluOp d a b fun x y => BitVec.ofInt 64 (x.toInt * y.toInt / 2 ^ 64)
def execMulhu (d a b : Reg) : State → Out := aluOp d a b fun x y => BitVec.ofNat 64 (x.toNat * y.toNat / 2 ^ 64)
def execPopc (d a : Reg) : State → Out := aluUnary d a fun x => BitVec.ofNat 64 (popCount x.toNat 64)
def execClz (d a : Reg) : State → Out := aluUnary d a fun x => BitVec.ofNat 64 (leadZeros x.toNat 64)
def execCtz (d a : Reg) : State → Out := aluUnary d a fun x => BitVec.ofNat 64 (trailZeros x.toNat 64)
def execSext (d a b : Reg) : State → Out := aluOp d a b fun x y => sextAt x (amount y)
def execZext (d a b : Reg) : State → Out := aluOp d a b fun x y => zextAt x (amount y)
def execBswap (d a : Reg) : State → Out := aluUnary d a byteSwap

/-- Division and remainder: DZ or IOV is set, or with its enable set traps with ARITH before gd is written (R111, R117). -/
def divOp (signed rem : Bool) (d a b : Reg) : State → Out :=
  front fun x c => do
    let (q, r, fl) := divide signed 64 (c.rg a).toNat (c.rg b).toNat
    if c.vcsr.traps fl then raise { cause := 0x09, info := BitVec.ofNat 64 fl }
    updCtx x fun c => { c.wg d (BitVec.ofNat 64 (if rem then r else q)) with vcsr := c.vcsr.raise fl }
    pure (c.after 4)

def execDiv (d a b : Reg) : State → Out := divOp true false d a b
def execDivu (d a b : Reg) : State → Out := divOp false false d a b
def execRem (d a b : Reg) : State → Out := divOp true true d a b
def execRemu (d a b : Reg) : State → Out := divOp false true d a b

def execAddi (d a : Reg) (imm : BitVec 16) : State → Out := aluImm d a fun x => x + imm.signExtend 64
def execAndi (d a : Reg) (imm : BitVec 16) : State → Out := aluImm d a fun x => x &&& imm.setWidth 64
def execOri (d a : Reg) (imm : BitVec 16) : State → Out := aluImm d a fun x => x ||| imm.setWidth 64
def execXori (d a : Reg) (imm : BitVec 16) : State → Out := aluImm d a fun x => x ^^^ imm.setWidth 64
def execSlli (d a : Reg) (sh : BitVec 6) : State → Out := aluImm d a fun x => x <<< sh.toNat
def execSrli (d a : Reg) (sh : BitVec 6) : State → Out := aluImm d a fun x => x >>> sh.toNat
def execSrai (d a : Reg) (sh : BitVec 6) : State → Out := aluImm d a fun x => x.sshiftRight sh.toNat
def execSlti (d a : Reg) (imm : BitVec 16) : State → Out := aluImm d a fun x => flagWord (x.slt (imm.signExtend 64))
def execSltiu (d a : Reg) (imm : BitVec 16) : State → Out := aluImm d a fun x => flagWord (x.ult (imm.signExtend 64))
def execLih (d : Reg) (imm : BitVec 21) : State → Out := setReg d fun _ => imm.signExtend 64 <<< 11
def execPca (d : Reg) (imm : BitVec 21) : State → Out := setReg d fun c => c.pc + (imm.signExtend 64 <<< 2)

end Sys2Proof.Machine
end

