-- ==== Sys2Proof/Machine/VecInt.lean ====
section
/-! DEFINITION. Vector integer instructions (R141-R151). -/

namespace Sys2Proof.Machine

/-- An element-wise instruction on a and b, and with `acc` on the destination's element d: its Operate step answers the bits and
flags from the type, a, b and d (R142, R143). -/
def intBody (f : Op64) (acc : Bool) (op : Ctx → Ty → (a b d : Nat) → Nat × Nat) : Body := fun x e =>
  let ty := opTy e.vt f
  elementwise x e f ty.width (sameDst f) fun c _ r col =>
    let a := operandA c f ty.width r col
    let b := operandB c e f ty.width r col
    let d := c.elem f.vd.toNat ty.width r col
    if a.2 || b.2 || (acc && d.2) then .poison
    else let v := op c ty a.1 b.1 d.1; .val v.1 v.2

/-- A binary instruction of a type class. -/
def intDef (major : Nat) (f : Op64) (accepts : Ty → Bool) (op : Ty → (a b : Nat) → Nat × Nat) : QueueDef where
  check := fun _ c => arithCheck major f accepts c
  body := intBody f false fun _ ty a b _ => op ty a b

/-- An operation without flags. -/
def plain (op : Ty → (a b : Nat) → Nat) : Ty → (a b : Nat) → Nat × Nat := fun ty a b => (op ty a b, 0)
/-- The wrapping result of an exact one. -/
def wrap (op : Int → Int → Int) : Ty → (a b : Nat) → Nat := fun ty a b => intBits ty.width (op a b)
/-- The high half of a product (R144). -/
def mulHigh (signed : Bool) (ty : Ty) (a b : Nat) : Nat :=
  intBits ty.width (intVal signed ty.width a * intVal signed ty.width b / (2 ^ ty.width : Nat))
/-- The smaller or larger pattern under a signedness. -/
def pick (signed isMax : Bool) (ty : Ty) (a b : Nat) : Nat :=
  let x := intVal signed ty.width a
  let y := intVal signed ty.width b
  if isMax then (if x < y then b else a) else (if y < x then b else a)
/-- Quotient or remainder with the flags of R111. -/
def divElem (signed rem : Bool) (ty : Ty) (a b : Nat) : Nat × Nat :=
  let r := divide signed ty.width a b
  (if rem then r.2.1 else r.1, r.2.2)
/-- A saturating sum or difference (R144). -/
def satElem (signed sub : Bool) (ty : Ty) (a b : Nat) : Nat × Nat :=
  let x := intVal signed ty.width a
  let y := intVal signed ty.width b
  let r := clampTo signed ty.width (if sub then x - y else x + y)
  (intBits ty.width r.1, r.2)
/-- The shift amount: the low log2(ew) bits of b (R145). -/
def shiftBy (ty : Ty) (b : Nat) : Nat := b % ty.width

def vaddDef (f : Op64) : QueueDef := intDef 0x08 f intTy (plain (wrap (· + ·)))
def vsubDef (f : Op64) : QueueDef := intDef 0x09 f intTy (plain (wrap (· - ·)))
def vrsubDef (f : Op64) : QueueDef := intDef 0x0A f intTy (plain (wrap fun a b => b - a))
def vmulDef (f : Op64) : QueueDef := intDef 0x0B f intTy (plain (wrap (· * ·)))
def vmulhDef (f : Op64) : QueueDef := intDef 0x0C f intTy (plain (mulHigh true))
def vmulhuDef (f : Op64) : QueueDef := intDef 0x0D f intTy (plain (mulHigh false))
def vmacDef (f : Op64) : QueueDef where
  check := fun _ c => arithCheck 0x0E f intTy c
  body := intBody f true fun _ ty a b d => ((d + a * b) % 2 ^ ty.width, 0)
def vdivDef (f : Op64) : QueueDef := intDef 0x0F f intTy (divElem true false)
def vdivuDef (f : Op64) : QueueDef := intDef 0x10 f intTy (divElem false false)
def vremDef (f : Op64) : QueueDef := intDef 0x11 f intTy (divElem true true)
def vremuDef (f : Op64) : QueueDef := intDef 0x12 f intTy (divElem false true)
def vminDef (f : Op64) : QueueDef := intDef 0x13 f intTy (plain (pick true false))
def vmaxDef (f : Op64) : QueueDef := intDef 0x14 f intTy (plain (pick true true))
def vminuDef (f : Op64) : QueueDef := intDef 0x15 f intTy (plain (pick false false))
def vmaxuDef (f : Op64) : QueueDef := intDef 0x16 f intTy (plain (pick false true))
def vandDef (f : Op64) : QueueDef := intDef 0x17 f rawTy (plain fun _ a b => a &&& b)
def vorDef (f : Op64) : QueueDef := intDef 0x18 f rawTy (plain fun _ a b => a ||| b)
def vxorDef (f : Op64) : QueueDef := intDef 0x19 f rawTy (plain fun _ a b => a ^^^ b)
def vandnDef (f : Op64) : QueueDef := intDef 0x1A f rawTy (plain fun ty a b => a &&& (b ^^^ (2 ^ ty.width - 1)))
def vshlDef (f : Op64) : QueueDef := intDef 0x1B f intTy (plain fun ty a b => a * 2 ^ shiftBy ty b % 2 ^ ty.width)
def vshrDef (f : Op64) : QueueDef := intDef 0x1C f intTy (plain fun ty a b => a / 2 ^ shiftBy ty b)
def vsraDef (f : Op64) : QueueDef :=
  intDef 0x1D f intTy (plain fun ty a b => intBits ty.width (intVal true ty.width a / (2 ^ shiftBy ty b : Nat)))
/-- fn4 = 1 is the arithmetic form; vxrm rounds (R105, R145). -/
def vshrrDef (f : Op64) : QueueDef where
  check := fun _ c => arithCheck 0x1E f intTy c
  body := intBody f false fun c ty a b _ =>
    (intBits ty.width (shiftRound c.vcsr.vxrm.toNat (intVal (f.fn4 == 1) ty.width a) (shiftBy ty b)), 0)
def vsaddDef (f : Op64) : QueueDef := intDef 0x1F f intTy (satElem true false)
def vsadduDef (f : Op64) : QueueDef := intDef 0x20 f intTy (satElem false false)
def vssubDef (f : Op64) : QueueDef := intDef 0x21 f intTy (satElem true true)
def vssubuDef (f : Op64) : QueueDef := intDef 0x22 f intTy (satElem false true)

/-- i32 or n32 (R146). -/
def word32Ty : Ty → Bool
  | .int _ w => w == 32
  | _ => false
/-- The four-way byte dot product (R146): x from a, y from b. -/
def byteDot (xs ys : Bool) (a b : Nat) : Int :=
  (List.range 4).foldl (fun t j => t + intVal xs 8 (a >>> (8 * j)) * intVal ys 8 (b >>> (8 * j))) 0
/-- fn4 0 `.ii`, 1 `.nn`, 2 `.in`: x is signed but for 1, y is signed for 0. -/
def vpmacDef (f : Op64) : QueueDef where
  check := fun _ c => arithCheck 0x23 f word32Ty c
  body := intBody f true fun _ _ a b d => (intBits 32 ((d : Int) + byteDot (f.fn4 != 1) (f.fn4 == 0) a b), 0)

/-- A count of the bits of a (R147). -/
def countDef (major : Nat) (f : Op64) (op : (width a : Nat) → Nat) : QueueDef where
  check := fun _ c => arithCheck major f rawTy c
  body := fun x e =>
    let ty := opTy e.vt f
    elementwise x e f ty.width (sameDst f) fun c _ r col =>
      let a := operandA c f ty.width r col
      if a.2 then .poison else .val (op ty.width a.1) 0
def vpopcDef (f : Op64) : QueueDef := countDef 0x24 f fun w a => popCount a w
def vclzDef (f : Op64) : QueueDef := countDef 0x25 f fun w a => leadZeros a w
def vctzDef (f : Op64) : QueueDef := countDef 0x26 f fun w a => trailZeros a w

def vabsdDef (f : Op64) : QueueDef :=
  intDef 0x27 f intTy (plain fun ty a b => (intVal ty.signed ty.width a - intVal ty.signed ty.width b).natAbs % 2 ^ ty.width)

/-- The conditions of R148 on patterns of width `w`. DESIGN CHOICE: the unsigned ones compare the patterns under both kinds, as R148 says,
though R141 names them among what depends on the kind. -/
def intCond (cond w a b : Nat) : Bool :=
  let sa := intVal true w a
  let sb := intVal true w b
  match cond with
  | 0 => a == b
  | 1 => a != b
  | 2 => decide (sa < sb)
  | 3 => decide (sa ≤ sb)
  | 4 => decide (sb < sa)
  | 5 => decide (sb ≤ sa)
  | 6 => decide (a < b)
  | 7 => decide (a ≤ b)
  | 8 => decide (b < a)
  | _ => decide (b ≤ a)

/-- A comparison writes one mask bit per column; a poisoned operand leaves its column 0 (R148). -/
def vcmpDef (f : Op64) : QueueDef where
  check := fun _ c => arithCheck 0x28 f intTy c
  body := fun x e => updCtx x fun c =>
    let ty := opTy e.vt f
    let holds (r col : Nat) : Bool :=
      let a := operandA c f ty.width r col
      let b := operandB c e f ty.width r col
      !a.2 && !b.2 && intCond f.fn4.toNat ty.width a.1 b.1
    c.setMask f.vd.toNat (compareMask e e.vt.size (c.mask f.vd.toNat) (effMask c f) (opPol f) holds)

/-- The effective mask selects b or a, with the poison of what it selects; every element is written (R149). -/
def vselDef (f : Op64) : QueueDef where
  check := fun _ c => arithCheck 0x29 f rawTy c
  body := fun x e =>
    let ty := opTy e.vt f
    each (e.elems e.vt.size) fun i => updCtx x fun c =>
      let r := i / e.vl
      let col := i % e.vl
      let v := if (effMask c f).getLsbD col then operandB c e f ty.width r col else operandA c f ty.width r col
      if v.2 then c.markPoison (f.vd.toNat + r) ty.width col else c.putElem (f.vd.toNat + r) ty.width col v.1

def vbcastDef (f : Op64) : QueueDef where
  check := fun _ c => arithCheck 0x2A f rawTy c
  body := fun x e =>
    let ty := opTy e.vt f
    elementwise x e f ty.width (sameDst f) fun c _ r col => .val (operandB c e f ty.width r col).1 0

/-- The element index, or with fn4 = 1 the number of active columns below the column (R151). -/
def viotaDef (f : Op64) : QueueDef where
  check := fun _ c => arithCheck 0x2B f intTy c
  body := fun x e =>
    let ty := opTy e.vt f
    elementwise x e f ty.width (sameDst f) fun c i _ col =>
      .val (if f.fn4 = 1 then popCount (effMask c f).toNat col else i) 0

/-! ## Meanings -/

def execVadd (f : Op64) : State → Out := runDef (.vadd f) f (vaddDef f)
def execVsub (f : Op64) : State → Out := runDef (.vsub f) f (vsubDef f)
def execVrsub (f : Op64) : State → Out := runDef (.vrsub f) f (vrsubDef f)
def execVmul (f : Op64) : State → Out := runDef (.vmul f) f (vmulDef f)
def execVmulh (f : Op64) : State → Out := runDef (.vmulh f) f (vmulhDef f)
def execVmulhu (f : Op64) : State → Out := runDef (.vmulhu f) f (vmulhuDef f)
def execVmac (f : Op64) : State → Out := runDef (.vmac f) f (vmacDef f)
def execVdiv (f : Op64) : State → Out := runDef (.vdiv f) f (vdivDef f)
def execVdivu (f : Op64) : State → Out := runDef (.vdivu f) f (vdivuDef f)
def execVrem (f : Op64) : State → Out := runDef (.vrem f) f (vremDef f)
def execVremu (f : Op64) : State → Out := runDef (.vremu f) f (vremuDef f)
def execVmin (f : Op64) : State → Out := runDef (.vmin f) f (vminDef f)
def execVmax (f : Op64) : State → Out := runDef (.vmax f) f (vmaxDef f)
def execVminu (f : Op64) : State → Out := runDef (.vminu f) f (vminuDef f)
def execVmaxu (f : Op64) : State → Out := runDef (.vmaxu f) f (vmaxuDef f)
def execVand (f : Op64) : State → Out := runDef (.vand f) f (vandDef f)
def execVor (f : Op64) : State → Out := runDef (.vor f) f (vorDef f)
def execVxor (f : Op64) : State → Out := runDef (.vxor f) f (vxorDef f)
def execVandn (f : Op64) : State → Out := runDef (.vandn f) f (vandnDef f)
def execVshl (f : Op64) : State → Out := runDef (.vshl f) f (vshlDef f)
def execVshr (f : Op64) : State → Out := runDef (.vshr f) f (vshrDef f)
def execVsra (f : Op64) : State → Out := runDef (.vsra f) f (vsraDef f)
def execVshrr (f : Op64) : State → Out := runDef (.vshrr f) f (vshrrDef f)
def execVsadd (f : Op64) : State → Out := runDef (.vsadd f) f (vsaddDef f)
def execVsaddu (f : Op64) : State → Out := runDef (.vsaddu f) f (vsadduDef f)
def execVssub (f : Op64) : State → Out := runDef (.vssub f) f (vssubDef f)
def execVssubu (f : Op64) : State → Out := runDef (.vssubu f) f (vssubuDef f)
def execVpmac (f : Op64) : State → Out := runDef (.vpmac f) f (vpmacDef f)
def execVpopc (f : Op64) : State → Out := runDef (.vpopc f) f (vpopcDef f)
def execVclz (f : Op64) : State → Out := runDef (.vclz f) f (vclzDef f)
def execVctz (f : Op64) : State → Out := runDef (.vctz f) f (vctzDef f)
def execVabsd (f : Op64) : State → Out := runDef (.vabsd f) f (vabsdDef f)
def execVcmp (f : Op64) : State → Out := runDef (.vcmp f) f (vcmpDef f)
def execVsel (f : Op64) : State → Out := runDef (.vsel f) f (vselDef f)
def execVbcast (f : Op64) : State → Out := runDef (.vbcast f) f (vbcastDef f)
def execViota (f : Op64) : State → Out := runDef (.viota f) f (viotaDef f)

end Sys2Proof.Machine
end

