-- ==== Sys2Proof/Machine/VecFloat.lean ====
section
/-! DEFINITION. Vector floating point and conversion (R153-R165). -/

namespace Sys2Proof.Machine

/-! ## Floating point (R153-R158) -/

/-- An element-wise float instruction on a and b, and with `acc` on the destination's element d (R154): its Operate step answers
bits and flags from the context, the format, the mode and the dither index. -/
def fpBody (f : Op64) (acc : Bool) (op : Ctx → Fmt → Rm → (i a b d : Nat) → Nat × Nat) : Body := fun x e =>
  let fmt := (opTy e.vt f).fmt
  elementwise x e f fmt.width (sameDst f) fun c i r col =>
    let a := operandA c f fmt.width r col
    let b := operandFb c e f fmt r col
    let d := c.elem f.vd.toNat fmt.width r col
    if a.2 || b.2 || (acc && d.2) then .poison
    else let v := op c fmt (opRm c f) i a.1 b.1 d.1; .val v.1 v.2

/-- A result rounded once, with the flags of its exact value and of the rounding (R103, R106). -/
def rounded (c : Ctx) (fmt : Fmt) (m : Rm) (i : Nat) (v : Val × Nat) : Nat × Nat :=
  let r := roundTo fmt m c.vcsr.sat8 i v.1
  (r.1, v.2 ||| r.2)

/-- A rounding binary instruction on exact values. -/
def fpDef (major : Nat) (f : Op64) (op : Rm → Val → Val → Val × Nat) : QueueDef where
  check := fun _ c => arithCheck major f fpTy c
  body := fpBody f false fun c fmt m i a b _ => rounded c fmt m i (op m (fmt.decode a) (fmt.decode b))

def vfaddDef (f : Op64) : QueueDef := fpDef 0x30 f addVal
def vfsubDef (f : Op64) : QueueDef := fpDef 0x31 f fun m a b => addVal m a b.negate
def vfmulDef (f : Op64) : QueueDef := fpDef 0x32 f fun _ a b => mulVal a b

/-- d + a x b or d - a x b, fused (R155). -/
def fmaDef (major : Nat) (f : Op64) (neg : Bool) : QueueDef where
  check := fun _ c => arithCheck major f fpTy c
  body := fpBody f true fun c fmt m i a b d =>
    let av := fmt.decode a
    rounded c fmt m i (fmaVal m (fmt.decode d) (if neg then av.negate else av) (fmt.decode b))
def vfmaDef (f : Op64) : QueueDef := fmaDef 0x33 f false
def vfnmaDef (f : Op64) : QueueDef := fmaDef 0x34 f true
def vfdivDef (f : Op64) : QueueDef := fpDef 0x35 f fun _ a b => divVal a b

/-- A function of one operand, correctly rounded (R156). -/
def unaryElem (op : Nat) (c : Ctx) (fmt : Fmt) (m : Rm) (i a : Nat) : Nat × Nat := rounded c fmt m i (unaryVal op (fmt.decode a))

/-- An instruction on a alone. -/
def unaryDef (major : Nat) (f : Op64) (op : Ctx → Fmt → Rm → (i a : Nat) → Nat × Nat) : QueueDef where
  check := fun _ c => arithCheck major f fpTy c
  body := fun x e =>
    let fmt := (opTy e.vt f).fmt
    elementwise x e f fmt.width (sameDst f) fun c i r col =>
      let a := operandA c f fmt.width r col
      if a.2 then .poison else let v := op c fmt (opRm c f) i a.1; .val v.1 v.2

def vfsqrtDef (f : Op64) : QueueDef := unaryDef 0x36 f (unaryElem 0)
def vfrcpDef (f : Op64) : QueueDef := unaryDef 0x37 f (unaryElem 1)
def vfrsqDef (f : Op64) : QueueDef := unaryDef 0x38 f (unaryElem 2)
def vfexp2Def (f : Op64) : QueueDef := unaryDef 0x39 f (unaryElem 3)
def vflog2Def (f : Op64) : QueueDef := unaryDef 0x3A f (unaryElem 4)
def vftanhDef (f : Op64) : QueueDef := unaryDef 0x3B f (unaryElem 5)

/-- Minimum and maximum are exact and set no flag (R106, R155). -/
def minMaxDef (major : Nat) (f : Op64) (isMax : Bool) : QueueDef where
  check := fun _ c => arithCheck major f fpTy c
  body := fpBody f false fun _ fmt _ _ a b _ =>
    ((roundTo fmt .rne false 0 (minMax isMax (f.fn4 == 1) (fmt.decode a) (fmt.decode b))).1, 0)
def vfminDef (f : Op64) : QueueDef := minMaxDef 0x3C f false
def vfmaxDef (f : Op64) : QueueDef := minMaxDef 0x3D f true

/-- One mask bit per column; NV where an ordered condition meets a NaN in an active, unpoisoned element (R158). -/
def vfcmpDef (f : Op64) : QueueDef where
  check := fun _ c => arithCheck 0x3E f fpTy c
  body := fun x e => updCtx x fun c =>
    let fmt := (opTy e.vt f).fmt
    let one (r col : Nat) : Bool × Nat :=
      let a := operandA c f fmt.width r col
      let b := operandFb c e f fmt r col
      if a.2 || b.2 then (false, 0) else fcond f.fn4.toNat (fmt.decode a.1) (fmt.decode b.1)
    let eff := effMask c f
    let fl := (e.elems e.vt.size).foldl (fun fl i => if eff.getLsbD (i % e.vl) then fl ||| (one (i / e.vl) (i % e.vl)).2 else fl) 0
    { c.setMask f.vd.toNat (compareMask e e.vt.size (c.mask f.vd.toNat) eff (opPol f) fun r col => (one r col).1) with
      vcsr := c.vcsr.raise fl }

def vfclassDef (f : Op64) : QueueDef := unaryDef 0x3F f fun _ fmt _ _ a => (classCode fmt a, 0)

/-- `vfsgnj` (0), `vfsgnjn` (1), `vfsgnjx` (2) of major 0x40 (R155). -/
def signOp (op : Nat) (f : Op64) : QueueDef where
  check := fun _ c => arithCheck 0x40 f fpTy c
  body := fpBody f false fun _ fmt _ _ a b _ => (signInject fmt op a b, 0)
def vfsgnjDef (f : Op64) : QueueDef := signOp 0 f
def vfsgnjnDef (f : Op64) : QueueDef := signOp 1 f
def vfsgnjxDef (f : Op64) : QueueDef := signOp 2 f

/-! ## Conversion (R159-R163) -/

/-- The source is scaled FP8: an FP8 type under a `vtype` with a scale register (R97, R160). -/
def scaledFp8 (vt : VType) (ty : Ty) : Bool := vt.ks && (decide (ty = .flt .e4m3) || decide (ty = .flt .e5m2))

/-- The scale byte that serves a column of a group row, for elements of width `w` (R74). -/
def Ctx.scaleByte (c : Ctx) (k w r col : Nat) : Nat := (c.scale k >>> (8 * (r * (8192 / w / 32) + col / 32))).toNat % 256
/-- Writes a scale byte by its number. -/
def Ctx.putScale (c : Ctx) (k b v : Nat) : Ctx :=
  let m : BitVec 16384 := 255#16384 <<< (8 * b)
  c.setScale k ((c.scale k &&& ~~~m) ||| (BitVec.ofNat 16384 (v % 256) <<< (8 * b)))

/-- The value of a source element under its scale byte (R159). -/
def srcValue (c : Ctx) (vt : VType) (ty : Ty) (r col bits : Nat) : Val :=
  valueOf ty (scaledFp8 vt ty) (c.scaleByte vt.k.toNat ty.width r col) bits

/-- Convert of R159 on one source element. -/
def convertElem (c : Ctx) (vt : VType) (src dst : Ty) (m : Rm) (i r col bits : Nat) : Nat × Nat :=
  match src, dst with
  | .int s w, .int s' w' => convertInt s' w' (intVal s w bits)
  | _, _ =>
    if src = dst ∧ scaledFp8 vt src = false then (bits, 0)
    else convertVal dst m c.vcsr.sat8 i (srcValue c vt src r col bits)

/-- A conversion of each active element: `dst` maps its place, `op` its bits. -/
def convertBody (f : Op64) (dw : Nat) (dst : Nat → Nat → Nat × Nat)
    (op : Ctx → VType → Ty → (i r col bits : Nat) → Nat × Nat) : Body := fun x e =>
  let ty := opTy e.vt f
  elementwise x e f dw dst fun c i r col =>
    let a := operandA c f ty.width r col
    if a.2 then .poison else let v := op c e.vt ty i r col a.1; .val v.1 v.2

/-- The destination type of a conversion. -/
def dstTy (f : Op64) : Ty := tyOfCode f.fn4.toNat

def vcvtDef (f : Op64) : QueueDef where
  check := fun _ c => do
    arithCheck 0x50 f rawTy c
    let src := opTy c.vt f
    let dst := dstTy f
    if dst = .q4 ∨ 8192 / dst.width < c.vl then illegalM c 0x50 f 6
    if src.width ≠ dst.width ∧ overlap f.vd.toNat c.vt.size f.vs2.toNat c.vt.size = true then illegalM c 0x50 f 5
  body := convertBody f (dstTy f).width (sameDst f) fun c vt ty i r col bits =>
    convertElem c vt ty (dstTy f) (opRm c f) i r col bits

/-- The checks of `vwiden` and `vnarrow` (R162): `gd` is the destination's group size, `ok` the limit on G. -/
def resizeCheck (major : Nat) (f : Op64) (widen : Bool) (c : Ctx) : M Unit := do
  let g := c.vt.size
  let gd := if widen then 2 * g else g / 2
  let ok := if widen then decide (g ≤ 16) else decide (2 ≤ g)
  checkAlign c major f (Nat.max gd 1)
  checkType c major f rawTy
  checkModifier c major f gd
  let src := (opTy c.vt f).width
  let dst := (dstTy f).width
  if (if widen then dst ≠ 2 * src else 2 * dst ≠ src) then illegalM c major f 6
  if !ok then illegalM c major f 6
  if overlap f.vd.toNat gd f.vs2.toNat g then illegalM c major f 5

/-- Integers shift their high half down with rounding and clamp; other pairs convert by value (R163). -/
def vnarrowDef (f : Op64) : QueueDef where
  check := fun _ c => resizeCheck 0x53 f false c
  body := convertBody f (dstTy f).width
    (fun r col => (f.vd.toNat + r / 2, r % 2 * (4096 / (dstTy f).width) + col))
    fun c vt ty i r col bits =>
      match ty, dstTy f with
      | .int s w, .int s' w' => convertInt s' w' (shiftRound c.vcsr.vxrm.toNat (intVal s w bits) (w / 2))
      | _, dst => convertElem c vt ty dst (opRm c f) i r col bits

/-- Integers extend by the signedness of their source; other pairs convert by value (R162). -/
def vwidenDef (f : Op64) : QueueDef where
  check := fun _ c => resizeCheck 0x54 f true c
  body := convertBody f (dstTy f).width
    (fun r col => let ww := 8192 / (dstTy f).width; (f.vd.toNat + 2 * r + col / ww, col % ww))
    fun c vt ty i r col bits =>
      match ty, dstTy f with
      | .int s w, .int _ w' => (intBits w' (intVal s w bits), 0)
      | _, dst => convertElem c vt ty dst (opRm c f) i r col bits

/-! ## Block quantisation (R98, R99, R164, R165) -/

/-- What fn4 encodes: a fixed kind, or none for `.q4auto`. -/
def quantKind (f : Op64) : Option QKind :=
  match f.fn4.toNat with
  | 4 => none
  | 5 => some (.fp8 .e4m3)
  | 6 => some (.fp8 .e5m2)
  | k => some (.q4 k)

/-- `vtype` agrees with fn4 (R164). -/
def quantAgrees (vt : VType) (f : Op64) : Bool :=
  match f.fn4.toNat with
  | 5 => vt.kind == 4 && vt.ks
  | 6 => vt.kind == 5 && vt.ks
  | _ => vt.kind == 6

/-- The source values of the active, unpoisoned elements of a block with their element numbers. -/
def blockElems (c : Ctx) (e : Entry) (f : Op64) (src : Fmt) (r blk : Nat) : List (Nat × Val) :=
  let eff := effMask c f
  (List.range 32).filterMap fun j =>
    let col := 32 * blk + j
    if col < e.vl ∧ eff.getLsbD col = true then
      let a := operandA c f src.width r col
      if a.2 then none else some (r * e.vl + col, src.decode a.1)
    else none

/-- The exact sum of the errors of a block under a kind and its byte (R99). -/
def blockError (k byte : Nat) (m : Rm) (xs : List (Nat × Val)) : Val :=
  xs.foldl (fun t x =>
    let d := (addVal .rne x.2 (q4Val byte (encodeBlock (.q4 k) byte m x.1 x.2).1).negate).1
    (addVal .rne t (if d.neg then d.negate else d)).1) (Val.zero false)

/-- The scale byte of a block: its kind bits and its scale (R98, R99). -/
def blockByte (kind : Option QKind) (m : Rm) (xs : List (Nat × Val)) : Nat :=
  let vals := xs.map fun x => x.2
  match kind with
  | some (.q4 k) => k * 64 + chooseScale (.q4 k) vals
  | some q => chooseScale q vals
  | none =>
    if chooseScale (.q4 0) vals = 63 then 63
    else
      let byte (k : Nat) : Nat := k * 64 + chooseScale (.q4 k) vals
      let best := [1, 2, 3].foldl (fun (b : Nat × Val) k =>
        let v := blockError k (byte k) m xs
        if cmpVal v b.2 < 0 then (k, v) else b) (0, blockError 0 (byte 0) m xs)
      byte best.1

/-- The kind that a scale byte is read under. -/
def byteKind (kind : Option QKind) (byte : Nat) : QKind := kind.getD (.q4 (byte / 64))

/-- Every block's byte is written first, then each element is encoded under it; NV belongs to the first infinite element of its
block (R164). -/
def vquantDef (f : Op64) : QueueDef where
  check := fun _ c => do
    checkAlign c 0x51 f c.vt.size
    if f.cls4 ≠ 9 ∧ f.cls4 ≠ 10 ∧ f.cls4 ≠ 11 then illegalM c 0x51 f 6
    checkType c 0x51 f fpTy
    checkModifier c 0x51 f c.vt.size
    if !(quantAgrees c.vt f) then illegalM c 0x51 f 6
    if overlap f.vd.toNat c.vt.size f.vs2.toNat c.vt.size then illegalM c 0x51 f 5
  body := fun x e => do
    let src := (opTy e.vt f).fmt
    let w := e.vt.bitsW
    let k := e.vt.k.toNat
    let kind := quantKind f
    each (List.range e.vt.size) fun r => each (List.range (ceilDiv e.vl 32)) fun blk => updCtx x fun c =>
      match blockElems c e f src r blk with
      | [] => c
      | xs => c.putScale k (r * (8192 / w / 32) + blk) (blockByte kind (opRm c f) xs)
    elementwise x e f w (sameDst f) fun c i r col =>
      let a := operandA c f src.width r col
      if a.2 then .poison
      else
        let byte := c.scaleByte k w r col
        let v := src.decode a.1
        let first := (blockElems c e f src r (col / 32)).find? fun y => y.2.isInf
        let nv := match first with | some y => if y.1 = i then fNV else 0 | none => 0
        let r := encodeBlock (byteKind kind byte) byte (opRm c f) i v
        .val r.1 (r.2 ||| nv)

/-- A row is read whole before it is written, so that vd may begin at vs2 (R165). DESIGN CHOICE: where vd = vs2 and ARITH stops the
row in its middle, the instruction that resumes reads the row as it then is. -/
def vdeqDef (f : Op64) : QueueDef where
  check := fun _ c => do
    checkAlign c 0x52 f c.vt.size
    if c.vt.ks = false then illegalM c 0x52 f 6
    checkModifier c 0x52 f c.vt.size
    if 8192 / (dstTy f).width < c.vl then illegalM c 0x52 f 6
    if f.vd ≠ f.vs2 ∧ overlap f.vd.toNat c.vt.size f.vs2.toNat c.vt.size = true then illegalM c 0x52 f 5
  body := fun x e => do
    let c0 ← ctxM x
    let ty := e.vt.ty
    elementwise x e f (dstTy f).width (sameDst f) fun c i r col =>
      let a := operandA c0 f ty.width r col
      if a.2 then .poison
      else let v := convertVal (dstTy f) (opRm c f) c.vcsr.sat8 i (srcValue c e.vt ty r col a.1); .val v.1 v.2

/-! ## Meanings -/

def execVfadd (f : Op64) : State → Out := runDef (.vfadd f) f (vfaddDef f)
def execVfsub (f : Op64) : State → Out := runDef (.vfsub f) f (vfsubDef f)
def execVfmul (f : Op64) : State → Out := runDef (.vfmul f) f (vfmulDef f)
def execVfma (f : Op64) : State → Out := runDef (.vfma f) f (vfmaDef f)
def execVfnma (f : Op64) : State → Out := runDef (.vfnma f) f (vfnmaDef f)
def execVfdiv (f : Op64) : State → Out := runDef (.vfdiv f) f (vfdivDef f)
def execVfsqrt (f : Op64) : State → Out := runDef (.vfsqrt f) f (vfsqrtDef f)
def execVfrcp (f : Op64) : State → Out := runDef (.vfrcp f) f (vfrcpDef f)
def execVfrsq (f : Op64) : State → Out := runDef (.vfrsq f) f (vfrsqDef f)
def execVfexp2 (f : Op64) : State → Out := runDef (.vfexp2 f) f (vfexp2Def f)
def execVflog2 (f : Op64) : State → Out := runDef (.vflog2 f) f (vflog2Def f)
def execVftanh (f : Op64) : State → Out := runDef (.vftanh f) f (vftanhDef f)
def execVfmin (f : Op64) : State → Out := runDef (.vfmin f) f (vfminDef f)
def execVfmax (f : Op64) : State → Out := runDef (.vfmax f) f (vfmaxDef f)
def execVfcmp (f : Op64) : State → Out := runDef (.vfcmp f) f (vfcmpDef f)
def execVfclass (f : Op64) : State → Out := runDef (.vfclass f) f (vfclassDef f)
def execVfsgnj (f : Op64) : State → Out := runDef (.vfsgnj f) f (vfsgnjDef f)
def execVfsgnjn (f : Op64) : State → Out := runDef (.vfsgnjn f) f (vfsgnjnDef f)
def execVfsgnjx (f : Op64) : State → Out := runDef (.vfsgnjx f) f (vfsgnjxDef f)
def execVcvt (f : Op64) : State → Out := runDef (.vcvt f) f (vcvtDef f)
def execVnarrow (f : Op64) : State → Out := runDef (.vnarrow f) f (vnarrowDef f)
def execVwiden (f : Op64) : State → Out := runDef (.vwiden f) f (vwidenDef f)
def execVquant (f : Op64) : State → Out := runDef (.vquant f) f (vquantDef f)
def execVdeq (f : Op64) : State → Out := runDef (.vdeq f) f (vdeqDef f)

end Sys2Proof.Machine
end

