-- ==== Sys2Proof/Machine/Rearrange.lean ====
section
/-! DEFINITION. Rearrangement, reduction, scan, extraction, sort and move (R109, R110, R167-R177). -/

namespace Sys2Proof.Machine

/-! ## Moves of elements (R167-R171) -/

/-- The checks of majors 0x70 to 0x7A: those of an arithmetic instruction, then the destinations that may share no row with a
source (R167). -/
def moveCheck (major : Nat) (f : Op64) (accepts : Ty → Bool) (pairs : List (BitVec 8 × BitVec 8)) (c : Ctx) : M Unit := do
  arithCheck major f accepts c
  let g := c.vt.size
  if pairs.any fun p => overlap p.1.toNat g p.2.toNat g then illegalM c major f 5

/-- A whole-group instruction runs from element 0 (R81). -/
def Entry.whole (e : Entry) : Entry := { e with vstart := 0 }

/-- An element moves with its poison mark (R167). -/
def moved (v : Nat × Bool) : Res := if v.2 then .poison else .val v.1 0

/-- An element keeps its value without a mark. -/
def Ctx.keepElem (c : Ctx) (row ew col : Nat) : Ctx := c.putElem row ew col ((c.row row).elem ew col)

/-- A destination element that receives no source element follows the policy and carries no poison (R167). -/
def unsourced (x : CtxNo) (f : Op64) (row ew col : Nat) : M Unit :=
  updCtx x fun c => if opPol f then c.putElem row ew col 0 else c.keepElem row ew col

/-- The loop of a move: `src` answers what an active element receives. One that keeps its value loses its mark (R167). -/
def moveLoop (x : CtxNo) (e : Entry) (f : Op64) (ew : Nat) (src : Ctx → (i r col : Nat) → Res) : M Unit :=
  each (e.elems e.vt.size) fun i => do
    let c ← ctxM x
    let r := i / e.vl
    let col := i % e.vl
    let row := f.vd.toNat + r
    if (effMask c f).getLsbD col then
      match src c i r col with
      | .keep => updCtx x fun c => c.keepElem row ew col
      | v => putRes x i r row ew col v
    else unsourced x f row ew col

/-- A whole-group move: `src` answers what the active element (r, col) of the destination receives. -/
def moveBody (f : Op64) (src : Entry → Ctx → (ew i r col : Nat) → Res) : Body := fun x e => do
  let c ← ctxM x
  let ew := (opTy e.vt f).width
  moveLoop x e.whole f ew fun _ i r col => src e c ew i r col

/-- Indices at or above `vl` give 0; a poisoned index poisons (R168). DESIGN CHOICE: a poisoned index at or above `vl` gives 0
without poison. -/
def vpermDef (f : Op64) : QueueDef where
  check := fun _ c => moveCheck 0x70 f rawTy [(f.vd, f.vs1), (f.vd, f.vs2)] c
  body := moveBody f fun e c ew _ r col =>
    let j := operandA c f ew r col
    if j.1 < e.vl then
      let d := c.elem f.vs1.toNat ew r (srcCol (opMod1 f) j.1)
      moved (d.1, d.2 || j.2)
    else .val 0 0

/-- The distance, length or index x of a VX or VI form, as an unsigned number. -/
def xOperand (f : Op64) (scalar : Word) : Nat := if f.fn3 = 1 then scalar.toNat else f.vs1.toNat

/-- A slide by d columns up or down, with the fills zero, keep and wrap (R169). -/
def slideDef (major : Nat) (f : Op64) (up : Bool) : QueueDef where
  check := fun _ c => moveCheck major f rawTy [(f.vd, f.vs2)] c
  body := moveBody f fun e c ew _ r col =>
    let d := xOperand f e.sa
    if f.fn4 = 2 then
      let d' := d % e.vl
      moved (operandA c f ew r (if up then (col + e.vl - d') % e.vl else (col + d') % e.vl))
    else if (if up then d ≤ col else col + d < e.vl) then moved (operandA c f ew r (if up then col - d else col + d))
    else if f.fn4 = 1 then .keep
    else .val 0 0
def vslupDef (f : Op64) : QueueDef := slideDef 0x71 f true
def vsldnDef (f : Op64) : QueueDef := slideDef 0x72 f false

/-- The transpose of P rows of L elements; L = 0 or a remainder is ILLEGAL with reason 6 (R170). -/
def vreshapeDef (f : Op64) : QueueDef where
  check := fun _ c => do
    moveCheck 0x73 f rawTy [(f.vd, f.vs2)] c
    let n := c.vt.size * c.vl
    let l := xOperand f (c.rg (gpr f.vs1))
    if n ≠ 0 ∧ (l = 0 ∨ n % l ≠ 0) then illegalM c 0x73 f 6
  body := moveBody f fun e c ew i _ _ =>
    let l := xOperand f e.sa
    let p := e.vt.size * e.vl / l
    let s := i % p * l + i / p
    moved (operandA c f ew (s / e.vl) (s % e.vl))

/-- The active columns below `vl`, rising. -/
def activeCols (c : Ctx) (e : Entry) (f : Op64) : List Nat := (List.range e.vl).filter fun k => (effMask c f).getLsbD k

/-- One group's elements written at columns: a listed source column gives a moved element, another place follows the policy without
a mark (R167). -/
def placeCols (x : CtxNo) (e : Entry) (f : Op64) (src : Nat → Option Nat) : M Unit := do
  let c ← ctxM x
  let ew := (opTy e.vt f).width
  each (e.whole.elems e.vt.size) fun i =>
    let r := i / e.vl
    let col := i % e.vl
    match src col with
    | some k => putRes x i r (f.vd.toNat + r) ew col (moved (operandA c f ew r k))
    | none => unsourced x f (f.vd.toNat + r) ew col

def vcomprDef (f : Op64) : QueueDef where
  check := fun _ c => moveCheck 0x74 f rawTy [(f.vd, f.vs2)] c
  body := fun x e => do
    let acts := activeCols (← ctxM x) e f
    placeCols x e f fun col => acts[col]?
def vexpndDef (f : Op64) : QueueDef where
  check := fun _ c => moveCheck 0x75 f rawTy [(f.vd, f.vs2)] c
  body := fun x e => do
    let acts := activeCols (← ctxM x) e f
    placeCols x e f fun col => if acts.contains col then some (acts.idxOf col) else none

/-! ## Reductions and scans (R109, R110, R172-R174) -/

/-- A value on the way through the tree: its bits, or none when poisoned, and the flags raised so far. -/
structure Node where
  val : Option Nat
  flags : Nat := 0
  deriving DecidableEq, Repr

/-- The identity of a reduction op (R110). -/
def redIdentity (op : Nat) (ty : Ty) : Nat :=
  let w := ty.width
  match op with
  | 1 => 2 ^ (w - 1) - 1
  | 2 => 2 ^ (w - 1)
  | 3 | 5 => 2 ^ w - 1
  | 8 => ty.fmt.signBit
  | 9 => (roundTo ty.fmt .rne false 0 (.inf false)).1
  | 10 => (roundTo ty.fmt .rne false 0 (.inf true)).1
  | _ => 0

/-- Step on two patterns: the result and its flags. -/
def redStep (op : Nat) (ty : Ty) (m : Rm) (sat8 : Bool) (idx a b : Nat) : Nat × Nat :=
  match op with
  | 0 => ((a + b) % 2 ^ ty.width, 0)
  | 1 => (pick true false ty a b, 0)
  | 2 => (pick true true ty a b, 0)
  | 3 => (pick false false ty a b, 0)
  | 4 => (pick false true ty a b, 0)
  | 5 => (a &&& b, 0)
  | 6 => (a ||| b, 0)
  | 7 => (a ^^^ b, 0)
  | 8 =>
    let v := addVal m (ty.fmt.decode a) (ty.fmt.decode b)
    let r := roundTo ty.fmt m sat8 idx v.1
    (r.1, v.2 ||| r.2)
  | 9 => ((roundTo ty.fmt .rne false 0 (minMax false false (ty.fmt.decode a) (ty.fmt.decode b))).1, 0)
  | 10 => ((roundTo ty.fmt .rne false 0 (minMax true false (ty.fmt.decode a) (ty.fmt.decode b))).1, 0)
  | 11 => satElem true false ty a b
  | _ => satElem false false ty a b

/-- Step on two nodes; poison passes and raises no flag (R106, R110). -/
def Node.step (op : Nat) (ty : Ty) (m : Rm) (sat8 : Bool) (idx : Nat) (a b : Node) : Node :=
  match a.val, b.val with
  | some u, some v =>
    let r := redStep op ty m sat8 idx u v
    ⟨some r.1, a.flags ||| b.flags ||| r.2⟩
  | _, _ => ⟨none, a.flags ||| b.flags⟩

/-- One level of the tree of R109: neighbours combine; `w` is the number of positions that an input covers, `j` the number of the
first output. -/
def treeLevel {α : Type} (step : Nat → α → α → α) (w j : Nat) : List α → List α
  | a :: b :: t => step (2 * w * j) a b :: treeLevel step w (j + 1) t
  | l => l

/-- The levels of the tree from the leaves to the root. -/
def treeLevels {α : Type} (step : Nat → α → α → α) : (fuel w : Nat) → List α → List (List α)
  | 0, _, l => [l]
  | n + 1, w, l => if l.length ≤ 1 then [l] else l :: treeLevels step n (2 * w) (treeLevel step w 0 l)

/-- The leaves: x[0] to x[E-1], filled with the identity to a power of two. -/
def padded {α : Type} (id : α) (l : List α) : List α := l ++ List.replicate (2 ^ bitLen (l.length - 1) - l.length) id

/-- The tree of R109 over the elements. -/
def redTree {α : Type} (step : Nat → α → α → α) (id : α) (l : List α) : List (List α) := treeLevels step 17 1 (padded id l)

/-- The root of a tree. -/
def rootOf {α : Type} (id : α) (levels : List (List α)) : α := ((levels.getLast?.bind List.head?)).getD id

/-- The elements of the source group; an inactive one is the identity. -/
def leaves {α : Type} (c : Ctx) (e : Entry) (f : Op64) (id : α) (mk : (i : Nat) → Nat × Bool → α) : List α :=
  let ew := (opTy e.vt f).width
  let eff := effMask c f
  (List.range (e.vt.size * e.vl)).map fun i =>
    if eff.getLsbD (i % e.vl) then mk i (operandA c f ew (i / e.vl) (i % e.vl)) else id

/-- A leaf of a reduction. -/
def leafNode (_ : Nat) (v : Nat × Bool) : Node := ⟨if v.2 then none else some v.1, 0⟩

/-- Sets flags that never raise ARITH (R107). -/
def setFlags (x : CtxNo) (fl : Nat) : M Unit := updCtx x fun c => { c with vcsr := c.vcsr.raise fl }

/-- Writes one element of a reduction's or scan's result. -/
def putNode (x : CtxNo) (row ew col : Nat) (v : Option Nat) : M Unit :=
  updCtx x fun c => match v with | some b => c.putElem row ew col b | none => c.markPoison row ew col

/-- The types of the reduction ops (R167). -/
def redTy (op : Nat) (ty : Ty) : Bool := if 8 ≤ op ∧ op ≤ 10 then fpTy ty else intTy ty

def vredDef (f : Op64) : QueueDef where
  check := fun _ c => arithCheck 0x76 f (redTy f.fn4.toNat) c
  body := fun x e => do
    let c ← ctxM x
    let ty := opTy e.vt f
    let step := Node.step f.fn4.toNat ty (opRm c f) c.vcsr.sat8
    let id : Node := ⟨some (redIdentity f.fn4.toNat ty), 0⟩
    let init := leafNode 0 (c.elem f.vs1.toNat ty.width 0 (srcCol (opMod1 f) 0))
    let r := step 0 init (rootOf id (redTree step id (leaves c e f id leafNode)))
    setFlags x r.flags
    putNode x f.vd.toNat ty.width 0 r.val

/-- The reduction op whose identity and order a `vredx` takes. -/
def redxOp (fn4 : Nat) : Nat := if fn4 < 4 then fn4 + 1 else fn4 + 5

/-- Better(q, p) of R173, strict. -/
def better (fn4 : Nat) (ty : Ty) (q p : Nat) : Bool :=
  if fn4 < 4 then
    let s := decide (fn4 < 2)
    let u := intVal s ty.width q
    let v := intVal s ty.width p
    if fn4 % 2 = 0 then decide (u < v) else decide (v < u)
  else
    let u := ty.fmt.decode q
    let v := ty.fmt.decode p
    if u.isNan then false
    else if v.isNan then true
    else if fn4 = 4 then ltMin u v else ltMin v u

/-- A pair (value, index) that may be empty; poison of an active element stays. -/
structure Best where
  pair : Option (Nat × Nat) := none
  pois : Bool := false
  deriving DecidableEq, Repr

/-- Step of R173. -/
def Best.step (fn4 : Nat) (ty : Ty) (p q : Best) : Best :=
  { pois := p.pois || q.pois,
    pair := match p.pair, q.pair with
      | none, b => b
      | a, none => a
      | some a, some b => if better fn4 ty b.1 a.1 then some b else some a }

/-- The types of `vredx`: integers of 16 bits or more, or floats (R167). -/
def redxTy (fn4 : Nat) (ty : Ty) : Bool := if fn4 < 4 then intTy ty && decide (16 ≤ ty.width) else fpTy ty

/-- A NaN result is the canonical one (R93). -/
def canonical_ (ty : Ty) (b : Nat) : Nat :=
  match ty with
  | .flt g => if (g.decode b).isNan then g.nan else b
  | _ => b

/-- The extreme and its index (R173); when every active element is a NaN, the value is the canonical one. -/
def vredxDef (f : Op64) : QueueDef where
  check := fun _ c => arithCheck 0x77 f (redxTy f.fn4.toNat) c
  body := fun x e => do
    let c ← ctxM x
    let ty := opTy e.vt f
    let step : Nat → Best → Best → Best := fun _ p q => Best.step f.fn4.toNat ty p q
    let r := rootOf {} (redTree step {} (leaves c e f {} fun i v => ⟨some (v.1, i), v.2⟩))
    let v := r.pair.getD (redIdentity (redxOp f.fn4.toNat) ty, 2 ^ ty.width - 1)
    putNode x f.vd.toNat ty.width 0 (if r.pois then none else some (canonical_ ty v.1))
    putNode x f.vd.toNat ty.width 1 (if r.pois then none else some v.2)

/-- The exponent of the largest aligned block that starts at b and ends at or before `hi`. -/
def blockExp (b hi : Nat) : (fuel : Nat) → Nat
  | 0 => 0
  | k + 1 => if b % 2 ^ (k + 1) = 0 ∧ b + 2 ^ (k + 1) ≤ hi + 1 then k + 1 else blockExp b hi k

/-- The value of the range [b, hi] of a segment that starts at `s`: its largest aligned blocks from the left (R174). -/
def rangeValue (step : Nat → Node → Node → Node) (id : Node) (levels : List (Array Node)) (s hi : Nat) :
    (fuel b : Nat) → Option Node → Node
  | 0, _, acc => acc.getD id
  | n + 1, b, acc =>
    if hi < b then acc.getD id
    else
      let k := blockExp b hi 16
      let v := (levels.getD k #[]).getD (b / 2 ^ k) id
      rangeValue step id levels s hi n (b + 2 ^ k) (some (match acc with | none => v | some a => step s a v))

/-- The start of the segment that holds element `i`. -/
def segStart (m : BitVec 2048) (vl : Nat) : Nat → Nat
  | 0 => 0
  | i + 1 => if m.getLsbD ((i + 1) % vl) then i + 1 else segStart m vl i

/-- The value that element `i` of a scan receives. -/
def scanValue (f : Op64) (step : Nat → Node → Node → Node) (id : Node) (levels : List (Array Node)) (m : BitVec 2048)
    (vl i : Nat) : Node :=
  let s := if f.fn3 = 3 ∨ f.fn3 = 5 then segStart m vl i else 0
  if 4 ≤ f.fn3.toNat then (if i = s then id else rangeValue step id levels s (i - 1) 40 s none)
  else rangeValue step id levels s i 40 s none

def vscanDef (f : Op64) : QueueDef where
  check := fun _ c => moveCheck 0x78 f (redTy f.fn4.toNat) [(f.vd, f.vs2)] c
  body := fun x e => do
    let c ← ctxM x
    let ty := opTy e.vt f
    let step := Node.step f.fn4.toNat ty (opRm c f) c.vcsr.sat8
    let id : Node := ⟨some (redIdentity f.fn4.toNat ty), 0⟩
    let levels := (redTree step id (leaves c e f id leafNode)).map List.toArray
    let m := c.mask (f.vs1.toNat % 8)
    let eff := effMask c f
    each (e.whole.elems e.vt.size) fun i =>
      let r := i / e.vl
      let col := i % e.vl
      if eff.getLsbD col then do
        let v := scanValue f step id levels m e.vl i
        setFlags x v.flags
        putNode x (f.vd.toNat + r) ty.width col (v.val.map (canonical_ ty))
      else unsourced x f (f.vd.toNat + r) ty.width col

/-! ## Extraction, sorting and moves (R175-R177) -/

/-- POISON at an element that keeps the destination (R175). -/
def vextDef (f : Op64) : QueueDef where
  check := fun _ c => arithCheck 0x79 f rawTy c
  body := fun x e => do
    let c ← ctxM x
    let ty := opTy e.vt f
    let i := xOperand f e.sa
    if e.vt.size * e.vl ≤ i then updCtx x fun c => c.wg (gpr f.vd) 0
    else
      let v := operandA c f ty.width (i / e.vl) (i % e.vl)
      if v.2 then raise { cause := 0x0F, elem := i, row := i / e.vl }
      updCtx x fun c => c.wg (gpr f.vd) (if ty.signed then BitVec.ofInt 64 (sextNat ty.width v.1) else BitVec.ofNat 64 v.1)

/-- A key of `vsortk`: its source index, bits and poison. -/
structure Key where
  idx : Nat
  bits : Nat
  pois : Bool
  deriving DecidableEq, Repr

/-- Float keys order by value with -0 < +0, and NaN above +infinity (R176). -/
def fKeyLt (a b : Val) : Bool := if a.isNan then false else b.isNan || ltMin a b

/-- Key a goes strictly before key b: poisoned keys come last in both directions. -/
def keyBefore (fn4 : Nat) (a b : Key) : Bool :=
  let lt (u v : Nat) : Bool :=
    match fn4 % 8 with
    | 0 => decide (u < v)
    | 1 => decide (intVal true 32 u < intVal true 32 v)
    | _ => fKeyLt (Fmt.decode .fp32 u) (Fmt.decode .fp32 v)
  if a.pois || b.pois then !a.pois && b.pois
  else if 8 ≤ fn4 then lt b.bits a.bits
  else lt a.bits b.bits

/-- Puts a key before the first key that it does not follow; inserting from the last key on makes a stable sort. -/
def insertKey (fn4 : Nat) (k : Key) : List Key → List Key
  | [] => [k]
  | a :: t => if keyBefore fn4 a k then a :: insertKey fn4 k t else k :: a :: t

/-- i32, n32 and FP32. -/
def sortTy : Ty → Bool
  | .int _ w => w == 32
  | .flt .fp32 => true
  | _ => false

/-- A stable sort of the active keys; the keys go to vd and their indices to vs1 (R176). -/
def vsortkDef (f : Op64) : QueueDef where
  check := fun _ c => moveCheck 0x7A f sortTy [(f.vd, f.vs1), (f.vd, f.vs2), (f.vs1, f.vs2)] c
  body := fun x e => do
    let c ← ctxM x
    let keys := ((List.range (e.vt.size * e.vl)).filter fun i => (effMask c f).getLsbD (i % e.vl)).map fun i =>
      let v := operandA c f 32 (i / e.vl) (i % e.vl)
      (⟨i, v.1, v.2⟩ : Key)
    let sorted := (keys.foldr (insertKey f.fn4.toNat) []).toArray
    each (e.whole.elems e.vt.size) fun i => do
      let r := i / e.vl
      let col := i % e.vl
      match sorted[i]? with
      | some k =>
        putNode x (f.vd.toNat + r) 32 col (if k.pois then none else some k.bits)
        putNode x (f.vs1.toNat + r) 32 col (if k.pois then none else some k.idx)
      | none =>
        unsourced x f (f.vd.toNat + r) 32 col
        unsourced x f (f.vs1.toNat + r) 32 col

/-- A whole row with its marks; its destination's `prows` bit is set when it carries one. -/
def Ctx.copyRow (c : Ctx) (src dst : Nat) : Ctx :=
  let w := c.row src
  { c.setRow dst w with prows := if w.pois = 0 then c.prows else c.prows ||| (1#64 <<< (dst / 4)) }

/-- Active elements (R177). -/
def vmvDef (f : Op64) : QueueDef where
  check := fun _ c => arithCheck 0x7B f rawTy c
  body := fun x e => do
    let ew := (opTy e.vt f).width
    moveLoop x e f ew fun c _ r col => moved (operandA c f ew r col)

/-- Whole rows, tail and marks included (R177). -/
def vmvRowDef (f : Op64) : QueueDef where
  check := fun _ c => arithCheck 0x7B f rawTy c
  body := fun x e =>
    if f.vd = f.vs2 then pure ()
    else each (List.range e.vt.size) fun r => updCtx x fun c => c.copyRow (f.vs2.toNat + r) (f.vd.toNat + r)

/-! ## Meanings -/

def execVperm (f : Op64) : State → Out := runDef (.vperm f) f (vpermDef f)
def execVslup (f : Op64) : State → Out := runDef (.vslup f) f (vslupDef f)
def execVsldn (f : Op64) : State → Out := runDef (.vsldn f) f (vsldnDef f)
def execVreshape (f : Op64) : State → Out := runDef (.vreshape f) f (vreshapeDef f)
def execVcompr (f : Op64) : State → Out := runDef (.vcompr f) f (vcomprDef f)
def execVexpnd (f : Op64) : State → Out := runDef (.vexpnd f) f (vexpndDef f)
def execVred (f : Op64) : State → Out := runDef (.vred f) f (vredDef f)
def execVredx (f : Op64) : State → Out := runDef (.vredx f) f (vredxDef f)
def execVscan (f : Op64) : State → Out := runDef (.vscan f) f (vscanDef f)
def execVext (f : Op64) : State → Out := runDef (.vext f) f (vextDef f)
def execVsortk (f : Op64) : State → Out := runDef (.vsortk f) f (vsortkDef f)
def execVmv (f : Op64) : State → Out := runDef (.vmv f) f (vmvDef f)
def execVmvRow (f : Op64) : State → Out := runDef (.vmvRow f) f (vmvRowDef f)

end Sys2Proof.Machine
end

