-- ==== Sys2Proof/Machine/VecConfig.lean ====
section
/-! DEFINITION. Configuration and hardware loops, executed by the front end (R77-R83, R136-R140). -/

namespace Sys2Proof.Machine

/-- min(request, VLMAX) as a column count. -/
def clampLen (w : Word) (m : Nat) : Nat := Nat.min w.toNat m

def execVsetvl (f : Op64) : State → Out :=
  front fun x c => do
    let n := clampLen (c.rg (gpr f.vs1)) c.vt.vlmax
    updCtx x fun k => { k.wg (gpr f.vd) (BitVec.ofNat 64 n) with vl := n }
    pure (c.after (opBytes f))

/-- The image of a `vsettype`: a register, or vs1 and vs2 (R138). -/
def typeImage (c : Ctx) (f : Op64) : Nat :=
  if f.fn3 = 0 then (c.rg (gpr f.vs1)).toNat else f.vs1.toNat + 256 * f.vs2.toNat

def execVsettype (f : Op64) : State → Out :=
  front fun x c => do
    match vtypeOf (typeImage c f) with
    | none => raise (dynIllegal c 0x01 f 6)
    | some t =>
      updCtx x fun k => { k with vt := t, vl := Nat.min k.vl t.vlmax }
      pure (c.after (opBytes f))

def execVloop (f : Op64) : State → Out :=
  front fun x c => do
    updCtx x fun k => { k with vrem := c.rg (gpr f.vs1), vsc := { sp := f.fn4 == 1 }, loopNo := k.loopNo + 1, inStrip := false }
    pure (c.after (opBytes f))

def execVstrip (f : Op64) : State → Out :=
  front fun x c => do
    let n := clampLen c.vrem c.vt.vlmax
    updCtx x fun k => { k.wg (gpr f.vd) (BitVec.ofNat 64 n) with vl := n, inStrip := k.vsc.sp }
    pure (c.after (opBytes f))

/-- The branch offset of a 64-bit branch, bits [30:18]. -/
def off64 (f : Op64) : BitVec 13 := f.vs2.setWidth 5 ++ f.vs1

/-- The target of a 64-bit branch, relative to the instruction or its prefix (R139). -/
def Ctx.target64 (c : Ctx) (f : Op64) : Word := c.pc + ((off64 f).signExtend 64 <<< 2)

def execVnext (f : Op64) : State → Out :=
  front fun x c => do
    let rem := c.vrem - BitVec.ofNat 64 (Nat.min c.vl c.vrem.toNat)
    updCtx x fun k => { k with vrem := rem, vsc := { k.vsc with n := k.vsc.n + 1, nd := false }, inStrip := false }
    pure (if rem = 0 then c.after (opBytes f) else c.target64 f)

/-- What `vget` reads (R140). -/
def vgetValue (c : Ctx) (sel : Nat) : Word :=
  match sel with
  | 0 => BitVec.ofNat 64 c.vl
  | 1 => c.vrem
  | 2 => c.vsc.word
  | _ => BitVec.ofNat 64 c.vt.vlmax

def execVget (f : Op64) : State → Out :=
  front fun x c => do
    updCtx x fun k => k.wg (gpr f.vd) (vgetValue k f.fn4.toNat)
    pure (c.after (opBytes f))

end Sys2Proof.Machine
end

