-- ==== Sys2Proof/Machine/Masks.lean ====
section
/-! DEFINITION. Mask logic, the mask stack, and branches on it (R178-R184). -/

namespace Sys2Proof.Machine

/-- The mask of the columns below `vl`. -/
def lowCols (vl : Nat) : BitVec 2048 := BitVec.ofNat 2048 (2 ^ vl - 1)

/-- Columns below `vl` are replaced, others kept (R180, R183). -/
def keepAbove (vl : Nat) (old new : BitVec 2048) : BitVec 2048 := (old &&& ~~~(lowCols vl)) ||| (new &&& lowCols vl)

/-- A mask instruction of the vector queue; it ignores `vstart` and leaves it 0 (R184). -/
def maskDef (f : Ctx → Entry → Ctx) : QueueDef where
  check := fun _ _ => pure ()
  body := fun x e => updCtx x fun c => f c e

/-- Bit 2a + b of the truth table, in every column. -/
def truth (t : Nat) (a b : BitVec 2048) : BitVec 2048 :=
  (if t.testBit 0 then ~~~a &&& ~~~b else 0) ||| (if t.testBit 1 then ~~~a &&& b else 0) |||
  (if t.testBit 2 then a &&& ~~~b else 0) ||| (if t.testBit 3 then a &&& b else 0)

def mlogDef (f : Op64) : QueueDef := maskDef fun c e =>
  c.setMask f.vd.toNat (keepAbove e.vl (c.mask f.vd.toNat) (truth f.fn4.toNat (c.mask f.vs1.toNat) (c.mask f.vs2.toNat)))

def mpopcDef (f : Op64) : QueueDef := maskDef fun c e =>
  c.wg (gpr f.vd) (BitVec.ofNat 64 (popCount (c.mask f.vs2.toNat).toNat e.vl))

/-- The lowest set column below `vl`, or -1. -/
def firstSet (m : BitVec 2048) (vl : Nat) : Word :=
  match (List.range vl).find? fun i => m.getLsbD i with
  | some i => BitVec.ofNat 64 i
  | none => BitVec.allOnes 64

def mfirstDef (f : Op64) : QueueDef := maskDef fun c e => c.wg (gpr f.vd) (firstSet (c.mask f.vs2.toNat) e.vl)

/-! ## The mask stack (R178, R179) -/

/-- MSTACK with the side of R179. -/
def mstackTrap (under : Bool) : TrapInfo := { cause := 0x0B, info := if under then 1 else 0 }

/-- minv and mpop need an entry. -/
def needEntry (c : Ctx) : M Unit := if c.depth = 0 then raise (mstackTrap true) else pure ()

def mpushDef (f : Op64) : QueueDef where
  check := fun _ c => if c.depth = 16 then raise (mstackTrap false) else pure ()
  body := fun x _ => updCtx x fun c => { c with stack := (c.top &&& c.mask f.vs2.toNat) :: c.stack }
/-- T := P & ~T, with P the entry below the top or all ones. -/
def minvDef (_f : Op64) : QueueDef where
  check := fun _ c => needEntry c
  body := fun x _ => updCtx x fun c => { c with stack := match c.stack with
    | t :: p :: r => (p &&& ~~~t) :: p :: r
    | [t] => [~~~t]
    | [] => [] }
def mpopDef (_f : Op64) : QueueDef where
  check := fun _ c => needEntry c
  body := fun x _ => updCtx x fun c => { c with stack := c.stack.tail }

/-- A branch on the top, resolved when every earlier vector instruction has completed (R182); as a mask instruction it leaves
`vstart` 0. -/
def topBranch (f : Op64) (whenSet : Bool) : State → Out :=
  front fun x c => do
    if c.queue.any fun e => !e.parked && decide (e.queue = .vector) then stall
    if c.level = .u then updCtx x fun c => { c with vstart := 0 }
    pure (if (c.top &&& lowCols c.vl != 0) = whenSet then c.target64 f else c.after (opBytes f))
def execBempty (f : Op64) : State → Out := topBranch f false
def execBany (f : Op64) : State → Out := topBranch f true

/-- fn4 0 sets, 1 clears, 2 sets the first g[vs1] columns (R180). -/
def msetDef (f : Op64) : QueueDef := maskDef fun c e =>
  let new : BitVec 2048 := match f.fn4.toNat with
    | 0 => BitVec.allOnes 2048
    | 1 => 0
    | _ => lowCols (Nat.min e.sa.toNat 2048)
  c.setMask f.vd.toNat (keepAbove e.vl (c.mask f.vd.toNat) new)

/-! ## The poison mask (R183) -/

/-- Waits until every earlier vector and matrix instruction has completed. -/
def waitPoison (c : Ctx) : M Unit := if c.queue.any fun e => !e.parked && decide (e.queue ≠ .copy) then stall else pure ()

def pmrdDef (f : Op64) : QueueDef where
  check := fun _ c => waitPoison c
  body := fun x e => updCtx x fun c => c.setMask f.vd.toNat (keepAbove e.vl (c.mask f.vd.toNat) c.pm)
def pmclrDef (_f : Op64) : QueueDef where
  check := fun _ c => waitPoison c
  body := fun x _ => updCtx x fun c => { c with pm := 0, prows := 0 }

/-! ## Meanings -/

def execMlog (f : Op64) : State → Out := runDef (.mlog f) f (mlogDef f)
def execMpopc (f : Op64) : State → Out := runDef (.mpopc f) f (mpopcDef f)
def execMfirst (f : Op64) : State → Out := runDef (.mfirst f) f (mfirstDef f)
def execMpush (f : Op64) : State → Out := runDef (.mpush f) f (mpushDef f)
def execMinv (f : Op64) : State → Out := runDef (.minv f) f (minvDef f)
def execMpop (f : Op64) : State → Out := runDef (.mpop f) f (mpopDef f)
def execMset (f : Op64) : State → Out := runDef (.mset f) f (msetDef f)
def execPmrd (f : Op64) : State → Out := runDef (.pmrd f) f (pmrdDef f)
def execPmclr (f : Op64) : State → Out := runDef (.pmclr f) f (pmclrDef f)

end Sys2Proof.Machine
end

