-- ==== Sys2Proof/Machine/VecMemory.lean ====
section
/-! DEFINITION. Vector memory access (R186-R202). Differentiable regions take part through `Machine/Reverse.lean`. -/

namespace Sys2Proof.Machine

/-! ## Element addresses (R189, R190) -/

/-- The address forms of R189. -/
inductive AddrForm where
  | unit | stride | row | index
  deriving DecidableEq, Repr

/-- The bytes that one element's access moves; a q4 element lies in one byte. -/
def memBytes (ew : Nat) : Nat := if ew < 8 then 1 else ew / 8

/-- The address of element `i` and whether it is the upper nibble of its byte; none when its index is poisoned. -/
def memElem (form : AddrForm) (f : Op64) (e : Entry) (c : Ctx) (i : Nat) : Option (Word × Bool) :=
  let ew := e.vt.bitsW
  let r := i / e.vl
  let col := i % e.vl
  let at_ (base : Word) (n : Nat) : Word × Bool :=
    if ew = 4 then (base + BitVec.ofNat 64 (n / 2), n % 2 == 1) else (base + BitVec.ofNat 64 (n * (ew / 8)), false)
  match form with
  | .unit => some (at_ e.sa i)
  | .stride => some (e.sa + BitVec.ofNat 64 i * e.sb, false)
  | .row => some (at_ (e.sa + BitVec.ofNat 64 r * e.sb) col)
  | .index =>
    let v := c.elem f.vs2.toNat ew r col
    if v.2 then none else some (at_ e.sa v.1)

/-- MISALIGN at an element (R190). -/
def elemAlign (form : AddrForm) (e : Entry) (i : Nat) (va : Word) : M Unit :=
  let bad := if e.vt.bitsW = 4 then decide (form = .row) && decide (e.vl ≤ i) && e.sb.getLsbD 0
    else va.toNat % memBytes e.vt.bitsW != 0
  if bad then raise (misalign va) else pure ()

/-- A trap of element `i` names it (R193); `start` is the restart point where it is not the element. -/
def atElem {α : Type} (e : Entry) (i : Nat) (start : Option Nat) (m : M α) : M α := fun s =>
  match m s with
  | .error (.trap t) s1 =>
    .error (.trap { t with elem := i, row := i / e.vl, start := match t.start with | some k => some k | none => start }) s1
  | r => r

/-- The loop of R191: active elements act, inactive ones follow. -/
def memLoop (x : CtxNo) (e : Entry) (f : Op64) (act idle : Nat → M Unit) : M Unit :=
  each (e.elems e.vt.size) fun i => do
    if (effMask (← ctxM x) f).getLsbD (i % e.vl) then atElem e i none (act i) else idle i

/-- An inactive element of a load: 0 under the zero policy. -/
def idleLoad (x : CtxNo) (e : Entry) (f : Op64) (i : Nat) : M Unit :=
  if opPol f then updCtx x fun c => c.putElem (f.vd.toNat + i / e.vl) e.vt.bitsW (i % e.vl) 0 else pure ()

/-- Puts what a load gives into its destination element (R191). -/
def putLoaded (x : CtxNo) (e : Entry) (f : Op64) (i : Nat) (v : Nat × Bool) : M Unit :=
  updCtx x fun c =>
    if v.2 then c.markPoison (f.vd.toNat + i / e.vl) e.vt.bitsW (i % e.vl)
    else c.putElem (f.vd.toNat + i / e.vl) e.vt.bitsW (i % e.vl) v.1

/-- The nibble or the value of an element in what its access read. -/
def elemOf (ew : Nat) (odd : Bool) (v : Nat) : Nat := if ew = 4 then (if odd then v / 16 else v % 16) else v

/-- A read by an instruction of the vector queue; that of an acquire form learns what its word's releases cover (R200, R251). -/
def vectorLoad (x : CtxNo) (e : Entry) (f : Op64) (va : Word) (n : Nat) : M (Nat × Bool) := do
  let p ← place (entryAgent x (← ctxM x) e) (.core (coreOf x)) .read false va
  let s ← get
  let a := s.entryAccess x e f.cls4.toNat
  let r := s.readBy x p n a
  set (if f.fn4 = 1 then r.1.learnWord x f.fn3.toNat p.word a else r.1)
  pure r.2

/-- A write by an instruction of the vector queue, one of its one store; that of a release form releases at its word (R200, R251). -/
def State.vectorStore (s : State) (x : CtxNo) (e : Entry) (f : Op64) (p : Place) (n v : Nat) (pois : Bool) : State :=
  let a := s.entryAccess x e f.cls4.toNat
  let s1 := s.writePlace x p n v pois a
  if f.fn4 = 2 then s1.publishWord x f.fn3.toNat p.word a e.past else s1

/-- One plain active element of a load. -/
def loadElem (form : AddrForm) (x : CtxNo) (e : Entry) (f : Op64) (i : Nat) : M Unit := do
  let c ← ctxM x
  match memElem form f e c i with
  | none => putLoaded x e f i (0, true)
  | some (va, odd) =>
    elemAlign form e i va
    let v ← vectorLoad x e f va (memBytes e.vt.bitsW)
    putLoaded x e f i (elemOf e.vt.bitsW odd v.1, v.2)

/-- One plain active element of a store: a q4 element is merged into its byte at the L1 (R192). -/
def storeElem (form : AddrForm) (x : CtxNo) (e : Entry) (f : Op64) (i : Nat) : M Unit := do
  let c ← ctxM x
  match memElem form f e c i with
  | none => pure ()
  | some (va, odd) =>
    elemAlign form e i va
    let v := c.elem (f.vd.toNat) e.vt.bitsW (i / e.vl) (i % e.vl)
    let p ← place (entryAgent x c e) (.core (coreOf x)) .write false va
    if e.vt.bitsW = 4 then
      let (s, old) := (← get).readPlace (coreOf x) p 1
      let b := if odd then old.1 % 16 + 16 * v.1 else old.1 / 16 * 16 + v.1
      set (s.vectorStore x e f p 1 b v.2)
    else upd fun s => s.vectorStore x e f p (memBytes e.vt.bitsW) v.1 v.2

/-! ## Acquire and release forms (R200, R254) -/

/-- An acquire form drops stale copies before it reads. -/
def acqForm (x : CtxNo) (f : Op64) : M Unit := if f.fn4 = 1 then acquireM x f.fn3.toNat else pure ()
/-- A release form waits and writes back before it writes. -/
def relForm (x : CtxNo) (e : Entry) (f : Op64) : M Unit := do
  if f.fn4 = 2 then
    remoteWait x f.fn3.toNat
    upd fun s => s.release x f.fn3.toNat (s.entryAccess x e f.cls4.toNat) e.past
/-- What a release form wrote reaches the level that the scope's agents share. -/
def publish (x : CtxNo) (f : Op64) : M Unit :=
  if f.fn4 = 2 then upd fun s => s.writeBacks x (scopeRank f.fn3.toNat) else pure ()

/-! ## Checks (R188) -/

/-- Every valid type but q4. -/
def noQ4 : Ty → Bool := fun t => decide (t ≠ .q4)

/-- Alignment, the accepted types, and for `one` the limit G = 1. -/
def memCheck (major : Nat) (f : Op64) (accepts : Ty → Bool) (one : Bool) (c : Ctx) : M Unit := do
  checkAlign c major f c.vt.size
  if !(accepts c.vt.ty) then illegalM c major f 6
  if one = true ∧ c.vt.size ≠ 1 then illegalM c major f 6

/-! ## Fault-only-first (R194) -/

/-- The faults that end a `vldff` without a trap: PAGE but for R190's, PROT, VIOL. -/
def softFault (t : TrapInfo) : Bool :=
  (t.cause == 0x06 && decide (bitsOf 15 8 t.info.toNat ≠ 0x06)) || t.cause == 0x07 || t.cause == 0x08

def vldffDef (f : Op64) : QueueDef where
  check := fun _ c => memCheck 0x65 f rawTy true c
  body := fun x e => do
    acqForm x f
    let run := memLoop x e f (loadElem .unit x e f) (idleLoad x e f)
    if e.vstart ≠ 0 then run
    else fun s =>
      match run s with
      | .error (.trap t) s1 =>
        if t.elem ≠ 0 ∧ softFault t = true then .ok () (s1.modCtx x fun c => { c with vl := t.elem })
        else .error (.trap t) s1
      | r => r

/-! ## Scale registers (R195) -/

/-- One transfer per scale byte in rising addresses; the entry restarts as a whole. DESIGN CHOICE: a fault has `trow` 0, since R195
names `taddr` and `telem` alone. -/
def scaleLoop (e : Entry) (act : (byte : Nat) → Word → M Unit) : M Unit :=
  let nb := ceilDiv e.vl 32
  let w := e.vt.vlmax / 32
  each (List.range (e.vt.size * nb)) fun n =>
    let a : Word := e.sa + BitVec.ofNat 64 n
    fun s => match act (n / nb * w + n % nb) a s with
      | .error (.trap t) s1 => .error (.trap { t with elem := n }) s1
      | r => r

def vldkDef (f : Op64) : QueueDef where
  check := fun _ c => memCheck 0x62 f rawTy false c
  body := fun x e => do
    acqForm x f
    scaleLoop e fun b a => do
      let (v, bad) ← vectorLoad x e f a 1
      updCtx x fun c => c.putScale f.vd.toNat b (if bad then 0xFF else v)
def vstkDef (f : Op64) : QueueDef where
  check := fun _ c => memCheck 0x63 f rawTy false c
  body := fun x e => do
    relForm x e f
    scaleLoop e fun b a => do
      let c ← ctxM x
      let p ← place (entryAgent x c e) (.core (coreOf x)) .write false a
      upd fun s => s.vectorStore x e f p 1 ((c.scale f.vd.toNat >>> (8 * b)).toNat % 256) false
    publish x f

/-! ## Atomics (R196, R316, R362, R363) -/

/-- The operation of a `vamo`; minimum and maximum follow the kind. -/
def vamoOp (f : Op64) (ty : Ty) : AtomOp :=
  match f.fn4.toNat % 8 with
  | 0 => .add
  | 1 => .fadd
  | 2 => .bfadd
  | 3 => if ty.signed then .min else .minu
  | 4 => if ty.signed then .max else .maxu
  | 5 => .and
  | 6 => .or
  | _ => .xor

/-- The types of R188. -/
def vamoTy (f : Op64) (ty : Ty) : Bool :=
  match f.fn4.toNat % 8 with
  | 1 => ty == .flt .fp32
  | 2 => ty == .flt .bf16
  | _ => intTy ty && decide (32 ≤ ty.width)

/-- Splits atomics into packets: those of one line on an MS page travel together, others alone (R362). -/
def packets : List Atom → List (List Atom)
  | [] => []
  | a :: t =>
    let rest := packets t
    if a.home = .unit then
      match rest.findIdx? fun p => p.any fun b => decide (b.home = .unit ∧ b.addr / 64 = a.addr / 64) with
      | some k => (a :: rest.getD k []) :: rest.eraseIdx k
      | none => [a] :: rest
    else [a] :: rest

/-- Posts the atomics of one instruction; `rel` is the release that they are. -/
def postAtoms (x : CtxNo) (cls scope : Nat) (adj : Bool) (rel : Option Release) (atoms : List Atom) : M Unit :=
  each (packets atoms) fun p => upd fun s => s.post x cls scope true adj p rel

/-- One atomic of an element: its line is purged; at a window address, or when it returns, it performs at once, and otherwise it
joins the atomics to post. -/
def elemAtom (x : CtxNo) (p : Place) (size : Nat) (op : AtomOp) (v : Nat) (pois : Bool) : M Atom := do
  upd fun s => s.purgePlace x p
  let h := p.home
  pure ⟨h.1, h.2, size, op, v, pois⟩

/-- Performs an atomic of an entry in a class at its home: the old value and its poison. -/
def performAtom (x : CtxNo) (e : Entry) (cls : Nat) (a : Atom) : M (Nat × Bool) := do
  let s ← get
  let r := s.atomBy x a (s.entryAccess x e cls)
  set r.1
  pure (r.2.1, r.2.2.1)

/-- True in the quad-store window. -/
def Place.isWindow : Place → Bool
  | .window _ _ => true
  | .phys _ _ => false

/-- One active element of a `vamo`: the atomic that is to be posted, if any. -/
def vamoElem (f : Op64) (x : CtxNo) (e : Entry) (i : Nat) : M (List Atom) := do
  let c ← ctxM x
  let ty := e.vt.ty
  let returns := !f.fn4.getLsbD 3
  let d := c.elem f.vd.toNat ty.width (i / e.vl) (i % e.vl)
  match memElem .index f e c i, d.2 with
  | some (va, _), false =>
    elemAlign .index e i va
    let p ← place (entryAgent x c e) (.core (coreOf x)) .atomic false va
    let a ← elemAtom x p (ty.width / 8) (vamoOp f ty) d.1 false
    if returns then
      putLoaded x e f i (← performAtom x e f.cls4.toNat a)
      pure []
    else if p.isWindow then
      let _ ← performAtom x e f.cls4.toNat a
      pure []
    else pure [a]
  | _, _ =>
    if returns then putLoaded x e f i (0, true)
    pure []

/-- The elements from a list on, with the atomics collected; a trap posts those of the lower elements (R193). -/
def vamoLoop (f : Op64) (x : CtxNo) (e : Entry) : List Nat → List Atom → M Unit
  | [], acc => postAtoms x f.cls4.toNat f.fn3.toNat false none acc
  | i :: t, acc => do
    let one : M (List Atom) := do
      if (effMask (← ctxM x) f).getLsbD (i % e.vl) then atElem e i none (vamoElem f x e i)
      else
        if f.fn4.getLsbD 3 then pure () else idleLoad x e f i
        pure []
    let more ← fun s => match one s with
      | .error st s1 => match postAtoms x f.cls4.toNat f.fn3.toNat false none acc s1 with
        | .ok _ s2 => .error st s2
        | .error _ s2 => .error st s2
      | r => r
    vamoLoop f x e t (acc ++ more)

def vamoDef (f : Op64) : QueueDef where
  check := fun _ c => memCheck 0x64 f (vamoTy f) false c
  body := fun x e => vamoLoop f x e (e.elems e.vt.size) []

/-! ## Gather-linked and scatter-conditional (R197-R199, R343) -/

/-- The place of a linked access: no window, and no MS or durable page. -/
def linkedPlace (ag : Agent) (acc : Acc) (va : Word) : M Place := do
  let p ← place { ag with noWindow := true } (.core (coreOf ag.x)) acc false va
  match p with
  | .phys _ pte => if pteMs pte || pteD pte then raise (pageTrap va acc 0 0x16 false) else pure p
  | .window _ _ => pure p

/-- Sets a context's link on a line: the newest entry of its set, whose ninth leaves (R343). -/
def setLink (x : CtxNo) (ln : Nat) (links : List (Nat × CtxNo)) : List (Nat × CtxNo) :=
  let l := (ln, x) :: links.filter fun e => e.1 != ln || e.2 != x
  if l.length ≤ 8 then l
  else
    let same := l.filter fun e => decide (homeUnit (64 * e.1) = homeUnit (64 * ln)) && Config.linkSet e.1 % 256 == Config.linkSet ln % 256
    match same[8]? with
    | some old => l.filter fun e => e != old
    | none => l

/-- One active element of a `vgld`: it reads at home and sets the link of its line. -/
def gatherElem (f : Op64) (x : CtxNo) (e : Entry) (i : Nat) : M Unit := do
  let c ← ctxM x
  match memElem .index f e c i with
  | none => putLoaded x e f i (0, true)
  | some (va, _) =>
    elemAlign .index e i va
    match ← linkedPlace (entryAgent x c e) .read va with
    | .window _ _ => pure ()
    | .phys pa _ =>
      let s0 ← get
      let a := s0.entryAccess x e f.cls4.toNat
      let s := ((((s0.purge x (pa / 64)).reachHome (pa / 64)).sawWord x (physWord pa) a).access x a)
      let s1 := if f.fn3 ≠ 0 then s.learnWord x f.fn3.toNat (physWord pa) a else s
      set (s1.modDie (homeDie pa) fun d => { d with links := setLink x (pa / 64) d.links })
      putLoaded x e f i (s.homeRead pa (memBytes e.vt.bitsW))

def vgldDef (f : Op64) : QueueDef where
  check := fun _ c => memCheck 0x60 f noQ4 true c
  body := fun x e => do
    memLoop x e f (gatherElem f x e) (idleLoad x e f)
    if f.fn3 ≠ 0 then acquireM x f.fn3.toNat

/-- An active element of a `vscc` with its physical address, by line. -/
def scatterCheck (f : Op64) (x : CtxNo) (e : Entry) : List Nat → M (List (Nat × Nat))
  | [] => pure []
  | i :: t => do
    let c ← ctxM x
    if (effMask c f).getLsbD i then
      match memElem .index f e c i with
      | none => scatterCheck f x e t
      | some (va, _) => do
        let p ← atElem e i (some 0) (do
          elemAlign .index e i va
          linkedPlace (entryAgent x c e) .write va)
        let rest ← scatterCheck f x e t
        match p with
        | .phys pa _ => pure ((i, pa) :: rest)
        | .window _ _ => pure rest
    else scatterCheck f x e t

/-- One line of a `vscc`: its elements are written when the context's link holds (R198). -/
def scatterLine (f : Op64) (x : CtxNo) (e : Entry) (elems : List (Nat × Nat)) (ln : Nat) : M (List Nat) := do
  let mine := elems.filter fun v => v.2 / 64 == ln
  if ((← get).die (homeDie (64 * ln))).links.contains (ln, x) then
    upd fun s => s.purge x ln
    let c ← ctxM x
    each mine fun v => upd fun s =>
      let d := c.elem f.vd.toNat e.vt.bitsW 0 v.1
      let a := s.entryAccess x e f.cls4.toNat
      let s1 := (((s.homePut (some x) v.2 (memBytes e.vt.bitsW) d.1 d.2).wroteWord x (physWord v.2) a).access x a)
      if f.fn3 ≠ 0 then s1.publishWord x f.fn3.toNat (physWord v.2) a e.past else s1
    if f.fn3 ≠ 0 then upd fun s => s.wakeLine x ln
    pure (mine.map fun v => v.1)
  else pure []

/-- The columns that a `vscc` wrote, over its lines in the order of their first elements. -/
def scatterLines (f : Op64) (x : CtxNo) (e : Entry) (elems : List (Nat × Nat)) : List Nat → M (List Nat)
  | [] => pure []
  | ln :: t => do
    let a ← scatterLine f x e elems ln
    let b ← scatterLines f x e elems t
    pure (a ++ b)

def vsccDef (f : Op64) : QueueDef where
  check := fun _ c => memCheck 0x61 f noQ4 true c
  body := fun x e => do
    let elems ← scatterCheck f x e (List.range e.vl)
    remoteWait x f.fn3.toNat
    upd fun s => s.release x f.fn3.toNat (s.entryAccess x e f.cls4.toNat) e.past
    let done ← scatterLines f x e elems ((elems.map fun v => v.2 / 64).eraseDups)
    updCtx x fun c =>
      let m := f.fn4.toNat % 8
      let eff := effMask c f
      let new := (List.range e.vl).foldl (fun (w : BitVec 2048) col =>
        if eff.getLsbD col || opPol f then
          (if done.contains col then w ||| (1#2048 <<< col) else w &&& ~~~(1#2048 <<< col))
        else w) (c.mask m)
      c.setMask m new

/-! ## Meanings -/

def execVldff (f : Op64) : State → Out := runDef (.vldff f) f (vldffDef f)
def execVldk (f : Op64) : State → Out := runDef (.vldk f) f (vldkDef f)
def execVstk (f : Op64) : State → Out := runDef (.vstk f) f (vstkDef f)
def execVamo (f : Op64) : State → Out := runDef (.vamo f) f (vamoDef f)
def execVgld (f : Op64) : State → Out := runDef (.vgld f) f (vgldDef f)
def execVscc (f : Op64) : State → Out := runDef (.vscc f) f (vsccDef f)

end Sys2Proof.Machine
end

