-- ==== Sys2Proof/Machine/Reverse.lean ====
section
/-! DEFINITION. Differentiable regions and reverse mode: the loads and stores that modes invert, the region table, the galley, and
explicit adjoint access (R264-R279). -/

namespace Sys2Proof.Machine

/-! ## Regions (R264, R265) -/

/-- The bytes of a primal element. -/
def Region.elemBytes (r : Region) : Nat :=
  match r.type.toNat with
  | 0 => 4
  | 1 => 2
  | _ => 1
/-- The element type of a region. -/
def Region.ty (r : Region) : Ty :=
  match r.type.toNat with
  | 0 => .flt .fp32
  | 1 => .flt .bf16
  | 2 => .flt .e4m3
  | _ => .flt .e5m2
/-- The bytes of the adjoint range. -/
def Region.adjLen (r : Region) : Nat := r.len.toNat / r.elemBytes * 4
/-- An address lies in the primal range. -/
def Region.holds (r : Region) (va : Word) : Bool := decide (r.base.toNat ≤ va.toNat ∧ va.toNat < r.base.toNat + r.len.toNat)
/-- The adjoint cell of a primal address. -/
def Region.cell (r : Region) (va : Word) : Word :=
  r.adj + BitVec.ofNat 64 ((va.toNat - r.base.toNat) / r.elemBytes * 4)

/-- An entry of an asid's region table. -/
def State.region (s : State) (asid : BitVec 16) (k : Nat) : Option Region := Tab.find s.regions (asid.toNat * 64 + k)
/-- The valid entry whose primal range holds an address. -/
def State.regionAt (s : State) (asid : BitVec 16) (va : Word) : Option (Nat × Region) :=
  (List.range 64).findSome? fun k =>
    match s.region asid k with
    | some r => if r.holds va then some (k, r) else none
    | none => none

/-! ## The galley (R271) -/

/-- Entries that a context's part of the 16 KiB galley buffer holds. -/
def galleyBuffer : Nat := 32

/-- A granule of the galley entry at an address: from the buffer, or from memory as it stands. -/
def galleyRead (ag : Agent) (a : Access) (entry : Word) (g : Nat) : M (Nat × Bool) := do
  match ((← get).ctx ag.x).galBuf.find? fun e => e.addr == entry with
  | some e => pure (ofLe ((e.bytes.drop (8 * g)).take 8), e.pois.contains g)
  | none => loadVa ag (entry + BitVec.ofNat 64 (8 * g)) 8 a

/-- Pushes an entry of 16 doublewords at `galptr`; a full buffer spills its oldest entry. -/
def galleyPush (ag : Agent) (words : List Nat) (pois : List Nat) : M Unit := upd fun s =>
  let c := s.ctx ag.x
  let e : GalleyEntry := ⟨c.galptr, words.flatMap (leBytes 8), pois⟩
  let s1 := match c.galBuf with
    | o :: t => if galleyBuffer ≤ c.galBuf.length then (State.spillOne ag s o).modCtx ag.x fun c => { c with galBuf := t } else s
    | [] => s
  s1.modCtx ag.x fun c => { c with galBuf := c.galBuf ++ [e], galptr := c.galptr + 128 }

/-- Cuts the galley at an address: buffered entries from it upward are gone. -/
def Ctx.cutGalley (c : Ctx) (p : Word) : Ctx := { c with galptr := p, galBuf := c.galBuf.filter fun e => decide (e.addr.toNat < p.toNat) }

/-- Translates an address and checks its permissions, without an access. -/
def checkVa (ag : Agent) (acc : Acc) (cell : Bool) (va : Word) : M Unit := do
  if inWindow va then pure ()
  else
    let _ ← xlate (.core (coreOf ag.x)) ag.asid ag.level acc cell va
    pure ()

/-! ## What an inverted instruction works on (R269, R270) -/

/-- An active element with an address: its index, its address, and its region. -/
structure Item where
  i : Nat
  va : Word
  reg : Option (Nat × Region)
  deriving DecidableEq, Repr

/-- The active elements that have an address, among a list of elements. -/
def items (s : State) (form : AddrForm) (f : Op64) (x : CtxNo) (e : Entry) (is : List Nat) : List Item :=
  let c := s.ctx x
  let eff := effMask c f
  is.filterMap fun i =>
    if eff.getLsbD (i % e.vl) then
      match memElem form f e c i with
      | some (va, _) => some ⟨i, va, s.regionAt e.asid va⟩
      | none => none
    else none

/-- The register type is the region's, without scales. -/
def Item.typed (e : Entry) (it : Item) : Bool :=
  match it.reg with
  | some (_, r) => decide (e.vt.ty = r.ty) && !e.vt.ks
  | none => true

/-- BADHANDLE with 0x15 at the lowest region element of another type; the instruction has done nothing. -/
def checkTypes (e : Entry) (start : Nat) (its : List Item) : M Unit :=
  match its.find? fun it => !it.typed e with
  | some it => raise { badHandle 0x15 with elem := it.i, row := it.i / e.vl, start := some start }
  | none => pure ()

/-- A primal line of a store: its number, its lowest element, its active bytes and its region. -/
structure GalLine where
  line : Nat
  low : Nat
  mask : BitVec 64
  reg : Nat
  deriving DecidableEq, Repr

/-- The line as its entry names it. -/
def GalLine.va (l : GalLine) : Word := BitVec.ofNat 64 (64 * l.line)

/-- Adds an element to the lines, in the order of the lowest elements. -/
def addLine (bytes : Nat) (ls : List GalLine) (it : Item) : List GalLine :=
  match it.reg with
  | none => ls
  | some (k, r) =>
    if r.notape then ls
    else
      let ln := it.va.toNat / 64
      let m := byteMask (it.va.toNat % 64) bytes
      if ls.any fun l => l.line == ln then ls.map fun l => if l.line = ln then { l with mask := l.mask ||| m } else l
      else ls ++ [⟨ln, it.i, m, k⟩]

/-- The lines of a store (R272). -/
def storeLines (e : Entry) (its : List Item) : List GalLine := its.foldl (addLine (memBytes e.vt.bitsW)) []

/-- The checks of every active element of an inverted store: its primal address as a write, in REV its cell as an atomic. -/
def checkItems (form : AddrForm) (ag : Agent) (e : Entry) (rev : Bool) (its : List Item) : M Unit :=
  each its fun it => atElem e it.i (some 0) do
    elemAlign form e it.i it.va
    checkVa ag .write false it.va
    match it.reg with
    | some (_, r) => if rev then checkVa ag .atomic true (r.cell it.va) else pure ()
    | none => pure ()

/-! ## The inverted FWD store (R272, R275) -/

/-- The old bytes of a line under its mask, by granule, as the context's load reads them. -/
def oldBytes (ag : Agent) (a : Access) (l : GalLine) : (g : Nat) → M (List (Nat × Bool))
  | 0 => pure []
  | n + 1 => do
    let t ← oldBytes ag a l n
    let m := (l.mask >>> (8 * n)).setWidth 8
    if m = 0 then pure (t ++ [(0, false)])
    else
      let v ← loadVa ag (l.va + BitVec.ofNat 64 (8 * n)) 8 a
      let keep := (List.range 8).foldl (fun a i => if m.getLsbD i then a + v.1 / 256 ^ i % 256 * 256 ^ i else a) 0
      pure (t ++ [(keep, v.2)])

/-- The old bytes of every line. -/
def allOld (ag : Agent) (a : Access) (e : Entry) : List GalLine → M (List (GalLine × List (Nat × Bool)))
  | [] => pure []
  | l :: t => do
    let o ← atElem e l.low (some 0) (oldBytes ag a l 8)
    let r ← allOld ag a e t
    pure ((l, o) :: r)

/-- Translates the galley entries that a store will push. -/
def checkEntries (ag : Agent) (e : Entry) (p : Word) : List GalLine → M Unit
  | [] => pure ()
  | l :: t => do
    atElem e l.low (some 0) (checkVa ag .write false p)
    checkEntries ag e (p + 128) t

/-- GALLEY_OVF when `n` entries do not fit (R272). -/
def galleyRoom (c : Ctx) (n : Nat) : M Unit :=
  if c.gallim.toNat < c.galptr.toNat + 128 * n then
    raise { cause := 0x0C, addr := c.galptr, info := BitVec.ofNat 64 (128 * n) }
  else pure ()

def fwdStore (form : AddrForm) (x : CtxNo) (e : Entry) (f : Op64) (its : List Item) : M Unit := do
  let c ← ctxM x
  let ag := entryAgent x c e
  checkTypes e 0 its
  checkItems form ag e false its
  let ls := storeLines e its
  match ls with
  | [] => pure ()
  | l :: _ =>
    atElem e l.low (some 0) (galleyRoom c ls.length)
    checkEntries ag e c.galptr ls
    let old ← allOld ag ((← get).entryAccess x e f.cls4.toNat) e ls
    each old fun p =>
      galleyPush ag ([64 * p.1.line + 1, p.1.mask.toNat, p.1.reg, 0, 0, 0, 0, 0] ++ p.2.map fun v => v.1)
        (((List.range 8).filter fun g => (p.2.getD g (0, false)).2).map fun g => g + 8)
  each its fun it => atElem e it.i (some 0) (storeElem form x e f it.i)

/-! ## The inverted REV load (R273) -/

/-- One accumulation: posted, or at a window address at once (R316). A poisoned register element writes the poison code. -/
def accumulate (x : CtxNo) (e : Entry) (f : Op64) (it : Item) (r : Region) : M Unit := do
  let c ← ctxM x
  let ag := entryAgent x c e
  checkVa ag .read false it.va
  let p ← place ag (.core (coreOf x)) .atomic true (r.cell it.va)
  let v := c.elem f.vd.toNat e.vt.bitsW (it.i / e.vl) (it.i % e.vl)
  let wide := (roundTo .fp32 .rne false 0 (r.ty.fmt.decode v.1)).1
  let a ← elemAtom x p 4 .fadd wide v.2
  if p.isWindow then
    let _ ← performAtom x e f.cls4.toNat a
    pure ()
  else postAtoms x f.cls4.toNat 0 true none [a]

def revLoad (form : AddrForm) (x : CtxNo) (e : Entry) (f : Op64) (its : List Item) : M Unit := do
  checkTypes e e.vstart its
  let act (i : Nat) : M Unit :=
    match its.find? fun it => it.i == i with
    | some ⟨_, va, some (k, r)⟩ => do
      elemAlign form e i va
      accumulate x e f ⟨i, va, some (k, r)⟩ r
    | _ => loadElem form x e f i
  memLoop x e f act (idleLoad x e f)

/-! ## The inverted REV store (R274) -/

/-- The code of the first condition that an entry fails for its line. -/
def galleyMatch (ag : Agent) (a : Access) (entry : Word) (l : GalLine) : M (Option Nat) := do
  let head := (← galleyRead ag a entry 0).1
  if head % 4 = 2 then pure (some 2)
  else if head ≠ 64 * l.line + 1 then pure (some 3)
  else if (← galleyRead ag a entry 1).1 ≠ l.mask.toNat then pure (some 4)
  else if (← galleyRead ag a entry 2).1 ≠ l.reg then pure (some 5)
  else pure none

/-- Eight granules of an entry's old bytes. -/
def galleyOld (ag : Agent) (a : Access) (entry : Word) : (n : Nat) → M (List (Nat × Bool))
  | 0 => pure []
  | n + 1 => do
    let t ← galleyOld ag a entry n
    let v ← galleyRead ag a entry (8 + n)
    pure (t ++ [v])

/-- GALLEY_MISMATCH at a line. -/
def galleyMismatch (l : GalLine) (code : Nat) : TrapInfo := { cause := 0x0D, addr := l.va, info := BitVec.ofNat 64 code }

/-- The old bytes of the popped entries: the entry just under `top` belongs to the first line given, the store's last. -/
def popEntries (ag : Agent) (a : Access) (e : Entry) (short : Bool) (top : Word) : List GalLine → M (List (GalLine × List (Nat × Bool)))
  | [] => pure []
  | l :: t => do
    let o ← atElem e l.low (some 0) (do
      if short then raise (galleyMismatch l 1)
      match ← galleyMatch ag a (top - 128) l with
      | some code => raise (galleyMismatch l code)
      | none => galleyOld ag a (top - 128) 8)
    let r ← popEntries ag a e short (top - 128) t
    pure ((l, o) :: r)

/-- Reads the cell and clears it unless `keepadj`, in one action; the value goes to the register, rounded. -/
def readClear (x : CtxNo) (e : Entry) (f : Op64) (it : Item) (r : Region) : M Unit := do
  let c ← ctxM x
  let p ← place (entryAgent x c e) (.core (coreOf x)) .atomic true (r.cell it.va)
  let a ← elemAtom x p 4 .clear 0 false
  let (old, bad) ← (if r.keepadj then do pure ((← get).atomRead a.home a.addr 4) else performAtom x e f.cls4.toNat a)
  if bad then putLoaded x e f it.i (0, true)
  else
    let v := roundTo r.ty.fmt (opRm c f) c.vcsr.sat8 it.i (Fmt.decode .fp32 old)
    setFlags x v.2
    putLoaded x e f it.i (v.1, false)

/-- Runs one effect whose trap is delivered after the others: the first of them is remembered. -/
def later (late : Option TrapInfo) (m : M Unit) : M (Option TrapInfo) := fun s =>
  match m s with
  | .ok _ s1 => .ok late s1
  | .error (.trap t) s1 => .ok (late.or (some t)) s1
  | .error .wait s1 => .error .wait s1

/-- The effects on the elements. A VIOL of a cell is remembered and delivered after the effects. -/
def revElems (form : AddrForm) (x : CtxNo) (e : Entry) (f : Op64) (its : List Item) :
    List Nat → Option TrapInfo → M (Option TrapInfo)
  | [], late => pure late
  | i :: t, late => do
    if (effMask (← ctxM x) f).getLsbD (i % e.vl) then
      match its.find? fun it => it.i == i with
      | some ⟨_, va, some (k, r)⟩ =>
        let late' ← later late (atElem e i (some 0) (readClear x e f ⟨i, va, some (k, r)⟩ r))
        revElems form x e f its t late'
      | _ => do
        atElem e i (some 0) (storeElem form x e f i)
        revElems form x e f its t late
    else do
      idleLoad x e f i
      revElems form x e f its t late

/-- Restores a granule under the mask of its line. -/
def restoreGranule (ag : Agent) (a : Access) (l : GalLine) (g : Nat) (v : Nat × Bool) : M Unit :=
  let m := (l.mask >>> (8 * g)).setWidth 8
  let va := l.va + BitVec.ofNat 64 (8 * g)
  if m = 255#8 then storeVa ag va 8 v.1 v.2 a
  else each ((List.range 8).filter fun i => m.getLsbD i) fun i => storeVa ag (va + BitVec.ofNat 64 i) 1 (v.1 / 256 ^ i % 256) v.2 a

/-- Pops each line's entry and restores its bytes, the last line first; a VIOL is delivered after the effects. -/
def restoreLines (x : CtxNo) (ag : Agent) (a : Access) (e : Entry) : List (GalLine × List (Nat × Bool)) → Option TrapInfo → M (Option TrapInfo)
  | [], late => pure late
  | (l, old) :: t, late => do
    updCtx x fun c => c.cutGalley (c.galptr - 128)
    let late' ← foldM (List.range 8) late fun late g =>
      later late (atElem e l.low (some 0) (restoreGranule ag a l g (old.getD g (0, false))))
    restoreLines x ag a e t late'

def revStore (form : AddrForm) (x : CtxNo) (e : Entry) (f : Op64) (its : List Item) : M Unit := do
  let c ← ctxM x
  let ag := entryAgent x c e
  checkTypes e 0 its
  checkItems form ag e true its
  let ls := storeLines e its
  let short := decide ((c.galptr.toNat - c.galbase.toNat) / 128 < ls.length)
  let a := (← get).entryAccess x e f.cls4.toNat
  let old ← popEntries ag a e short c.galptr ls.reverse
  let late ← revElems form x e f its (List.range (e.vt.size * e.vl)) none
  match ← restoreLines x ag a e old late with
  | some t => raise t
  | none => pure ()

/-! ## Loads and stores that modes may invert (R191, R192, R269) -/

def loadDef (major : Nat) (f : Op64) (form : AddrForm) (accepts : Ty → Bool) : QueueDef where
  check := fun _ c => memCheck major f accepts false c
  body := fun x e => do
    acqForm x f
    let its := items (← get) form f x e (e.elems e.vt.size)
    if e.mode = .rev ∧ its.any (fun it => it.reg.isSome) = true then revLoad form x e f its
    else memLoop x e f (loadElem form x e f) (idleLoad x e f)

def storeDef (major : Nat) (f : Op64) (form : AddrForm) (accepts : Ty → Bool) : QueueDef where
  check := fun _ c => memCheck major f accepts false c
  body := fun x e => do
    relForm x e f
    let its := items (← get) form f x e (List.range (e.vt.size * e.vl))
    if e.mode ≠ .off ∧ its.any (fun it => it.reg.isSome) = true then
      if e.mode = .fwd then fwdStore form x e f its else revStore form x e f its
    else memLoop x e f (storeElem form x e f) fun _ => pure ()
    publish x f

def vldDef (f : Op64) : QueueDef := loadDef 0x58 f .unit rawTy
def vldsDef (f : Op64) : QueueDef := loadDef 0x59 f .stride noQ4
def vldxDef (f : Op64) : QueueDef := loadDef 0x5A f .index noQ4
def vldrDef (f : Op64) : QueueDef := loadDef 0x5B f .row rawTy
def vstDef (f : Op64) : QueueDef := storeDef 0x5C f .unit rawTy
def vstsDef (f : Op64) : QueueDef := storeDef 0x5D f .stride noQ4
def vstxDef (f : Op64) : QueueDef := storeDef 0x5E f .index noQ4
def vstrDef (f : Op64) : QueueDef := storeDef 0x5F f .row rawTy

/-! ## Galley instructions (R276) -/

def galsetDef (_f : Op64) : QueueDef where
  usesVstart := false
  check := fun _ _ => pure ()
  body := fun x e => do
    let c ← ctxM x
    let limitLow := if e.sa = 0 then c.galptr else e.sa
    if e.sa.toNat % 64 ≠ 0 ∨ e.sb.toNat % 64 ≠ 0 ∨ e.sb.toNat < limitLow.toNat ∨ (e.sa ≠ 0 ∧ e.mode ≠ .off) then
      raise (badHandle 0x16)
    if e.sa ≠ 0 then upd fun s => s.spillGalley x
    updCtx x fun c => if e.sa = 0 then { c with gallim := e.sb } else { c with galbase := e.sa, galptr := e.sa, gallim := e.sb }

def galmarkDef (f : Op64) : QueueDef where
  usesVstart := false
  check := fun _ _ => pure ()
  body := fun x e => do
    let c ← ctxM x
    let ag := entryAgent x c e
    galleyRoom c 1
    checkVa ag .write false c.galptr
    galleyPush ag ([2, c.galptr.toNat] ++ List.replicate 14 0) []
    updCtx x fun k => k.wg (gpr f.vd) c.galptr

def galcutDef (_f : Op64) : QueueDef where
  usesVstart := false
  check := fun _ _ => pure ()
  body := fun x e => do
    let c ← ctxM x
    let p := e.sa
    if ¬ (c.galbase.toNat ≤ p.toNat ∧ p.toNat < c.galptr.toNat ∧ (p.toNat - c.galbase.toNat) % 128 = 0) then raise (badHandle 0x17)
    let head := (← galleyRead (entryAgent x c e) ((← get).entryAccess x e 15) p 0).1
    if head % 4 ≠ 2 then raise (badHandle 0x17)
    updCtx x fun k => k.cutGalley p
    upd fun s => s.spillGalley x

/-! ## Explicit adjoint access (R277) -/

/-- The region that holds every active element, with the base a multiple of its element size; BADHANDLE with 0x18 if none. -/
def adjRegion (x : CtxNo) (e : Entry) : M (Option Region) := do
  let s ← get
  let c := s.ctx x
  let act := (List.range (e.vt.size * e.vl)).filter fun i => c.top.getLsbD (i % e.vl)
  let fits (r : Region) : Bool := e.sa.toNat % r.elemBytes == 0 && act.all fun i => r.holds (e.sa + BitVec.ofNat 64 (i * r.elemBytes))
  if act = [] then pure none
  else
    match (List.range 64).findSome? fun k => (s.region e.asid k).filter fits with
    | some r => pure (some r)
    | none => raise { badHandle 0x18 with start := some e.vstart }

/-- The place of the cell of element `i`. -/
def adjPlace (x : CtxNo) (e : Entry) (acc : Acc) (r : Region) (i : Nat) : M Place := do
  place (entryAgent x (← ctxM x) e) (.core (coreOf x)) acc true (r.cell (e.sa + BitVec.ofNat 64 (i * r.elemBytes)))

def adjldDef (f : Op64) : QueueDef where
  check := fun _ c => do
    checkAlign c 0xB6 f c.vt.size
    if c.vt.ty ≠ .flt .fp32 ∨ c.vt.ks = true then illegalM c 0xB6 f 6
  body := fun x e => do
    match ← adjRegion x e with
    | none => pure ()
    | some r =>
      upd fun s => s.settle fun p => p.x == x && p.adj
      memLoop x e f (fun i => do
        let p ← adjPlace x e .read r i
        upd fun s =>
          let a := s.entryAccess x e f.cls4.toNat
          let s1 := ((s.purgePlace x p).sawWord x p.word a).access x a
          if f.fn3 ≠ 0 then s1.learnWord x f.fn3.toNat p.word a else s1
        let h := p.home
        putLoaded x e f i ((← get).atomRead h.1 h.2 4)) fun _ => pure ()
    if f.fn3 ≠ 0 then acquireM x f.fn3.toNat

def adjclrDef (f : Op64) : QueueDef where
  check := fun _ _ => pure ()
  body := fun x e => do
    let reg ← adjRegion x e
    if f.fn3 ≠ 0 then
      remoteWait x f.fn3.toNat
      upd fun s => s.release x f.fn3.toNat (s.entryAccess x e f.cls4.toNat) e.past
    match reg with
    | none => pure ()
    | some r =>
      memLoop x e f (fun i => do
        let p ← adjPlace x e .write r i
        let a ← elemAtom x p 4 .clear 0 false
        if p.isWindow then
          let _ ← performAtom x e f.cls4.toNat a
          if f.fn3 ≠ 0 then upd fun s => s.publishWord x f.fn3.toNat p.word (s.entryAccess x e f.cls4.toNat) e.past
        else
          let s ← get
          postAtoms x f.cls4.toNat f.fn3.toNat true (if f.fn3 = 0 then none
            else some ⟨x, f.fn3.toNat, s.releaseClock (s.base x) f.fn3.toNat (s.entryAccess x e f.cls4.toNat) e.past⟩) [a]) fun _ => pure ()

/-! ## Front-end instructions (R266-R268) -/

/-- Two ranges share a byte. -/
def rangesMeet (a n b m : Nat) : Bool := decide (a < b + m ∧ b < a + n)

/-- The region of a descriptor, or the code of the first condition of R266 that fails. -/
def newRegion (table : List Region) (base len adj ctl : Word) : Region ⊕ Nat :=
  let r : Region := ⟨base, len, ctl.extractLsb' 0 2, adj, ctl.getLsbD 8, ctl.getLsbD 9⟩
  if base.toNat % 64 ≠ 0 ∨ adj.toNat % 64 ≠ 0 ∨ len = 0 ∨ len.toNat % 64 ≠ 0 ∨ ctl &&& ~~~(0x303#64) ≠ 0 then .inr 0x11
  else if (table.any fun o => rangesMeet base.toNat len.toNat o.base.toNat o.len.toNat ||
      rangesMeet base.toNat len.toNat o.adj.toNat o.adjLen || rangesMeet adj.toNat r.adjLen o.base.toNat o.len.toNat) ||
      rangesMeet adj.toNat r.adjLen base.toNat len.toNat then .inr 0x12
  else .inl r

def execDreg (f : Op64) : State → Out :=
  front fun x c => do
    if c.mode ≠ .off then raise (badHandle 0x19)
    let va := c.rg (gpr f.vs1)
    if va.toNat % 8 ≠ 0 then raise (misalign va)
    waitVector x
    match ← loadWords (agentOf x c) va 4 with
    | [base, len, adj, ctl] =>
      let s ← get
      match newRegion ((List.range 64).filterMap fun k => s.region c.asid k) base len adj ctl with
      | .inr code => raise (badHandle code)
      | .inl r =>
        match (List.range 64).find? fun k => (s.region c.asid k).isNone with
        | none => raise (badHandle 0x13)
        | some k =>
          set { s with regions := Tab.put s.regions (c.asid.toNat * 64 + k) r }
          updCtx x fun c => c.wg (gpr f.vd) (BitVec.ofNat 64 k)
    | _ => pure ()
    pure (c.after (opBytes f))

def execDunreg (f : Op64) : State → Out :=
  front fun x c => do
    if c.mode ≠ .off then raise (badHandle 0x19)
    let k := (c.rg (gpr f.vs1)).toNat
    if 63 < k ∨ ((← get).region c.asid k).isNone then raise (badHandle 0x14)
    waitVector x
    upd fun s =>
      let s1 := s.settle fun p => p.adj
      { s1 with regions := Tab.del s1.regions (c.asid.toNat * 64 + k) }
    pure (c.after (opBytes f))

/-- Waits for the earlier region accesses, the galley's pushes and its spill, and sets the mode (R268). -/
def setMode (f : Op64) (m : DMode) : State → Out :=
  front fun x c => do
    waitVector x
    upd fun s => (s.settle fun p => p.x == x && p.adj).spillGalley x
    updCtx x fun c => { c with mode := m }
    pure (c.after (opBytes f))

def execDmodeOff (f : Op64) : State → Out := setMode f .off
def execDmodeFwd (f : Op64) : State → Out := setMode f .fwd
def execDmodeRev (f : Op64) : State → Out := setMode f .rev

/-! ## Meanings -/

def execVld (f : Op64) : State → Out := runDef (.vld f) f (vldDef f)
def execVlds (f : Op64) : State → Out := runDef (.vlds f) f (vldsDef f)
def execVldx (f : Op64) : State → Out := runDef (.vldx f) f (vldxDef f)
def execVldr (f : Op64) : State → Out := runDef (.vldr f) f (vldrDef f)
def execVst (f : Op64) : State → Out := runDef (.vst f) f (vstDef f)
def execVsts (f : Op64) : State → Out := runDef (.vsts f) f (vstsDef f)
def execVstx (f : Op64) : State → Out := runDef (.vstx f) f (vstxDef f)
def execVstr (f : Op64) : State → Out := runDef (.vstr f) f (vstrDef f)
def execGalset (f : Op64) : State → Out := runDef (.galset f) f (galsetDef f)
def execGalmark (f : Op64) : State → Out := runDef (.galmark f) f (galmarkDef f)
def execGalcut (f : Op64) : State → Out := runDef (.galcut f) f (galcutDef f)
def execAdjld (f : Op64) : State → Out := runDef (.adjld f) f (adjldDef f)
def execAdjclr (f : Op64) : State → Out := runDef (.adjclr f) f (adjclrDef f)

end Sys2Proof.Machine
end

