-- ==== Sys2Proof/Machine/Engines.lean ====
section
/-! DEFINITION. Token and pulse instructions, the chase, copy chains, completion waits, and the drain after `exit` (R206-R227). -/

namespace Sys2Proof.Machine

/-! ## Tokens and pulses (R210, R213, R214) -/

/-- A chain that a `cpy` of the running record started is in flight. -/
def Ctx.copying (c : Ctx) : Bool :=
  c.chain.any (fun h => !h.exited && !h.chase) || c.chainQueue.any fun h => !h.exited && !h.chase

/-- In the copy queue, an entry that follows a chain retires after the chain has ended. -/
def afterChains (x : CtxNo) (e : Entry) : M Unit := do
  if e.queue = .copy ∧ (← ctxM x).copying = true then stall

def tkwaitDef (f : Op64) : QueueDef where
  queue := (fifoIx f.fn4.toNat).consumer
  usesVstart := false
  check := fun _ _ => pure ()
  body := fun _ _ => pure ()

def tkpushDef (f : Op64) : QueueDef where
  queue := (fifoIx f.fn4.toNat).producer
  usesVstart := false
  check := fun _ _ => pure ()
  body := afterChains

/-- The queue that fn3 of an `evpulse` names. -/
def pulseQueue (f : Op64) : QueueNo :=
  match f.fn3.toNat with
  | 0 => .vector
  | 1 => .matrix
  | _ => .copy

def evpulseDef (f : Op64) : QueueDef where
  queue := pulseQueue f
  usesVstart := false
  check := fun _ _ => pure ()
  body := fun x e => do
    afterChains x e
    upd fun s => s.pulse (coreOf x) (some x) f.fn4.toNat

/-! ## The chase (R215-R218) -/

/-- A counter word without an error of R216. -/
def counterOk (w : Word) : Bool :=
  let n := w.toNat
  let line := n % 64
  decide (n / 2 ^ 26 = 0) && !w.getLsbD 24 && decide (bitsOf 7 6 n = 0) && decide (line < 8 ∨ 16 ≤ line ∧ line < 32) &&
  !(w.getLsbD 25 && decide (bitsOf 23 8 n = 0))

/-- A term word without an error of R216. -/
def termOk (w : Word) : Bool :=
  let n := w.toNat
  let action := bitsOf 34 32 n
  let head := bitsOf 63 40 n
  decide (bitsOf 39 36 n = 0) && decide (action ≤ 4) && decide (bitsOf 15 14 n = 0) && decide (bitsOf 31 30 n = 0) &&
  (if action = 4 then decide (head % 32 = 0 ∧ head < 0x800000) else decide (head = 0)) &&
  decide (action = 0 ∨ bitsOf 31 0 n ≠ 0)

/-- Checks the word in g[vs1] and writes a counter or a term of the core, of the index in fn4 (R216). -/
def evcfgOp (f : Op64) (ok : Word → Bool) (put : Nat → Word → CtxNo → Ctx → Core → Core) : State → Out :=
  front fun x c => do
    let w := c.rg (gpr f.vs1)
    if !(ok w) then raise (badHandle 0x04)
    upd fun s => (s.modCore (coreOf x) fun k => put (f.fn4.toNat % 8) w x c k).lookTerms (coreOf x)
    pure (c.after (opBytes f))

def execEvcfgCnt (f : Op64) : State → Out :=
  evcfgOp f counterOk fun j w x _ k => { k with counters := Tab.put k.counters j ⟨x, w, 0⟩ }
def execEvcfgTerm (f : Op64) : State → Out :=
  evcfgOp f termOk fun j w x c k => { k with
    terms := Tab.put k.terms j ⟨x, w, bitsOf 34 32 w.toNat != 0, .low, c.seq, c.level, c.asid⟩ }

/-- Puts a chain, which takes the next number, into its context's slot, or behind the chains that wait for it (R220). -/
def State.startChain (s : State) (x : CtxNo) (h : Chain) : State :=
  let h1 : Chain := { h with no := s.serial }
  ({ s with serial := s.serial + 1 }.begins s.serial h.tag []).modCtx x fun c =>
    if c.chain.isNone then { c with chain := some h1 } else { c with chainQueue := c.chainQueue ++ [h1] }

/-- The quad-store window's first address (R314). -/
def windowBase : Word := 0x00FFFF0000000000#64

/-- A term fires: its action, the reset of the counters in its masks, and its disarming (R215). A held queue is released, and
with rearm held again from its present tail. A chain that it starts forks as a `cpy` of class 15 at die scope (R218, R258). -/
def State.fireTerm (s : State) (core j : Nat) (t : Term) : State :=
  let n := t.word.toNat
  let used := maskBits (bitsOf 15 0 n) ++ maskBits (bitsOf 31 16 n)
  let c := s.ctx t.owner
  let s1 := if bitsOf 34 32 n = 4 then
      let head := windowBase + BitVec.ofNat 64 (bitsOf 63 40 n)
      let s0 := s.fork t.owner 15 3
      s0.startChain t.owner
        { head := head, at_ := head, obj := 0, chase := true, scope := 3, push := 0, level := t.level, asid := t.asid,
          fwd := decide (c.mode = .fwd), tag := c.tag, loops := [], start := c.start, exited := false
          hb := s0.forkClock t.owner 15 }
    else s
  (s1.modCore core fun k => { k with
    counters := k.counters.map fun e => if used.contains e.1 then (e.1, { e.2 with count := 0 }) else e
    terms := Tab.put k.terms j { t with armed := t.word.getLsbD 35, phase := if t.word.getLsbD 35 then .fired else .low, holdAt := c.seq } }).lookTerms core

/-- TERM_FIRE of term `j` of a core, which has become true. -/
def execTermFire (s : State) : Out :=
  match s.arg with
  | .coreIx c j =>
    match Tab.find (s.core c.toNat).terms j with
    | some t => if t.phase = .due then .next (s.fireTerm c.toNat j t) else .next s
    | none => .next s
  | _ => .next s

/-! ## `cpy` (R219, R220) -/

/-- The bytes of the window that the launch of a context may use. -/
def State.windowBytes (s : State) (tag : BitVec 32) : Nat :=
  match Tab.find s.hub.launches tag.toNat with
  | some l => l.dmax * 0x40000
  | none => 0

def cpyDef (f : Op64) : QueueDef where
  queue := .copy
  usesVstart := false
  check := fun _ c => do
    let head := c.rg (gpr f.vs1)
    let obj := c.rg (gpr f.vs2)
    if head.toNat % 32 ≠ 0 then raise (misalign head)
    if obj.toNat % 8 ≠ 0 then raise (misalign obj)
    if !(inWindow head && decide (head.toNat % 0x800000 < (← get).windowBytes c.tag)) then raise (badHandle 0x05)
  body := fun x e => do
    let c ← ctxM x
    if c.chain.isSome then stall
    upd fun s => (s.fork x f.cls4.toNat f.fn3.toNat).startChain x
      { head := e.sa, at_ := e.sa, obj := e.sb, chase := false, scope := f.fn3.toNat, push := f.tkpush.toNat, level := e.level,
        asid := e.asid, fwd := decide (c.mode = .fwd), tag := c.tag, loops := [], start := c.start, exited := false
        hb := joinClock e.hb (s.before.at_ (s.base x + queuePart .copy)) }

/-! ## Chain entries (R221-R225) -/

/-- The agent of a chain's accesses. -/
def chainAgent (x : CtxNo) (h : Chain) : Agent := { x := x, level := h.level, asid := h.asid, tag := h.tag, engine := true }

/-- A chain error of a code at an address; `cause` 0x0E is a write into a differentiable region. -/
def chainError (code : Nat) (addr : Word) : TrapInfo := { cause := if code = 7 then 0x0E else 0x15, addr := addr, info := BitVec.ofNat 64 code }

/-- The code of a fault in a chain (R225). -/
def chainCode (t : TrapInfo) : Nat :=
  match t.cause with
  | 0x06 => 2
  | 0x07 => 3
  | 0x08 => 4
  | 0x05 => 5
  | _ => t.info.toNat

/-- Reads `n` bytes as the copy engine does. -/
def chainRead (ag : Agent) (va : Word) (n : Nat) : M (Nat × Bool) := do
  let p ← place ag (.core (coreOf ag.x)) .read false va
  upd fun s => s.engineReach (coreOf ag.x) p
  pure ((← get).engineRead (coreOf ag.x) p n)

/-- Writes `n` bytes as the copy engine does; code 7 where a chain issued in FWD writes a region (R279). -/
def chainWrite (ag : Agent) (h : Chain) (va : Word) (n : Nat) (v : Nat × Bool) : M Unit := do
  let p ← place ag (.core (coreOf ag.x)) .write false va
  if h.fwd && ((← get).regionAt h.asid va).isSome then raise (chainError 7 va)
  upd fun s => s.engineWrite ag.x p n v.1 v.2 h.no

/-- The lines that an entry has read, by virtual address div 64: their bytes and marks. -/
abbrev LineBuf := Tab (BitVec 512 × BitVec 8)

/-- A line as the copy engine reads it. -/
def State.engineLine (s : State) (c : Nat) (p : Place) : BitVec 512 × BitVec 8 :=
  match p with
  | .window q o => (List.range 8).foldl (fun a g =>
      let v := s.storeRead q (o / 64 * 64 + 8 * g) 8
      (linePut a.1 (8 * g) 8 v.1, if v.2 then a.2 ||| (1#8 <<< g) else a.2)) (0, 0)
  | .phys pa pte => s.lineSeen c (pa / 64) pte

/-- `n` aligned bytes of the source of an entry, which reads each line once (R220). -/
def chainGet (ag : Agent) (buf : LineBuf) (va : Word) (n : Nat) : M (LineBuf × Nat × Bool) := do
  if va.toNat % n ≠ 0 then raise (chainError 5 va)
  let pick (l : BitVec 512 × BitVec 8) : Nat × Bool := (lineGet l.1 (va.toNat % 64) n, l.2.getLsbD (va.toNat % 64 / 8))
  match Tab.find buf (va.toNat / 64) with
  | some l => pure (buf, pick l)
  | none => do
    let p ← place ag (.core (coreOf ag.x)) .read false va
    upd fun s => s.engineReach (coreOf ag.x) p
    let l := (← get).engineLine (coreOf ag.x) p
    pure (Tab.put buf (va.toNat / 64) l, pick l)

/-- Moves one element. -/
def chainMove (ag : Agent) (h : Chain) (buf : LineBuf) (src dst : Word) (n : Nat) : M LineBuf := do
  let (buf', v) ← chainGet ag buf src n
  if dst.toNat % n ≠ 0 then raise (chainError 5 dst)
  chainWrite ag h dst n v
  pure buf'

/-- The loop offsets Off.s and Off.d (R223). -/
def loopOffsets (h : Chain) : Word × Word :=
  h.loops.foldl (fun o l => (o.1 + BitVec.ofNat 64 l.iter * l.srcAdv, o.2 + BitVec.ofNat 64 l.iter * l.dstAdv)) (0, 0)

/-- A 16-bit stride field. -/
def strideOf (d3 : Word) (lo sh : Nat) : Word := BitVec.ofInt 64 (sextNat 16 (d3.toNat >>> lo)) <<< sh

/-- COPY (R222). -/
def copyEntry (ag : Agent) (h : Chain) (d0 d1 d2 d3 : Word) : M Unit := do
  let n := d0.toNat
  let dims := bitsOf 9 8 n + 1
  let e := 2 ^ bitsOf 11 10 n
  let sh := bitsOf 15 12 n
  let n0 := bitsOf 31 16 n
  let n1 := bitsOf 47 32 n
  let n2 := bitsOf 63 48 n
  if 3 < dims ∨ n0 = 0 ∨ n1 = 0 ∨ n2 = 0 ∨ (dims < 2 ∧ n1 ≠ 1) ∨ (dims < 3 ∧ n2 ≠ 1) then raise (chainError 1 h.at_)
  let off := loopOffsets h
  let _ ← foldM (List.range n2) [] fun b k => foldM (List.range n1) b fun b j => foldM (List.range n0) b fun b i =>
    let at_ (base : Word) (s1 s2 : Nat) : Word :=
      base + BitVec.ofNat 64 k * strideOf d3 s2 sh + BitVec.ofNat 64 j * strideOf d3 s1 sh + BitVec.ofNat 64 (i * e)
    chainMove ag h b (at_ (d1 + off.1) 0 16) (at_ (d2 + off.2) 32 48) e

/-- GATHER (R222): rows move in doublewords. DESIGN CHOICE: a row's source and destination are 8-byte aligned, and a count of 0 moves
nothing. -/
def gatherEntry (ag : Agent) (h : Chain) (d0 d1 d2 d3 : Word) : M Unit := do
  let n := d0.toNat
  let size := 2 ^ bitsOf 11 10 n
  let count := bitsOf 31 16 n
  let row := bitsOf 63 32 n
  if size < 4 ∨ bitsOf 15 12 n ≠ 0 ∨ row = 0 ∨ row % 8 ≠ 0 then raise (chainError 1 h.at_)
  let off := loopOffsets h
  let _ ← foldM (List.range count) [] fun b q => do
    let (b1, ix) ← chainGet ag b (d3 + BitVec.ofNat 64 (q * size)) size
    foldM (List.range (row / 8)) b1 fun b i =>
      chainMove ag h b (d1 + off.1 + BitVec.ofNat 64 (ix.1 * row + 8 * i)) (d2 + off.2 + BitVec.ofNat 64 (q * row + 8 * i)) 8

/-- LOOP (R223): the chain at its next entry. -/
def loopEntry (h : Chain) (d0 d1 d2 d3 : Word) : M Chain := do
  let n := d0.toNat
  let count := bitsOf 31 16 n
  let back := bitsOf 47 32 n
  if count = 0 ∨ back = 0 ∨ bitsOf 63 48 n ≠ 0 ∨ d3 ≠ 0 then raise (chainError 1 h.at_)
  let l ← match h.loops.find? fun l => l.entry == h.at_ with
    | some l => pure l
    | none => if 4 ≤ h.loops.length then raise (chainError 6 h.at_) else pure ⟨h.at_, count, 0, d1, d2⟩
  let others := h.loops.filter fun o => o.entry != h.at_
  if l.left ≤ 1 then pure { h with loops := others, at_ := h.at_ + 32 }
  else
    pure { h with loops := others ++ [{ l with left := l.left - 1, iter := l.iter + 1 }], at_ := h.at_ - BitVec.ofNat 64 (32 * back) }

/-- An aligned doubleword read with acquire at the chain's scope, and the chain with what it learns. -/
def chainWord (ag : Agent) (h : Chain) (va : Word) : M (Nat × Chain) := do
  if va.toNat % 8 ≠ 0 then raise (chainError 5 va)
  let p ← place ag (.core (coreOf ag.x)) .read false va
  acquireM ag.x h.scope
  upd fun s => s.engineReach (coreOf ag.x) p
  let s ← get
  pure ((s.engineRead (coreOf ag.x) p 8).1,
    { h with hb := joinClock (metClock (Tab.look [] s.before.words p.word) ag.x h.scope) h.hb })

/-- What happens before what follows an entry of a chain: the chain's accesses so far, and what happens before them. -/
def State.chainClock (s : State) (h : Chain) : Clock := joinClock h.hb (s.before.at_ (baseOf h.no + enginePart))

/-- TOKEN: pushes to cv or cm unless 16 are held (R211). The tokens of an ended record are gone. -/
def tokenEntry (x : CtxNo) (h : Chain) (d0 d1 d2 d3 : Word) : M Unit := do
  if d0.toNat / 512 ≠ 0 ∨ d1 ≠ 0 ∨ d2 ≠ 0 ∨ d3 ≠ 0 then raise (chainError 1 h.at_)
  if h.exited then pure ()
  else
    let f : Fifo := if d0.getLsbD 8 then .cm else .cv
    if 16 ≤ ((← ctxM x).tok f).held then stall
    upd fun s => s.tokenGiven x f (s.chainClock h)
    updCtx x fun c => let t := c.tok f; c.setTok f { u := t.u + 1, f := t.f + 1, held := t.held + 1 }
    upd fun s => s.lookTerms (coreOf x)

/-- PULSE: raises a line of the issuing context (R224). -/
def pulseEntry (x : CtxNo) (h : Chain) (d0 d1 d2 d3 : Word) : M Unit := do
  if d0.toNat / 2048 ≠ 0 ∨ d1 ≠ 0 ∨ d2 ≠ 0 ∨ d3 ≠ 0 then raise (chainError 1 h.at_)
  if h.exited then pure () else upd fun s => s.pulse (coreOf x) (some x) (bitsOf 10 8 d0.toNat)

/-- The push of a `cpy` at the end of its chain (R210). DESIGN CHOICE: it never waits (R211), so a FIFO that TOKEN entries have filled
then holds a 17th token. -/
def State.chainPush (s : State) (x : CtxNo) (h : Chain) : State :=
  if h.exited then s
  else match fifoOf .copy h.push true with
    | some f => (s.tokenGiven x f (s.chainClock h)).modCtx x fun c => let t := c.tok f; c.setTok f { t with held := t.held + 1 }
    | none => s

/-- END: the release and the increment of the object; the chain is over (R224). -/
def endEntry (x : CtxNo) (ag : Agent) (h : Chain) (d0 d1 d2 d3 : Word) : M Unit := do
  if d0.toNat / 256 ≠ 0 ∨ d2 ≠ 0 ∨ d3 ≠ 0 ∨ (d1 = 0 ∧ h.chase = true) then raise (chainError 1 h.at_)
  let obj := if d1 = 0 then h.obj else d1
  if obj.toNat % 8 ≠ 0 then raise (chainError 5 obj)
  let p ← place ag (.core (coreOf x)) .atomic false obj
  if h.fwd && ((← get).regionAt h.asid obj).isSome then raise (chainError 7 obj)
  upd fun s => ((s.completeObject x (dieOf x) h.scope p h.no h.hb).chainPush x h).lookTerms (coreOf x)

/-- Executes the entry at the chain's position: the chain at its next entry, or none after END. -/
def chainEntry (x : CtxNo) (h : Chain) (d : List Word) : M (Option Chain) := do
  let ag := chainAgent x h
  let nxt : Chain := { h with at_ := h.at_ + 32 }
  match d with
  | [d0, d1, d2, d3] =>
    match d0.toNat % 256 with
    | 1 => do copyEntry ag h d0 d1 d2 d3; pure (some nxt)
    | 2 => do gatherEntry ag h d0 d1 d2 d3; pure (some nxt)
    | 3 => do pure (some (← loopEntry h d0 d1 d2 d3))
    | 4 => do
      if d0.toNat / 2 ^ 32 ≠ 0 ∨ d2 ≠ 0 ∨ d3 ≠ 0 then raise (chainError 1 h.at_)
      let (v, h1) ← chainWord ag h d1
      pure (some { h1 with at_ := if v = 0 then h.at_ + BitVec.ofNat 64 (32 * (1 + bitsOf 31 16 d0.toNat)) else h.at_ + 32 })
    | 5 => do tokenEntry x h d0 d1 d2 d3; pure (some nxt)
    | 6 => do pulseEntry x h d0 d1 d2 d3; pure (some nxt)
    | 7 => do
      if d0.toNat / 256 ≠ 0 ∨ d3 ≠ 0 then raise (chainError 1 h.at_)
      let (v, h1) ← chainWord ag h d1
      if v < d2.toNat then stall
      pure (some { h1 with at_ := h.at_ + 32 })
    | 8 => do endEntry x ag h d0 d1 d2 d3; pure none
    | _ => raise (chainError 1 h.at_)
  | _ => raise (chainError 1 h.at_)

/-- The four doublewords of the entry at the chain's position. -/
def chainFetch (x : CtxNo) (h : Chain) : M (List Word) := do
  let ag := chainAgent x h
  let a ← chainRead ag h.at_ 8
  let b ← chainRead ag (h.at_ + 8) 8
  let c ← chainRead ag (h.at_ + 16) 8
  let d ← chainRead ag (h.at_ + 24) 8
  pure ([a, b, c, d].map fun v => BitVec.ofNat 64 v.1)

/-- A chain error ends the chain: it is delivered to the issuing context, or logged when the record has exited (R225), unless the
refusing block has logged it. -/
def State.chainFail (s : State) (x : CtxNo) (h : Chain) (t : TrapInfo) : State :=
  let s1 := s.modCtx x Ctx.nextChain
  let info := BitVec.ofNat 64 (chainCode t * 2 ^ 24 + ((h.at_ - h.head).toNat / 32) % 2 ^ 20)
  if h.exited = true ∧ chainCode t = 4 then s1
  else if h.exited then s1.logViol (dieOf x * 64) t.addr x.toNat 4 (if chainCode t = 2 then 1 else 2) h.tag
  else (s1.latch x).modCtx x fun c => { c with async := c.async ++ [⟨if t.cause = 0x0E then 0x0E else 0x15, t.addr, info⟩] }

/-- The type of the entry that a context's chain stands at; 0 when it cannot be read. -/
def State.chainType (s : State) (x : CtxNo) : Option Nat :=
  match (s.ctx x).chain with
  | none => none
  | some h =>
    match chainFetch x h s with
    | .ok (d0 :: _) _ => some (if 1 ≤ d0.toNat % 256 ∧ d0.toNat % 256 ≤ 8 then d0.toNat % 256 else 0)
    | _ => some 0

/-- The entry at a context's chain takes place; none while it waits. -/
def State.chainStep (s : State) (x : CtxNo) : Option State :=
  match (s.ctx x).chain with
  | none => none
  | some h =>
    match (do chainEntry x h (← chainFetch x h) : M (Option Chain)) s with
    | .ok (some h') s1 => some (s1.modCtx x fun c => { c with chain := some h' })
    | .ok none s1 => some (s1.modCtx x Ctx.nextChain)
    | .error (.trap t) s1 => some (s1.chainFail x h t)
    | .error .wait _ => none

/-- A chain event: the entry of the type at the chain of the context that the event names. -/
def chainEvent (typ : Nat) (s : State) : Out :=
  match s.arg with
  | .ctx x => if s.chainType x = some typ then .next ((s.chainStep x).getD s) else .next s
  | _ => .next s

def execChainCopy (s : State) : Out := chainEvent 1 s
def execChainGather (s : State) : Out := chainEvent 2 s
def execChainLoop (s : State) : Out := chainEvent 3 s
def execChainIfz (s : State) : Out := chainEvent 4 s
def execChainToken (s : State) : Out := chainEvent 5 s
def execChainPulse (s : State) : Out := chainEvent 6 s
def execChainWaitw (s : State) : Out := chainEvent 7 s
/-- END; an entry that cannot be read or has no type of R221 ends its chain with an error here too. -/
def execChainEnd (s : State) : Out :=
  match s.arg with
  | .ctx x => if s.chainType x = some 0 then .next ((s.chainStep x).getD s) else chainEvent 8 s
  | _ => .next s

/-! ## `waitc` (R226) -/

def execWaitc (f : Op64) : State → Out :=
  front fun x c => do
    let va := c.rg (gpr f.vs1)
    if va.toNat % 8 ≠ 0 then raise (misalign va)
    waitMem x 15 false va 8
    let p ← place (agentOf x c) (.core (coreOf x)) .read false va
    acquireM x f.fn3.toNat
    let (s, v, bad) := (← get).readBy x p 8
    set (s.learnWord x f.fn3.toNat p.word {})
    if bad then raise { cause := 0x0F, addr := va }
    if v < (c.rg (gpr f.vs2)).toNat then stall
    pure (c.after (opBytes f))

/-- Runs a meaning on another context. -/
def onCtx (x : CtxNo) (m : State → Out) (s : State) : Out :=
  match m { s with cur := x } with
  | .next t => .next { t with cur := s.cur }
  | o => o

/-- WAITC_RECHECK: the word of a context that stands at a `waitc` is read again. -/
def execWaitcRecheck (s : State) : Out :=
  match s.arg with
  | .ctx x =>
    match fetchInstr (agentOf x (s.ctx x)) (s.ctx x).pc s with
    | .ok ⟨.waitc f, _⟩ s1 => if (s.ctx x).status = .running then onCtx x (execWaitc f) s1 else .next s
    | _ => .next s
  | _ => .next s

/-! ## Event latches and the galley's spill (R127, R271) -/

/-- WFE_TIMEOUT: a context that waits in `wfe` has its latch set. -/
def execWfeTimeout (s : State) : Out :=
  match s.arg with
  | .ctx x => if (s.ctx x).status = .running ∧ 0 < (s.ctx x).wfeLooks then .next (s.latch x) else .next s
  | _ => .next s

/-- GALLEY_SPILL: the oldest buffered entry goes to memory. -/
def execGalleySpill (s : State) : Out :=
  match s.arg with
  | .ctx x =>
    match (s.ctx x).galBuf with
    | [] => .next s
    | e :: t => .next ((State.spillOne (agentOf x (s.ctx x)) s e).modCtx x fun c => { c with galBuf := t })
  | _ => .next s

/-! ## After `exit` (R227) -/

/-- The tracker entry's traffic has performed: no posted operation of it is left and no chain of the ended record is in flight. -/
def State.trackerDone (s : State) (t : Tracker) : Bool :=
  !(s.posted.any fun p => t.posted.contains p.no) &&
  !((s.ctx t.x).chaining t.start)

/-- A tracker entry whose traffic has performed frees and makes its join decrement; none while it waits. -/
def State.freedEntry (s : State) (c j : Nat) : Option State :=
  match Tab.find (s.core c).tracker j with
  | some t =>
    if s.trackerDone t then
      (s.drainJoin { x := t.x, level := t.level, asid := t.asid, tag := t.tag, start := some t.start, engine := true } t.join).map fun u =>
        u.modCore c fun k => { k with tracker := Tab.del k.tracker j }
    else none
  | none => none

/-- RETIREMENT_TRACKER_FREE. -/
def execRetirementTrackerFree (s : State) : Out :=
  match s.arg with
  | .coreIx c j => .next ((s.freedEntry c.toNat j).getD s)
  | _ => .next s

/-- A draining context whose traffic is all acknowledged makes the join decrement and becomes free; none while it waits. -/
def State.drained (s : State) (x : CtxNo) : Option State :=
  let c := s.ctx x
  if c.status = .draining ∧ s.outstanding x = false ∧ s.ordinary x = [] ∧ c.chaining c.start = false then
    ((s.discard x).drainJoin (drainAgent x c) (match c.rec_ with | some r => r.w2 | none => 0)).map fun u => u.freeContext x
  else none

/-- DRAINING_END. -/
def execDrainingEnd (s : State) : Out :=
  match s.arg with
  | .ctx x => .next ((s.drained x).getD s)
  | _ => .next s

/-! ## Meanings -/

def execTkwait (f : Op64) : State → Out := runDef (.tkwait f) f (tkwaitDef f)
def execTkpush (f : Op64) : State → Out := runDef (.tkpush f) f (tkpushDef f)
def execEvpulse (f : Op64) : State → Out := runDef (.evpulse f) f (evpulseDef f)
def execCpy (f : Op64) : State → Out := runDef (.cpy f) f (cpyDef f)

end Sys2Proof.Machine
end

