-- ==== Sys2Proof/Machine/Hash.lean ====
section
/-! DEFINITION. SHAKE256 (FIPS 202), and the keys, signatures and verification of SLH-DSA-SHAKE-256s (FIPS 205), which R383 and R386
name. PRESUMED: all are written from those standards, since the spec does not repeat them. -/

namespace Sys2Proof.Machine

/-! ## SHAKE256 -/

/-- The round constants of Keccak-f[1600]. -/
def keccakRounds : List Word :=
  [0x0000000000000001, 0x0000000000008082, 0x800000000000808A, 0x8000000080008000, 0x000000000000808B, 0x0000000080000001,
   0x8000000080008081, 0x8000000000008009, 0x000000000000008A, 0x0000000000000088, 0x0000000080008009, 0x000000008000000A] ++
  [0x000000008000808B, 0x800000000000008B, 0x8000000000008089, 0x8000000000008003, 0x8000000000008002, 0x8000000000000080,
   0x000000000000800A, 0x800000008000000A, 0x8000000080008081, 0x8000000000008080, 0x0000000080000001, 0x8000000080008008]
/-- The rotation of lane x + 5y. -/
def keccakTurns : List Nat := [0, 1, 62, 28, 27, 36, 44, 6, 55, 20, 3, 10, 43, 25, 39, 41, 45, 15, 21, 8, 18, 2, 61, 56, 14]

/-- One round on the 25 lanes: theta, rho and pi, chi, iota. -/
def keccakRound (a : List Word) (rc : Word) : List Word :=
  let at_ (l : List Word) (n : Nat) : Word := l.getD n 0
  let col := (List.range 5).map fun x => at_ a x ^^^ at_ a (x + 5) ^^^ at_ a (x + 10) ^^^ at_ a (x + 15) ^^^ at_ a (x + 20)
  let mix := (List.range 5).map fun x => at_ col ((x + 4) % 5) ^^^ (at_ col ((x + 1) % 5)).rotateLeft 1
  let b := (List.range 25).map fun i =>
    let src := (i % 5 + 3 * (i / 5)) % 5 + 5 * (i % 5)
    (at_ a src ^^^ at_ mix (src % 5)).rotateLeft (keccakTurns.getD src 0)
  (List.range 25).map fun i =>
    let y := 5 * (i / 5)
    let v := at_ b i ^^^ (~~~(at_ b (y + (i + 1) % 5)) &&& at_ b (y + (i + 2) % 5))
    if i = 0 then v ^^^ rc else v

/-- Keccak-f[1600]. -/
def keccakF (a : List Word) : List Word := keccakRounds.foldl keccakRound a

/-- Adds a block of 136 bytes to the state. -/
def keccakAdd (a : List Word) (block : List Byte) : List Word :=
  (a.zip (List.range 25)).map fun l => l.1 ^^^ BitVec.ofNat 64 (ofLe ((block.drop (8 * l.2)).take 8))

/-- Absorbs blocks of 136 bytes; the last one is padded. -/
def keccakAbsorb : (fuel : Nat) → List Word → List Byte → List Word
  | 0, a, _ => a
  | fuel + 1, a, bs =>
    if bs.length < 136 then
      let pad := if bs.length = 135 then [0x9F#8] else 0x1F#8 :: List.replicate (134 - bs.length) 0 ++ [0x80#8]
      keccakF (keccakAdd a (bs ++ pad))
    else keccakAbsorb fuel (keccakF (keccakAdd a (bs.take 136))) (bs.drop 136)

/-- The first `n` bytes, at most 136, of SHAKE256 of a byte string. -/
def shake256 (n : Nat) (bs : List Byte) : List Byte :=
  ((keccakAbsorb (bs.length / 136 + 1) (List.replicate 25 0) bs).flatMap fun w => leBytes 8 w.toNat).take n

/-- The 256-bit hash of a byte string. -/
def hash256 (bs : List Byte) : Nat := ofLe (shake256 32 bs)

/-! ## SLH-DSA-SHAKE-256s (n = 32, h = 64, d = 8, h' = 8, a = 14, k = 22, lg_w = 4) -/

/-- A number as bytes, the most significant first. -/
def beBytes (n v : Nat) : List Byte := (leBytes n v).reverse
/-- The number that such bytes hold. -/
def ofBe (bs : List Byte) : Nat := ofLe bs.reverse
/-- Digits of `b` bits, the most significant first. -/
def digits (b n : Nat) (bs : List Byte) : List Nat :=
  (List.range n).map fun i => ofBe bs / 2 ^ (8 * bs.length - b * (i + 1)) % 2 ^ b

/-- The address of a hash: its layer, tree, type and three type-specific words. -/
def hashAddr (layer tree typ a b c : Nat) : List Byte :=
  beBytes 4 layer ++ beBytes 12 tree ++ beBytes 4 typ ++ beBytes 4 a ++ beBytes 4 b ++ beBytes 4 c

/-- The tweaked hash of a message under a seed and an address. -/
def tweaked (seed addr m : List Byte) : List Byte := shake256 32 (seed ++ addr ++ m)

/-- Part `i` of 32 bytes. -/
def part32 (bs : List Byte) (i : Nat) : List Byte := (bs.drop (32 * i)).take 32

/-- The root over a leaf of index `ix`, from its authentication path; `addr` gives the address of a height and an index. -/
def climb (seed : List Byte) (addr : Nat → Nat → List Byte) (path : List Byte) : (n j ix : Nat) → List Byte → List Byte
  | 0, _, _, node => node
  | n + 1, j, ix, node =>
    let up := ix / 2
    climb seed addr path n (j + 1) up
      (tweaked seed (addr (j + 1) up) (if ix % 2 = 0 then node ++ part32 path j else part32 path j ++ node))

/-- A chain from step `i`, `n` steps on. -/
def wotsChain (seed : List Byte) (addr : Nat → List Byte) : (n i : Nat) → List Byte → List Byte
  | 0, _, x => x
  | n + 1, i, x => wotsChain seed addr n (i + 1) (tweaked seed (addr i) x)

/-- The WOTS+ public key that a signature of a node gives. -/
def wotsKey (seed : List Byte) (layer tree leaf : Nat) (sig node : List Byte) : List Byte :=
  let msg := digits 4 64 node
  let sum := msg.foldl (fun s m => s + (15 - m)) 0
  let all := msg ++ digits 4 3 (beBytes 2 (sum * 16))
  let ends := (all.zip (List.range 67)).flatMap fun m =>
    wotsChain seed (fun j => hashAddr layer tree 0 leaf m.2 j) (15 - m.1) m.1 (part32 sig m.2)
  tweaked seed (hashAddr layer tree 1 leaf 0 0) ends

/-- The root that a hypertree signature of a node gives, from a layer up. -/
def treeRoot (seed : List Byte) : (n layer tree leaf : Nat) → (sig node : List Byte) → List Byte
  | 0, _, _, _, _, node => node
  | n + 1, layer, tree, leaf, sig, node =>
    let key := wotsKey seed layer tree leaf (sig.take 2144) node
    let root := climb seed (fun h i => hashAddr layer tree 2 0 h i) ((sig.drop 2144).take 256) 8 0 leaf key
    treeRoot seed n (layer + 1) (tree / 256) (tree % 256) (sig.drop 2400) root

/-- The FORS public key that a signature of a digest gives. -/
def forsKey (seed : List Byte) (tree leaf : Nat) (sig md : List Byte) : List Byte :=
  let roots := ((digits 14 22 md).zip (List.range 22)).flatMap fun m =>
    let mine := sig.drop (480 * m.2)
    let ix := m.2 * 2 ^ 14 + m.1
    climb seed (fun h i => hashAddr 0 tree 3 leaf h i) (mine.drop 32) 14 0 ix
      (tweaked seed (hashAddr 0 tree 3 leaf 0 ix) (mine.take 32))
  tweaked seed (hashAddr 0 tree 4 leaf 0 0) roots

/-- A signature of a message verifies under a public key, with an empty context string. -/
def slhVerify (key msg sig : List Byte) : Bool :=
  let seed := key.take 32
  let root := part32 key 1
  let digest := shake256 47 (sig.take 32 ++ seed ++ root ++ ([0, 0] ++ msg))
  let tree := ofBe ((digest.drop 39).take 7)
  let leaf := ofBe (digest.drop 46)
  let fors := forsKey seed tree leaf ((sig.drop 32).take 10560) (digest.take 39)
  key.length == 64 && sig.length == 29792 && treeRoot seed 8 0 tree leaf (sig.drop 10592) fors == root

/-! ### Keys and signatures (R386) -/

/-- A private key: its two secret parts and the public seed, each of 32 bytes. -/
structure SlhSecret where
  sk : List Byte
  prf : List Byte
  seed : List Byte

/-- The device's private key, from its fused secret (R386). -/
def identitySecret : SlhSecret :=
  let bytes (n : Nat) : List Byte := (List.range 32).map fun i => Config.identitySeed (n + i)
  ⟨bytes 0, bytes 32, bytes 64⟩

/-- The secret value of an address. -/
def SlhSecret.value (k : SlhSecret) (addr : List Byte) : List Byte := tweaked k.seed addr k.sk

/-- The start of a WOTS+ chain. -/
def SlhSecret.chainStart (k : SlhSecret) (layer tree leaf i : Nat) : List Byte := k.value (hashAddr layer tree 5 leaf i 0)

/-- The WOTS+ public key of a leaf. -/
def SlhSecret.leaf (k : SlhSecret) (layer tree leaf : Nat) : List Byte :=
  tweaked k.seed (hashAddr layer tree 1 leaf 0 0) ((List.range 67).flatMap fun i =>
    wotsChain k.seed (fun j => hashAddr layer tree 0 leaf i j) 15 0 (k.chainStart layer tree leaf i))

/-- A node of a tree of a layer, at height `z`. -/
def SlhSecret.node (k : SlhSecret) (layer tree : Nat) : (z i : Nat) → List Byte
  | 0, i => k.leaf layer tree i
  | z + 1, i => tweaked k.seed (hashAddr layer tree 2 0 (z + 1) i) (k.node layer tree z (2 * i) ++ k.node layer tree z (2 * i + 1))

/-- A node of the FORS trees of a leaf, at height `z`. -/
def SlhSecret.fors (k : SlhSecret) (tree leaf : Nat) : (z i : Nat) → List Byte
  | 0, i => tweaked k.seed (hashAddr 0 tree 3 leaf 0 i) (k.value (hashAddr 0 tree 6 leaf 0 i))
  | z + 1, i => tweaked k.seed (hashAddr 0 tree 3 leaf (z + 1) i) (k.fors tree leaf z (2 * i) ++ k.fors tree leaf z (2 * i + 1))

/-- The authentication path of leaf `i` in a tree of height `n`. -/
def authPath (node : Nat → Nat → List Byte) (n i : Nat) : List Byte :=
  (List.range n).flatMap fun j => node j (if i / 2 ^ j % 2 = 0 then i / 2 ^ j + 1 else i / 2 ^ j - 1)

/-- The FORS signature of a digest. -/
def SlhSecret.signFors (k : SlhSecret) (tree leaf : Nat) (md : List Byte) : List Byte :=
  ((digits 14 22 md).zip (List.range 22)).flatMap fun m =>
    let ix := m.2 * 2 ^ 14 + m.1
    k.value (hashAddr 0 tree 6 leaf 0 ix) ++ authPath (k.fors tree leaf) 14 ix

/-- The signature of a node by a leaf of a tree, with the leaf's path. -/
def SlhSecret.signNode (k : SlhSecret) (layer tree leaf : Nat) (node : List Byte) : List Byte :=
  let msg := digits 4 64 node
  let sum := msg.foldl (fun s m => s + (15 - m)) 0
  let all := msg ++ digits 4 3 (beBytes 2 (sum * 16))
  ((all.zip (List.range 67)).flatMap fun m =>
    wotsChain k.seed (fun j => hashAddr layer tree 0 leaf m.2 j) m.1 0 (k.chainStart layer tree leaf m.2)) ++
  authPath (k.node layer tree) 8 leaf

/-- The hypertree signature of a node, `n` layers from a layer up. -/
def SlhSecret.signTree (k : SlhSecret) : (n layer tree leaf : Nat) → (node : List Byte) → List Byte
  | 0, _, _, _, _ => []
  | n + 1, layer, tree, leaf, node =>
    k.signNode layer tree leaf node ++ k.signTree n (layer + 1) (tree / 256) (tree % 256) (k.node layer tree 8 0)

/-- The public key: the public seed and the root of the top tree. -/
def slhPublic (k : SlhSecret) : List Byte := k.seed ++ k.node 7 0 8 0

/-- The signature of a message, with 32 random bytes and an empty context string. -/
def slhSign (k : SlhSecret) (random msg : List Byte) : List Byte :=
  let m := [0, 0] ++ msg
  let r := shake256 32 (k.prf ++ random ++ m)
  let digest := shake256 47 (r ++ k.seed ++ k.node 7 0 8 0 ++ m)
  let tree := ofBe ((digest.drop 39).take 7)
  let leaf := ofBe (digest.drop 46)
  let fors := k.signFors tree leaf (digest.take 39)
  r ++ fors ++ k.signTree 8 0 tree leaf (forsKey k.seed tree leaf fors (digest.take 39))

end Sys2Proof.Machine
end

