-- ==== Sys2Proof/Machine/Control.lean ====
section
/-! DEFINITION. Control transfer, scalar loads, stores and atomics (R119-R123, R248-R259). -/

namespace Sys2Proof.Machine

/-! ## Branches and jumps (R119) -/

/-- A target relative to the instruction, in words. -/
def Ctx.target (c : Ctx) {n : Nat} (off : BitVec n) : Word := c.pc + (off.signExtend 64 <<< 2)

/-- A conditional branch. -/
def branch (a b : Reg) (off : BitVec 13) (cond : Word → Word → Bool) : State → Out :=
  front fun _ c => pure (if cond (c.rg a) (c.rg b) then c.target off else c.after 4)

def execBeq (a b : Reg) (off : BitVec 13) : State → Out := branch a b off fun x y => x == y
def execBne (a b : Reg) (off : BitVec 13) : State → Out := branch a b off fun x y => x != y
def execBlt (a b : Reg) (off : BitVec 13) : State → Out := branch a b off fun x y => x.slt y
def execBge (a b : Reg) (off : BitVec 13) : State → Out := branch a b off fun x y => y.sle x
def execBltu (a b : Reg) (off : BitVec 13) : State → Out := branch a b off fun x y => x.ult y
def execBgeu (a b : Reg) (off : BitVec 13) : State → Out := branch a b off fun x y => y.ule x

def execJal (d : Reg) (off : BitVec 21) : State → Out :=
  front fun x c => do
    updCtx x fun k => k.wg d (c.after 4)
    pure (c.target off)

/-- Writes the return address and answers the target, or raises MISALIGN with the target (R119). -/
def jumpTo (x : CtxNo) (c : Ctx) (d : Reg) (t : Word) : M Word := do
  if t.toNat % 4 ≠ 0 then raise (misalign t)
  updCtx x fun k => k.wg d (c.after 4)
  pure t

def execJalr (d a : Reg) (imm : BitVec 16) : State → Out :=
  front fun x c => jumpTo x c d (c.rg a + imm.signExtend 64)

/-- The slot is read as a load of class 15 relative to g4; g1 takes the return address. -/
def execCalli (slot : BitVec 16) : State → Out :=
  front fun x c => do
    let va := c.rg 4 + (slot.signExtend 64 <<< 3)
    if va.toNat % 8 ≠ 0 then raise (misalign va)
    waitMem x 15 false va 8
    let t ← loadClean (agentOf x c) va 8
    jumpTo x c 1 (BitVec.ofNat 64 t)

/-! ## Loads and stores (R120, R121) -/

/-- The bytes of a size code. -/
def sizeOf (size : BitVec 2) : Nat := 2 ^ size.toNat

/-- The address g[ga] + off x bytes. -/
def memAddr (c : Ctx) (a : Reg) (size : BitVec 2) (off : BitVec 10) : Word :=
  c.rg a + (off.signExtend 64 <<< size.toNat)

/-- MISALIGN unless the address is a multiple of the access's bytes. -/
def alignedTo (va : Word) (n : Nat) : M Unit := if va.toNat % n ≠ 0 then raise (misalign va) else pure ()

/-- A loaded value extended to 64 bits. -/
def extend (signed : Bool) (n v : Nat) : Word := if signed then BitVec.ofInt 64 (sextNat (8 * n) v) else BitVec.ofNat 64 v

/-- A scalar access of a class (R248). -/
def scalarAccess (c : Ctx) (cls : Nat) : Access := { cls := cls, strip := c.inStrip }

/-- A load of gd. -/
def loadReg (signed : Bool) (d a : Reg) (cls : BitVec 4) (size : BitVec 2) (off : BitVec 10) : State → Out :=
  front fun x c => do
    let va := memAddr c a size off
    alignedTo va (sizeOf size)
    waitMem x cls.toNat false va (sizeOf size)
    let v ← loadClean (agentOf x c) va (sizeOf size) (scalarAccess c cls.toNat)
    updCtx x fun k => k.wg d (extend signed (sizeOf size) v)
    pure (c.after 4)

def execLd (d a : Reg) (cls : BitVec 4) (size : BitVec 2) (off : BitVec 10) : State → Out := loadReg true d a cls size off
def execLdz (d a : Reg) (cls : BitVec 4) (size : BitVec 2) (off : BitVec 10) : State → Out := loadReg false d a cls size off

/-- The low bytes of gd go to memory, never poisoned (R120). -/
def execSt (d a : Reg) (cls : BitVec 4) (size : BitVec 2) (off : BitVec 10) : State → Out :=
  front fun x c => do
    let va := memAddr c a size off
    alignedTo va (sizeOf size)
    waitMem x cls.toNat true va (sizeOf size)
    storeVa (agentOf x c) va (sizeOf size) ((c.rg d).toNat % 2 ^ (8 * sizeOf size)) false (scalarAccess c cls.toNat)
    pure (c.after 4)

/-- The acquire drops stale copies first, so that the load reads what stands there; the line is the one that `wfe` watches
(R121, R127, R254). -/
def execLda (d a : Reg) (cls : BitVec 4) (size : BitVec 2) (scope : BitVec 3) : State → Out :=
  front fun x c => do
    let va := c.rg a
    alignedTo va (sizeOf size)
    waitMem x cls.toNat false va (sizeOf size)
    let p ← place (agentOf x c) (.core (coreOf x)) .read false va
    acquireM x scope.toNat
    let (s, v, bad) := (← get).readBy x p (sizeOf size) (scalarAccess c cls.toNat)
    set s
    if bad then raise { cause := 0x0F, addr := va }
    upd fun s => s.learnWord x scope.toNat p.word (scalarAccess c cls.toNat)
    updCtx x fun k => { k.wg d (extend true (sizeOf size) v) with ldaLine := some p.line }
    pure (c.after 4)

/-- A release at the scope, then the store, which reaches the level that the scope's agents share (R121, R254). At scope 6 the
store's own line becomes persistent by a later `psync` or write-back. -/
def execStl (d a : Reg) (cls : BitVec 4) (size : BitVec 2) (scope : BitVec 3) : State → Out :=
  front fun x c => do
    let va := c.rg a
    alignedTo va (sizeOf size)
    let p ← place (agentOf x c) (.core (coreOf x)) .write false va
    releaseM x scope.toNat
    upd fun s => (s.writePlace x p (sizeOf size) ((c.rg d).toNat % 2 ^ (8 * sizeOf size)) false
      (scalarAccess c cls.toNat)).writeBacks x (scopeRank scope.toNat)
    upd fun s => (s.publishWord x scope.toNat p.word).wakePlace x p
    pure (c.after 4)

/-! ## Atomics (R122, R123, R259) -/

/-- Bit 1 of ord: a release. -/
def ordRelease (ord : BitVec 2) : Bool := ord.getLsbD 1
/-- Bit 0 of ord: an acquire. -/
def ordAcquire (ord : BitVec 2) : Bool := ord.getLsbD 0

/-- One `amo`: checked as an atomic access, a release first when ord says so; with gd = g0 outside the window it is posted and
performs later, but DESIGN CHOICE wakes the contexts that watch its line when it is issued (R127 gives no time); otherwise it performs at home and gd takes the old value, an acquire after it when ord says so. A poisoned
location raises POISON when a value returns (R122). -/
def amoOp (op : AtomOp) (d a b : Reg) (size : Nat) (scope : BitVec 3) (ord : BitVec 2) : State → Out :=
  front fun x c => do
    let va := c.rg a
    alignedTo va size
    let p ← place (agentOf x c) (.core (coreOf x)) .atomic false va
    if ordRelease ord then releaseM x scope.toNat else waitVector x
    let h := p.home
    let atom : Atom := ⟨h.1, h.2, size, op, (c.rg b).toNat % 2 ^ (8 * size), false⟩
    let inWin := match p with | .window _ _ => true | .phys _ _ => false
    if d = 0 ∧ inWin = false then
      upd fun s => (s.purgePlace x p).post x 15 scope.toNat false false [atom]
        (if ordRelease ord then some ⟨x, scope.toNat, s.releaseClock (s.base x) scope.toNat⟩ else none)
      if ordRelease ord then upd fun s => s.wakePlace x p
      if ordAcquire ord then acquireM x scope.toNat
      pure (c.after 4)
    else
      let (s, old, bad, sat) := ((← get).purgePlace x p).atomBy x atom (scalarAccess c 15)
      set s
      if bad = true ∧ d ≠ 0 then raise { cause := 0x0F, addr := va }
      if ordRelease ord then upd fun s => (s.publishWord x scope.toNat p.word).wakePlace x p
      if ordAcquire ord then upd fun s => (s.acquire x scope.toNat).learnWord x scope.toNat p.word (scalarAccess c 15)
      updCtx x fun k => { k.wg d (extend true size old) with vcsr := if sat then k.vcsr.raise fSAT else k.vcsr }
      pure (c.after 4)

def execAmoadd (d a b : Reg) (size : BitVec 2) (scope : BitVec 3) (ord : BitVec 2) : State → Out :=
  amoOp .add d a b (sizeOf size) scope ord
def execAmoand (d a b : Reg) (size : BitVec 2) (scope : BitVec 3) (ord : BitVec 2) : State → Out :=
  amoOp .and d a b (sizeOf size) scope ord
def execAmoor (d a b : Reg) (size : BitVec 2) (scope : BitVec 3) (ord : BitVec 2) : State → Out :=
  amoOp .or d a b (sizeOf size) scope ord
def execAmoxor (d a b : Reg) (size : BitVec 2) (scope : BitVec 3) (ord : BitVec 2) : State → Out :=
  amoOp .xor d a b (sizeOf size) scope ord
def execAmomin (d a b : Reg) (size : BitVec 2) (scope : BitVec 3) (ord : BitVec 2) : State → Out :=
  amoOp .min d a b (sizeOf size) scope ord
def execAmomax (d a b : Reg) (size : BitVec 2) (scope : BitVec 3) (ord : BitVec 2) : State → Out :=
  amoOp .max d a b (sizeOf size) scope ord
def execAmominu (d a b : Reg) (size : BitVec 2) (scope : BitVec 3) (ord : BitVec 2) : State → Out :=
  amoOp .minu d a b (sizeOf size) scope ord
def execAmomaxu (d a b : Reg) (size : BitVec 2) (scope : BitVec 3) (ord : BitVec 2) : State → Out :=
  amoOp .maxu d a b (sizeOf size) scope ord
def execAmoswap (d a b : Reg) (size : BitVec 2) (scope : BitVec 3) (ord : BitVec 2) : State → Out :=
  amoOp .swap d a b (sizeOf size) scope ord
def execAmofadd (d a b : Reg) (scope : BitVec 3) (ord : BitVec 2) : State → Out :=
  amoOp .fadd d a b 4 scope ord
def execAmosadd (d a b : Reg) (size : BitVec 2) (scope : BitVec 3) (ord : BitVec 2) : State → Out :=
  amoOp .sadd d a b (sizeOf size) scope ord

/-- Compares with g[gd] and swaps at home in one action; a poisoned location raises POISON (R123). -/
def execCas (d a b : Reg) (size : BitVec 2) (scope : BitVec 3) (ord : BitVec 2) : State → Out :=
  front fun x c => do
    let n := sizeOf size
    let va := c.rg a
    alignedTo va n
    let p ← place (agentOf x c) (.core (coreOf x)) .atomic false va
    if ordRelease ord then releaseM x scope.toNat else waitVector x
    let h := p.home
    upd fun s => (s.purgePlace x p).breakHome h.1 h.2
    let s ← get
    let (old, bad) := s.atomRead h.1 h.2 n
    if bad then raise { cause := 0x0F, addr := va }
    upd fun s => (s.sawWord x p.word (scalarAccess c 15)).access x (scalarAccess c 15)
    let swaps := decide (old = (c.rg d).toNat % 2 ^ (8 * n))
    if swaps then
      upd fun s => (s.atomWrite x h.1 h.2 n ((c.rg b).toNat % 2 ^ (8 * n)) false (s.base x + (scalarAccess c 15).part)).modBefore fun k =>
        (k.modified (s.base x) p.word 15).access (s.base x) (scalarAccess c 15)
    if ordRelease ord then
      if swaps then upd fun s => s.publishWord x scope.toNat p.word
      upd fun s => s.wakePlace x p
    if ordAcquire ord then upd fun s => (s.acquire x scope.toNat).learnWord x scope.toNat p.word (scalarAccess c 15)
    updCtx x fun k => k.wg d (extend true n old)
    pure (c.after 4)

end Sys2Proof.Machine
end

