-- ==== Sys2Proof/Machine/System.lean ====
section
/-! DEFINITION. Control and status registers, fences, system operations, tasks and barriers (R100, R125-R134, R256, R260-R262,
R288, R299, R352). -/

namespace Sys2Proof.Machine

/-! ## Control and status registers (R128, R129) -/

/-- The level that a CSR number is read at and, for a register with a writable field, written at. -/
def csrLevels (n : Nat) : Option (Level × Option Level) :=
  if n = 0x002 ∨ n = 0x003 ∨ n = 0x004 ∨ n = 0x005 then some (.u, some .u)
  else if n = 0x000 ∨ n = 0x001 ∨ n = 0x006 ∨ n = 0x007 ∨ n = 0x008 then some (.u, none)
  else if 0x010 ≤ n ∧ n ≤ 0x013 ∨ 0x020 ≤ n ∧ n ≤ 0x023 then some (.u, none)
  else if n = 0x100 ∨ n = 0x102 then some (.s, some .s)
  else if n = 0x101 ∨ 0x103 ≤ n ∧ n ≤ 0x106 then some (.s, none)
  else if 0x110 ≤ n ∧ n ≤ 0x112 then some (.s, some .f)
  else none

/-- Bit b of `pm`: a column of block b is marked (R296). -/
def pmWord (pm : BitVec 2048) : Word :=
  (List.range 64).foldl (fun w b => if (pm >>> (32 * b)).toNat % 2 ^ 32 ≠ 0 then w ||| (1#64 <<< b) else w) 0

/-- `coreid` (R23). -/
def coreIdWord (h : Hub) (core : Nat) : Word :=
  BitVec.ofNat 64 (h.me.z.toNat * 2 ^ 26 + h.me.y.toNat * 2 ^ 20 + h.me.x.toNat * 2 ^ 14 + core)

/-- `errata` (R354). -/
def errataWord (h : Hub) : Word := BitVec.ofNat 64 (h.errataGen * 2 ^ 56) ||| h.errataMask.setWidth 64

/-- The value of a CSR as it stands. -/
def csrValue (s : State) (x : CtxNo) (n : Nat) : Word :=
  let c := s.ctx x
  match n with
  | 0x000 => BitVec.ofNat 64 c.vl
  | 0x001 => BitVec.ofNat 64 c.vt.word
  | 0x002 => c.vstart.setWidth 64
  | 0x003 => c.vcsr.word
  | 0x004 => c.vrem
  | 0x005 => c.vsc.word
  | 0x006 => BitVec.ofNat 64 c.depth
  | 0x007 => pmWord c.pm
  | 0x008 => c.prows
  | 0x010 => BitVec.ofNat 64 c.mode.code
  | 0x011 => c.galbase
  | 0x012 => c.galptr
  | 0x013 => c.gallim
  | 0x020 => (s.core (coreOf x)).cyc
  | 0x021 => BitVec.ofNat 64 x.toNat
  | 0x022 => coreIdWord s.hub (coreOf x)
  | 0x023 => errataWord s.hub
  | 0x100 => c.trap.tvec
  | 0x101 => c.trap.tcause
  | 0x102 => c.trap.tepc
  | 0x103 => c.trap.telem
  | 0x104 => c.trap.trow
  | 0x105 => c.trap.taddr
  | 0x106 => c.trap.tinfo
  | 0x110 => (s.core (coreOf x)).tallot
  | 0x111 => (s.core (coreOf x)).wallot
  | _ => c.asid.setWidth 64

/-- The context after a write of a CSR that levels U and S may write: reserved bits are discarded (R4, R78, R82, R100, R282). -/
def csrWrite (n : Nat) (w : Word) (c : Ctx) : Ctx :=
  match n with
  | 0x002 => { c with vstart := w.setWidth 16 }
  | 0x003 => { c with vcsr := c.vcsr.write w }
  | 0x004 => { c with vrem := w }
  | 0x005 => { c with vsc := vscOf w, loopNo := c.loopNo + 1, inStrip := false }
  | 0x100 => { c with trap := { c.trap with tvec := w &&& ~~~3#64 } }
  | 0x102 => { c with trap := { c.trap with tepc := w } }
  | _ => c

/-- The cycle counter runs on by a free amount (R14). -/
def tickCyc (core : Nat) : M Unit := do
  let d ← draw
  upd fun s => s.modCore core fun k => { k with cyc := k.cyc + d }

/-- What an access of a CSR waits for: the vector and matrix instructions for `vcsr`, `pm`, `prows` (R101, R296), the vector ones for
the galley's registers (R271). `mstk` waits for none: the front end keeps the depth (R79). -/
def csrWait (x : CtxNo) (n : Nat) : M Unit := do
  if n = 0x003 ∨ n = 0x007 ∨ n = 0x008 ∨ 0x011 ≤ n ∧ n ≤ 0x013 then
    waitOn x fun e => !e.parked && decide (e.queue ≠ .copy)
  if n = 0x020 then tickCyc (coreOf x)

/-- The checks of an access: an unlisted number is ILLEGAL with reason 10, an access below its level raises PRIV. -/
def csrCheck (c : Ctx) (n : Nat) (writes : Bool) : M Unit :=
  match csrLevels n with
  | none => raise { cause := 0x01, addr := c.pc, info := illegalInfo 10 false false 0x15 }
  | some (rd, wr) =>
    if c.level.code < rd.code then raise (privTrap c.pc)
    else match wr with
      | some l => if writes = true ∧ c.level.code < l.code then raise (privTrap c.pc) else pure ()
      | none => pure ()

/-- Reads a CSR into gd and writes the new value when the instruction writes one. -/
def csrOp (d : Reg) (csr : BitVec 12) (writes : Bool) (new : Ctx → Word → Word) : State → Out :=
  front fun x c => do
    let n := csr.toNat
    csrCheck c n writes
    csrWait x n
    let old := csrValue (← get) x n
    updCtx x fun k => (if writes then csrWrite n (new k old) k else k).wg d old
    pure (c.after 4)

def execCsrr (d : Reg) (csr : BitVec 12) : State → Out := csrOp d csr false fun _ old => old
def execCsrw (d a : Reg) (csr : BitVec 12) : State → Out := csrOp d csr true fun c _ => c.rg a
def execCsrs (d a : Reg) (csr : BitVec 12) : State → Out := csrOp d csr (a != 0) fun c old => old ||| c.rg a
def execCsrc (d a : Reg) (csr : BitVec 12) : State → Out := csrOp d csr (a != 0) fun c old => old &&& ~~~(c.rg a)

/-! ## Fences (R125, R256, R352, R375) -/

/-- Waits until every earlier vector access of a masked class has performed. -/
def waitClasses (x : CtxNo) (mask : Nat) : M Unit :=
  waitOn x fun e => decide (e.queue = .vector) && !e.parked && match vectorAccess e.instr with
    | some (k, _) => mask.testBit k || (k == 15 && mask != 0)
    | none => false

def execFence (scope : BitVec 5) (mask : BitVec 16) : State → Out :=
  front fun x c => do
    waitClasses x mask.toNat
    if mask ≠ 0 then remoteWait x scope.toNat mask.toNat
    upd fun s => s.fence x scope.toNat mask.toNat false
    if scope = 6 then
      waitPosting x
      upd fun s => s.fencePersist x mask.toNat
    pure (c.after 4)

/-- The cores of a scope around a context. -/
def scopeCores (scope : Nat) (x : CtxNo) : List Nat :=
  if scope ≤ 1 then [coreOf x]
  else if scope = 2 then (List.range 4).map fun i => quadOf x * 4 + i
  else if scope = 3 then (List.range 64).map fun i => dieOf x * 64 + i
  else List.range 256

/-- The dies whose dispatch controllers a scope around a context reaches. -/
def scopeDies (scope : Nat) (x : CtxNo) : List Nat := if scope ≤ 2 then [] else if scope = 3 then [dieOf x] else [0, 1, 2, 3]

/-- Drops the instruction caches of cores, and of the dispatch controllers of dies. -/
def State.dropCode (s : State) (cores dies : List Nat) : State :=
  { s with
    cores := s.cores.map fun (k : Nat × Core) => if cores.contains k.1 then (k.1, { k.2 with icache := [] }) else k
    dies := s.dies.map fun (d : Nat × Die) => if dies.contains d.1 then (d.1, { d.2 with icache := [] }) else d }

/-- Write-backs to the home slice, then the instruction caches of the scope are dropped; scopes 5 and 6 act as 4. The write-backs
reach the home at every scope, since a later fetch returns the code that every store before the `ifence` wrote (R126, R352;
DEDUCED, log entry 21). -/
def execIfence (scope : BitVec 5) : State → Out :=
  front fun x c => do
    waitVector x
    let sc := if 4 ≤ scope.toNat then 4 else scope.toNat
    upd fun s => (s.writeBacks x (Nat.max sc 3)).dropCode (scopeCores sc x) (scopeDies sc x)
    pure (c.after 4)

def execCyc (d : Reg) : State → Out :=
  front fun x c => do
    tickCyc (coreOf x)
    let s ← get
    updCtx x fun k => k.wg d (s.core (coreOf x)).cyc
    pure (c.after 4)

/-! ## Traps, returns, snapshots, events (R126, R127, R288, R299) -/

def execSysTrap : State → Out := front fun _ _ => raise { cause := 0x12 }
def execBrk : State → Out := front fun _ _ => raise { cause := 0x13 }

/-- `tret` (R288): below S it raises PRIV; a resume address that is not a multiple of 4 raises MISALIGN (R26). The parked entry
that trapped restarts at the index that `vstart` holds (R285). -/
def execTret : State → Out :=
  front fun x c => do
    needS c
    let r := c.returned
    if r.pc.toNat % 4 ≠ 0 then raise (misalign r.pc)
    waitAll x
    updCtx x fun c =>
      let k := c.returned
      if k.level = .u ∧ c.trappedEntry.isSome = true then { ({ c with queue := c.rearmed }).returned with vstart := 0 } else k
    upd fun s => s.replan x
    pure r.pc

/-- What a core's snapshot records of its contexts. -/
def snapCtx (c : Ctx) : SnapCtx :=
  { pc := c.pc, level := c.level, cause := c.trap.tcause,
    queued := [.vector, .matrix, .copy].map fun q => (c.queue.filter fun e => decide (e.queue = q)).length }

/-- The common trigger (R299): each trigger takes the next sequence number; the registers latch when armed, and otherwise the
trigger is counted, to 255. Each block's local count at the trigger is a free value, a core's on top of what it stood at. -/
def State.snapshot (s : State) : State :=
  let n := s.hub.snap.seqNo + 1
  let cycs := s.cores.map fun (k : Nat × Core) => (k.1, k.2.cyc)
  let ctxs := s.ctxs.map fun (e : Nat × Ctx) => (e.1, snapCtx e.2)
  if s.hub.snap.armed then
    { s.modHub fun h => { h with snap := { h.snap with
        seqNo := n, armed := false, latchedSeq := some n, ctxs := ctxs, cycs := cycs, cycFrom := s.fresh } }
      with fresh := s.fresh + 1024 }
  else s.modHub fun h => { h with snap := { h.snap with seqNo := n, missed := Nat.min (h.snap.missed + 1) 255 } }

def execSnap : State → Out :=
  front fun _ c => do
    needS c
    upd State.snapshot
    pure (c.after 4)

/-- Waits for the event latch and clears it (R127). -/
def execWfe : State → Out :=
  front fun x c => do
    if c.latch then
      updCtx x fun k => { k with latch := false, wfeLooks := 0 }
      pure (c.after 4)
    else
      updCtx x fun k => { k with wfeLooks := k.wfeLooks + 1 }
      stall

/-! ## Tasks (R130-R133) -/

/-- PRIV or BADHANDLE of a record that may not be queued. -/
def recTrap (f : RecFault) (pc : Word) : TrapInfo :=
  match f with
  | .priv => privTrap pc
  | .bad => badHandle 0x03

/-- Reads and checks the record, releases, and queues it; a full queue answers 1 and queues nothing (R130). -/
def execSpawn (d a : Reg) : State → Out :=
  front fun x c => do
    let va := c.rg a
    alignedTo va 8
    waitMem x 15 false va 32
    match ← loadWords (agentOf x c) va 4 with
    | [w0, w1, w2, w3] =>
      match recCheck c.level w0 with
      | some f => raise (recTrap f c.pc)
      | none => pure ()
      let own := dieOf x
      releaseM x (recScope own w0)
      upd fun s => s.drainReserve (recDie own w0) (recPrio w0)
      if (← get).queueFull (recDie own w0) (recPrio w0) then
        updCtx x fun k => k.wg d 1
      else
        let asid := (← get).launchAsid c.tag c.asid
        upd fun s => (s.send own {
          w0 := w0, w1 := w1, w2 := w2, w3 := w3, tag := c.tag, asid := asid, cr := va, scope := recScope own w0, waited := 0, pops := 0
          hb := s.releaseClock (s.base x) (recScope own w0) }).quadCount (quadOf x) c.tag 1
        updCtx x fun k => k.wg d 0
    | _ => pure ()
    pure (c.after 4)

/-- Decrements a join block; what its rule refuses is reported at the `joindec`, with the block's address (R131, R328). A `joindec`
whose record finds no place waits as a whole, before its decrement. -/
def execJoindec (a : Reg) : State → Out :=
  front fun x c => do
    let va := c.rg a
    alignedTo va 64
    waitVector x
    let s0 ← get
    match ← joinM (agentOf x c) va with
    | .zero => raise (badHandle 0x02 va)
    | .bad => raise (badHandle 0x03 va)
    | .priv => raise (privTrap va)
    | .done => pure (c.after 4)
    | .full => do
      set s0
      stall

/-- Ends the record (R132) once every earlier instruction has completed; the drop of a barrier is a release at its scope. -/
def execExitRecord : State → Out :=
  front fun x c => do
    waitAll x
    each c.barKeys fun k => remoteWait x (barScope k)
    match (← get).endRecord x true with
    | none => stall
    | some s => do
      set s
      pure (if (s.ctx x).status = .draining then c.after 4 else 0)

/-- Word 0 of the record that `yield` queues (R133, R290). -/
def yieldWord (r : Running) (c : Ctx) : Word :=
  (r.w0 &&& 0xEF00000000000000#64) ||| ((c.after 4) &&& 0x00FFFFFFFFFFFFFF#64) |||
    (if c.level = .s then 1#64 <<< 60 else 0)

/-- Queues a continuation and ends the context; a full queue leaves the record running at PC + 4 (R133). -/
def execYieldRecord : State → Out :=
  front fun x c => do
    waitAll x
    match c.rec_ with
    | none => pure (c.after 4)
    | some r =>
      let w0 := yieldWord r c
      let own := dieOf x
      upd fun s => s.drainReserve (recDie own w0) (recPrio w0)
      if (← get).queueFull (recDie own w0) (recPrio w0) then pure (c.after 4)
      else
        releaseM x (recScope own w0)
        let s ← get
        let asid := s.launchAsid c.tag c.asid
        match s.endRecord x false with
        | none => stall
        | some s1 => do
          set (s1.send own {
            w0 := w0, w1 := c.rg 3, w2 := r.w2, w3 := c.rg 8, tag := c.tag, asid := asid, cr := c.rg 5, scope := recScope own w0
            waited := 0, pops := 0, hb := s.releaseClock (s.base x) (recScope own w0), parts := c.parts })
          pure (if (s1.ctx x).status = .draining then c.after 4 else 0)

/-! ## Barriers (R134, R260-R262) -/

/-- What a barrier belongs to: the launch's tag, or at pod scope the asid (R260). -/
def barOwner (scope : Nat) (c : Ctx) : Nat := if scope = 5 then c.asid.toNat else c.tag.toNat

/-- The checks of a barrier word, in the order of R260. `opens`: the op opens an idle barrier. -/
def barCheck (b : Barrier) (scope : Nat) (w : Word) (owner : Nat) (opens : Bool) : Option Nat :=
  let id := bitsOf 15 0 w.toNat
  let n := bitsOf 63 32 w.toNat
  if barIds scope ≤ id then some 0x0E
  else if b.state = .idle ∧ opens = true ∧ (n = 0 ∨ barLimit scope < n) then some 0x0F
  else if bitsOf 31 16 w.toNat ≠ 0 then some 0x10
  else if b.state ≠ .idle ∧ b.owner ≠ owner then some 0x1C
  else none

/-- The barrier that a word names. -/
def barOf (x : CtxNo) (scope : Nat) (w : Word) : Nat := barKey scope (barUnit scope x) (bitsOf 5 0 w.toNat)

/-- Clears the mark of an ended participation (R261). -/
def clearEnded (x : CtxNo) (key : Nat) : M Unit :=
  upd fun s => if Tab.find (s.ctx x).parts key = some .ended then s.setPart x key none else s

/-- The number by which a `bar` at the context's pc and level finds its wait. -/
def Ctx.barAt (c : Ctx) : Nat := c.pc.toNat * 4 + c.level.code

/-- Waits for the phase that a `bar` at this address waits for; a phase that completed is an acquire, a broken one gives 0x14. -/
def barAwait (x : CtxNo) (c : Ctx) (d : Reg) (scope : Nat) (w : BarWait) : M Word := do
  let b := (← get).bar w.key
  if b.phase = w.phase ∧ b.state ≠ .idle then
    updCtx x fun k => { k with barWaits := Tab.put k.barWaits c.barAt w }
    stall
  else
    let st := if b.brks.contains w.phase then 0x14 else 0
    if st = 0 then upd fun s => (s.acquire x scope).awaited x w.key w.phase
    updCtx x fun k => { k.wg d (BitVec.ofNat 64 st) with barWaits := Tab.del k.barWaits c.barAt }
    pure (c.after 4)

/-- A `bar`: a wait that was interrupted goes on; otherwise the word is checked and the operation made. -/
def barOp (b : Reg) (d : Reg) (scope : BitVec 3) (opens : Option Part → Bool)
    (act : CtxNo → Ctx → (key n owner : Nat) → M Word) : State → Out :=
  front fun x c => do
    match Tab.find c.barWaits c.barAt with
    | some w => barAwait x c d scope.toNat w
    | none =>
      let w := c.rg b
      let key := barOf x scope.toNat w
      let owner := barOwner scope.toNat c
      match barCheck ((← get).bar key) scope.toNat w owner (opens (Tab.find c.parts key)) with
      | some code => raise (badHandle code)
      | none => act x c key (bitsOf 63 32 w.toNat) owner

/-- Writes a status to gd. -/
def barStatus (x : CtxNo) (c : Ctx) (d : Reg) (st : Nat) : M Word := do
  updCtx x fun k => k.wg d (BitVec.ofNat 64 st)
  pure (c.after 4)

def execBarArrive (d b : Reg) (scope : BitVec 3) : State → Out :=
  barOp b d scope (fun _ => true) fun x c key n owner => do
    releaseM x scope.toNat
    clearEnded x key
    let (s, st) := (← get).barArrive x key n owner
    set s
    barStatus x c d st

def execBarWait (d b : Reg) (scope : BitVec 3) : State → Out :=
  barOp b d scope (fun _ => false) fun x c key _ _ => do
    clearEnded x key
    let k := (← get).bar key
    if k.state = .broken then barStatus x c d 0x14
    else barAwait x c d scope.toNat ⟨key, k.phase⟩

def execBarArrwait (d b : Reg) (scope : BitVec 3) : State → Out :=
  barOp b d scope (fun _ => true) fun x c key n owner => do
    releaseM x scope.toNat
    clearEnded x key
    let phase := ((← get).bar key).phase
    let (s, st) := (← get).barArrive x key n owner
    set s
    if st ≠ 0 then barStatus x c d st else barAwait x c d scope.toNat ⟨key, phase⟩

def execBarDrop (d b : Reg) (scope : BitVec 3) : State → Out :=
  barOp b d scope (fun p => decide (p ≠ some .ended)) fun x c key n owner => do
    releaseM x scope.toNat
    let (s, st) := (← get).barDrop x key n owner
    set s
    barStatus x c d st

end Sys2Proof.Machine
end

