-- ==== Sys2Proof/Machine/PackageMemory.lean ====
section
/-! DEFINITION. The vector fence, posted operations at their homes, optimiser commands, the near-memory fence, and the
invalidation of translations (R257, R351, R358-R367). -/

namespace Sys2Proof.Machine

/-! ## `vfence` (R257) -/

/-- The mask of a `vfence`. -/
def vfenceMask (f : Op64) : Nat := f.fn4.toNat * 4096 + f.mod12.toNat

def vfenceDef (f : Op64) : QueueDef where
  usesVstart := false
  check := fun _ _ => pure ()
  body := fun x _ => do
    if vfenceMask f = 0 then pure ()
    else
      remoteWait x f.fn3.toNat (vfenceMask f)
      upd fun s => s.fence x f.fn3.toNat (vfenceMask f) true
      if f.fn3 = 6 then upd fun s => s.vfencePersist x (vfenceMask f)

/-! ## Posted operations (R361, R363) -/

/-- An operation that stands before `n` on the way from the same context to the same home (R358). -/
def State.follows (s : State) (p : Posted) : Bool :=
  (s.posted.takeWhile fun q => q.no != p.no).any fun q => q.x == p.x && !q.arrived && decide (q.unit = p.unit)

/-- The operation goes to its base-die unit. -/
def Posted.toUnit (p : Posted) : Bool := decide (p.unit.1 = .unit)

/-- POSTED_OPERATION: the operation reaches its home. At a slice, a durable controller or a quad store it performs there; at a
base-die unit it takes its place in the order of arrival, ahead of those that have not arrived. -/
def execPostedOperation (s : State) : Out :=
  match s.arg with
  | .num n =>
    match s.posted.find? fun p => p.no == n with
    | some p =>
      if p.arrived ∨ s.follows p = true then .next s
      else if p.toUnit then
        .next { s with posted := (s.posted.filter fun q => q.arrived) ++ { p with arrived := true } ::
          s.posted.filter fun q => !q.arrived && q.no != n }
      else .next (s.performPosted p)
    | none => .next s
  | _ => .next s

/-- HOME_UNIT_OPERATION: the first operation that has arrived at a unit executes whole. -/
def execHomeUnitOperation (s : State) : Out :=
  match s.arg with
  | .num n =>
    match s.posted.find? fun p => p.arrived && p.toUnit && p.unit.2 == n with
    | some p => .next (s.performPosted p)
    | none => .next s
  | _ => .next s

/-! ## Optimiser commands (R364-R366) -/

/-- One array of a parameter block. -/
structure NmArray where
  base : Word
  size : Nat
  acc : Acc
  used : Bool
  deriving DecidableEq, Repr

/-- Word `k` of a block. -/
def blockWord (b : List Word) (k : Nat) : Word := b.getD k 0
/-- A 4-byte field of a block at an offset. -/
def blockHalf (b : List Word) (off : Nat) : Nat := (blockWord b (off / 8)).toNat >>> (8 * (off % 8)) % 2 ^ 32

/-- The arrays x, g, m and v of a command. -/
def nmArrays (op : Nat) (b : List Word) : List NmArray :=
  [⟨blockWord b 1, 4, .write, true⟩,
   ⟨blockWord b 2, if blockHalf b 0x44 % 2 = 1 then 2 else 4, .read, decide (op ≠ 3)⟩,
   ⟨blockWord b 3, 4, .write, decide (op ≤ 1)⟩,
   ⟨blockWord b 4, 4, .write, decide (op = 0)⟩]

/-- Zero fields, unused bases and alignment of a block. -/
def nmBlockOk (op : Nat) (b : List Word) : Bool :=
  decide (blockHalf b 0x44 < 2) && [9, 10, 11].all (fun k => blockWord b k == 0) &&
  (nmArrays op b).all fun a => if a.used then decide (a.base.toNat % 64 = 0) else a.base == 0

/-- The page of an array as it is translated; where nothing maps it, a large page is taken, and its translation then fails. -/
def State.nmPage (s : State) (ag : Agent) (va : Word) : Nat :=
  match s.peek (.core (coreOf ag.x)) ag.asid va with
  | some (_, _, big) => if big then 2 ^ 29 else 2 ^ 16
  | none => 2 ^ 29

/-- An array of `n` elements lies in one page and overlaps none of the others. -/
def State.nmRangeOk (s : State) (ag : Agent) (n : Nat) (a : NmArray) (others : List NmArray) : Bool :=
  let len := n * a.size
  let page := s.nmPage ag a.base
  decide (a.base.toNat % page + len ≤ page) &&
  others.all fun o => decide (n = 0 ∨ a.base.toNat + len ≤ o.base.toNat ∨ o.base.toNat + n * o.size ≤ a.base.toNat)

/-- Checks the arrays in order against those before them. -/
def nmRanges (ag : Agent) (n : Nat) (before : List NmArray) : List NmArray → M Unit
  | [] => pure ()
  | a :: t => do
    if a.used then
      if !((← get).nmRangeOk ag n a before) then raise (badHandle 0x1F a.base)
      nmRanges ag n (a :: before) t
    else nmRanges ag n before t

/-- The physical base of each array: a used one must lie on an MS page, which is one of HBM4 (R345). -/
def nmBases (ag : Agent) : List NmArray → M (List Nat)
  | [] => pure []
  | a :: t => do
    if a.used then
      if inWindow a.base then
        let _ ← place ag (.core (coreOf ag.x)) a.acc false a.base
      let (pa, pte) ← xlate (.core (coreOf ag.x)) ag.asid ag.level a.acc false a.base
      if !(pteMs pte) then
        let lvl := if (← get).nmPage ag a.base = 2 ^ 29 then 2 else 3
        raise (pageTrap a.base a.acc lvl 0x17 false)
      pure (pa :: (← nmBases ag t))
    else pure (0 :: (← nmBases ag t))

/-- The classes that a fork edge covers. -/
def forkMask (cls : Nat) : Nat := if cls = 15 then 0xFFFF else 2 ^ cls

/-- The checks of a command in the order of R366, the waits of its fork edge, and its start. -/
def nmop (op : Nat) (f : Op64) : State → Out :=
  front fun x c => do
    let blk := c.rg (gpr f.vs1)
    let obj := c.rg (gpr f.vs2)
    if blk.toNat % 32 ≠ 0 then raise (misalign blk)
    if obj.toNat % 8 ≠ 0 ∨ obj = 0 then raise (misalign obj)
    waitMem x 15 false blk 96
    let ag : Agent := { agentOf x c with noWindow := true }
    let b ← loadWords ag blk 12
    if !(nmBlockOk op b) then raise (badHandle 0x1E)
    nmRanges ag (blockWord b 0).toNat [] (nmArrays op b)
    let bases ← nmBases ag (nmArrays op b)
    -- an object in the window is refused (R314)
    if inWindow obj then
      let _ ← place ag (.core (coreOf x)) .atomic false obj
    waitClasses x (forkMask f.cls4.toNat)
    forkRemote x f.cls4.toNat
    upd fun s => s.fork x f.cls4.toNat f.fn3.toNat
    let no ← serialM
    upd fun s =>
      let n : Nmop := {
        no := no, x := x, tag := c.tag, asid := c.asid, level := c.level, op := op, scope := f.fn3.toNat, obj := obj, block := b
        bases := bases, left := List.range (blockWord b 0).toNat, hb := s.forkClock x f.cls4.toNat }
      { s.begins no c.tag [] with nmops := s.nmops ++ [n] }
    pure (c.after (opBytes f))

def execNmopAdamw (f : Op64) : State → Out := nmop 0 f
def execNmopSgdm (f : Op64) : State → Out := nmop 1 f
def execNmopScadd (f : Op64) : State → Out := nmop 2 f
def execNmopClr (f : Op64) : State → Out := nmop 3 f

/-- Round(…, FP32, RNE) of an exact value, as bits. -/
def nmRound (v : Val) : Nat := (roundTo .fp32 .rne false 0 v).1
/-- A rounded intermediate value. -/
def nmR (v : Val) : Val := Fmt.decode .fp32 (nmRound v)
/-- Exact sums and products of the update formulas. -/
def nmAdd (a b : Val) : Val := (addVal .rne a b).1
def nmSub (a b : Val) : Val := (addVal .rne a b.negate).1
def nmMul (a b : Val) : Val := (mulVal a b).1

/-- The new x, m and v of one element (R366), as bits. -/
def nmStep (op : Nat) (b : List Word) (x g m v : Val) : Nat × Nat × Nat :=
  let fld (off : Nat) : Val := Fmt.decode .fp32 (blockHalf b off)
  let lr := fld 0x28
  let b1 := fld 0x2C
  let b2 := fld 0x30
  let wd := fld 0x38
  let one : Val := .fin false 1 0 false
  match op with
  | 0 =>
    let t1 := nmR (nmSub one b1)
    let t2 := nmR (nmSub one b2)
    let m' := nmRound (nmAdd (nmMul b1 m) (nmMul t1 g))
    let v' := nmRound (nmAdd (nmMul b2 v) (nmMul (nmMul t2 g) g))
    let mh := nmR (nmMul (Fmt.decode .fp32 m') (fld 0x3C))
    let vh := nmR (nmMul (Fmt.decode .fp32 v') (fld 0x40))
    let den := nmR (nmAdd (nmR (sqrtVal vh).1) (fld 0x34))
    let u := nmR (nmAdd (nmR (divVal mh den).1) (nmMul wd x))
    (nmRound (nmSub x (nmMul lr u)), m', v')
  | 1 =>
    let m' := nmRound (nmAdd (nmMul b1 m) g)
    let u := nmR (nmAdd (Fmt.decode .fp32 m') (nmMul wd x))
    (nmRound (nmSub x (nmMul lr u)), m', 0)
  | 2 => (nmRound (nmAdd (nmMul lr g) (nmMul b1 x)), 0, 0)
  | _ => (0, 0, 0)

/-- Element `i` of a command at the units: every used word is read, and the outputs are written, poisoned when an input word was
(R361, R366); what has arrived at their units performs first. -/
def State.nmElement (s0 : State) (c : Nmop) (i : Nat) : State :=
  let arrs := (nmArrays c.op c.block).zip c.bases
  let s := arrs.foldl (fun t a => if a.1.used then t.settleUnit (a.2 + i * a.1.size) else t) s0
  let rd (k : Nat) : Val × Bool :=
    match arrs[k]? with
    | some (a, base) =>
      if a.used then
        let r := s.unitRead (base + i * a.size) a.size
        (Fmt.decode (if a.size = 2 then .bf16 else .fp32) r.1, r.2)
      else (Val.zero false, false)
    | none => (Val.zero false, false)
  let x := if c.op = 3 then (Val.zero false, false) else rd 0
  let g := rd 1
  let m := rd 2
  let v := rd 3
  let bad := x.2 || g.2 || m.2 || v.2
  let r := nmStep c.op c.block x.1 g.1 m.1 v.1
  let wr (t : State) (k val : Nat) : State :=
    match arrs[k]? with
    | some (a, base) => if a.used then t.unitPut (base + i * 4) 4 val bad else t
    | none => t
  wr (wr (wr s 0 r.1) 2 r.2.1) 3 r.2.2

/-- NMOP_ELEMENT: one element that is left. -/
def execNmopElement (s : State) : Out :=
  match s.arg with
  | .element n i =>
    match s.nmops.find? fun c => c.no == n with
    | some c =>
      if c.left.contains i then
        .next { s.nmElement c i with nmops := s.nmops.map fun d => if d.no = n then { d with left := d.left.filter fun j => j != i } else d }
      else .next s
    | none => .next s
  | _ => .next s

/-- NMOP_COMPLETION: every element has been applied; the object is incremented. An object that cannot be reached is left alone:
the access is refused and logged. -/
def execNmopCompletion (s : State) : Out :=
  match s.arg with
  | .num n =>
    match s.nmops.find? fun c => c.no == n with
    | some c =>
      if c.left.isEmpty then
        let s1 := { s with nmops := s.nmops.filter fun d => d.no != n }
        match place { x := c.x, level := c.level, asid := c.asid, tag := c.tag, engine := true } (.core (coreOf c.x)) .atomic false c.obj s1 with
        | .ok p s2 => .next (s2.completeObject c.x (homeDie (c.bases.getD 0 0)) c.scope p c.no c.hb)
        | .error _ s2 => .next s2
      else .next s
    | none => .next s
  | _ => .next s

/-! ## `nmfen` (R367) -/

/-- Waits for the posted operations of covered scope at their homes: reduce stores to other devices too (R363, R406). -/
def execNmfen (f : Op64) : State → Out :=
  front fun x c => do
    waitPosting x
    if c.queue.any fun e => !e.parked && match e.instr with
        | .rredst g => scopeCovers f.fn3.toNat g.fn3.toNat
        | _ => false then stall
    if c.remote.any fun r => !r.acked && decide (r.major = 0xC2) && scopeCovers f.fn3.toNat r.scope then stall
    upd fun s => s.settle fun p => p.x == x && scopeCovers f.fn3.toNat p.scope
    pure (c.after (opBytes f))

/-! ## `tlbinv` (R351) -/

/-- The virtual range of a TLB entry's page overlaps [lo, hi). -/
def TlbEntry.meets (e : TlbEntry) (asid : BitVec 16) (lo hi : Nat) : Bool :=
  let size := if e.big then 2 ^ 29 else 2 ^ 16
  e.asid == asid && decide (e.page * size < hi ∧ lo < (e.page + 1) * size)

/-- A physical line lies in the page that an entry maps. -/
def TlbEntry.holdsLine (e : TlbEntry) (ln : Nat) : Bool :=
  if e.big then 64 * ln / 2 ^ 29 == bitsOf 51 29 e.pte.toNat else 64 * ln / 2 ^ 16 == bitsOf 51 16 e.pte.toNat

/-- The quads whose TLBs and caches a scope reaches. -/
def scopeQuads (scope : Nat) (x : CtxNo) : List Nat :=
  if scope ≤ 1 then []
  else if scope = 2 then [quadOf x]
  else if scope = 3 then (List.range 16).map fun i => dieOf x * 16 + i
  else List.range 64
/-- Every entry of the scope's TLBs. -/
def State.scopeTlbs (s : State) (scope : Nat) (x : CtxNo) : List TlbEntry :=
  ((scopeCores scope x).flatMap fun c => (s.core c).tlb) ++ ((scopeQuads scope x).flatMap fun q => (s.quad q).tlb) ++
  ((scopeDies scope x).flatMap fun d => (s.die d).collTlb) ++ (if 4 ≤ scope then s.hub.tlb else [])

/-- Drops entries from the scope's TLBs, and the asid's entries from its walk caches. -/
def State.dropTlbs (s : State) (scope : Nat) (x : CtxNo) (asid : BitVec 16) (gone : TlbEntry → Bool) : State :=
  let keep (l : List TlbEntry) : List TlbEntry := l.filter fun e => !gone e
  { s with
    cores := s.cores.map fun (e : Nat × Core) =>
      if (scopeCores scope x).contains e.1 then (e.1, { e.2 with tlb := keep e.2.tlb }) else e
    quads := s.quads.map fun (e : Nat × Quad) =>
      if (scopeQuads scope x).contains e.1 then (e.1, { e.2 with tlb := keep e.2.tlb }) else e
    dies := s.dies.map fun (e : Nat × Die) =>
      if (scopeDies scope x).contains e.1 then
        (e.1, { e.2 with collTlb := keep e.2.collTlb, walks := e.2.walks.filter fun w => w.asid != asid }) else e
    hub := if 4 ≤ scope then { s.hub with tlb := keep s.hub.tlb } else s.hub }

/-- Writes the dirty bytes of pages in the scope's L1s and quad caches back to home. -/
def State.cleanPages (s : State) (scope : Nat) (x : CtxNo) (pages : List TlbEntry) : State :=
  let mine (l : Nat × Line) : Bool := l.2.dirty != 0 && pages.any fun e => e.holdsLine l.1
  let s1 := (scopeCores scope x).foldl (fun t c => ((t.core c).l1.filter mine).foldl (fun u l => u.cleanL1 none c l.1) t) s
  (scopeQuads scope x).foldl (fun t q => ((t.quad q).cache.filter mine).foldl (fun u l => u.cleanQuad none q l.1) t) s1

/-- A physical line lies in one of the pages. -/
def inPages (pages : List TlbEntry) (ln : Nat) : Bool := pages.any fun e => e.holdsLine ln
/-- An optimiser command of the scope, translated when it began, has elements left in one of the pages. -/
def Nmop.uses (c : Nmop) (pages : List TlbEntry) : Bool :=
  let len := 4 * (blockWord c.block 0).toNat
  !c.left.isEmpty && c.bases.any fun b => pages.any fun e => e.holdsLine (b / 64) || e.holdsLine ((b + len) / 64)
/-- Every access of the scope that used an entry of the pages performs: posted operations at their homes, and the durable writes on
their way. -/
def State.performPages (s : State) (cores : List Nat) (pages : List TlbEntry) : State :=
  let s1 := s.settle fun p => cores.contains (coreOf p.x) && p.atoms.any fun a =>
    (match a.home with | .store _ => false | _ => true) && inPages pages (a.addr / 64)
  ((s1.hub.waiting.map fun w => w.line).filter (inPages pages)).foldl State.acceptLine s1

/-- A `fence` of every class. -/
def fenceAll (x : CtxNo) (scope : Nat) : M Unit := do
  waitClasses x 0xFFFF
  remoteWait x scope
  upd fun s => s.fence x scope 0xFFFF false
  if scope = 6 then persistM x

def execTlbinv (f : Op64) : State → Out :=
  front fun x c => do
    needS c
    let a := (c.rg (gpr f.vd)).toNat
    let lo := (c.rg (gpr f.vs1)).toNat
    let n := (c.rg (gpr f.vs2)).toNat
    if 0xFFFF < a ∨ lo % 0x10000 ≠ 0 ∨ n % 0x10000 ≠ 0 then raise (badHandle 0x1D)
    let scope := f.fn3.toNat
    fenceAll x scope
    let asid := BitVec.ofNat 16 a
    let gone (e : TlbEntry) : Bool := e.meets asid lo (if n = 0 then 2 ^ 64 else lo + n)
    let pages := ((← get).scopeTlbs scope x).filter gone
    if (← get).nmops.any fun n => (scopeCores scope x).contains (coreOf n.x) && n.uses pages then stall
    upd fun s => s.dropTlbs scope x asid gone
    if 3 ≤ scope then upd fun s => s.cleanPages scope x pages
    upd fun s => s.performPages (scopeCores scope x) pages
    fenceAll x scope
    pure (c.after (opBytes f))

/-! ## Meanings -/

def execVfence (f : Op64) : State → Out := runDef (.vfence f) f (vfenceDef f)

end Sys2Proof.Machine
end

