-- ==== Sys2Proof/Machine/Durable.lean ====
section
/-! DEFINITION. The durable tier: write-backs into the persist domain, the persist buffer, and the loss and return of power
(R369-R380, R382, R384). -/

namespace Sys2Proof.Machine

/-! ## `pwb` and `psync` (R373, R374) -/

/-- Writes back a context's dirty bytes of the lines of one 64 KiB part of a range, when its page is present and durable. -/
def State.pwbPart (s : State) (x : CtxNo) (asid : BitVec 16) (lo hi part : Nat) : State :=
  let first := max (part * 0x10000) (lo / 64 * 64)
  let last := min ((part + 1) * 0x10000) (roundUp hi 64)
  match s.peek (.core (coreOf x)) asid (BitVec.ofNat 64 first) with
  | some (pa, pte, _) =>
    if pteD pte then
      let mine (l : Nat) : Bool := decide (pa / 64 ≤ l ∧ l < pa / 64 + (last - first) / 64)
      let s1 := ((durableLines (s.core (coreOf x)).l1).filter mine).foldl (fun t l => t.cleanL1 (some x) (coreOf x) l) s
      ((durableLines (s1.quad (quadOf x)).cache).filter mine).foldl (fun t l => t.cleanQuad (some x) (quadOf x) l) s1
    else s
  | none => s

def execPwb (f : Op64) : State → Out :=
  front fun x c => do
    let lo := (c.rg (gpr f.vs1)).toNat
    let n := (c.rg (gpr f.vs2)).toNat
    if 0x40000000 < n ∨ 2 ^ 64 < lo + n then raise (badHandle 0x20)
    waitClasses x (forkMask f.cls4.toNat)
    upd fun s => (s.settle (forkCovers x f.cls4.toNat)).coverClass x f.cls4.toNat
    if 0 < n then
      upd fun s => (List.range ((lo + n - 1) / 0x10000 - lo / 0x10000 + 1)).foldl
        (fun t i => t.pwbPart x c.asid lo (lo + n) (lo / 0x10000 + i)) s
    pure (c.after (opBytes f))

def execPsync : State → Out :=
  front fun x c => do
    persistM x
    pure (c.after 8)

/-! ## The persist buffer (R372) -/

/-- PERSIST_ACCEPT: the buffer accepts the `n`th waiting write, when it is the oldest of its line and the buffer has room. -/
def execPersistAccept (s : State) : Out :=
  match s.arg with
  | .num n =>
    match s.hub.waiting[n]? with
    | some w =>
      if (s.hub.waiting.take n).any fun v => v.line == w.line then .next s
      else if s.hub.buffer.length < persistLines ∨ s.hub.buffer.contains w.line = true then
        .next (s.acceptOne w (s.hub.waiting.eraseIdx n))
      else .next s
    | none => .next s
  | _ => .next s

/-- PERSIST_DRAIN: a line that the buffer holds goes to its stack. -/
def execPersistDrain (s : State) : Out :=
  match s.arg with
  | .num ln => .next (s.modHub fun h => { h with buffer := h.buffer.filter fun l => l != ln })
  | _ => .next s

/-! ## Power (R377-R379, R382) -/

/-- A line holds one of the entries of its history that may be chosen, by a free value (R378). -/
def State.recoverLine (s : State) (ln : Nat) (h : History) : State :=
  match h.entries[(Config.freeWord s.fresh).toNat % h.eligible]? with
  | some e => { s.rawWrite ln (fullPatch e.data e.pois) with fresh := s.fresh + 1 }
  | none => s

/-- What the hold-up drain leaves of a line that the buffer held (R379): granules that fail, by free values, hold the poison code;
after a drain that does not complete the bytes are free values too. The second component says whether a granule has failed. -/
def State.drainHeld (s : State) (complete : Bool) (ln : Nat) : State × Bool :=
  let bad : BitVec 8 := (Config.freeWord s.fresh).setWidth 8
  let data : BitVec 512 := (List.range 8).foldl (fun a i => a ||| ((Config.freeWord (s.fresh + 1 + i)).setWidth 512 <<< (64 * i))) 0
  let w : Patch := if complete then { data := 0, mask := granules bad, pois := bad } else fullPatch data bad
  ({ s.rawWrite ln w with fresh := s.fresh + 9 }, decide (bad ≠ 0))

/-- The hold-up drain of the persist buffer: the state, whether it completed, by a free value, and whether a granule failed. -/
def State.holdUp (s : State) : State × Bool × Bool :=
  let complete := (Config.freeWord s.fresh).getLsbD 0
  s.hub.buffer.foldl (fun (a : State × Bool × Bool) ln =>
    let r := a.1.drainHeld complete ln
    (r.1, complete, a.2.2 || r.2)) ({ s with fresh := s.fresh + 1 }, complete, false)

/-- The package without power: durable memory, fuses, the persist status, the record of withdrawn and retired cores and banks
that LOAD tests again (R384), and what has been sent to the host remain. -/
def State.dark (s : State) (loss : Bool) (drain : Bool := true) (bad : Bool := false) : State :=
  { mem := s.mem.filter fun c => isDurable c.1
    marks := s.marks.filter fun g => isDurable (8 * g)
    cores := (s.cores.filter fun c => c.2.withdrawn || c.2.retired).map fun c => (c.1, { withdrawn := c.2.withdrawn, retired := c.2.retired })
    quads := (s.quads.filter fun q => !q.2.banks.isEmpty).map fun q => (q.1, { banks := q.2.banks })
    hub := { boot := .off, minSvn := s.hub.minSvn, sent := s.hub.sent, reports := s.hub.reports
             persist := { s.hub.persist with bad := bad, drain := drain, loss := loss } }
    agenda := s.agenda, fresh := s.fresh, serial := s.serial }

/-- POWER_LOSS: writes that the buffer has not accepted are lost, each durable line recovers to an entry of its history, and the
hold-up drain ends as it may. -/
def execPowerLoss (s : State) : Out :=
  if s.hub.boot = .off then .next s
  else
    let r := (s.hub.history.foldl (fun t h => t.recoverLine h.1 h.2) s).holdUp
    .next (r.1.dark true r.2.1 r.2.2)

/-- Writes back every dirty durable byte of the package and accepts every waiting write. -/
def State.orderlyFlush (s : State) : State :=
  let s1 := s.cores.foldl (fun t (c : Nat × Core) => (durableLines c.2.l1).foldl (fun u l => u.cleanL1 none c.1 l) t) s
  let s2 := s1.quads.foldl (fun t (q : Nat × Quad) => (durableLines q.2.cache).foldl (fun u l => u.cleanQuad none q.1 l) t) s1
  s2.acceptWaiting

/-- The orderly power-down: every dirty durable byte is persistent before power goes. -/
def State.powerDown (s : State) : State := (s.orderlyFlush).dark false

/-- THERMAL_SHUTDOWN at 115 °C or above (R388). -/
def execThermalShutdown (s : State) : Out :=
  match s.arg with
  | .dieTemp _ t => if 115 ≤ t ∧ s.hub.boot ≠ .off then .next s.powerDown else .next s
  | _ => .next s

/-- BOOT_ROM: power returns and the hub is in ROM, or it finishes its self-test there and waits for an image, with one lane of its
Ethernet port up (R382). The count of power-ups saturates (R379). -/
def execBootRom (s : State) : Out :=
  match s.hub.boot with
  | .off => .next (s.modHub fun h => { h with
      boot := .rom, persist := { h.persist with cycles := Nat.min (h.persist.cycles + 1) (2 ^ 32 - 1) } })
  | .rom => .next (s.modHub fun h => { h with boot := .wait, lanes := 1 })
  | _ => .next s

end Sys2Proof.Machine
end

