-- ==== Sys2Proof/Machine/Matrix.lean ====
section
/-! DEFINITION. The matrix engine: tiles, formes, allotment, loads, multiply-accumulate and moves (R108, R229-R246). -/

namespace Sys2Proof.Machine

/-! ## Tiles and formes (R229-R233) -/

/-- A row of a tile. -/
def Core.tileRow (k : Core) (t r : Nat) : TileRow := Tab.look {} (Tab.look [] k.tiles t) r
/-- Writes a row of a tile. -/
def Core.setTileRow (k : Core) (t r : Nat) (w : TileRow) : Core :=
  { k with tiles := Tab.put k.tiles t (Tab.put (Tab.look [] k.tiles t) r w) }
/-- An element of a tile row and its mark. -/
def TileRow.elem (w : TileRow) (c : Nat) : Nat × Bool := ((w.bits >>> (32 * c)).toNat % 2 ^ 32, w.pois.getLsbD c)
/-- Writes an element of a tile row; a poisoned one holds 0. -/
def TileRow.put (w : TileRow) (c : Nat) (v : Option Nat) : TileRow :=
  let m : BitVec 4096 := BitVec.ofNat 4096 (2 ^ 32 - 1) <<< (32 * c)
  { bits := (w.bits &&& ~~~m) ||| (BitVec.ofNat 4096 (v.getD 0 % 2 ^ 32) <<< (32 * c)),
    pois := if v.isSome then w.pois &&& ~~~(1#128 <<< c) else w.pois ||| (1#128 <<< c) }

/-- BADHANDLE of a matrix instruction (R233). -/
def matHandle (code index : Nat) : TrapInfo := badHandle (code + 256 * index)

/-- The instruction's tile belongs to the context. -/
def ownTile (x : CtxNo) (j : BitVec 8) : M Unit := do
  if !owns ((← get).core (coreOf x)).tallot j.toNat x then raise (matHandle 0x06 j.toNat)
/-- The instruction's forme belongs to the context. -/
def ownForme (x : CtxNo) (j : BitVec 8) : M Unit := do
  if !owns ((← get).core (coreOf x)).wallot j.toNat x then raise (matHandle 0x07 j.toNat)

/-- The units whose owner or enable two allotment words disagree on (R232). -/
def changedUnits (a b : Word) : List Nat := (List.range 8).filter fun j => (a ^^^ b) >>> (4 * j) &&& 11#64 != 0

/-- ILLEGAL with reason 9 when the offset and G pass 128 (R63). -/
def tileBounds (c : Ctx) (major : Nat) (f : Op64) : M Unit :=
  if 128 < f.mod12.toNat + c.vt.size then illegalM c major f 9 else pure ()
/-- `vl` above 128 (R234). -/
def tileCols (c : Ctx) (major : Nat) (f : Op64) : M Unit := if 128 < c.vl then illegalM c major f 9 else pure ()

/-! ## Shape, load and swap (R235-R239) -/

def mshapeDef (f : Op64) : QueueDef where
  queue := .matrix
  usesVstart := false
  check := fun _ c => let n := (c.rg (gpr f.vs1)).toNat; if n = 0 ∨ 128 < n then raise (matHandle 0x0D 0) else pure ()
  keeps := fun x s => s.modCtx x fun c => { c with shape := (c.rg (gpr f.vs1)).toNat }
  body := fun _ _ => pure ()

/-- One row of R236: the bits of an element, the largest K, and whether the format is 2:4 sparse and block-scaled. -/
structure WFmt where
  bits : Nat
  kmax : Nat
  sparse : Bool
  scaled : Bool

/-- The formats of R236. -/
def wfmt (n : Nat) : WFmt :=
  match n with
  | 0 | 1 => ⟨16, 128, false, false⟩
  | 2 | 3 => ⟨8, 256, false, false⟩
  | 4 => ⟨4, 512, false, true⟩
  | 5 => ⟨4, 1024, true, true⟩
  | _ => ⟨8, 512, true, false⟩

/-- The layout of an image (R237): the column stride, the starts of the metadata and of the scales, the metadata stride of a
column block, and the image's bytes. -/
structure WImage where
  cs : Nat
  ms : Nat
  meta_ : Nat
  scales : Nat
  bytes : Nat

/-- The layout for a format, a depth and a width. -/
def wimage (w : WFmt) (k n : Nat) : WImage :=
  let ks := if w.sparse then k / 2 else k
  let cs := ceilDiv (ks * w.bits) 512 * 64
  let nb := ceilDiv n 8
  let ms := ceilDiv k 512 * 64
  let sc := n * cs + (if w.sparse then nb * ms else 0)
  ⟨cs, ms, n * cs, sc, sc + (if w.scaled then nb * 16 else 0)⟩

/-- Reads a granule of an image. The read is the engine's: it takes no part in the order of the context's own accesses. -/
def imageRead (ag : Agent) (va : Word) : M (Nat × Bool) := do
  let p ← place ag (.core (coreOf ag.x)) .read false va
  let r := (← get).readPlace (coreOf ag.x) p 8
  set r.1
  pure r.2

/-- Reads `n` granules of an image. -/
def readImage (ag : Agent) (base : Word) : (n : Nat) → M (List (Nat × Bool))
  | 0 => pure []
  | n + 1 => do
    let t ← readImage ag base n
    let v ← imageRead ag (base + BitVec.ofNat 64 (8 * n))
    pure (v :: t)

/-- `n` bytes of an image from offset `o`, both multiples of 8. -/
def imageBits (g : Array (Nat × Bool)) (o n : Nat) : Nat :=
  (List.range (n / 8)).foldl (fun a i => a + (g.getD (o / 8 + i) (0, false)).1 * 2 ^ (64 * i)) 0

/-- The granule of a byte is poisoned. -/
def imageBad (g : Array (Nat × Bool)) (o : Nat) : Bool := (g.getD (o / 8) (0, false)).2

/-- The stored element of logical row `k`, from the metadata of its column block: none for a decoded zero (R237). -/
def storedElem (w : WFmt) (mdata : Nat) (k : Nat) : Option Nat :=
  if w.sparse then
    let nib := mdata / 16 ^ (k / 4) % 16
    let i0 := nib % 4
    let i1 := nib / 4
    if i1 ≤ i0 then none
    else if k % 4 = i0 then some (2 * (k / 4))
    else if k % 4 = i1 then some (2 * (k / 4) + 1)
    else none
  else some k

/-- The marks of a column of weights: from the poisoned granules of its stored elements, scales and metadata (R238). -/
def columnMarks (w : WFmt) (l : WImage) (g : Array (Nat × Bool)) (mdata : Nat) (k n : Nat) : BitVec 1024 :=
  (List.range k).foldl (fun m r =>
    let bad := (match storedElem w mdata r with
        | none => false
        | some s => imageBad g (n * l.cs + s * w.bits / 8) || (w.scaled && imageBad g (l.scales + n / 8 * 16 + s / 32))) ||
      (w.sparse && imageBad g (l.meta_ + n / 8 * l.ms + r / 8))
    if bad then m ||| (1#1024 <<< r) else m) 0

/-- The plane that an image holds. -/
def planeOf (fmt k n : Nat) (g : Array (Nat × Bool)) : Plane :=
  let w := wfmt fmt
  let l := wimage w k n
  let nb := ceilDiv n 8
  let md (cb : Nat) : Nat := if w.sparse then imageBits g (l.meta_ + cb * l.ms) l.ms else 0
  { tag := ⟨fmt, k, n⟩,
    weights := (List.range n).map fun c => (c, BitVec.ofNat 2048 (imageBits g (c * l.cs) l.cs)),
    mdata := if w.sparse then (List.range nb).map fun cb => (cb, BitVec.ofNat 1024 (md cb)) else [],
    scales := if w.scaled then (List.range nb).map fun cb => (cb, BitVec.ofNat 128 (imageBits g (l.scales + 16 * cb) 16)) else [],
    pois := if g.any fun v => v.2 then (List.range n).map fun c => (c, columnMarks w l g (md (c / 8)) k c) else [] }

/-- Loads an image into the shadow plane, which is empty while the load is trapped (R231, R238). The fork edge covers the context's
posted operations of its class; the reads are the engine's, so the load makes no write-backs. -/
def wldDef (f : Op64) : QueueDef where
  queue := .matrix
  usesVstart := false
  check := fun x c => do
    ownForme x f.vd
    let w := wfmt f.fn4.toNat
    if c.vl = 0 ∨ w.kmax < c.vl ∨ (w.sparse = true ∧ c.vl % 4 ≠ 0) then raise (matHandle 0x0C f.vd.toNat)
  keeps := fun x s => s.modForme x f.vd.toNat fun w => { w with shadowTag := some ⟨f.fn4.toNat, (s.ctx x).vl, (s.ctx x).shape⟩ }
  body := fun x e s =>
    let c := s.ctx x
    let l := wimage (wfmt f.fn4.toNat) e.vl e.shape
    let run : M (List (Nat × Bool)) := do
      if e.sa.toNat % 64 ≠ 0 then raise (misalign e.sa)
      readImage (entryAgent x c e) e.sa (l.bytes / 8)
    let known := s.modBefore fun b => b.learn (s.base x + queuePart .matrix) e.hb
    match run (known.settle (forkCovers x f.cls4.toNat)) with
    | .ok g s1 =>
      let p := planeOf f.fn4.toNat e.vl e.shape g.reverse.toArray
      .ok () (s1.modForme x f.vd.toNat fun w => { w with
        shadow := some p })
    | .error (.trap t) s1 =>
      .error (.trap { t with elem := 0 }) (s1.modForme x f.vd.toNat fun w => { w with shadow := none })
    | .error .wait s1 => .error .wait s1

def wswapDef (f : Op64) : QueueDef where
  queue := .matrix
  usesVstart := false
  check := fun x _ => ownForme x f.vd
  keeps := fun x s => s.modForme x f.vd.toNat Forme.swapTags
  body := fun x _ => upd fun s => s.modForme x f.vd.toNat fun w => { w with active := w.shadow, shadow := w.active }

/-! ## Multiply-accumulate (R108, R240-R242) -/

/-- The weight of column `n` and logical row `k`, with its scale. -/
def Plane.weight (p : Plane) (n k : Nat) : Val :=
  let w := wfmt p.tag.fmt
  match storedElem w (Tab.look 0 p.mdata (n / 8)).toNat k with
  | none => Val.zero false
  | some s =>
    let raw := ((Tab.look 0 p.weights n) >>> (s * w.bits)).toNat % 2 ^ w.bits
    match p.tag.fmt with
    | 0 => Fmt.decode .bf16 raw
    | 1 => Fmt.decode .fp16 raw
    | 3 => Fmt.decode .e5m2 raw
    | 4 | 5 => q4Val (((Tab.look 0 p.scales (n / 8)) >>> (8 * (s / 32))).toNat % 256) raw
    | _ => Fmt.decode .e4m3 raw
/-- The mark of a weight. -/
def Plane.marked (p : Plane) (n k : Nat) : Bool := (Tab.look 0 p.pois n).getLsbD k

/-- The exact sum S of a chunk's products, with NV (R108). -/
def chunkSum (ps : List (Val × Nat)) : Val × Nat :=
  let nv := ps.any (fun p => p.2 &&& fNV != 0) || (ps.any (fun p => p.1 == .inf false) && ps.any fun p => p.1 == .inf true)
  if nv then (.nan, fNV)
  else if ps.any fun p => p.1.isNan then (.nan, 0)
  else match ps with
    | [] => (Val.zero false, 0)
    | p :: t => (t.foldl (fun a q => (addVal .rne a q.1).1) p.1, 0)

/-- One chunk added to the accumulator, rounded once. -/
def chunkStep (acc : Nat × Nat) (ps : List (Val × Nat)) : Nat × Nat :=
  if ps.isEmpty then acc
  else
    let s := chunkSum ps
    let v := addVal .rne (Fmt.decode .fp32 acc.1) s.1
    let r := roundTo .fp32 .rne false 0 v.1
    (r.1, acc.2 ||| s.2 ||| v.2 ||| r.2)

/-- Acc of R240: the chunks of 32 indices in rising order; `prod` gives the product of an active index. -/
def accumulateChunks (l : Nat) (active : Nat → Bool) (prod : Nat → Val × Nat) (acc : Nat) : Nat × Nat :=
  (List.range (ceilDiv l 32)).foldl (fun a ch =>
    chunkStep a (((List.range 32).map fun i => 32 * ch + i).filterMap fun k =>
      if k < l ∧ active k = true then some (prod k) else none)) (acc, 0)

/-- The types of A that a plane's format takes (R241). -/
def takesA (fmt : Nat) (ty : Ty) : Bool :=
  match fmt with
  | 0 => ty == .flt .bf16
  | 1 => ty == .flt .fp16
  | 2 | 3 | 6 => ty == .flt .e4m3 || ty == .flt .e5m2
  | _ => ty == .q4

/-- The checks of R241 at dispatch, against the plane that the earlier instructions leave active. -/
def mmaCheck (major : Nat) (f : Op64) (x : CtxNo) (c : Ctx) : M Unit := do
  checkAlign c major f c.vt.size
  tileBounds c major f
  ownTile x f.vd
  ownForme x f.vs2
  let w := f.vs2.toNat
  match (((← get).core (coreOf x)).forme w).activeTag with
  | none => raise (matHandle 0x08 w)
  | some p =>
    if !takesA p.fmt c.vt.ty then raise (matHandle 0x09 w)
    if (if major = 0x93 then p.k < c.vl ∨ p.n < c.shape else p.n < c.vl ∨ p.k < c.shape) then raise (matHandle 0x0A w)
    if major = 0x94 ∧ 4 ≤ p.fmt then raise (matHandle 0x0B w)

/-- A metadata group that the instruction reads is not increasing (R241). -/
def badGroup (p : Plane) (l n : Nat) : Bool :=
  (wfmt p.tag.fmt).sparse && (List.range (ceilDiv n 8)).any fun cb =>
    let md := (Tab.look 0 p.mdata cb).toNat
    (List.range (ceilDiv l 4)).any fun j => let nib := md / 16 ^ j % 16; decide (nib / 4 ≤ nib % 4)

/-- One output element: `b k` is the weight of index `k`. -/
def mmaElem (l : Nat) (active : Nat → Bool) (a : Nat → Val × Bool) (b : Nat → Val × Bool) (old : Nat × Bool) : Option Nat × Nat :=
  if old.2 || (List.range l).any (fun k => active k && ((a k).2 || (b k).2)) then (none, 0)
  else
    let r := accumulateChunks l active (fun k => mulVal (a k).1 (b k).1) old.1
    (some r.1, r.2)

/-- Rows row to row + G - 1, columns 0 to N - 1; `mmat` uses the plane by its rows (R240). DESIGN CHOICE: an instruction of level S whose
plane is that of a parked `wld` passes the check at dispatch (R239), meets no plane here, and writes nothing. -/
def mmaBody (f : Op64) (trans : Bool) : Body := fun x e => do
  let s ← get
  let c := s.ctx x
  match ((s.core (coreOf x)).forme f.vs2.toNat).active with
  | none => pure ()
  | some p =>
    if e.vl = 0 then pure ()
    else
      if !trans && badGroup p e.vl e.shape then setFlags x fMDERR
      each (List.range e.vt.size) fun i => do
        let r := f.mod12.toNat + i
        let row := ((← get).core (coreOf x)).tileRow f.vd.toNat r
        let as_ := (List.range e.vl).map fun k =>
          let v := c.elem f.vs1.toNat e.vt.bitsW i k
          (srcValue c e.vt e.vt.ty i k v.1, v.2)
        let av := as_.toArray
        let a (k : Nat) : Val × Bool := av.getD k (.nan, false)
        let out := (List.range e.shape).foldl (fun (acc : TileRow × Nat) o =>
          let b (k : Nat) : Val × Bool :=
            if trans then (p.weight k o, p.marked k o) else (p.weight o k, p.marked o k)
          let v := mmaElem e.vl (fun k => e.top.getLsbD k) a b (row.elem o)
          (acc.1.put o v.1, acc.2 ||| v.2)) (row, 0)
        upd fun s => s.modCore (coreOf x) fun k => k.setTileRow f.vd.toNat r out.1
        setFlags x out.2

def mmaDef (f : Op64) : QueueDef where
  queue := .matrix
  usesVstart := false
  check := mmaCheck 0x93 f
  body := mmaBody f false
def mmatDef (f : Op64) : QueueDef where
  queue := .matrix
  usesVstart := false
  check := mmaCheck 0x94 f
  body := mmaBody f true

/-! ## Moves (R243, R244) -/

/-- FP32, FP16, BF16, E4M3 and E5M2. -/
def moveTy : Ty → Bool
  | .flt _ => true
  | _ => false

/-- Group alignment, the type, the bounds, and the tile's owner. -/
def tileMoveCheck (major : Nat) (f : Op64) (tile : BitVec 8) (ok : Ctx → Bool) (x : CtxNo) (c : Ctx) : M Unit := do
  checkAlign c major f c.vt.size
  if !ok c then illegalM c major f 6
  tileBounds c major f
  tileCols c major f
  ownTile x tile

/-- Moves tile elements to a group: `src` gives the tile's row and column. -/
def tileOut (f : Op64) (src : (i j : Nat) → Nat × Nat) : Body := fun x e => do
  let s ← get
  let k := s.core (coreOf x)
  let ty := e.vt.ty
  each (List.range (e.vt.size * e.vl)) fun n => do
    let i := n / e.vl
    let j := n % e.vl
    if e.top.getLsbD j then
      let c ← ctxM x
      let v := (k.tileRow f.vs1.toNat (src i j).1).elem (src i j).2
      if v.2 then updCtx x fun c => c.markPoison (f.vd.toNat + i) ty.width j
      else
        let r := if ty = .flt .fp32 then (v.1, 0)
          else convertVal ty (rmOf c.vcsr.frm.toNat) c.vcsr.sat8 n (Fmt.decode .fp32 v.1)
        updCtx x fun c => { c.putElem (f.vd.toNat + i) ty.width j r.1 with vcsr := c.vcsr.raise r.2 }

def tmvDef (f : Op64) : QueueDef where
  queue := .matrix
  usesVstart := false
  check := tileMoveCheck 0x96 f f.vs1 fun c => moveTy c.vt.ty && !c.vt.ks
  body := tileOut f fun i j => (f.mod12.toNat + i, j)
def tcolDef (f : Op64) : QueueDef where
  queue := .matrix
  usesVstart := false
  check := tileMoveCheck 0x97 f f.vs1 fun c => moveTy c.vt.ty && !c.vt.ks
  body := tileOut f fun i j => (j, f.mod12.toNat + i)

def tldDef (f : Op64) : QueueDef where
  queue := .matrix
  usesVstart := false
  check := tileMoveCheck 0x98 f f.vd fun c => moveTy c.vt.ty || decide (c.vt.ty = .q4)
  body := fun x e => do
    let c ← ctxM x
    let ty := e.vt.ty
    each (List.range (e.vt.size * e.vl)) fun n => do
      let i := n / e.vl
      let j := n % e.vl
      if e.top.getLsbD j then
        let v := c.elem f.vs1.toNat ty.width i j
        let r := if ty = .flt .fp32 then (v.1, 0)
          else roundTo .fp32 (rmOf c.vcsr.frm.toNat) false n (srcValue c e.vt ty i j v.1)
        upd fun s => s.modCore (coreOf x) fun k =>
          k.setTileRow f.vd.toNat (f.mod12.toNat + i) ((k.tileRow f.vd.toNat (f.mod12.toNat + i)).put j (if v.2 then none else some r.1))
        if !v.2 then setFlags x r.2

def mzeroDef (f : Op64) : QueueDef where
  queue := .matrix
  usesVstart := false
  check := fun x c => do
    if f.fn4 = 0 then tileBounds c 0x95 f
    ownTile x f.vd
  body := fun x e => upd fun s => s.modCore (coreOf x) fun k =>
    if f.fn4 = 0 then (List.range e.vt.size).foldl (fun k i => k.setTileRow f.vd.toNat (f.mod12.toNat + i) {}) k
    else { k with tiles := Tab.del k.tiles f.vd.toNat }

/-! ## Clearing (R231, R232) -/

/-- Clears tiles to +0 without poison. -/
def Core.clearTiles (k : Core) (ts : List Nat) : Core := { k with tiles := ts.foldl Tab.del k.tiles }
/-- Empties both planes of formes. -/
def Core.clearFormes (k : Core) (ws : List Nat) : Core := { k with formes := ws.foldl Tab.del k.formes }

/-- At a record's start the context's tiles read +0 and its formes are empty (R231). -/
def State.clearMatrix (s : State) (x : CtxNo) : State :=
  s.modCore (coreOf x) fun k =>
    (k.clearTiles ((List.range 8).filter fun j => owns k.tallot j x)).clearFormes ((List.range 8).filter fun j => owns k.wallot j x)

/-! ## Meanings -/

def execMshape (f : Op64) : State → Out := runDef (.mshape f) f (mshapeDef f)
def execWld (f : Op64) : State → Out := runDef (.wld f) f (wldDef f)
def execWswap (f : Op64) : State → Out := runDef (.wswap f) f (wswapDef f)
def execMma (f : Op64) : State → Out := runDef (.mma f) f (mmaDef f)
def execMmat (f : Op64) : State → Out := runDef (.mmat f) f (mmatDef f)
def execTmv (f : Op64) : State → Out := runDef (.tmv f) f (tmvDef f)
def execTcol (f : Op64) : State → Out := runDef (.tcol f) f (tcolDef f)
def execTld (f : Op64) : State → Out := runDef (.tld f) f (tldDef f)
def execMzero (f : Op64) : State → Out := runDef (.mzero f) f (mzeroDef f)

end Sys2Proof.Machine
end

