-- ==== Sys2Proof/Machine/Scheduling.lean ====
section
/-! DEFINITION. Scheduling on the die: pops and the start of a record, kills and pre-emption, the completion counter tree, the
controllers (R48, R71, R289, R313, R324-R338, R359). -/

namespace Sys2Proof.Machine

/-! ## Launches -/

/-- A live launch. -/
def State.launch (s : State) (tag : BitVec 32) : Option Launch := Tab.find s.hub.launches tag.toNat
/-- Changes a live launch. -/
def State.modLaunch (s : State) (tag : BitVec 32) (f : Launch → Launch) : State :=
  s.modHub fun h => { h with launches := h.launches.map fun p => if p.1 = tag.toNat then (p.1, f p.2) else p }
/-- The dmax of a record's launch. -/
def State.recDmax (s : State) (tag : BitVec 32) : Nat := match s.launch tag with | some l => l.dmax | none => 0

/-- The handle table for a set of live launches (R333): for each handle the last writer to arrive, and the readers that arrived
after it. -/
def handleTable (ls : Tab Launch) : Tab HandleEntry :=
  let uses : List (Nat × Nat × Bool) := ls.flatMap fun p => p.2.handles.map fun h => (h.1, p.1, h.2)
  (uses.map fun u => u.1).eraseDups.foldl (fun t h =>
    let mine := uses.filter fun u => u.1 == h
    let writer := (mine.filter fun u => u.2.2).foldl (fun m u => Nat.max m u.2.1) 0
    Tab.put t h ⟨if writer = 0 then none else some (BitVec.ofNat 32 writer),
      (mine.filter fun u => !u.2.2 && decide (writer < u.2.1)).length⟩) []

/-- Keeps the handle table with the live launches. -/
def State.syncHandles (s : State) : State := s.modHub fun h => { h with handles := handleTable h.launches }

/-- The live launches that a new launch depends on: those that share a handle, with a write mode in either (R333). -/
def dependsOn (ls : Tab Launch) (handles : List (Nat × Bool)) : List (BitVec 32) :=
  (ls.filter fun p => p.2.handles.any fun a => handles.any fun b => a.1 == b.1 && (a.2 || b.2)).map fun p => p.2.tag

/-- A die that may take a launch with this dmax. -/
def State.dieFits (s : State) (d dmax : Nat) : Bool :=
  !(s.die d).withdrawn && (decide (dmax = 0) || (List.range 16).any fun q => decide (dmax ≤ 32 - (s.quad (16 * d + q)).retired))

/-- The die with the fewest records queued at a priority, the lowest on a tie. -/
def State.chooseDie (s : State) (prio dmax : Nat) : Option Nat :=
  (([0, 1, 2, 3].filter fun d => s.dieFits d dmax).foldl (fun (best : Option (Nat × Nat)) d =>
    let n := ((s.die d).level prio).length
    match best with
    | none => some (n, d)
    | some b => if n < b.1 then some (n, d) else some b) none).map fun b => b.2

/-! ## Pop order (R330, R331) -/

/-- A record may be taken by a context. -/
def State.mayTake (s : State) (x : CtxNo) (r : Rec) : Bool :=
  let q := s.quad (quadOf x)
  let mask := r.w3.toNat % 65536
  let dmax := s.recDmax r.tag
  (decide (mask = 0) || mask.testBit (quadOf x % 16) || decide (64 ≤ r.waited)) &&
  (decide (dmax = 0) || ((decide (q.owner = none) || decide (q.owner = some r.tag)) && decide (dmax ≤ 32 - q.retired)))

/-- The place of the oldest record of a level that a context may take, among the first 64. -/
def State.takeAt (s : State) (x : CtxNo) (l : Nat) : Option Nat :=
  (((s.die (dieOf x)).level l).take 64).findIdx? (s.mayTake x)

/-- The level that the die serves: the lowest eligible one, or the lowest starved eligible one above it. -/
def State.popLevel (s : State) (x : CtxNo) : Option Nat :=
  let cand := (List.range 12).filter fun l => (s.takeAt x l).isSome
  match cand with
  | [] => none
  | l :: t =>
    match t.filter fun k => decide (256 ≤ Tab.look 0 (s.die (dieOf x)).starve k) with
    | k :: _ => some k
    | [] => some l

/-- Takes the record at a place of a level: the starvation counts, the waits of its level, the pops that every queued record counts,
and the test of those that have waited too long, which follows (R337). -/
def Die.pop (d : Die) (l n : Nat) : Die :=
  let q := ((d.level l).eraseIdx n).map fun r => { r with waited := r.waited + 1 }
  let queues := (Tab.put d.queues l q).map fun (e : Nat × List Rec) => (e.1, e.2.map fun r => { r with pops := r.pops + 1 })
  let starve := (List.range 12).foldl (fun t k =>
    let n := (Tab.look [] queues k).length
    if n = 0 ∨ k = l then Tab.put t k 0 else if l < k then Tab.put t k (Tab.look 0 t k + 1) else t) d.starve
  { d with queues := queues, starve := starve, popped := Tab.put d.popped l (Tab.look 0 d.popped l + 1), tested := false }

/-! ## The start of a record (R48, R71, R313, R325) -/

/-- The lines of the ways that a quad cache loses when its boundary rises to `b` go home and leave it (R312, R317). -/
def State.clearWays (s : State) (q b : Nat) : State :=
  ((s.quad q).cache.filter fun l => decide (l.2.way < b)).foldl (fun t l => t.dropQuad none q l.1) s

/-- A launch takes the quad store: B is dmin, the direct range reads 0 (R313). -/
def State.takeStore (s : State) (q : Nat) (tag : BitVec 32) : State :=
  match s.launch tag with
  | none => s
  | some l =>
    if l.dmax = 0 ∨ (s.quad q).owner = some tag then s
    else
      (s.clearWays q l.dmin).modQuad q fun e => { e with
        owner := some tag, dmin := l.dmin, dmax := l.dmax, bound := l.dmin, back := l.back, pages := l.pages
        store := [], storeMarks := [], moving := none }

/-- What a record that has waited in a queue still keeps of the barriers on which it is a participant: its participation has ended where
a barrier has become Idle since (R261). -/
def State.keptParts (s : State) (r : Rec) : Tab Part :=
  r.parts.map fun e => match e.2 with
    | .phase p => (e.1, if p < (s.bar e.1).idleAt then .ended else .phase p)
    | .ended => e

/-- The context at the start of a record (R71, R325). -/
def startCtx (c : Ctx) (r : Rec) (start : Nat) (parts : Tab Part) : Ctx :=
  let k : Ctx := { status := .running, pc := recCp r.w0, level := if recS r.w0 then .s else .u, begunS := recS r.w0, asid := r.asid
                   trap := { tvec := c.trap.tvec }, chain := c.chain, chainQueue := c.chainQueue, parts := parts
                   rec_ := some ⟨r.w0, r.w2, r.tag, start⟩ }
  ((k.wg 3 r.w1).wg 5 r.cr).wg 8 r.w3

/-- The image header gives g4 (R48); another magic or version is BADHANDLE. -/
def readHeader (ag : Agent) (cp : Word) : M Word := do
  let base := cp &&& ~~~0xFFFFFF#64
  let magic ← loadClean ag base 4
  if magic ≠ 0x4B514731 then raise (badHandle 0x01 base)
  let ver ← loadClean ag (base + 4) 2
  if ver ≠ 1 then raise (badHandle 0x01 base)
  let off ← loadClean ag (base + 8) 8
  pure (base + BitVec.ofNat 64 off)

/-- Starts a record on a context: the acquire of its scope, its state, and g4; a fault of the header read traps at its code
pointer. -/
def State.startRecord (s : State) (x : CtxNo) (r : Rec) : State :=
  let s1 := ((s.takeStore (quadOf x) r.tag).acquire x r.scope).clearMatrix x
  let c := startCtx (s1.ctx x) r s1.serial (s1.keptParts r)
  let s2 := { s1.setCtx x c with serial := s1.serial + 1 }.begins s1.serial r.tag r.hb
  match readHeader (agentOf x c) c.pc s2 with
  | .ok g4 s3 => s3.modCtx x fun k => k.wg 4 g4
  | .error (.trap t) s3 => s3.enterTrap x t false false c.pc
  | .error .wait _ => s2

/-- A context of a die in service takes records when it is idle and its core is in service (R298, R330). -/
def State.canPop (s : State) (x : CtxNo) : Bool :=
  let k := s.core (coreOf x)
  decide (s.hub.boot = .run) && decide ((s.ctx x).status = .idle) && !k.withdrawn && !k.retired && !(s.die (dieOf x)).withdrawn

/-- A context could take a record now. -/
def State.pops (s : State) (x : CtxNo) : Bool := s.canPop x && (s.popLevel x).isSome
/-- It is the one that its die serves: contexts that are idle together are served in increasing number (R330). -/
def State.served (s : State) (x : CtxNo) : Bool :=
  s.pops x && !((List.range (x.toNat % 256)).any fun i => s.pops (BitVec.ofNat 10 (256 * dieOf x + i)))

/-- RECORD_POP: the idle context that its die serves takes a record and starts it. -/
def execRecordPop (s : State) : Out :=
  match s.arg with
  | .ctx x =>
    if s.served x then
      match s.popLevel x with
      | none => .next s
      | some l =>
        match s.takeAt x l with
        | none => .next s
        | some n =>
          match ((s.die (dieOf x)).level l)[n]? with
          | none => .next s
          | some r => .next ((s.modDie (dieOf x) fun d => d.pop l n).startRecord x r)
    else .next s
  | _ => .next s

/-! ## Records between dies (R326) -/

/-- RECORD_TRANSIT_ARRIVAL: the oldest record on its way from one die to another enters its queue there. -/
def execRecordTransitArrival (s : State) : Out :=
  match s.arg with
  | .dies a b =>
    let t := (s.die a.toNat).transit
    match t.findIdx? fun r => recDie a.toNat r.w0 == b.toNat with
    | none => .next s
    | some n =>
      match t[n]? with
      | none => .next s
      | some r => .next ((s.modDie a.toNat fun d => { d with transit := t.eraseIdx n }).enqueue b.toNat r)
  | _ => .next s

/-! ## Kills and pre-emption (R289, R336, R337) -/

/-- RECORD_KILL of a running record. -/
def execRecordKill (s : State) : Out :=
  match s.arg with
  | .kill x why => if (s.ctx x).status = .running then .next (s.kill x why) else .next s
  | _ => .next s

/-- HOST_ABORT: the running records of a launch are killed and its queued ones removed; without a running record the launch is
aborted with no context named. -/
def execHostAbort (s : State) : Out :=
  match s.arg with
  | .tag t =>
    match s.launch t with
    | none => .next s
    | some l =>
      if l.aborted then .next s
      else
        match s.ctxs.find? fun e => decide (e.2.status = .running) && e.2.tag == t with
        | some e => .next (s.kill (BitVec.ofNat 10 e.1) .hostAbort)
        | none => .next (((s.journal l.die.toNat).modLaunch t fun l => noteKill 0 .hostAbort l).abortLaunch t)
  | _ => .next s

/-- The victim for a waiting record of priority `p` (R337): at U, of the largest priority above p that the mask allows, the one
that started most recently. -/
def State.victim (s : State) (d p : Nat) : Option CtxNo :=
  let mask := (s.die d).noVictims
  let cands := s.ctxs.filterMap fun (e : Nat × Ctx) =>
    match e.2.rec_ with
    | some r =>
      let q := recPrio r.w0
      if e.1 / 256 = d ∧ e.2.status = .running ∧ e.2.level = .u ∧ e.2.signalled = false ∧ p < q ∧ mask.getLsbD q = false then
        some (q, r.start, e.1)
      else none
    | none => none
  (cands.foldl (fun (best : Option (Nat × Nat × Nat)) c =>
    match best with
    | none => some c
    | some b => if b.1 < c.1 ∨ b.1 = c.1 ∧ b.2.1 < c.2.1 then some c else some b) none).map fun b => BitVec.ofNat 10 b.2.2

/-- The queued records of a die that have waited 1,024 pops, with their level and place. -/
def Die.overdue (d : Die) : List (Nat × Nat) :=
  d.queues.flatMap fun (e : Nat × List Rec) =>
    if e.1 < 2 then [] else ((List.range e.2.length).filter fun n => match e.2[n]? with | some r => decide (1024 ≤ r.pops) | none => false).map fun n => (e.1, n)

/-- PREEMPT_SIGNAL: after a pop the controller signals a victim for each record that has waited 1,024 pops, whose count starts
again; where no context qualifies it tests again at the next pop. -/
def execPreemptSignal (s : State) : Out :=
  match s.arg with
  | .die d =>
    if (s.die d.toNat).takeover = true ∨ (s.die d.toNat).controllers = 0 ∨ (s.die d.toNat).tested = true then .next s
    else
      match (s.die d.toNat).overdue.findSome? fun r => (s.victim d.toNat r.1).map fun v => (r, v) with
      | none => .next (s.modDie d.toNat fun k => { k with tested := true })
      | some ((p, n), v) =>
        let s1 := (s.journal d.toNat).modDie d.toNat fun k => { k with
          queues := Tab.put k.queues p ((k.level p).modify n fun r => { r with pops := 0 }) }
        .next (s1.preempt v p)
  | _ => .next s

/-- PREEMPT_TIMEOUT: a context that took PREEMPT and has neither exited nor yielded in its grace is killed. -/
def execPreemptTimeout (s : State) : Out :=
  match s.arg with
  | .ctx x =>
    let c := s.ctx x
    if c.status = .running ∧ c.signalled = true ∧ (c.async.any fun a => a.cause == 0x11) = false then .next (s.kill x .preempt)
    else .next s
  | _ => .next s

/-! ## The counter tree (R334) -/

/-- A record of a launch is present in a quad. -/
def State.presentQuad (s : State) (q : Nat) (tag : BitVec 32) : Bool :=
  (s.ctxs.any fun (e : Nat × Ctx) => e.1 / 16 == q && decide (e.2.status ≠ .idle) && e.2.tag == tag) ||
  (s.cores.any fun (e : Nat × Core) => coreQuad e.1 == q && e.2.tracker.any fun t => t.2.tag == tag)

/-- A record of a launch is present in a die or in one of its quads. -/
def State.presentDie (s : State) (d : Nat) (tag : BitVec 32) : Bool :=
  let e := s.die d
  (e.queues.any fun q => q.2.any fun r => r.tag == tag) || (e.reserve.any fun r => r.tag == tag) ||
  (e.transit.any fun r => r.tag == tag) || (List.range 16).any fun q => s.presentQuad (16 * d + q) tag

/-- COUNTER_REPORT: a unit without a record of the launch passes its count up. A report that reaches the hub while it waits for
confirmations makes it ask again. -/
def execCounterReport (s : State) : Out :=
  match s.arg with
  | .count (.quad q) t =>
    match Tab.find (s.quad q.toNat).counts t.toNat with
    | some n =>
      if s.presentQuad q.toNat t then .next s
      else .next ((s.modQuad q.toNat fun e => { e with counts := Tab.del e.counts t.toNat }).dieCount (quadDie q.toNat) t n)
    | none => .next s
  | .count (.die d) t =>
    match Tab.find (s.die d.toNat).counts t.toNat with
    | some n =>
      if s.presentDie d.toNat t then .next s
      else .next ((s.modDie d.toNat fun e => { e with counts := Tab.del e.counts t.toNat }).modLaunch t fun l =>
        { l with total := l.total + n, asked := false, confirmed := [] })
    | none => .next s
  | _ => .next s

/-- A die holds no record of a launch and every count of it below has been reported. -/
def State.dieClear (s : State) (d : Nat) (tag : BitVec 32) : Bool :=
  !(s.presentDie d tag) && (Tab.find (s.die d).counts tag.toNat).isNone &&
  (List.range 16).all fun q => (Tab.find (s.quad (16 * d + q)).counts tag.toNat).isNone

/-- DIE_CONFIRM: when the hub's total is 0 it asks, and a die that is clear confirms. -/
def execDieConfirm (s : State) : Out :=
  match s.arg with
  | .dieTag d t =>
    match s.launch t with
    | none => .next s
    | some l =>
      if l.total = 0 ∧ (l.rooted = true ∨ l.aborted = true) ∧ s.dieClear d.toNat t = true ∧ l.confirmed.contains d.toNat = false then
        .next (s.modLaunch t fun l => { l with asked := true, confirmed := d.toNat :: l.confirmed })
      else .next s
  | _ => .next s

/-! ## The root of a launch (R332, R333) -/

/-- Every agent of the package makes an acquire: write-backs first, then every line is dropped that holds no dirty byte of a
window. -/
def State.acquireAll (s : State) : State :=
  let s1 := s.cores.foldl (fun t (c : Nat × Core) => t.flushL1 none c.1) s
  let s2 := s1.quads.foldl (fun t (q : Nat × Quad) => t.flushQuad none q.1 true) s1
  { s2 with cores := s2.cores.map fun (c : Nat × Core) => (c.1, { c.2 with l1 := [] })
            quads := s2.quads.map fun (q : Nat × Quad) => (q.1, { q.2 with shadow := [], cache := q.2.cache.filter fun l => l.2.dirty != 0 }) }

/-- The root record of a launch; before it stand the host's writes, and every access of the launches that it depends on (R333,
R418). -/
def State.rootOf (s : State) (l : Launch) : Rec :=
  { w0 := (l.root &&& 0x00FFFFFFFFFFFFFF#64) ||| (BitVec.ofNat 64 l.prio <<< 56), w1 := l.frame, w2 := 0, w3 := l.arg
    tag := l.tag, asid := l.asid, cr := l.entryVa, scope := 4, waited := 0, pops := 0
    hb := joinAll (l.hb :: l.deps.map fun t => Tab.look [] s.before.done t.toNat) }

/-- The root of a launch may be queued: every launch that it depends on has completed, an aborted one too, since every access of it
happens before (R333, R336). -/
def State.rootReady (s : State) (l : Launch) : Bool :=
  !l.rooted && !l.aborted && !(s.die l.die.toNat).takeover && !(s.die l.die.toNat).withdrawn &&
  l.deps.all fun t => (s.launch t).isNone

/-- ROOT_QUEUE: the root is queued on its die, or enters the die's join reserve; with both full the hub holds it. -/
def execRootQueue (s : State) : Out :=
  match s.arg with
  | .tag t =>
    match s.launch t with
    | none => .next s
    | some l =>
      if s.rootReady l then
        match (s.acquireAll.journal l.die.toNat).sendJoin l.die.toNat (s.rootOf l) with
        | some s1 => .next (s1.modLaunch t fun l => { l with rooted := true, total := l.total + 1, asked := false, confirmed := [] })
        | none => .next s
      else .next s
  | _ => .next s

/-! ## Controllers and dies that fail (R338, R359) -/

/-- A launch admitted to a withdrawn die before its root was queued. DESIGN CHOICE: the hub places it on another die by the rule of
admission, or aborts it when none fits; a controller journals either before it happens (R338). -/
def State.replace (s : State) (tag : BitVec 32) (l : Launch) : State :=
  match s.chooseDie l.prio l.dmax with
  | some d => (s.journal d).modLaunch tag fun l => { l with die := BitVec.ofNat 2 d }
  | none => ((s.journal l.die.toNat).modLaunch tag fun l => noteKill 0 .dieWithdrawn l).abortLaunch tag

/-- Withdraws a die: every launch with a record there is aborted (kwhy 5), and no further work is placed there (R338). -/
def State.withdrawDie (s : State) (d : Nat) : State :=
  let s1 := s.modDie d fun e => { e with withdrawn := true }
  let tags := (s1.hub.launches.filter fun p => s1.presentDie d p.2.tag).map fun p => p.2.tag
  let s2 := (s1.hub.launches.filter fun p => decide (p.2.die.toNat = d) && !p.2.rooted && !p.2.aborted).foldl
    (fun t p => t.replace p.2.tag p.2) s1
  tags.foldl (fun t tag =>
    match t.ctxs.find? fun (e : Nat × Ctx) => e.1 / 256 == d && decide (e.2.status = .running) && e.2.tag == tag with
    | some e => t.kill (BitVec.ofNat 10 e.1) .dieWithdrawn
    | none => ((match t.launch tag with | some l => t.journal l.die.toNat | none => t).modLaunch tag
        fun l => noteKill 0 .dieWithdrawn l).abortLaunch tag) s2

/-- The active controller of a die fails; when none is left the die is withdrawn. -/
def State.failController (s : State) (d : Nat) : State :=
  let n := (s.die d).controllers
  if n = 0 then s
  else
    let s1 := s.modDie d fun e => { e with controllers := n - 1, takeover := n == 2 }
    if n = 1 then s1.withdrawDie d else s1

/-- HUB_LINK_FAILURE: a die whose link to the hub fails is withdrawn. -/
def execHubLinkFailure (s : State) : Out :=
  match s.arg with
  | .die d => .next ((s.modDie d.toNat fun e => { e with hubUp := false }).withdrawDie d.toNat)
  | _ => .next s

/-- DIE_LINK_FAILURE: traffic between two dies goes through a third; nothing but timing changes. -/
def execDieLinkFailure (s : State) : Out :=
  match s.arg with
  | .dies a b =>
    if a = b then .next s
    else .next ((s.modDie a.toNat fun e => { e with linkDown := addMark b.toNat e.linkDown }).modDie b.toNat
      fun e => { e with linkDown := addMark a.toNat e.linkDown })
  | _ => .next s

/-- Poisons a granule of a line that a cache holds. -/
def poisonLine (t : Tab Line) (g : Nat) : Tab Line :=
  t.map fun l => if l.1 = g / 8 then (l.1, { l.2 with pois := l.2.pois ||| (1#8 <<< (g % 8)) }) else l

/-- UNCORRECTABLE_ERROR: the granule, the elements of the lane word, or the register hold the error (R295, R322); an error in a
controller's instruction memory is a trap of that controller (R338). -/
def execUncorrectableError (s : State) : Out :=
  match s.arg with
  | .site (.memory g) =>
    .next { s with marks := addMark g s.marks
                   hub := if s.hub.boot = .off ∧ isDurable (8 * g) = true then { s.hub with persist := { s.hub.persist with bad := true } } else s.hub }
  | .site (.l2 g) => .next { s with l2 := poisonLine s.l2 g }
  | .site (.l1 c g) => .next (s.modCore c.toNat fun k => { k with l1 := poisonLine k.l1 g })
  | .site (.code c g) => .next (s.modCore c.toNat fun k => { k with icache := poisonLine k.icache g })
  | .site (.quadCache q g) => .next (s.modQuad q.toNat fun k => { k with
      cache := (poisonLine k.cache g).map fun l => if l.1 = g / 8 then (l.1, { l.2 with err := l.2.err ||| (1#8 <<< (g % 8)) }) else l })
  | .site (.staging d g) => .next (s.modDie d.toNat fun k => { k with staging := addMark g k.staging })
  | .site (.tile c t r lane) => .next (s.modCore c.toNat fun k => k.setTileRow t.toNat r.toNat
      { k.tileRow t.toNat r.toNat with pois := (k.tileRow t.toNat r.toNat).pois ||| (1#128 <<< lane.toNat) })
  | .site (.quadStore q g) => .next (s.modQuad q.toNat fun k => { k with storeMarks := addMark g k.storeMarks })
  | .site (.row x r lane) => .next (s.modCtx x fun c => c.setRow r.toNat
      { c.row r.toNat with pois := (c.row r.toNat).pois ||| (255#2048 <<< (8 * lane.toNat)) })
  | .site (.scalar x r) => if r = 0 then .next s else .next (s.modCtx x fun c => { c with gp := addMark r.toNat c.gp })
  | .site (.controller d) => .next (s.failController d.toNat)
  | _ => .next s

end Sys2Proof.Machine
end

