-- ==== Sys2Proof/Machine/QuadStore.lean ====
section
/-! DEFINITION. The moving boundary between the quad store and the quad cache (R312-R319). -/

namespace Sys2Proof.Machine

/-- The offsets of a bank by line: offset and the physical line of its backing. -/
def State.bankLines (s : State) (q bank : Nat) : List (Nat × Nat) :=
  (List.range 4).flatMap fun p =>
    let o := bank * 0x40000 + p * 0x10000
    let base := s.backLine q o
    (List.range 1024).map fun i => (o + 64 * i, base + i)

/-- The lines of memory that hold a byte, a mark or a write on its way. -/
def State.listedLines (s : State) : List Nat :=
  (s.mem.map fun c => c.1 / 64) ++ (s.marks.map fun g => g / 8) ++ (s.l2.map fun l => l.1) ++ (s.hub.waiting.map fun w => w.line)

/-- The cached copies of some lines go home and leave the quad cache, and the home holds all that was written to them. -/
def State.sendHome (s : State) (q : Nat) (lines : List Nat) : State :=
  let s1 := ((s.quad q).cache.filter fun l => lines.contains l.1).foldl (fun t l => t.dropQuad none q l.1) s
  ((s1.hub.waiting.map fun w => w.line).filter lines.contains).foldl State.acceptLine s1

/-- Writes one line of the store. -/
def Quad.storeLine (e : Quad) (o : Nat) (d : BitVec 512) (p : BitVec 8) : Quad :=
  { e with
    store := putBytes e.store o (leBytes 64 d.toNat)
    storeMarks := (List.range 8).foldl (fun m g => if p.getLsbD g then addMark (o / 8 + g) m else m)
      (e.storeMarks.filter fun g => g / 8 != o / 64) }

/-- A line of the store. -/
def Quad.getLine (e : Quad) (o : Nat) : BitVec 512 × BitVec 8 :=
  (BitVec.ofNat 512 (ofLe ((List.range 64).map fun i => getByte e.store (o + i))),
   (List.range 8).foldl (fun m g => if e.storeMarks.contains (o / 8 + g) then m ||| (1#8 <<< g) else m) 0)

/-- B to B + 1: way B leaves the cache, and the bank is filled from its backing lines, whose cached copies go home first (R317). -/
def State.moveUp (s : State) (q : Nat) : State :=
  let b := (s.quad q).bound
  let s1 := s.clearWays q (b + 1)
  let s2 := if b < (s.quad q).dmax then
      let lines := s1.bankLines q b
      let s2 := s1.sendHome q (lines.map fun n => n.2)
      let listed := s2.listedLines
      (lines.filter fun n => listed.contains n.2).foldl (fun t n =>
        let v := t.homeLine n.2
        t.modQuad q fun e => e.storeLine n.1 v.1 v.2) s2
    else s1
  s2.modQuad q fun e => { e with bound := b + 1 }

/-- B to B - 1: the bank goes to its backing lines, of which the cache keeps no older copy, and joins the cache as an empty way
(R317). Lines that are 0 in the store and in memory stay 0. -/
def State.moveDown (s : State) (q : Nat) : State :=
  let b := (s.quad q).bound - 1
  let lines := s.bankLines q b
  let s1 := s.sendHome q (lines.map fun n => n.2)
  let e := s1.quad q
  let listed := s1.listedLines
  let mine := lines.filter fun n =>
    listed.contains n.2 || (e.store.any fun c => c.1 / 64 == n.1 / 64) || e.storeMarks.any fun g => g / 8 == n.1 / 64
  let s2 := mine.foldl (fun t n =>
    let v := e.getLine n.1
    (t.homeWrite none n.2 (fullPatch v.1 v.2)).acceptLine n.2) s1
  s2.modQuad q fun k => { k with
    bound := b
    store := k.store.filter fun c => c.1 / 0x40000 != b
    storeMarks := k.storeMarks.filter fun g => 8 * g / 0x40000 != b }

/-- Firmware retires a bank: the working banks are numbered anew, and the cache loses its last way (R322). -/
def State.retireBank (s : State) (q bank : Nat) : State :=
  if (s.quad q).banks.contains bank then s
  else
    let last := 31 - (s.quad q).retired
    (((s.quad q).cache.filter fun l => decide (last ≤ l.2.way)).foldl (fun t l => t.dropQuad none q l.1) s).modQuad q fun e => { e with
      banks := addMark bank e.banks }

/-- The boundary that a pinned quad goes to: Clamp(pbnd, dmin, dmax), pbnd above 32 taken as 32 (R319). -/
def Quad.target (e : Quad) : Nat := Nat.max e.dmin (Nat.min (Nat.min e.cfg.pbnd.toNat 32) e.dmax)

/-- The direction that an interval decides from its four counts (R318). -/
def Quad.decide_ (e : Quad) : Option Bool :=
  let up : Int := (e.sPlus : Int) - e.cMinus
  let down : Int := (e.cPlus : Int) - e.sMinus
  let thr : Int := e.cfg.thr.toNat
  if e.bound < e.dmax ∧ thr < up ∧ down ≤ up then some true
  else if e.dmin < e.bound ∧ thr < down then some false
  else none

/-- BOUNDARY_INTERVAL: what the interval counted decides at most one move, and the counts are cleared. A pinned quad does not
measure. -/
def execBoundaryInterval (s : State) : Out :=
  match s.arg with
  | .quad q =>
    if (s.quad q.toNat).cfg.pin then .next s
    else .next (s.modQuad q.toNat fun k => { k with moving := k.decide_, sPlus := 0, sMinus := 0, cPlus := 0, cMinus := 0 })
  | _ => .next s

/-- A move in a direction is due: the one that the last interval decided, or one toward the pinned boundary. -/
def Quad.mayMove (e : Quad) (up : Bool) : Bool :=
  (if e.cfg.pin then decide (if up then e.bound < e.target else e.target < e.bound) else e.moving == some up) &&
  decide (if up then e.bound < e.dmax else e.dmin < e.bound)

/-- BOUNDARY_MOVE: the move that the last interval decided, or one bank toward the pinned boundary. -/
def execBoundaryMove (s : State) : Out :=
  match s.arg with
  | .move q up =>
    if (s.quad q.toNat).mayMove up then
      let s1 := s.modQuad q.toNat fun k => { k with moving := none }
      .next (if up then s1.moveUp q.toNat else s1.moveDown q.toNat)
    else .next s
  | _ => .next s

/-- A store that a completed launch owned is released: its contents are discarded and B returns to 0 (R313, R335). -/
def State.freeStores (s : State) (tag : BitVec 32) : State :=
  { s with quads := s.quads.map fun (q : Nat × Quad) =>
      if q.2.owner = some tag then
        (q.1, { q.2 with owner := none, dmin := 0, dmax := 0, bound := 0, back := 0, pages := [], store := [], storeMarks := [], moving := none })
      else q }

end Sys2Proof.Machine
end

