-- ==== Sys2Proof/Machine/Host.lean ====
section
/-! DEFINITION. The host: frames and their acknowledgement, writes and reads, launch rings, admission and completion (R332-R335,
R415-R418). -/

namespace Sys2Proof.Machine

/-! ## Accesses of the hub's agents -/

/-- The place of an access that the hub makes under an asid at a level. The writes to a durable line that wait are accepted before
it (R372), and what has arrived at an MS page's unit performs (R361). -/
def hubPlace (asid : BitVec 16) (level : Level) (acc : Acc) (va : Word) : M Place := do
  if inWindow va then raise (viol va 2)
  let (pa, pte) ← xlate .hub asid level acc false va
  if isHbm pa then
    if pteMs pte then upd fun s => s.settleUnit pa
    pure (.phys pa pte)
  else if isDurable pa then
    upd fun s => s.acceptLine (pa / 64)
    pure (.phys pa pte)
  else raise (viol va (if isControl pa then 2 else 1))

/-- The home's part of a read by the hub (R342). -/
def State.hubReach (s : State) (p : Place) : State :=
  match p with
  | .window _ _ => s
  | .phys pa pte => s.reachPage pte (pa / 64)

/-- Reads up to 8 bytes within a granule at home, as the hub does. -/
def State.hubGet (s : State) (p : Place) (n : Nat) : Nat × Bool :=
  match p with
  | .window _ _ => (0, false)
  | .phys pa pte => s.pageRead pte pa n

/-- Writes up to 8 bytes within a granule at home, as the hub does for a thread; a durable write has performed when the persist buffer
holds it. -/
def State.hubPut (s : State) (p : Place) (n v : Nat) (pois : Bool) (who : Nat := 0) : State :=
  match p with
  | .window _ _ => s
  | .phys pa pte =>
    let s1 := s.pagePut none pte pa n v pois who
    if isDurable pa then s1.acceptLine (pa / 64) else s1

/-- Checks every 64 KiB part of a range. -/
def hubCheck (asid : BitVec 16) (level : Level) (acc : Acc) (va : Word) (n : Nat) : M Unit :=
  if n = 0 then pure ()
  else
    each (List.range (((va.toNat % 0x10000) + n - 1) / 0x10000 + 1)) fun i => do
      let a := if i = 0 then va else (va &&& ~~~0xFFFF#64) + BitVec.ofNat 64 (i * 0x10000)
      let _ ← hubPlace asid level acc a
      pure ()

/-- Writes bytes at home for a thread, granule by granule. -/
def hubWrite (asid : BitVec 16) (level : Level) (pois : Bool) (who : Nat) : (fuel : Nat) → Word → List Byte → M Unit
  | 0, _, _ => pure ()
  | fuel + 1, va, bs =>
    if bs.isEmpty then pure ()
    else do
      let n := Nat.min (8 - va.toNat % 8) bs.length
      let p ← hubPlace asid level .write va
      upd fun s => s.hubPut p n (ofLe (bs.take n)) pois who
      hubWrite asid level pois who fuel (va + BitVec.ofNat 64 n) (bs.drop n)

/-- Reads bytes at home, granule by granule; what a poisoned granule gives is a free value. -/
def hubRead (asid : BitVec 16) (level : Level) : (fuel : Nat) → Word → (n : Nat) → M (List Byte)
  | 0, _, _ => pure []
  | fuel + 1, va, n =>
    if n = 0 then pure []
    else do
      let k := Nat.min (8 - va.toNat % 8) n
      let p ← hubPlace asid level .read va
      upd fun s => s.hubReach p
      let r := (← get).hubGet p k
      let v ← if r.2 then do pure (← draw).toNat else pure r.1
      let t ← hubRead asid level fuel (va + BitVec.ofNat 64 k) (n - k)
      pure (leBytes k v ++ t)

/-- Wakes every context that watches a place (R127). -/
def State.wakeAll (s : State) (p : Place) : State :=
  { s with ctxs := s.ctxs.map fun (e : Nat × Ctx) => if e.2.ldaLine = some p.line then (e.1, { e.2 with latch := true }) else e }

/-! ## Frames (R415, R416) -/

/-- A host queue. -/
def State.hostQ (s : State) (h : Nat) : HostQueue := Tab.look {} s.hub.queues h
/-- Changes a host queue. -/
def State.modHostQ (s : State) (h : Nat) (f : HostQueue → HostQueue) : State :=
  s.modHub fun u => { u with queues := Tab.put u.queues h (f (s.hostQ h)) }

/-- A frame of the device; it takes the EtherType when it is sent. -/
def deviceFrame (typ queue : Nat) (seq : BitVec 32) (addr aux : Word) (status : Nat) (payload : List Byte) : Frame :=
  { ether := 0, ver := 1, typ := BitVec.ofNat 8 typ, zero := 0, queue := BitVec.ofNat 16 queue, seq := seq, addr := addr
    len := BitVec.ofNat 32 payload.length, status := BitVec.ofNat 32 status, aux := aux, payload := payload }

/-- Sends a frame that the host does not acknowledge. -/
def State.sendPlain (s : State) (f : Frame) : State := s.modHub fun h => { h with sent := { f with ether := h.etherType } :: h.sent }

/-- Sends a frame of types 5, 6 and 11, which carries the queue's next number and is kept until it is acknowledged. -/
def State.sendKept (s : State) (typ queue : Nat) (addr aux : Word) (status : Nat) (payload : List Byte) : State :=
  let f := deviceFrame typ queue (s.hostQ queue).seqOut addr aux status payload
  ((s.sendPlain f).modHub fun h => { h with unacked := h.unacked ++ [⟨f, 0⟩] }).modHostQ queue fun q => { q with seqOut := q.seqOut + 1 }

/-- Acknowledges a frame of the host with a status. -/
def State.ack (s : State) (queue : Nat) (seq : BitVec 32) (status : Nat) : State :=
  s.sendPlain (deviceFrame 7 queue 0 0 (seq.setWidth 64) status [])

/-- The types that a queue accepts. -/
def accepts (queue typ : Nat) : Bool :=
  if queue = 0 then typ == 8 || typ == 10 || typ == 12 || typ == 13 else decide (1 ≤ typ ∧ typ ≤ 4)

/-- A frame that the rules describe: version, zero field, status and payload length; a read carries no payload. -/
def frameOk (f : Frame) : Bool :=
  f.ver == 1 && f.zero == 0 && f.status == 0 && decide (f.len.toNat ≤ 8192) &&
  (if f.typ = 4 then f.payload.isEmpty else decide (f.payload.length = f.len.toNat)) &&
  (decide (1 ≤ f.typ.toNat ∧ f.typ.toNat ≤ 4) || f.typ == 8 || f.typ == 10 || f.typ == 12 || f.typ == 13)

/-- A duplicate is acknowledged as it was before. -/
def State.reack (s : State) (queue : Nat) (seq : BitVec 32) : State :=
  match s.hub.sent.find? fun f => f.typ == 7 && f.queue.toNat == queue && f.aux == seq.setWidth 64 with
  | some f => s.sendPlain f
  | none => s

/-- One frame in the queue's order: the next in sequence is performed by `act`, which answers its status; a duplicate is
acknowledged again; one ahead is discarded. -/
def State.inOrder (s : State) (queue : Nat) (seq : BitVec 32) (act : State → State × Nat) : State :=
  let want := (s.hostQ queue).seqIn
  if seq = want then
    let r := act (s.modHostQ queue fun q => { q with seqIn := q.seqIn + 1 })
    r.1.ack queue seq r.2
  else if (want - seq).toNat < 2 ^ 31 then s.reack queue seq
  else s

/-- A frame that arrives is a BMT frame: it has their EtherType (R415). -/
def Hub.bmt (h : Hub) (f : Frame) : Bool := f.ether == h.etherType

/-- A frame of the host of type `typ`, in RUN. -/
def frameIn (typ : Nat) (act : Frame → State → State × Nat) (s : State) : Out :=
  match s.arg with
  | .frame f =>
    if s.hub.boot ≠ .run ∨ s.hub.bmt f = false then .next s
    else if 256 ≤ f.queue.toNat then .next (s.ack f.queue.toNat f.seq 1)
    else if frameOk f = true ∧ f.typ.toNat ≠ typ then .next s
    else .next (s.inOrder f.queue.toNat f.seq fun t =>
      if !(frameOk f) then (t, 1)
      else if !(accepts f.queue.toNat f.typ.toNat) then (t, 3)
      else if f.queue ≠ 0 ∧ (t.hostQ f.queue.toNat).setUp = false then (t, 2)
      else act f t)
  | _ => .next s

/-- A management request on a queue that takes none is acknowledged with status 3 (R416). -/
def strayRequest (s : State) : Out :=
  match s.arg with
  | .frame f => if f.typ = 10 ∧ f.queue ≠ 0 then frameIn 10 (fun _ t => (t, 3)) s else .next s
  | _ => .next s

/-- The reason of a refusal of the host agent in its log (R300). -/
def hostReason (t : TrapInfo) : Nat := if t.cause = 0x06 then 1 else if t.cause = 0x08 then t.reason else 2

/-- A refused access of the host agent is logged. -/
def State.hostRefuse (s : State) (kind : Nat) (va : Word) (t : TrapInfo) : State := s.logViol logHost va 0xFC00 kind (hostReason t) 0

/-! ## Writes and reads (R418) -/

/-- WRITE, in the thread of its queue: data at an address under the queue's asid; a range that does not map writable is refused whole. -/
def execHostWrite (s : State) : Out :=
  frameIn 3 (fun f s =>
    let asid := (s.hostQ f.queue.toNat).asid
    let m : M Unit := do
      hubCheck asid .s .write f.addr f.payload.length
      hubWrite asid .s false f.queue.toNat (f.payload.length + 1) f.addr f.payload
    match m s with
    | .ok _ s1 => (s1, 0)
    | .error (.trap t) s1 => (s1.hostRefuse 2 f.addr t, 2)
    | .error .wait s1 => (s1, 2)) s

/-- READ: the data return in a read response. -/
def execHostRead (s : State) : Out :=
  frameIn 4 (fun f s =>
    let asid := (s.hostQ f.queue.toNat).asid
    let n := f.len.toNat
    let m : M (List Byte) := do
      hubCheck asid .s .read f.addr n
      hubRead asid .s (n + 1) f.addr n
    match m s with
    | .ok bs s1 => (s1.sendKept 5 f.queue.toNat f.addr 0 0 bs, 0)
    | .error (.trap t) s1 => (s1.hostRefuse 1 f.addr t, 2)
    | .error .wait s1 => (s1, 2)) s

/-- ACKNOWLEDGEMENT: the named frame of the device is not sent again. -/
def execAcknowledgement (s : State) : Out :=
  match s.arg with
  | .frame f =>
    if f.typ = 7 ∧ s.hub.boot ≠ .off ∧ s.hub.bmt f = true then
      .next (s.modHub fun h => { h with unacked := h.unacked.filter fun u => !(u.frame.queue == f.queue && u.frame.seq.setWidth 64 == f.aux) })
    else .next s
  | _ => .next s

/-- FRAME_RETRANSMIT: the `n`th frame that waits for its acknowledgement is sent again; after 64 times the host counts as lost. -/
def execFrameRetransmit (s : State) : Out :=
  match s.arg with
  | .num n =>
    match s.hub.unacked[n]? with
    | some u =>
      if u.sent < 64 then
        .next ((s.sendPlain u.frame).modHub fun h => { h with unacked := h.unacked.modify n fun v => { v with sent := v.sent + 1 } })
      else .next (s.modHub fun h => { h with unacked := h.unacked.eraseIdx n, hostLost := true })
    | none => .next s
  | _ => .next s

/-! ## Descriptors (R43, R332) -/

/-- Byte `n` of a descriptor. -/
def descByte (d : List Byte) (n : Nat) : Nat := (d.getD n 0).toNat
/-- Bytes of a descriptor as a number. -/
def descField (d : List Byte) (n k : Nat) : Nat := ofLe ((d.drop n).take k)
/-- The handles of a descriptor: (mode, zero bits, handle). -/
def descHandles (d : List Byte) : List (Nat × Nat × Nat) :=
  (List.range (descByte d 0x1B)).map fun i =>
    let v := descField d (0x40 + 2 * i) 2
    (bitsOf 15 14 v, bitsOf 13 10 v, bitsOf 9 0 v)

/-- The conditions of status 1. -/
def descOk (d : List Byte) : Bool :=
  let prio := descByte d 0x18
  let dmin := descByte d 0x19
  let dmax := descByte d 0x1A
  let back := descField d 0x20 8
  decide (2 ≤ prio ∧ prio ≤ 11) && decide (dmin ≤ dmax ∧ dmax ≤ 32) && decide (descByte d 0x1B ≤ 64) &&
  decide (descField d 0x1C 4 = 0) && decide (descField d 0x28 24 = 0) &&
  (descHandles d).all (fun h => decide (h.1 ≠ 0 ∧ h.2.1 = 0)) &&
  decide (back % 0x10000 = 0) && (decide (dmin < dmax) || decide (back = 0))

/-- The backing area maps, readable and writable. -/
def State.backOk (s : State) (asid : BitVec 16) (d : List Byte) : Bool :=
  let banks := descByte d 0x1A - descByte d 0x19
  (List.range (banks * 256)).all fun i =>
    match s.peek .hub asid (BitVec.ofNat 64 (descField d 0x20 8 + i * 0x10000)) with
    | some (_, pte, _) => pte.toNat.testBit 1 && pte.toNat.testBit 2
    | none => false

/-- The translation of the backing area that firmware makes at admission (R315). -/
def State.backPages (s : State) (asid : BitVec 16) (d : List Byte) : List Nat :=
  (List.range ((descByte d 0x1A - descByte d 0x19) * 256)).map fun i =>
    match s.peek .hub asid (BitVec.ofNat 64 (descField d 0x20 8 + i * 0x10000)) with
    | some (pa, _, _) => pa / 0x10000
    | none => 0

/-- The status that refuses a launch, or the die that takes it. -/
def State.admitTo (s : State) (asid : BitVec 16) (d : List Byte) : Nat ⊕ Nat :=
  let dmax := descByte d 0x1A
  if !(descOk d) then .inl 1
  else if !(s.backOk asid d) then .inl 2
  else if 0 < dmax ∧ (List.range 64).all (fun q => decide (32 - (s.quad q).retired < dmax)) = true then .inl 4
  else match s.chooseDie (descByte d 0x18) dmax with
    | some n => .inr n
    | none => .inl 4

/-! ## The launch ring (R417) -/

/-- The address of an entry of a queue's ring. -/
def HostQueue.entryVa (q : HostQueue) (t : Nat) : Word := q.rbase + BitVec.ofNat 64 (256 * (t % 2 ^ q.rlog))

/-- An entry is done; the free count extends over the leading done ones. -/
def HostQueue.extend : (fuel : Nat) → HostQueue → HostQueue
  | 0, q => q
  | n + 1, q => if q.done.contains q.free then HostQueue.extend n { q with free := q.free + 1, done := q.done.filter fun k => k != q.free } else q

/-- Marks an entry done. -/
def State.entryDone (s : State) (h n : Nat) : State :=
  s.modHostQ h fun q => HostQueue.extend (q.done.length + 1) { q with done := n :: q.done }

/-- The bytes of an entry as the hub reads them; an entry that has lost its mapping reads 0, which no launch accepts. -/
def State.entryBytes (s : State) (q : HostQueue) (n : Nat) : State × List Byte :=
  match hubRead q.asid .s 33 (q.entryVa n) 256 s with
  | .ok bs s1 => (s1, bs)
  | .error _ s1 => (s1, [])

/-- The launch of an accepted descriptor. -/
def newLaunch (s : State) (h n : Nat) (q : HostQueue) (tag : BitVec 32) (d : List Byte) (die : Nat) : Launch :=
  let handles := (descHandles d).map fun u => (u.2.2, decide (2 ≤ u.1))
  let deps := dependsOn s.hub.launches handles
  { tag := tag, queue := h, entry := n, entryVa := q.entryVa n, asid := q.asid
    root := BitVec.ofNat 64 (descField d 0 8), frame := BitVec.ofNat 64 (descField d 8 8), arg := BitVec.ofNat 64 (descField d 0x10 8)
    prio := descByte d 0x18, dmin := descByte d 0x19, dmax := descByte d 0x1A, back := BitVec.ofNat 64 (descField d 0x20 8)
    pages := s.backPages q.asid d
    handles := handles, die := BitVec.ofNat 2 die, deps := deps
    dab := deps.any fun t => match s.launch t with | some m => m.aborted | none => false
    rooted := false, total := 0, asked := false, confirmed := [], complete := false, aborted := false
    kwhy := 0, kcause := 0, kctx := 0, nviol := 0, hb := s.before.at_ h }

/-- The hub takes the next entry of a queue as a launch, with the next tag; none while 256 launches are live or a controller is
being taken over. -/
def State.admitOne (s : State) (h : Nat) : Option State :=
  let q := s.hostQ h
  if 256 ≤ s.hub.launches.length ∨ (s.dies.any fun (d : Nat × Die) => d.2.takeover) = true then none
  else
    let n := q.admitted
    let (s1, d) := s.entryBytes q n
    let tag := BitVec.ofNat 32 s.hub.nextTag
    let taken (t : State) : State :=
      (t.modHub fun u => { u with nextTag := u.nextTag + 1 }).modHostQ h fun q => { q with admitted := n + 1 }
    match s1.admitTo q.asid d with
    | .inl status => some (((taken s1).sendKept 6 h (tag.setWidth 64) (BitVec.ofNat 64 status) 0 []).entryDone h n)
    | .inr die => some ((taken ((s1.journal die).modHub fun u => { u with
        launches := Tab.put u.launches tag.toNat (newLaunch s1 h n q tag d die) })).syncHandles)

/-- Takes up to `n` of the launches that wait, in the order of their arrival (R332). -/
def State.admitMany (s : State) : (n : Nat) → State
  | 0 => s
  | n + 1 =>
    match s.hub.arrivals with
    | [] => s
    | h :: t =>
      match s.admitOne h with
      | some s1 => (s1.modHub fun u => { u with arrivals := t }).admitMany n
      | none => s

/-- Takes the launches that wait while the hub can. -/
def State.admitAll (s : State) : State := s.admitMany s.hub.arrivals.length

/-- `n` more launches of a queue arrive: the queue's tail advances, every die's controller journals the kick, and those that can
be are admitted (R338). -/
def State.kicked (s : State) (h n : Nat) : State :=
  let s1 := (s.modHostQ h fun q => { q with tail := q.tail + n }).modHub fun u => { u with arrivals := u.arrivals ++ List.replicate n h }
  ([0, 1, 2, 3].foldl State.journal s1).admitAll

/-- LAUNCH: the descriptor is written to the queue's next entry and admitted. -/
def execLaunch (s : State) : Out :=
  frameIn 1 (fun f s =>
    let h := f.queue.toNat
    let q := s.hostQ h
    if f.payload.length < 0x40 ∨ 256 < f.payload.length then (s, 1)
    else if q.rbase = 0 ∨ q.tail - q.free = 2 ^ q.rlog then (s, 2)
    else
      let m : M Unit := do
        hubCheck q.asid .s .write (q.entryVa q.tail) 256
        hubWrite q.asid .s false h 33 (q.entryVa q.tail) (f.payload ++ List.replicate (256 - f.payload.length) 0)
      match m s with
      | .ok _ s1 => (s1.kicked h 1, 0)
      | .error (.trap t) s1 => (s1.hostRefuse 2 (q.entryVa q.tail) t, 2)
      | .error .wait s1 => (s1, 2)) s

/-- KICK: the entries up to a new tail are admitted in order. -/
def execKick (s : State) : Out :=
  frameIn 2 (fun f s =>
    let h := f.queue.toNat
    let q := s.hostQ h
    let t := f.aux.toNat
    if t < q.tail ∨ q.free + 2 ^ q.rlog < t ∨ (q.rbase = 0 ∧ q.tail < t) then (s, 2)
    else
      match (each (List.range (t - q.tail)) fun i => hubCheck q.asid .s .read (q.entryVa (q.tail + i)) 256) s with
      | .ok _ s1 => (s1.kicked h (t - q.tail), 0)
      | .error (.trap tr) s1 => (s1.hostRefuse 1 (q.entryVa q.tail) tr, 2)
      | .error .wait s1 => (s1, 2)) s

/-! ## Completion (R335) -/

/-- The status word of a completion. -/
def Launch.status (l : Launch) : Word :=
  BitVec.ofNat 64 (l.nviol * 2 ^ 48 + l.kctx % 1024 * 2 ^ 32 + l.kcause % 256 * 2 ^ 24 + l.kwhy * 2 ^ 16 +
    (if l.dab then 256 else 0) + (if l.aborted then 3 else 0))

/-- Every engine operation and posted operation of a launch has performed. -/
def State.quiet (s : State) (tag : BitVec 32) : Bool :=
  !(s.ctxs.any fun (e : Nat × Ctx) => e.2.chain.any (fun h => h.tag == tag) || e.2.chainQueue.any fun h => h.tag == tag) &&
  !(s.nmops.any fun c => c.tag == tag) && !(s.posted.any fun p => p.tag == tag) &&
  !(s.dies.any fun (d : Nat × Die) => d.2.coll.any fun c => c.2.tag == tag)

/-- Every barrier that a launch owns returns to Idle, and the marks of it are cleared. -/
def State.freeBars (s : State) (tag : BitVec 32) : State :=
  (s.bars.filter fun b => decide (barScope b.1 ≤ 4) && b.2.owner == tag.toNat).foldl (fun t b =>
    let t1 := if b.2.state = .idle then t else t.setBar b.1 { b.2 with state := .idle, n := 0, a := 0, drops := 0 }
    { t1 with ctxs := t1.ctxs.map fun (e : Nat × Ctx) =>
        if (Tab.find e.2.parts b.1).isSome then (e.1, { e.2 with parts := Tab.del e.2.parts b.1 }) else e }) s

/-- The release of a launch: the caches write back, the window lines of its own quads too, and durable bytes are persistent
(R316, R335, R376). -/
def State.releaseAll (s : State) (tag : BitVec 32) : State :=
  let s1 := s.cores.foldl (fun t (c : Nat × Core) => t.flushL1 none c.1) s
  (s1.quads.foldl (fun t (q : Nat × Quad) => t.flushQuad none q.1 (decide (q.2.owner ≠ some tag))) s1).acceptWaiting

/-- A launch may complete: its total is 0, every die has confirmed since, its engine operations have performed, and no controller
is being taken over. -/
def State.completable (s : State) (l : Launch) : Bool :=
  decide (l.total = 0) && (l.rooted || l.aborted) && [0, 1, 2, 3].all (fun d => l.confirmed.contains d) && s.quiet l.tag &&
  !(s.dies.any fun (d : Nat × Die) => d.2.takeover)

/-- The launches that could complete if no controller were being taken over: those whose completion a reconciliation finds. -/
def State.finds (s : State) : List Nat :=
  let t := { s with dies := s.dies.map fun (d : Nat × Die) => (d.1, { d.2 with takeover := false }) }
  (s.hub.launches.filter fun p => t.completable p.2).map fun p => p.1

/-- Completions found during a reconciliation are sent in tag order (R338). -/
def State.inTurn (s : State) (tag : BitVec 32) : Bool := !s.hub.found.contains tag.toNat || s.hub.found.all fun t => decide (tag.toNat ≤ t)

/-- LAUNCH_COMPLETE: the release covers every access of the launch (R333). -/
def execLaunchComplete (s : State) : Out :=
  match s.arg with
  | .tag t =>
    match s.launch t with
    | none => .next s
    | some l =>
      if s.completable l = true ∧ s.inTurn t = true then
        let s1 := (((((s.journal l.die.toNat).releaseAll t).finishes t).freeStores t).freeBars t)
        let s2 := s1.modHub fun h => { h with
          found := h.found.filter fun n => n != t.toNat
          vlogs := h.vlogs.map fun v => (v.1, { v.2 with entries := v.2.entries.filter fun e => e.tag != t })
          launches := Tab.del h.launches t.toNat }
        .next ((((s2.sendKept 6 l.queue (t.setWidth 64) l.status 0 []).entryDone l.queue l.entry).syncHandles).admitAll)
      else .next s
  | _ => .next s

/-- CONTROLLER_TAKEOVER: the standby ends its reconciliation, with the completions that it has found, and the launches that wait in the queues that it rescans are taken
up. -/
def execControllerTakeover (s : State) : Out :=
  match s.arg with
  | .die d =>
    if (s.die d.toNat).takeover then
      .next ((((s.modDie d.toNat fun e => { e with takeover := false }).modHub fun h => { h with found := s.finds }).journal d.toNat).admitAll)
    else .next s
  | _ => .next s

end Sys2Proof.Machine
end

