-- ==== Sys2Proof/Machine/Management.lean ====
section
/-! DEFINITION. Package operation: boot, identity, clocks and power, management requests, and the writes that firmware makes at
level F (R101, R232, R298-R300, R319, R329, R337, R340, R344, R349, R382-R389, R396, R398, R409). -/

namespace Sys2Proof.Machine

/-! ## Boot (R382-R385) -/

/-- The least prefix of an image before its payload. -/
def imageFixed : Nat := 0x74A0
/-- Bytes `a` to `a + n - 1` of what has been received. -/
def Hub.imageBytes (h : Hub) (a n : Nat) : List Byte := (List.range n).map fun i => Tab.look 0 h.image (a + i)
/-- The payload's length as the header gives it. -/
def Hub.imageLen (h : Hub) : Nat := ofLe (h.imageBytes 8 8)
/-- A whole image has arrived. -/
def Hub.imageWhole (h : Hub) : Bool :=
  let total := imageFixed + h.imageLen
  (List.range 16).all (fun i => (Tab.find h.image i).isSome) && decide (h.imageLen ≤ 2 ^ 26) &&
  decide ((h.image.filter fun b => b.1 < total).length = total)

/-- IMAGE: bytes of an image at an offset, in WAIT; the whole image takes the hub to VERIFY. In VERIFY and LOAD the frame is
discarded, and in RUN it is refused. -/
def execImageFrame (s : State) : Out :=
  match s.arg with
  | .frame f =>
    if f.typ ≠ 8 ∨ 256 ≤ f.queue.toNat ∨ s.hub.bmt f = false then .next s
    else
      match s.hub.boot with
      | .wait => .next (s.inOrder f.queue.toNat f.seq fun t =>
          if !(frameOk f) then (t, 1)
          else if f.queue ≠ 0 then (t, 3)
          else
            let t1 := t.modHub fun h => { h with image :=
              (f.payload.zip (List.range f.payload.length)).foldl (fun m b => Tab.put m (f.addr.toNat + b.2) b.1) h.image }
            (if t1.hub.imageWhole then t1.modHub fun h => { h with boot := .verify } else t1, 0))
      | .run => .next (s.inOrder f.queue.toNat f.seq fun t =>
          if !(frameOk f) then (t, 1) else if f.queue ≠ 0 then (t, 3) else (t, 2))
      | _ => .next s
  | _ => .next s

/-- BOOT_STATUS: in WAIT the hub sends its boot status. -/
def execBootStatus (s : State) : Out :=
  if s.hub.boot = .wait then .next (s.sendPlain (deviceFrame 9 0 0 0 0 s.hub.imageStatus [])) else .next s

/-- The status of VERIFY, 0 when the image passes (R383). -/
def Hub.verify (h : Hub) : Nat :=
  let payload := h.imageBytes imageFixed h.imageLen
  if ofLe (h.imageBytes 0 4) ≠ 0x4B514657 ∨ ofLe (h.imageBytes 4 2) ≠ 1 ∨ (h.imageBytes 0x18 40).any (fun b => b != 0) = true then 1
  else if ofLe (h.imageBytes 6 2) < h.minSvn then 2
  else if hash256 (Config.imageKey payload) ≠ Config.fusedKeyHash then 3
  else if !(slhVerify (Config.imageKey payload) (h.imageBytes 0 0x40 ++ payload) (h.imageBytes 0x40 29792)) then 4
  else 0

/-- The status word of the durable tier (R379). -/
def PersistStatus.word (p : PersistStatus) : Nat :=
  p.cycles * 2 ^ 32 + (if p.bad then 8 else 0) + (if p.drain then 4 else 0) + (if p.loss then 2 else 0)

/-- The tests of LOAD on what was withdrawn or retired: what fails stays retired, by free values (R384). -/
def State.retestAll (s : State) : State :=
  let s1 := s.cores.foldl (fun t (c : Nat × Core) =>
    if c.2.withdrawn || c.2.retired then
      { t.modCore c.1 fun k => { k with withdrawn := false, retired := (Config.freeWord t.fresh).getLsbD 0 } with fresh := t.fresh + 1 }
    else t) s
  s1.quads.foldl (fun t (q : Nat × Quad) =>
    let n := q.2.banks.length
    { t.modQuad q.1 fun k => { k with
        banks := ((k.banks.zip (List.range n)).filter fun b => (Config.freeWord (t.fresh + b.2)).getLsbD 0).map fun b => b.1 }
      with fresh := t.fresh + n }) s1

/-- The dispatch controllers of a die start, with the backing rings and the journal area of the released firmware, and its governor
is at the basic level (R329, R338, R384). -/
def Die.start (e : Die) (d : Nat) : Die :=
  { e with
    rings := (List.range 12).map fun p => (p, ⟨Config.ringBase d p, Config.queueRing⟩)
    controllers := 2, takeover := false, journal := { base := Config.journalBase d }, dvfs := {} }

/-- The boot report (R385). -/
def State.bootReport (s : State) : BootReport :=
  { persist := s.hub.persist.word, measurement := s.hub.measurement
    errata := BitVec.ofNat 64 (s.hub.errataGen * 2 ^ 56) ||| s.hub.errataMask.setWidth 64
    key := slhPublic identitySecret
    cores := (s.cores.filter fun c => c.2.retired).map fun c => c.1
    banks := (s.quads.filter fun q => !q.2.banks.isEmpty).map fun q => (q.1, q.2.banks)
    rings := (List.range 12).map fun p => ((s.die 0).ring p).size
    corrected := (s.cores.filter fun c => c.2.corrected != 0).map fun c => (c.1, c.2.corrected) }

/-- LOAD and the entry to RUN (R382, R384): the fount table and `errata`, the dies' controllers, rings, journals and governors, the
trap vectors, the eight lanes of the Ethernet port, the torus ports, the tests, and the boot report, after which the corrected-event counts are cleared. -/
def State.load (s : State) : State :=
  let payload := s.hub.imageBytes imageFixed s.hub.imageLen
  let s1 := { s.modHub fun h => { h with
      boot := .run, lanes := 8, imageStatus := 0, svn := ofLe (h.imageBytes 6 2), measurement := hash256 payload
      errataGen := ofLe (h.imageBytes 4 2), errataMask := BitVec.ofNat 56 (ofLe (h.imageBytes 0x10 8))
      absent := if Config.released payload then [] else (Config.imageAbsent payload).map fun e => ⟨e.1, e.2.1, e.2.2⟩
      image := []
      ports := (List.range 6).map fun p => (p, { st := 2 }) } with
    dies := (List.range 4).map fun d => (d, (s.die d).start d)
    ctxs := (List.range 1024).map fun x => (x, { s.ctx (BitVec.ofNat 10 x) with trap := { tvec := Config.imageTvec payload &&& ~~~3#64 } }) }
  let s2 := s1.retestAll
  { s2.modHub fun h => { h with reports := s2.bootReport :: h.reports } with
    cores := s2.cores.map fun (c : Nat × Core) => (c.1, { c.2 with corrected := 0 }) }

/-- VERIFY: the first failing check returns the hub to WAIT with its status; an image that passes is loaded. -/
def execVerifyImage (s : State) : Out :=
  if s.hub.boot = .verify then
    let st := s.hub.verify
    if st = 0 then .next s.load
    else .next (s.modHub fun h => { h with boot := .wait, imageStatus := st, image := [] })
  else .next s

/-! ## Identity (R386) -/

/-- The signed part of an attestation: nonce, measurement, `errata`, svn and persist status. -/
def Hub.attest (h : Hub) (nonce : List Byte) : List Byte :=
  nonce ++ leBytes 32 h.measurement ++ leBytes 8 (h.errataGen * 2 ^ 56 + h.errataMask.toNat) ++ leBytes 2 h.svn ++ leBytes 8 h.persist.word

/-- ATTESTATION: the reply is signed under the identity key. DESIGN CHOICE: the randomness of FIPS 205's signature is a free value. -/
def execAttestation (s : State) : Out :=
  frameIn 12 (fun f s =>
    if f.payload.length = 32 then
      let m := s.hub.attest f.payload
      let r := (List.range 4).flatMap fun i => leBytes 8 (Config.freeWord (s.fresh + i)).toNat
      ({ s.sendPlain (deviceFrame 12 0 f.seq 0 0 0 (m ++ slhSign identitySecret r m)) with fresh := s.fresh + 4 }, 0)
    else (s, 1)) s

/-! ## Snapshots and logs (R299, R300) -/

/-- SNAPSHOT_FRAME. -/
def execSnapshotFrame (s : State) : Out := frameIn 13 (fun _ s => (s.snapshot, 0)) s

/-- The snapshot registers as bytes, in a layout of the model's own: the sequence number that they hold, the triggers missed, each
context, and each block's local count, the blocks being the cores and then those that have a violation log. -/
def Snapshot.bytes (n : Snapshot) : List Byte :=
  leBytes 1 (if n.latchedSeq.isSome then 1 else 0) ++ leBytes 2 (n.latchedSeq.getD 0).toNat ++ leBytes 1 n.missed ++
  (n.ctxs.flatMap fun (e : Nat × SnapCtx) =>
    leBytes 2 e.1 ++ leBytes 8 e.2.pc.toNat ++ leBytes 1 e.2.level.code ++ leBytes 8 e.2.cause.toNat ++ e.2.queued.flatMap (leBytes 1)) ++
  ((List.range 598).flatMap fun b =>
    leBytes 2 b ++ leBytes 8 (Tab.look 0 n.cycs b + Config.freeWord (n.cycFrom + b)).toNat)

/-- A log entry as R300 lays it out. -/
def LogEntry.bytes (e : LogEntry) : List Byte :=
  leBytes 8 e.addr.toNat ++ leBytes 2 e.who.toNat ++ leBytes 1 e.kind ++ leBytes 1 e.reason ++ leBytes 4 e.tag.toNat ++
  leBytes 8 e.cyc.toNat ++ leBytes 8 0

/-- The violation logs as bytes, in a layout of the model's own: each block's number, the refusals that it lost, how many entries
follow, and the entries. -/
def logBytes (logs : Tab VLog) : List Byte :=
  logs.flatMap fun (v : Nat × VLog) =>
    leBytes 2 v.1 ++ leBytes 2 v.2.lost ++ leBytes 1 v.2.entries.length ++ v.2.entries.flatMap LogEntry.bytes

/-! ## Management requests (R389) -/

/-- Serves a request in the order of queue 0: none is a refusal, with no effect; otherwise what it answers with. -/
def manage (act : Request → State → Option (State × List Byte)) (mine : Request → Bool) (s : State) : Out :=
  match s.arg with
  | .request seq r =>
    if s.hub.boot = .run ∧ mine r = true then
      .next (s.inOrder 0 seq fun t =>
        match act r t with
        | some (t1, bs) => (t1.sendKept 11 0 0 (seq.setWidth 64) 0 bs, 0)
        | none => (t.sendKept 11 0 0 (seq.setWidth 64) 1 [], 0))
    else .next s
  | _ => strayRequest s

/-- A request without a reply beyond its status. -/
def done (s : State) : Option (State × List Byte) := some (s, [])

/-- A DVFS word whose fields are in range (R387). -/
def dvfsOk (w : Word) : Bool :=
  let cap := bitsOf 9 0 w.toNat
  decide (bitsOf 19 16 w.toNat ≤ 8) && (decide (cap = 0) || decide (100 ≤ cap ∧ cap ≤ 900))

/-- A DVFS word. -/
def dvfsOf (w : Word) : Dvfs := { ex := w.getLsbD 31, step := w.extractLsb' 16 4, pcap := w.extractLsb' 0 10 }

def execDvfs : State → Out :=
  manage (fun r s => match r with
    | .dvfs d w => if dvfsOk w then done (s.modDie d.toNat fun e => { e with dvfs := dvfsOf w }) else none
    | _ => none) fun r => match r with | .dvfs _ _ => true | _ => false

def execPowerLimit : State → Out :=
  manage (fun r s => match r with
    | .powerLimit n => if 1500 ≤ n ∧ n ≤ 3600 then done (s.modHub fun h => { h with powerLimit := n }) else none
    | _ => none) fun r => match r with | .powerLimit _ => true | _ => false

def execQuadBoundary : State → Out :=
  manage (fun r s => match r with
    | .quadBoundary q pin p => done (s.modQuad q.toNat fun e => { e with cfg := { e.cfg with pin := pin, pbnd := p }, moving := none })
    | _ => none) fun r => match r with | .quadBoundary _ _ _ => true | _ => false

def execPreEmptionMask : State → Out :=
  manage (fun r s => match r with
    | .preEmptionMask d m => if m.toNat < 4096 then done (s.modDie d.toNat fun e => { e with noVictims := m.setWidth 12 }) else none
    | _ => none) fun r => match r with | .preEmptionMask _ _ => true | _ => false

def execDrainShare : State → Out :=
  manage (fun r s => match r with
    | .drainShare n => if 1 ≤ n ∧ n ≤ 8 then done (s.modHub fun h => { h with drainShare := n }) else none
    | _ => none) fun r => match r with | .drainShare _ => true | _ => false

def execConfirmVersion : State → Out :=
  manage (fun r s => match r with
    | .confirmVersion => done (s.modHub fun h => { h with minSvn := Nat.max h.minSvn h.svn })
    | _ => none) fun r => match r with | .confirmVersion => true | _ => false

/-- A withdrawn core goes back to test; it stays withdrawn until firmware's verdict (R298). -/
def execRetest : State → Out :=
  manage (fun r s => match r with
    | .retest c => if (s.core c.toNat).withdrawn then done (s.modCore c.toNat fun k => { k with retired := false }) else none
    | _ => none) fun r => match r with | .retest _ => true | _ => false

def execSnapshotRequest : State → Out :=
  manage (fun r s => match r with
    | .snapshot => some (s.snapshot, s.snapshot.hub.snap.bytes)
    | _ => none) fun r => match r with | .snapshot => true | _ => false

def execLogsRequest : State → Out :=
  manage (fun r s => match r with
    | .logs => some (s.modHub fun h => { h with vlogs := [] }, logBytes s.hub.vlogs)
    | _ => none) fun r => match r with | .logs => true | _ => false

def execQueueSetup : State → Out :=
  manage (fun r s => match r with
    | .queueSetup h asid rbase rlog =>
      if h = 0 ∨ 256 ≤ h ∨ rbase.toNat % 4096 ≠ 0 ∨ 12 < rlog ∨ (s.hub.launches.any fun l => l.2.queue == h) = true then none
      else done ((s.modHostQ h fun q => { q with
        asid := asid, rbase := rbase, rlog := rlog, setUp := true, tail := 0, admitted := 0, free := 0, done := [] }).modHub fun u => { u with
          arrivals := u.arrivals.filter fun k => k != h })
    | _ => none) fun r => match r with | .queueSetup _ _ _ _ => true | _ => false

def execPodJoin : State → Out :=
  manage (fun r s => match r with
    | .podJoin dx dy dz me =>
      if 1 ≤ dx ∧ dx ≤ 64 ∧ 1 ≤ dy ∧ dy ≤ 64 ∧ 1 ≤ dz ∧ dz ≤ 64 ∧ me.x.toNat < dx ∧ me.y.toNat < dy ∧ me.z.toNat < dz ∧
          s.hub.launches.isEmpty = true then
        done (s.modHub fun h => { h with dims := (dx, dy, dz), me := me })
      else none
    | _ => none) fun r => match r with | .podJoin _ _ _ _ => true | _ => false

/-- The number of a port. -/
def portIx : PortNo → Nat
  | .xPlus => 0
  | .xMinus => 1
  | .yPlus => 2
  | .yMinus => 3
  | .zPlus => 4
  | .zMinus => 5

/-- Changes a port. -/
def State.modPort (s : State) (p : Nat) (f : Port → Port) : State :=
  s.modHub fun h => { h with ports := Tab.put h.ports p (f (Tab.look {} h.ports p)) }

/-- The rate of a pinned port; codes 5 to 7 are taken as 4 (R398). -/
def Port.settle (p : Port) : Port := if p.pin then { p with cur := Nat.min p.prate.toNat 4 } else p

def execLinkPin : State → Out :=
  manage (fun r s => match r with
    | .linkPin p thr pin prate => done (s.modPort (portIx p) fun e => Port.settle { e with thr := thr, pin := pin, prate := prate })
    | _ => none) fun r => match r with | .linkPin _ _ _ _ => true | _ => false

/-- A broken pod barrier returns to Idle here, and the other hubs are told (R409). -/
def execPodBarrierReset : State → Out :=
  manage (fun r s => match r with
    | .podBarrierReset id =>
      let key := barKey 5 0 id
      if id < 16 ∧ (s.bar key).state = .broken then
        done ((s.setBar key { s.bar key with state := .idle, n := 0, a := 0, drops := 0, devs := [] }).podSend key .reset)
      else none
    | _ => none) fun r => match r with | .podBarrierReset _ => true | _ => false

/-! ## Clocks and temperature (R387, R388) -/

/-- GOVERNOR_STEP: the lowest of the requested step, the die cap's, the package limit's and the thermal one. What a load or a cap
allows is the governor's. -/
def execGovernorStep (s : State) : Out :=
  match s.arg with
  | .die d =>
    let e := s.die d.toNat
    let req := if e.dvfs.ex then e.dvfs.step.toNat else Nat.min 8 (Config.governor 0 (Config.freeWord s.fresh).toNat)
    let cap := if e.dvfs.pcap = 0 then 8 else Nat.min 8 (Config.governor 1 e.dvfs.pcap.toNat)
    let pkg := Nat.min 8 (Config.governor 2 s.hub.powerLimit)
    .next { s.modDie d.toNat fun k => { k with clock := Nat.min (Nat.min req cap) (Nat.min pkg e.thermal) } with fresh := s.fresh + 1 }
  | _ => .next s

/-- THERMAL_THROTTLE: at 105 °C or above the hot die's step falls by one; below, the thermal step is lifted. -/
def execThermalThrottle (s : State) : Out :=
  match s.arg with
  | .dieTemp d t => .next (s.modDie d.toNat fun k =>
      if 105 ≤ t then { k with temp := t, thermal := Nat.min k.thermal k.clock - 1, clock := Nat.min k.thermal k.clock - 1 }
      else { k with temp := t, thermal := 8 })
  | _ => .next s

/-! ## Firmware's writes at level F -/

/-- True while a matrix entry of a context of the core names a unit: a tile (`wgt` false) or a forme. -/
def State.namesUnit (s : State) (c : Nat) (wgt : Bool) (j : Nat) : Bool :=
  (ctxsOfCore c).any fun x => (s.ctx x).queue.any fun e => match e.instr with
    | .mma f => if wgt then f.vs2.toNat == j else f.vd.toNat == j
    | .mmat f => if wgt then f.vs2.toNat == j else f.vd.toNat == j
    | .wld f => wgt && f.vd.toNat == j
    | .wswap f => wgt && f.vd.toNat == j
    | .mzero f => !wgt && f.vd.toNat == j
    | .tld f => !wgt && f.vd.toNat == j
    | .tmv f => !wgt && f.vs1.toNat == j
    | .tcol f => !wgt && f.vs1.toNat == j
    | _ => false

/-- The writable bits of an allotment (R232). -/
def allotMask : Word := 0xBBBBBBBB#64

/-- TALLOT_WRITE: waits for the matrix entries that name a tile whose owner changes; those tiles then read +0. -/
def execTallotWrite (s : State) : Out :=
  match s.arg with
  | .coreVal c v =>
    let w := v &&& allotMask
    let units := changedUnits (s.core c.toNat).tallot w
    if units.any (s.namesUnit c.toNat false) then .next s
    else .next (s.modCore c.toNat fun k => ({ k with tallot := w }).clearTiles units)
  | _ => .next s

/-- WALLOT_WRITE: the same for formes, whose planes become empty. -/
def execWallotWrite (s : State) : Out :=
  match s.arg with
  | .coreVal c v =>
    let w := v &&& allotMask
    let units := changedUnits (s.core c.toNat).wallot w
    if units.any (s.namesUnit c.toNat true) then .next s
    else .next (s.modCore c.toNat fun k => ({ k with wallot := w }).clearFormes units)
  | _ => .next s

/-- VCSR_WRITE: a write to a context's `vcsr` waits for its earlier vector and matrix instructions, then updates modes and flags
(R100, R101). -/
def execVcsrWrite (s : State) : Out :=
  match s.arg with
  | .ctxVal x v =>
    if (s.ctx x).queue.any fun e => !e.parked && decide (e.queue ≠ .copy) then .next s
    else .next (s.modCtx x fun c => { c with vcsr := c.vcsr.write v })
  | _ => .next s

/-- Where a write to control space goes. -/
def State.writeControl (s : State) (r : CtlReg) (v : Word) : State :=
  match r with
  | .qcfg q => s.modQuad q.toNat fun e => { e with
      cfg := { thr := v.extractLsb' 48 16, pin := v.getLsbD 0, pbnd := v.extractLsb' 8 6 }, moving := none }
  | .lnkcfg p => s.modPort (portIx p) fun e => Port.settle { e with thr := v.extractLsb' 48 16, pin := v.getLsbD 0, prate := v.extractLsb' 2 3 }
  | .root0 d a => s.modDie d.toNat fun e => { e with root0 := Tab.put e.root0 a.toNat (bitsOf 51 16 v.toNat * 65536) }
  | .root1 d a => s.modDie d.toNat fun e => { e with root1 := Tab.put e.root1 a.toNat (bitsOf 51 16 v.toNat * 65536) }
  | .asid x => s.modCtx x fun c => { c with asid := v.setWidth 16 }
  | .ring d p => if p.toNat < 12 ∧ 4096 ≤ v.toNat ∧ v.toNat ≤ 2 ^ 20 ∧ 2 ^ v.toNat.log2 = v.toNat then
      s.modDie d.toNat fun e => { e with rings := Tab.put e.rings p.toNat { e.ring p.toNat with size := v.toNat } } else s
  | .ringBase d p => if p.toNat < 12 then
      s.modDie d.toNat fun e => { e with rings := Tab.put e.rings p.toNat { e.ring p.toNat with base := v } } else s
  | .rearm => s.modHub fun h => { h with snap := { h.snap with armed := true } }
  | .firstMismatch c => s.modCore c.toNat fun k => { k with firstMismatch := v.getLsbD 0 }
  | .verdict c => if (s.core c.toNat).withdrawn then
      s.modCore c.toNat fun k => { k with withdrawn := false, retired := !v.getLsbD 0 } else s
  | .etherType => s.modHub fun h => { h with etherType := v.setWidth 16 }
  | .retireBank q => s.retireBank q.toNat (v.toNat % 32)

/-- CONTROL_SPACE_WRITE. -/
def execControlSpaceWrite (s : State) : Out :=
  match s.arg with
  | .ctl r v => .next (s.writeControl r v)
  | _ => .next s

end Sys2Proof.Machine
end

