-- ==== Sys2Proof/Machine/Fabric.lean ====
section
/-! DEFINITION. The torus, remote operations, pod barriers and the collective engine (R396-R414). -/

namespace Sys2Proof.Machine

/-! ## The torus (R396-R399) -/

/-- A device of the pod. -/
def Hub.inPod (h : Hub) (c : Coord3) : Bool :=
  decide (c.x.toNat < h.dims.1 ∧ c.y.toNat < h.dims.2.1 ∧ c.z.toNat < h.dims.2.2)

/-- One axis of a route: how many devices its ring has, the place of a device on it, and the port that a direction leaves by. -/
structure Axis where
  size : Nat
  at_ : Nat → Coord3
  plus : PortNo
  minus : PortNo

/-- The next place in a direction. -/
def Axis.next (a : Axis) (up : Bool) (n : Nat) : Nat := if up then (n + 1) % a.size else (n + a.size - 1) % a.size

/-- The hop from a place in a direction works: its link has not failed, and neither has the device it leads to. -/
def Hub.hopOk (h : Hub) (a : Axis) (up : Bool) (n : Nat) : Bool :=
  let m := a.at_ (a.next up n)
  let out := if up then a.plus else a.minus
  let into := if up then a.minus else a.plus
  !(h.downLinks.contains (a.at_ n, out)) && !(h.downLinks.contains (m, into)) && !(h.failed.contains m)

/-- Every hop of `k` from a place in a direction works. -/
def Hub.wayOk (h : Hub) (a : Axis) (up : Bool) : (k n : Nat) → Bool
  | 0, _ => true
  | k + 1, n => h.hopOk a up n && Hub.wayOk h a up k (a.next up n)

/-- The direction in which a packet takes an axis: the shorter way, + on a tie, or the other way around a break; a ring of two uses
the + ports alone. None when both ways are broken. -/
def Hub.way (h : Hub) (a : Axis) (n m : Nat) : Option Bool :=
  let f := (m + a.size - n) % a.size
  let b := a.size - f
  let first := decide (f ≤ b)
  if f = 0 then some true
  else if h.wayOk a first (if first then f else b) n then some first
  else if a.size ≠ 2 ∧ h.wayOk a (!first) (if first then b else f) n = true then some (!first)
  else none

/-- The directions in which a packet takes the three axes to a device, in dimension order. -/
def Hub.ways (h : Hub) (dst : Coord3) : Option Bool × Option Bool × Option Bool :=
  let ax : Axis := ⟨h.dims.1, fun n => { h.me with x := BitVec.ofNat 6 n }, .xPlus, .xMinus⟩
  let ay : Axis := ⟨h.dims.2.1, fun n => { h.me with x := dst.x, y := BitVec.ofNat 6 n }, .yPlus, .yMinus⟩
  let az : Axis := ⟨h.dims.2.2, fun n => { dst with z := BitVec.ofNat 6 n }, .zPlus, .zMinus⟩
  (h.way ax h.me.x.toNat dst.x.toNat, h.way ay h.me.y.toNat dst.y.toNat, h.way az h.me.z.toNat dst.z.toNat)

/-- The port by which a packet leaves this hub; none when the route is broken. -/
def Hub.route (h : Hub) (dst : Coord3) : Option Nat :=
  match h.ways dst with
  | (some x, some y, some z) =>
    if h.failed.contains dst then none
    else if h.me.x ≠ dst.x then some (if x then 0 else 1)
    else if h.me.y ≠ dst.y then some (if y then 2 else 3)
    else some (if z then 4 else 5)
  | _ => none

/-- FLIT_REPLAY: a flit is sent again; nothing but timing changes. -/
def execFlitReplay (s : State) : Out :=
  match s.arg with
  | .port p => .next (s.modPort (portIx p) fun e => { e with replays := e.replays + 1 })
  | _ => .next s

/-- LINK_STEP_UP: a port well above its margin steps up one rate. -/
def execLinkStepUp (s : State) : Out :=
  match s.arg with
  | .port p => .next (s.modPort (portIx p) fun e => if e.pin ∨ e.st ≠ 2 then e else { e with cur := e.cur - 1 })
  | _ => .next s

/-! ## Pod barriers (R409) -/

/-- Changes what a pod barrier knows of the participants on a device. -/
def Barrier.modPart (b : Barrier) (dev : Coord3) (f : PodPart → PodPart) : Barrier :=
  let p := (b.devs.find? fun d => d.dev == dev).getD ⟨dev, 0, 0⟩
  { b with devs := f p :: b.devs.filter fun d => d.dev != dev }

/-- One participant arrives in the current phase. -/
def PodPart.arrive (p : PodPart) : PodPart := { p with now := p.now + 1, most := Nat.max p.most (p.now + 1) }
/-- One participant that has arrived in the current phase leaves. -/
def PodPart.leave (p : PodPart) : PodPart := { p with now := p.now - 1, most := p.most - 1 }

/-- What another hub reports about a pod barrier takes effect on this hub's copy. -/
def State.podEvent (s : State) (src : Coord3) (id : Nat) (m : PodMessage) : State :=
  let key := barKey 5 0 id
  let b := s.bar key
  let put (t : State) (b : Barrier) : State := { t with bars := Tab.put t.bars key b }
  match m with
  | .arrival asid n drop =>
    if b.state = .broken then s
    else
      let b1 := (if b.state = .idle then openBar b n asid.toNat else b).modPart src PodPart.arrive
      let b2 := if drop then { b1.modPart src PodPart.leave with drops := b1.drops + 1 } else b1
      (put s b2).countArrival key
  | .leave =>
    match b.state with
    | .idle => s
    | .open_ => put s { b.modPart src PodPart.leave with drops := b.drops + 1 }
    | .broken => put s (lowerBroken key (b.modPart src PodPart.leave))
  | .broken => (put s (b.modPart src PodPart.leave)).breakBar key
  | .reset => if b.state = .broken then s.setBar key { b with state := .idle, n := 0, a := 0, drops := 0, devs := [] } else s

/-- POD_BARRIER_ARRIVAL. -/
def execPodBarrierArrival (s : State) : Out :=
  match s.arg with
  | .pod src id m => .next (s.podEvent src id.toNat m)
  | _ => .next s

/-! ## Remote operations of a context (R407) -/

/-- Numbers a remote operation and notes it at its context; one whose route is broken is refused with code 0x02 at once. The scope
and the class are those of a reduce store (R363, R406). -/
def newRemote (x : CtxNo) (major scope cls : Nat) (dst : Coord3) (addr : Word) : M (Nat × Bool) := do
  let s ← get
  let n := s.hub.nextOp
  let way := s.hub.route dst
  let r : Remote := ⟨n, major, scope, cls, if way.isSome then none else some ⟨0x02, addr⟩, way.isNone, way.getD 0⟩
  upd fun s => (s.modHub fun h => { h with nextOp := n + 1 }).modCtx x fun c => { c with remote := c.remote ++ [r] }
  pure (n, way.isSome)

def execRfen : State → Out :=
  front fun x c => do
    if c.queue.any fun e => !e.parked && match e.instr with | .rsend _ => true | .rredst _ => true | _ => false then stall
    if c.remote.any fun r => !r.acked then stall
    let bad := c.remote.filter fun r => r.refused.isSome
    updCtx x fun c => { c with remote := [] }
    match bad with
    | [] => pure (c.after 8)
    | r :: t => do
      each t fun q => upd fun s => s.logRemote x q
      match r.refused with
      | some f => raise { cause := 0x08, addr := f.addr, info := BitVec.ofNat 64 (r.major * 256 + f.code.toNat) }
      | none => pure (c.after 8)

/-! ## Descriptors (R401) -/

/-- The coordinates and the asid of a descriptor's first word. -/
def descDst (w : Word) : Coord3 × BitVec 16 := (⟨w.extractLsb' 0 6, w.extractLsb' 8 6, w.extractLsb' 16 6⟩, w.extractLsb' 32 16)
/-- The coordinates as a word. -/
def coordWord (c : Coord3) : Nat := c.x.toNat + c.y.toNat * 256 + c.z.toNat * 65536

/-- The fields of a channel descriptor or a reduce target are in range (R401, R403); a slot size that is too small meets the next
check. DESIGN CHOICE: a base that is not aligned, or a slot size above 17, fails with the zero fields. -/
def chanOk (kind : Nat) (w : List Word) : Bool :=
  let g (k : Nat) : Nat := (blockWord w k).toNat
  let sz := bitsOf 20 16 (g 2)
  decide (g 0 / 2 ^ 48 = 0 ∧ bitsOf 7 6 (g 0) = 0 ∧ bitsOf 15 14 (g 0) = 0 ∧ bitsOf 31 22 (g 0) = 0) &&
  decide (g 2 / 2 ^ 24 = 0 ∧ bitsOf 21 21 (g 2) = 0 ∧ bitsOf 23 22 (g 2) = kind) &&
  decide (g 5 = 0 ∧ g 6 = 0 ∧ g 7 = 0) &&
  (if kind = 0 then decide (sz ≤ 17 ∧ g 1 % 2 ^ sz = 0) else decide (bitsOf 20 0 (g 2) = 0 ∧ g 1 % 64 = 0))

/-- A descriptor lies on an ordinary page (R401). -/
def plainPage (p : Place) : M Unit :=
  match p with
  | .phys _ pte => if pteMs pte || pteD pte then raise (badHandle 0x21) else pure ()
  | .window _ _ => pure ()

/-- Reads a descriptor of the context: aligned, on an ordinary page, with its fields in range and its device in the pod. -/
def readChan (ag : Agent) (a : Access) (kind : Nat) (d : Word) : M (List Word) := do
  if d.toNat % 64 ≠ 0 then raise (misalign d)
  plainPage (← place ag (.core (coreOf ag.x)) .read false d)
  let w ← loadWordsBy ag a d 8
  if !(chanOk kind w) then raise (badHandle 0x21)
  if !((← get).hub.inPod (descDst (blockWord w 0)).1) then raise (badHandle 0x22)
  pure w

/-- The group size of a slot in bytes, header included (R402, R403). -/
def slotBytes (vt : VType) (vl : Nat) : Nat := 64 + 1024 * vt.size + (if vt.ks then vt.size * ceilDiv vl 32 else 0)

/-! ## `rsend` and `rrecv` (R402-R404) -/

/-- The bytes of a group as a slot holds them, and the offsets of the granules with a poisoned element. -/
def slotBody (c : Ctx) (base : Nat) (vt : VType) (vl : Nat) : List (Nat × List Byte) × List Nat :=
  let ew := vt.bitsW
  let rows := (List.range vt.size).map fun r => (0x40 + 1024 * r, leBytes (ceilDiv (vl * ew) 8) (c.row (base + r)).bits.toNat)
  let nb := ceilDiv vl 32
  let scales := if vt.ks then
      (List.range vt.size).map fun r => (0x40 + 1024 * vt.size + r * nb,
        (List.range nb).map fun j => BitVec.ofNat 8 ((c.scale vt.k.toNat >>> (8 * (r * (vt.vlmax / 32) + j))).toNat % 256))
    else []
  let pois := ((List.range vt.size).flatMap fun r => (List.range vl).filterMap fun col =>
    if (c.row (base + r)).bad ew col then some ((0x40 + 1024 * r + col * ew / 8) / 8 * 8) else none).eraseDups
  (rows ++ scales, pois)

/-- Claims the next slot of a channel at the descriptor's home: its tail, when fewer than S slots are unreleased. -/
def claimSlot (ag : Agent) (d : Word) (slots : Nat) : M Nat := do
  match ← place ag (.core (coreOf ag.x)) .atomic false (d + 0x18) with
  | .window _ _ => stall
  | .phys pa _ =>
    let s := ((← get).purge ag.x (pa / 64)).reachHome (pa / 64)
    let tail := (s.homeRead pa 8).1
    let head := (s.homeRead (pa + 8) 8).1
    if slots ≤ (BitVec.ofNat 64 tail - BitVec.ofNat 64 head).toNat then stall
    set (s.homePut (some ag.x) pa 8 ((tail + 1) % 2 ^ 64) false)
    pure tail

def rsendDef (f : Op64) : QueueDef where
  usesVstart := false
  check := fun _ c => checkAlign c 0xC0 f c.vt.size
  body := fun x e => do
    let c ← ctxM x
    let ag := { entryAgent x c e with noWindow := true }
    let w ← readChan ag ((← get).entryAccess x e 15) 0 e.sa
    let ctl := (blockWord w 2).toNat
    let sz := bitsOf 20 16 ctl
    let slots := bitsOf 15 0 ctl + 1
    if 2 ^ sz < slotBytes e.vt e.vl then raise (badHandle 0x23)
    let t ← claimSlot ag e.sa slots
    upd fun s => s.fork x f.cls4.toNat f.fn3.toNat
    let (dst, asid) := descDst (blockWord w 0)
    let slot := blockWord w 1 + BitVec.ofNat 64 (t % slots * 2 ^ sz)
    let (op, ok) ← newRemote x 0xC0 0 0 dst slot
    let (body, pois) := slotBody c f.vs2.toNat e.vt e.vl
    let me := (← get).hub.me
    if ok then upd fun s => s.modHub fun h => { h with outSlots :=
      ⟨me, dst, x, op, asid, slot, BitVec.ofNat 64 (t + 1), BitVec.ofNat 64 (e.vt.word + e.vl * 65536), body, pois⟩ :: h.outSlots }

def rrecvDef (f : Op64) : QueueDef where
  usesVstart := false
  check := fun _ c => checkAlign c 0xC1 f c.vt.size
  body := fun x e => do
    if e.sa.toNat % 64 ≠ 0 then raise (misalign e.sa)
    let ag := { entryAgent x (← ctxM x) e with noWindow := true }
    let a := (← get).entryAccess x e f.cls4.toNat
    let i ← loadVa ag (e.sa + 8) 8 a
    -- what a poisoned header gives is a free value
    let info ← if i.2 then do pure (← draw).toNat else pure i.1
    if info % 2 ^ 15 ≠ e.vt.word ∨ bitsOf 27 16 info ≠ e.vl then raise (badHandle 0x25)
    let ew := e.vt.bitsW
    each (List.range (e.vt.size * e.vl)) fun i => do
      let off := 0x40 + 1024 * (i / e.vl) + i % e.vl * ew / 8
      let v ← loadVa ag (e.sa + BitVec.ofNat 64 off) (memBytes ew) a
      putLoaded x e f i (elemOf ew (i % e.vl % 2 == 1) v.1, v.2)
    if e.vt.ks then
      let nb := ceilDiv e.vl 32
      each (List.range (e.vt.size * nb)) fun n => do
        let v ← loadVa ag (e.sa + BitVec.ofNat 64 (0x40 + 1024 * e.vt.size + n)) 1 a
        updCtx x fun c => c.putScale e.vt.k.toNat (n / nb * (e.vt.vlmax / 32) + n % nb) (if v.2 then 0xFF else v.1)

/-! ## `rredst` (R406) -/

/-- The element type at the receiver. -/
def reduceTy (ty : Ty) : Option ReduceType :=
  match ty with
  | .flt _ => some .fp32
  | .q4 => some .fp32
  | .int _ 32 => some .int32
  | .int _ 64 => some .int64
  | .int _ _ => none

/-- The bytes of an element at the receiver. -/
def reduceBytes : ReduceType → Nat
  | .int64 => 8
  | _ => 4

/-- A float value as a packet carries it: FP32 bits and a power of two. -/
def packVal (v : Val) : Word × Int :=
  match v with
  | .nan => (BitVec.ofNat 64 Fmt.fp32.nan, 0)
  | .inf n => (if n then 0xFF800000 else 0x7F800000, 0)
  | .fin n m e _ => (BitVec.ofNat 64 (roundTo .fp32 .rne false 0 (.fin n m 0 false)).1, e)

/-- An active element of a group as a packet carries it. -/
def packElem (c : Ctx) (e : Entry) (base r col : Nat) : PacketElem :=
  let ty := e.vt.ty
  let v := c.elem base ty.width r col
  match ty with
  | .int _ _ => ⟨r * e.vl + col, BitVec.ofNat 64 v.1, v.2, 0⟩
  | _ => let p := packVal (srcValue c e.vt ty r col v.1); ⟨r * e.vl + col, p.1, v.2, p.2⟩

def rredstDef (f : Op64) : QueueDef where
  usesVstart := false
  check := fun _ c => do
    checkAlign c 0xC2 f c.vt.size
    if (reduceTy c.vt.ty).isNone then illegalM c 0xC2 f 6
  body := fun x e => do
    let c ← ctxM x
    let ag := { entryAgent x c e with noWindow := true }
    let w ← readChan ag ((← get).entryAccess x e 15) 1 e.sa
    upd fun s => s.fork x f.cls4.toNat f.fn3.toNat
    let (dst, asid) := descDst (blockWord w 0)
    let (op, ok) ← newRemote x 0xC2 f.fn3.toNat f.cls4.toNat dst (blockWord w 1)
    let eff := effMask c f
    let elems := (List.range (e.vt.size * e.vl)).filterMap fun i =>
      if eff.getLsbD (i % e.vl) then some (packElem c e f.vs2.toNat (i / e.vl) (i % e.vl)) else none
    let me := (← get).hub.me
    if ok then upd fun s => s.modHub fun h => { h with outReduces :=
      ⟨me, dst, x, op, asid, blockWord w 1, (reduceTy e.vt.ty).getD .fp32, elems⟩ :: h.outReduces }

/-! ## `rslot` and `rpoll` (R405) -/

def execRslot (f : Op64) : State → Out :=
  front fun x c => do
    let d := c.rg (gpr f.vs1)
    if d.toNat % 64 ≠ 0 then raise (misalign d)
    waitVector x
    upd fun s => s.settle fun p => p.x == x && decide (p.scope ≠ 7)
    let ag := agentOf x c
    let w ← loadWords ag d 2
    let (old, bad, _) ← atomM ag (d + 0x10) 8 .add 1 ((← get).base x + 15)
    if bad then raise { cause := 0x0F, addr := d + 0x10 }
    let (dst, asid) := descDst (blockWord w 0)
    let (op, ok) ← newRemote x 0xC3 0 0 dst (blockWord w 1 + 0x20)
    let me := (← get).hub.me
    if ok then upd fun s => s.modHub fun h => { h with outNotices :=
      ⟨me, dst, x, op, asid, blockWord w 1, BitVec.ofNat 64 (old + 1)⟩ :: h.outNotices }
    pure (c.after (opBytes f))

def execRpoll (f : Op64) : State → Out :=
  front fun x c => do
    let d := c.rg (gpr f.vs1)
    if d.toNat % 64 ≠ 0 then raise (misalign d)
    waitMem x 15 false (d + 0x20) 8
    let p ← place (agentOf x c) (.core (coreOf x)) .read false (d + 0x20)
    plainPage p
    acquireM x 4
    let (s, v, bad) := (← get).readBy x p 8
    set (s.learnWord x 4 p.word {})
    if bad then raise { cause := 0x0F, addr := d + 0x20 }
    updCtx x fun k => k.wg (gpr f.vd) (BitVec.ofNat 64 v)
    pure (c.after (opBytes f))

/-! ## Acknowledgements (R407, R412, R414) -/

/-- Sets WOVF in the `vcsr` of a context while it runs the record that issued a collective. -/
def State.setWovf (s : State) (c : Coll) : State :=
  match (s.ctx c.x).rec_ with
  | some r => if (s.ctx c.x).status = .running ∧ r.start = c.start then s.modCtx c.x fun k => { k with vcsr := k.vcsr.raise fWOVF } else s
  | none => s

/-- A collective ends with an error: CHAIN to the issuing context, or a log entry when its record is gone (R225, R414). -/
def State.collFail (s : State) (d slot : Nat) (c : Coll) (code k : Nat) (addr : Word) : State :=
  let s1 := s.modDie d fun e => { e with coll := Tab.put e.coll slot { c with failed := true } }
  let info := BitVec.ofNat 64 (code * 2 ^ 24 + k % 2 ^ 20)
  let mine : Bool := match (s.ctx c.x).rec_ with
    | some r => decide ((s.ctx c.x).status = Status.running ∧ r.start = c.start)
    | none => false
  if c.failed then s1
  else if mine then (s1.latch c.x).modCtx c.x fun k => { k with async := k.async ++ [⟨0x15, addr, info⟩] }
  else s1.logViol (d * 64) addr c.x.toNat 4 2 c.tag

/-- The answer to a remote operation reaches its context; a draining context's refusal is logged. -/
def State.ackRemote (s : State) (x : CtxNo) (n : Nat) (refusal : Option Refused) : State :=
  let s1 := s.modCtx x fun c => { c with remote := c.remote.map fun r => if r.op = n ∧ r.acked = false then { r with refused := refusal, acked := true } else r }
  if (s.ctx x).status = .draining ∧ refusal.isSome = true then
    match (s1.ctx x).remote.find? fun r => r.op == n with
    | some r => s1.logRemote x r
    | none => s1
  else s1

/-- The answer to operation `n`, of a context or of a collective. -/
def State.answerOp (s : State) (n : Nat) (refusal : Option Refused) (wovf : Bool) : State :=
  match s.ctxs.find? fun e => e.2.remote.any fun r => r.op == n && !r.acked with
  | some e => s.ackRemote (BitVec.ofNat 10 e.1) n refusal
  | none =>
    match s.dies.findSome? fun (d : Nat × Die) => d.2.coll.findSome? fun c => (Tab.find c.2.flight n).map fun k => (d.1, c.1, c.2, k) with
    | none => s
    | some (d, slot, c, k) =>
      let c1 := { c with flight := Tab.del c.flight n }
      let s1 := s.modDie d fun e => { e with coll := Tab.put e.coll slot c1 }
      let s2 := if wovf then s1.setWovf c1 else s1
      match refusal with
      | some r => s2.collFail d slot c1 9 k r.addr
      | none => s2

/-- REMOTE_ACKNOWLEDGEMENT. -/
def execRemoteAcknowledgement (s : State) : Out :=
  match s.arg with
  | .answer n r w => .next (s.answerOp n r w)
  | _ => .next s

/-- The receiving hub answers the sender, which may be this device. -/
def State.reply (s : State) (src : Coord3) (n : Nat) (refusal : Option Refused) (wovf : Bool) : State :=
  if src = s.hub.me then s.answerOp n refusal wovf else s.modHub fun h => { h with outAcks := (src, n, refusal, wovf) :: h.outAcks }

/-! ## Links and devices that fail (R398, R399) -/

/-- The device that a numbered operation goes to, and its address there. -/
def Hub.target (h : Hub) (n : Nat) : Option (Coord3 × Word) :=
  ((h.outSlots.find? fun p => p.op == n).map fun p => (p.dst, p.slot)).or
  (((h.outReduces.find? fun p => p.op == n).map fun p => (p.dst, p.base)).or
  (((h.outNotices.find? fun p => p.op == n).map fun p => (p.dst, p.sdesc + 0x20)).or
   ((h.outColls.find? fun p => p.op == n).map fun p => (p.dst, p.base))))

/-- The operations that have not been answered. -/
def State.unanswered (s : State) : List Nat :=
  (s.ctxs.flatMap fun (e : Nat × Ctx) => (e.2.remote.filter fun r => !r.acked).map fun r => r.op) ++
  s.dies.flatMap fun (d : Nat × Die) => d.2.coll.flatMap fun c => c.2.flight.map fun f => f.1

/-- The route to a device, or the way back from it, has changed between two states of the torus. -/
def Hub.rerouted (h h1 : Hub) (dst : Coord3) : Bool :=
  decide (h.ways dst ≠ h1.ways dst) || decide (({ h with me := dst } : Hub).ways h.me ≠ ({ h1 with me := dst } : Hub).ways h.me)

/-- After a failure of the torus, whose state was `h`: operations that can no longer be delivered are refused with code 0x02, and so
are those whose packets were on their way over what failed, by a free value for each that takes that way. -/
def State.loseOps (s : State) (h : Hub) : State :=
  s.unanswered.foldl (fun t n =>
    match t.hub.target n with
    | none => t
    | some (dst, addr) =>
      if (t.hub.route dst).isNone then t.answerOp n (some ⟨0x02, addr⟩) false
      else if h.rerouted t.hub dst then
        let t1 := { t with fresh := t.fresh + 1 }
        if (Config.freeWord t.fresh).getLsbD 0 then t1.answerOp n (some ⟨0x02, addr⟩) false else t1
      else t) s

/-- A link goes down: the hubs learn of it, and packets take the other way around its ring. -/
def State.linkLost (s : State) (dev : Coord3) (p : PortNo) : State :=
  let s1 := s.modHub fun h => { h with downLinks := if h.downLinks.contains (dev, p) then h.downLinks else (dev, p) :: h.downLinks }
  (if dev = s.hub.me then s1.modPort (portIx p) fun e => { e with st := 0 } else s1).loseOps s.hub

/-- LINK_STEP_DOWN: a port below its margin steps down one rate, or goes down below the last. A pinned port does not step. -/
def execLinkStepDown (s : State) : Out :=
  match s.arg with
  | .port p =>
    let e := Tab.look {} s.hub.ports (portIx p)
    if e.pin ∨ e.st ≠ 2 then .next s
    else if e.cur < 4 then .next (s.modPort (portIx p) fun e => { e with cur := e.cur + 1 })
    else .next (s.linkLost s.hub.me p)
  | _ => .next s

/-- LINK_DOWN. -/
def execLinkDown (s : State) : Out :=
  match s.arg with
  | .link dev p => .next (s.linkLost dev p)
  | _ => .next s

/-- DEVICE_FAILURE: packets to and beyond the device are refused, and each pod barrier that counts a participant on it breaks, for
each of them. -/
def execDeviceFailure (s : State) : Out :=
  match s.arg with
  | .device dev =>
    if s.hub.failed.contains dev then .next s
    else
      let s1 := (s.modHub fun h => { h with failed := dev :: h.failed }).loseOps s.hub
      .next ((List.range 16).foldl (fun t id =>
        let key := barKey 5 0 id
        let b := t.bar key
        match b.devs.find? fun d => d.dev == dev with
        | none => t
        | some p => (List.range p.most).foldl (fun u _ => u.breakBar key)
            { t with bars := Tab.put t.bars key { b with devs := b.devs.filter fun d => d.dev != dev } }) s1)
  | _ => .next s

/-! ## At the receiver (R403-R406, R412, R413) -/

/-- Runs the writes of a packet: all of them, or none and a refusal. -/
def packetRun (s : State) (addr : Word) (m : M (Option Refused × Bool)) : State × Option Refused × Bool :=
  match m s with
  | .ok r s1 => match r.1 with
    | none => (s1, none, r.2)
    | some f => (s, some f, false)
  | .error (.trap t) _ => (s, some ⟨0x01, if t.addr = 0 then addr else t.addr⟩, false)
  | .error .wait _ => (s, some ⟨0x01, addr⟩, false)

/-- Marks the granule at an address with the poison code. -/
def hubPoison (asid : BitVec 16) (va : Word) : M Unit := do
  let p ← hubPlace asid .u .write va
  upd fun s => s.hubPut p 8 (s.hubGet p 8).1 true

/-- The effect of a slot write: rows and scales, then the header but for seq, then seq. -/
def slotEffect (p : SlotPacket) : M (Option Refused × Bool) := do
  hubCheck p.asid .u .write p.slot 64
  each p.body fun r => hubWrite p.asid .u false 0 (r.2.length + 1) (p.slot + BitVec.ofNat 64 r.1) r.2
  each p.pois fun o => hubPoison p.asid (p.slot + BitVec.ofNat 64 o)
  hubWrite p.asid .u false 0 8 (p.slot + 8)
    (leBytes 8 p.info.toNat ++ leBytes 8 (coordWord p.src + p.ctx.toNat * 2 ^ 32) ++ List.replicate 40 0)
  let q ← hubPlace p.asid .u .write p.slot
  upd fun s => (s.hubPut q 8 p.seq.toNat false).wakeAll q
  pure (none, false)

/-- A packet addressed to this device that it may take: from another device, or its own on its way. -/
def State.incoming (s : State) (src dst : Coord3) (sent : Bool) : Bool :=
  decide (s.hub.boot = .run ∧ dst = s.hub.me) && (decide (src ≠ s.hub.me) || sent)

/-- No older packet of a context is on its way to this device itself: they perform in the order of their issue (R408). -/
def Hub.eldest (h : Hub) (x : CtxNo) (op : Nat) : Bool :=
  let older (src dst : Coord3) (y : CtxNo) (n : Nat) : Bool := src == h.me && dst == h.me && y == x && decide (n < op)
  !((h.outSlots.any fun p => older p.src p.dst p.ctx p.op) || (h.outReduces.any fun p => older p.src p.dst p.ctx p.op) ||
    h.outNotices.any fun p => older p.src p.dst p.ctx p.op)

/-- SLOT_WRITE. -/
def execSlotWrite (s : State) : Out :=
  match s.arg with
  | .slotPkt p =>
    if s.incoming p.src p.dst (s.hub.outSlots.contains p && s.hub.eldest p.ctx p.op) then
      let s0 := if p.src = s.hub.me then s.modHub fun h => { h with outSlots := h.outSlots.erase p } else s
      let r := packetRun s0 p.slot (slotEffect p)
      .next (r.1.reply p.src p.op r.2.1 r.2.2)
    else .next s
  | _ => .next s

/-- One addition of a reduction at home: what the location becomes, and whether it overflows or saturates (R406, R413). -/
def reduceValue (ty : ReduceType) (old : Nat) (e : PacketElem) : Nat × Bool :=
  match ty with
  | .fp32 =>
    let a := Fmt.decode .fp32 old
    let b := (Fmt.decode .fp32 e.bits.toNat).scale e.exp
    let r := roundTo .fp32 .rne false 0 (addVal .rne a b).1
    (r.1, !a.isInf && !b.isInf && (Fmt.decode .fp32 r.1).isInf)
  | .int32 => ((old + e.bits.toNat) % 2 ^ 32, false)
  | .int64 => ((old + e.bits.toNat) % 2 ^ 64, false)
  | .sat32 =>
    let r := clampTo true 32 (intVal true 32 old + intVal true 32 e.bits.toNat)
    (intBits 32 r.1, r.2 != 0)

/-- Adds one element at a place; a poisoned element writes the code, and a poisoned cell keeps it. -/
def State.reduceAt (s : State) (ty : ReduceType) (p : Place) (e : PacketElem) : State × Bool :=
  match p with
  | .window _ _ => (s, false)
  | .phys pa pte =>
    let n := reduceBytes ty
    let old := s.pageRead pte pa n
    if e.pois then (s.hubPut p n 0 true, false)
    else if old.2 then (s.breakHome p.home.1 pa, false)
    else let v := reduceValue ty old.1 e; (s.hubPut p n v.1 false, v.2)

/-- The effect of a reduction: every cell is checked, then each element is added. -/
def reduceEffect (asid : BitVec 16) (ty : ReduceType) (base : Word) (elems : List PacketElem) : M (Option Refused × Bool) := do
  let n := reduceBytes ty
  each elems fun e => do
    let _ ← hubPlace asid .u .atomic (base + BitVec.ofNat 64 (e.ix * n))
    pure ()
  let w ← foldM elems false fun w e => do
    let p ← hubPlace asid .u .atomic (base + BitVec.ofNat 64 (e.ix * n))
    let r := (← get).reduceAt ty p e
    set r.1
    pure (w || r.2)
  pure (none, w)

/-- REMOTE_REDUCE. -/
def execRemoteReduce (s : State) : Out :=
  match s.arg with
  | .reducePkt p =>
    if s.incoming p.src p.dst (s.hub.outReduces.contains p && s.hub.eldest p.ctx p.op) then
      let s0 := if p.src = s.hub.me then s.modHub fun h => { h with outReduces := h.outReduces.erase p } else s
      let r := packetRun s0 p.base (reduceEffect p.asid p.ty p.base p.elems)
      .next (r.1.reply p.src p.op r.2.1 false)
    else .next s
  | _ => .next s

/-- The effect of a slot-release notice: head becomes max(old, new), as a release. A poisoned head refuses it with code 0x03. -/
def noticeEffect (p : NoticePacket) : M (Option Refused × Bool) := do
  let va := p.sdesc + 0x20
  let q ← hubPlace p.asid .u .atomic va
  let old := (← get).hubGet q 8
  if old.2 then pure (some ⟨0x03, va⟩, false)
  else
    upd fun s => (s.hubPut q 8 (Nat.max old.1 p.head.toNat) false).wakeAll q
    pure (none, false)

/-- SLOT_RELEASE_NOTICE. -/
def execSlotReleaseNotice (s : State) : Out :=
  match s.arg with
  | .noticePkt p =>
    if s.incoming p.src p.dst (s.hub.outNotices.contains p && s.hub.eldest p.ctx p.op) then
      let s0 := if p.src = s.hub.me then s.modHub fun h => { h with outNotices := h.outNotices.erase p } else s
      let r := packetRun s0 p.sdesc (noticeEffect p)
      .next (r.1.reply p.src p.op r.2.1 false)
    else .next s
  | _ => .next s

/-- The effect of a collective's transfer at its peer: elements written or added at d, then the counter. -/
def collEffect (p : CollPacket) : M (Option Refused × Bool) := do
  let r ← match p.reduce with
    | some ty => reduceEffect p.asid ty p.base p.elems
    | none => do
      hubCheck p.asid .u .write p.base (p.elems.length * p.width)
      each p.elems fun e => do
        let q ← hubPlace p.asid .u .write (p.base + BitVec.ofNat 64 (e.ix * p.width))
        upd fun s => s.hubPut q p.width e.bits.toNat e.pois
      pure (none, false)
  if p.rctr = 0 then pure r
  else
    let q ← hubPlace p.asid .u .atomic p.rctr
    let old := (← get).hubGet q 8
    if old.2 then
      upd fun s => s.breakHome q.home.1 q.home.2
      pure r
    else
      upd fun s => (s.hubPut q 8 ((old.1 + 1) % 2 ^ 64) false).wakeAll q
      pure r

/-- COLL_TRANSFER_AT_PEER. -/
def execCollTransferAtPeer (s : State) : Out :=
  match s.arg with
  | .collPkt p =>
    if s.incoming p.src p.dst (s.hub.outColls.contains p && !(s.hub.outColls.any fun o =>
        o.src == p.src && o.dst == p.dst && o.die == p.die && o.slot == p.slot && decide (o.op < p.op))) then
      let s0 := if p.src = s.hub.me then s.modHub fun h => { h with outColls := h.outColls.erase p } else s
      let r := packetRun s0 p.base (collEffect p)
      .next (r.1.reply p.src p.op r.2.1 r.2.2)
    else .next s
  | _ => .next s

/-! ## `coll` (R410-R412) -/

/-- Word `k` of a record as a number. -/
def cw (w : List Word) (k : Nat) : Nat := (blockWord w k).toNat
/-- How many levels a record has. -/
def collLevels (w : List Word) : Nat := bitsOf 10 9 (cw w 0) + 1
/-- The bytes of an element of et. -/
def collBytes (w : List Word) : Nat := if bitsOf 5 4 (cw w 0) = 1 then 2 else 4
/-- True for a reduce. -/
def collReduces (w : List Word) : Bool := bitsOf 1 0 (cw w 0) == 1
/-- Elements for each transfer. -/
def collCnt (w : List Word) : Nat := cw w 0 / 2 ^ 32

/-- Every field of a record is valid (R411). -/
def collOk (w : List Word) : Bool :=
  let c := cw w 0
  let op := bitsOf 1 0 c
  let wf := bitsOf 3 2 c
  let et := bitsOf 5 4 c
  let dal := if op = 1 then 4 else collBytes w
  decide (op ≤ 1 ∧ wf ≤ 2 ∧ et ≤ 2 ∧ bitsOf 8 6 c ≤ 5 ∧ bitsOf 31 11 c = 0 ∧ 1 ≤ collCnt w ∧ collCnt w ≤ 65536) &&
  decide (cw w 1 % collBytes w = 0 ∧ cw w 2 % dal = 0 ∧ cw w 3 % 8 = 0 ∧ cw w 5 / 2 ^ 32 = 0 ∧ cw w 6 % 8 = 0) &&
  decide (bitsOf 7 6 (cw w 7) = 0 ∧ bitsOf 15 14 (cw w 7) = 0 ∧ bitsOf 47 22 (cw w 7) = 0) &&
  ((List.range 4).all fun j => if j < collLevels w then decide (cw w (8 + 2 * j) / 2 ^ 40 = 0)
    else decide (cw w (8 + 2 * j) = 0 ∧ cw w (9 + 2 * j) = 0)) &&
  (op == 0 || (wf == 0 && decide (et ≤ 1)) || (wf == 1 && et == 0) || (wf == 2 && et == 2))

def execColl (f : Op64) : State → Out :=
  front fun x c => do
    let a := c.rg (gpr f.vs1)
    let obj := c.rg (gpr f.vs2)
    if a.toNat % 64 ≠ 0 then raise (misalign a)
    if obj.toNat % 8 ≠ 0 ∨ obj = 0 then raise (misalign obj)
    waitMem x 15 false a 128
    let w ← loadWords (agentOf x c) a 16
    if !(collOk w) then raise (badHandle 0x24)
    waitClasses x (forkMask f.cls4.toNat)
    forkRemote x f.cls4.toNat
    let s ← get
    match (List.range 64).find? fun j => (Tab.find (s.die (dieOf x)).coll j).isNone with
    | none => stall
    | some j =>
      upd fun s => s.fork x f.cls4.toNat f.fn3.toNat
      let no ← serialM
      upd fun s =>
        let k : Coll := {
          x := x, tag := c.tag, asid := c.asid, level := c.level, scope := f.fn3.toNat, obj := obj, words := w, next := 0, flight := []
          failed := false, start := c.start, no := no, hb := s.forkClock x f.cls4.toNat }
        (s.begins no c.tag []).modDie (dieOf x) fun d => { d with coll := Tab.put d.coll j k }
      pure (c.after (opBytes f))

/-- The bounds of a record's levels, the outermost first. -/
def collBounds (w : List Word) : List Nat := (List.range (collLevels w)).map fun j => cw w (8 + 2 * j) % 65536 + 1
/-- How many transfers a record makes. -/
def collTotal (w : List Word) : Nat := (collBounds w).foldl (fun a b => a * b) 1
/-- The indices of transfer `k`, the outermost first. -/
def collIndex (w : List Word) (k : Nat) : List Nat :=
  ((collBounds w).foldr (fun b (a : List Nat × Nat) => (a.2 % b :: a.1, a.2 / b)) ([], k)).1

/-- One coordinate of the peer of a transfer. -/
def collAxis (w : List Word) (ix : List Nat) (self size o lo : Nat) : BitVec 6 :=
  let sum := (List.range (collLevels w)).foldl (fun (a : Int) j => a + sextNat 8 (cw w (8 + 2 * j) >>> lo) * (ix.getD j 0 : Nat)) 0
  BitVec.ofNat 6 (((self : Int) + o + sum) % (size : Int)).toNat

/-- The peer of a transfer (R412). -/
def Hub.collPeer (h : Hub) (w : List Word) (ix : List Nat) : Coord3 :=
  ⟨collAxis w ix h.me.x.toNat h.dims.1 (bitsOf 5 0 (cw w 7)) 16,
   collAxis w ix h.me.y.toNat h.dims.2.1 (bitsOf 13 8 (cw w 7)) 24,
   collAxis w ix h.me.z.toNat h.dims.2.2 (bitsOf 21 16 (cw w 7)) 32⟩

/-- The source (`lo` = 0) or destination (`lo` = 32) address of a transfer. -/
def collAddr (w : List Word) (ix : List Nat) (base : Nat) (lo : Nat) : Word :=
  BitVec.ofInt 64 ((List.range (collLevels w)).foldl (fun (a : Int) j =>
    a + sextNat 32 (cw w (9 + 2 * j) >>> lo) * (ix.getD j 0 : Nat)) (base : Int))

/-- One block of the scaled wire (R413): the exponent field, and whether a finite block does not fit. -/
def blockScale (xs : List Val) : Nat × Bool :=
  let fin := xs.all fun v => !v.isNan && !v.isInf
  let (m, e) := xs.foldl maxMag (0, 0)
  if m = 0 then (if fin then (0, false) else (63, false))
  else
    let q := ceilLog2 m e 448
    if !fin then (63, false) else if 62 < q + 31 then (63, true) else ((if q + 31 < 0 then 0 else (q + 31).toNat), false)

/-- An element on the scaled wire. -/
def wireE4m3 (rm : Rm) (e idx : Nat) (x : Val) : Word × Int :=
  if e = 63 then (match x with | .nan => packVal .nan | _ => packVal (.inf x.neg))
  else
    let code := (roundTo .e4m3 rm false idx (x.scale (31 - (e : Int)))).1
    packVal ((Fmt.decode .e4m3 code).scale ((e : Int) - 31))

/-- The elements of a transfer as they travel, and whether the encoding overflows. -/
def collEncode (w : List Word) (vals : List (Nat × Bool)) : List PacketElem × Bool :=
  let c := cw w 0
  let fmt : Fmt := if bitsOf 5 4 c = 1 then .bf16 else .fp32
  let ixs := vals.zip (List.range vals.length)
  if collReduces w = false ∨ bitsOf 3 2 c = 2 then (ixs.map fun v => ⟨v.2, BitVec.ofNat 64 v.1.1, v.1.2, 0⟩, false)
  else if bitsOf 3 2 c = 0 then
    (ixs.map fun v => let p := packVal (fmt.decode v.1.1); ⟨v.2, p.1, v.1.2, p.2⟩, false)
  else
    let block (b : Nat) : Nat × Bool :=
      blockScale (((vals.drop (32 * b)).take 32).filterMap fun v => if v.2 then none else some (fmt.decode v.1))
    let scales := (List.range (ceilDiv vals.length 32)).map block
    (ixs.map fun v =>
      let p := wireE4m3 (rmOf (bitsOf 8 6 c)) ((scales.getD (v.2 / 32) (0, false)).1) v.2 (fmt.decode v.1.1)
      ⟨v.2, p.1, v.1.2, p.2⟩, scales.any fun s => s.2)

/-- The agent of a collective's accesses; it cannot address a quad store (R316). -/
def collAgent (c : Coll) : Agent := { x := c.x, level := c.level, asid := c.asid, tag := c.tag, engine := true, noWindow := true }

/-- Reads `n` bytes at home as the collective engine of a die does. -/
def collRead (d : Nat) (c : Coll) (va : Word) (n : Nat) : M (Nat × Bool) := do
  match ← place (collAgent c) (.coll d) .read false va with
  | .window _ _ => pure (0, false)
  | .phys pa pte => do
    upd fun s => s.reachPage pte (pa / 64)
    pure ((← get).pageRead pte pa n)

/-- An error of the staging SRAM marks the elements of the next transfer that it holds (R295). -/
def stage (marks : List Nat) (bytes : Nat) (vals : List (Nat × Bool)) : List (Nat × Bool) :=
  (vals.zip (List.range vals.length)).map fun v => (v.1.1, v.1.2 || marks.contains (v.2 * bytes / 8))

/-- The wait of the next transfer, an acquire at package scope: the collective as it goes on, none while it waits. -/
def collReady (d : Nat) (c : Coll) : M (Option Coll) := do
  if cw c.words 3 = 0 then pure (some c)
  else
    match ← place (collAgent c) (.coll d) .read false (blockWord c.words 3) with
    | .window _ _ => pure none
    | .phys pa pte => do
      upd fun s => s.reachPage pte (pa / 64)
      let s ← get
      let met := metClock (Tab.look [] s.before.words (physWord pa)) c.x 4
      pure (if cw c.words 4 + c.next * cw c.words 5 ≤ (s.pageRead pte pa 8).1 then some { c with hb := joinClock met c.hb } else none)

/-- Transfer `k`: its wait, its source, and the packet; false while it waits. -/
def collMove (d slot : Nat) (c0 : Coll) : M Bool := do
  match ← collReady d c0 with
  | none => pure false
  | some c =>
    let w := c.words
    let k := c.next
    let ix := collIndex w k
    let src := collAddr w ix (cw w 1) 0
    let vals ← foldM (List.range (collCnt w)) [] fun a i => do
      let v ← collRead d c (src + BitVec.ofNat 64 (i * collBytes w)) (collBytes w)
      pure (v :: a)
    let (elems, wide) := collEncode w (stage ((← get).die d).staging (collBytes w) vals.reverse)
    upd fun s => s.modDie d fun e => { e with staging := [] }
    if wide then upd fun s => s.setWovf c
    let h := (← get).hub
    let dst := h.collPeer w ix
    let base := collAddr w ix (cw w 2) 32
    let ty := if collReduces w then some (if bitsOf 3 2 (cw w 0) = 2 then ReduceType.sat32 else .fp32) else none
    if (h.route dst).isNone then
      upd fun s => s.collFail d slot { c with next := k + 1 } 9 k base
      pure true
    else
      upd fun s => (s.modHub fun h => { h with nextOp := h.nextOp + 1, outColls :=
        ⟨h.me, dst, BitVec.ofNat 2 d, BitVec.ofNat 6 slot, k, h.nextOp, BitVec.ofNat 16 (cw w 7 / 2 ^ 48), ty, collBytes w, base,
         blockWord w 6, elems⟩ :: h.outColls }).modDie d fun e => { e with
        coll := Tab.put e.coll slot { c with next := k + 1, flight := Tab.put c.flight h.nextOp k } }
      pure true

/-- The next thing that a collective does, if it need not wait: a transfer, the end after its last acknowledgement, with the
increment of its object, or the end after an error. -/
def State.collStep (s : State) (d slot : Nat) : Option State :=
  match Tab.find (s.die d).coll slot with
  | none => none
  | some c =>
    let gone (t : State) : State := t.modDie d fun e => { e with coll := Tab.del e.coll slot }
    if c.failed then (if c.flight.isEmpty then some (gone s) else none)
    else if collTotal c.words ≤ c.next then
      if c.flight.isEmpty then
        match place (collAgent c) (.coll d) .atomic false c.obj s with
        | .ok p s1 => some ((gone s1).completeObject c.x d c.scope p c.no c.hb)
        | .error (.trap t) s1 => some (s1.collFail d slot c 8 c.next t.addr)
        | .error .wait _ => none
      else none
    else if 16 ≤ c.flight.length then none
    else
      match collMove d slot c s with
      | .ok true s1 => some s1
      | .ok false _ => none
      | .error (.trap t) s1 => some (s1.collFail d slot c 8 c.next t.addr)
      | .error .wait _ => none

/-- COLL_TRANSFER. -/
def execCollTransfer (s : State) : Out :=
  match s.arg with
  | .dieSlot d j => .next ((s.collStep d.toNat j.toNat).getD s)
  | _ => .next s

/-! ## Meanings -/

def execRsend (f : Op64) : State → Out := runDef (.rsend f) f (rsendDef f)
def execRrecv (f : Op64) : State → Out := runDef (.rrecv f) f (rrecvDef f)
def execRredst (f : Op64) : State → Out := runDef (.rredst f) f (rredstDef f)

end Sys2Proof.Machine
end

