-- ==== Sys2Proof/Machine/Queues.lean ====
section
/-! DEFINITION. The instructions of the queues, with what each does when it issues (R206). -/

namespace Sys2Proof.Machine

/-- The definition of an instruction that enters a queue. -/
def queueDef (i : Instr) : Option QueueDef :=
  match i with
  | .vadd f => some (vaddDef f)
  | .vsub f => some (vsubDef f)
  | .vrsub f => some (vrsubDef f)
  | .vmul f => some (vmulDef f)
  | .vmulh f => some (vmulhDef f)
  | .vmulhu f => some (vmulhuDef f)
  | .vmac f => some (vmacDef f)
  | .vdiv f => some (vdivDef f)
  | .vdivu f => some (vdivuDef f)
  | .vrem f => some (vremDef f)
  | .vremu f => some (vremuDef f)
  | .vmin f => some (vminDef f)
  | .vmax f => some (vmaxDef f)
  | .vminu f => some (vminuDef f)
  | .vmaxu f => some (vmaxuDef f)
  | .vand f => some (vandDef f)
  | .vor f => some (vorDef f)
  | .vxor f => some (vxorDef f)
  | .vandn f => some (vandnDef f)
  | .vshl f => some (vshlDef f)
  | .vshr f => some (vshrDef f)
  | .vsra f => some (vsraDef f)
  | .vshrr f => some (vshrrDef f)
  | .vsadd f => some (vsaddDef f)
  | .vsaddu f => some (vsadduDef f)
  | .vssub f => some (vssubDef f)
  | .vssubu f => some (vssubuDef f)
  | .vpmac f => some (vpmacDef f)
  | .vpopc f => some (vpopcDef f)
  | .vclz f => some (vclzDef f)
  | .vctz f => some (vctzDef f)
  | .vabsd f => some (vabsdDef f)
  | .vcmp f => some (vcmpDef f)
  | .vsel f => some (vselDef f)
  | .vbcast f => some (vbcastDef f)
  | .viota f => some (viotaDef f)
  | .vfadd f => some (vfaddDef f)
  | .vfsub f => some (vfsubDef f)
  | .vfmul f => some (vfmulDef f)
  | .vfma f => some (vfmaDef f)
  | .vfnma f => some (vfnmaDef f)
  | .vfdiv f => some (vfdivDef f)
  | .vfsqrt f => some (vfsqrtDef f)
  | .vfrcp f => some (vfrcpDef f)
  | .vfrsq f => some (vfrsqDef f)
  | .vfexp2 f => some (vfexp2Def f)
  | .vflog2 f => some (vflog2Def f)
  | .vftanh f => some (vftanhDef f)
  | .vfmin f => some (vfminDef f)
  | .vfmax f => some (vfmaxDef f)
  | .vfcmp f => some (vfcmpDef f)
  | .vfclass f => some (vfclassDef f)
  | .vfsgnj f => some (vfsgnjDef f)
  | .vfsgnjn f => some (vfsgnjnDef f)
  | .vfsgnjx f => some (vfsgnjxDef f)
  | .vcvt f => some (vcvtDef f)
  | .vquant f => some (vquantDef f)
  | .vdeq f => some (vdeqDef f)
  | .vnarrow f => some (vnarrowDef f)
  | .vwiden f => some (vwidenDef f)
  | .vld f => some (vldDef f)
  | .vlds f => some (vldsDef f)
  | .vldx f => some (vldxDef f)
  | .vldr f => some (vldrDef f)
  | .vst f => some (vstDef f)
  | .vsts f => some (vstsDef f)
  | .vstx f => some (vstxDef f)
  | .vstr f => some (vstrDef f)
  | .vgld f => some (vgldDef f)
  | .vscc f => some (vsccDef f)
  | .vldk f => some (vldkDef f)
  | .vstk f => some (vstkDef f)
  | .vamo f => some (vamoDef f)
  | .vldff f => some (vldffDef f)
  | .vperm f => some (vpermDef f)
  | .vslup f => some (vslupDef f)
  | .vsldn f => some (vsldnDef f)
  | .vreshape f => some (vreshapeDef f)
  | .vcompr f => some (vcomprDef f)
  | .vexpnd f => some (vexpndDef f)
  | .vred f => some (vredDef f)
  | .vredx f => some (vredxDef f)
  | .vscan f => some (vscanDef f)
  | .vext f => some (vextDef f)
  | .vsortk f => some (vsortkDef f)
  | .vmv f => some (vmvDef f)
  | .vmvRow f => some (vmvRowDef f)
  | .mlog f => some (mlogDef f)
  | .mpopc f => some (mpopcDef f)
  | .mfirst f => some (mfirstDef f)
  | .mpush f => some (mpushDef f)
  | .minv f => some (minvDef f)
  | .mpop f => some (mpopDef f)
  | .mset f => some (msetDef f)
  | .pmrd f => some (pmrdDef f)
  | .pmclr f => some (pmclrDef f)
  | .mshape f => some (mshapeDef f)
  | .wld f => some (wldDef f)
  | .wswap f => some (wswapDef f)
  | .mma f => some (mmaDef f)
  | .mmat f => some (mmatDef f)
  | .mzero f => some (mzeroDef f)
  | .tmv f => some (tmvDef f)
  | .tcol f => some (tcolDef f)
  | .tld f => some (tldDef f)
  | .cpy f => some (cpyDef f)
  | .evpulse f => some (evpulseDef f)
  | .tkwait f => some (tkwaitDef f)
  | .tkpush f => some (tkpushDef f)
  | .vfence f => some (vfenceDef f)
  | .galset f => some (galsetDef f)
  | .galmark f => some (galmarkDef f)
  | .galcut f => some (galcutDef f)
  | .adjld f => some (adjldDef f)
  | .adjclr f => some (adjclrDef f)
  | .rsend f => some (rsendDef f)
  | .rrecv f => some (rrecvDef f)
  | .rredst f => some (rredstDef f)
  | _ => none

end Sys2Proof.Machine
end

