-- ==== Sys2Proof/Machine/Issue.lean ====
section
/-! DEFINITION. The issue of queued entries (R208-R212). -/

namespace Sys2Proof.Machine

/-- The state without one entry of a context's queues. -/
def State.without (s : State) (x : CtxNo) (e : Entry) : State :=
  s.modCtx x fun c => { c with queue := c.queue.filter fun o => o.seq != e.seq }

/-- A queued entry issues; none when it may not or must wait. -/
def State.issue (s : State) (x : CtxNo) (e : Entry) : Option State :=
  match queueDef e.instr with
  | none => none
  | some d => if s.ready x e then issueEntry d.body x e (s.without x e) else none

/-- A pop from the copy engine that no token can reach, at the head of its queue with every older instruction complete (R211): the
last chain of its context ended while no promise was left for it; or no chain is in flight, no `cpy` is queued, and more pops than
promises are dispatched. -/
def State.underrun (s : State) (x : CtxNo) (e : Entry) : Option Fifo :=
  let c := s.ctx x
  match (instrTokens e.instr e.queue).pop with
  | none => none
  | some f =>
    let t := c.tok f
    if (f = .cv ∨ f = .cm) ∧ e.popped = false ∧ (c.queue.any fun o => decide (o.seq < e.seq) && !o.parked) = false ∧
        (e.doomed = true ∨ (t.held = 0 ∧ t.u < 0 ∧ c.chained = false ∧
          (c.queue.any fun o => match o.instr with | .cpy _ => !o.parked | _ => false) = false)) then some f
    else none

/-- The oldest entry of a context that can issue issues, or a pop that no token can reach traps. -/
def State.pump (s : State) (x : CtxNo) : Option State :=
  (s.ctx x).queue.findSome? fun e =>
    if e.parked then none
    else match s.underrun x e with
      | some f => some ((s.without x e).entryTrap x e { tokenTrap f false with start := some e.vstart } false)
      | none => s.issue x e

/-- Instructions whose result the front end waits for: `vext`, `mpopc`, `mfirst`, `vldff` and `galmark`. -/
def Entry.coupled (e : Entry) : Bool :=
  match e.instr with
  | .vext _ => true
  | .mpopc _ => true
  | .mfirst _ => true
  | .vldff _ => true
  | .galmark _ => true
  | _ => false

end Sys2Proof.Machine
end

