-- ==== Sys2Proof/Machine/Context.lean ====
section
/-! DEFINITION. Asynchronous traps, and the save and the restoring of a context: `vqdrain`, `ctxsv`, `ctxrs` (R283, R284, R287,
R291-R294). -/

namespace Sys2Proof.Machine

/-! ## Asynchronous traps (R283, R284, R287) -/

/-- An instruction whose result the front end waits for has not been dispatched until it completes: it goes back. -/
def State.recall (s : State) (x : CtxNo) (e : Entry) : State :=
  (((s.without x e).undispatch x e e.popped).replan x).modCtx x fun c => { c with
    pc := e.pc, vstart := if e.vstart = 0 then c.vstart else BitVec.ofNat 16 e.vstart }

/-- The pending trap that is delivered first: CHAIN and REGION_ENGINE before PREEMPT. -/
def nextAsync (l : List AsyncTrap) : Option AsyncTrap :=
  match l.find? fun a => a.cause != 0x11 with
  | some a => some a
  | none => l.head?

/-- Delivers a pending asynchronous trap to a context at level U: the entries that have not issued are parked, and `tepc` is the
first instruction that is not dispatched. -/
def State.deliver (s : State) (x : CtxNo) (a : AsyncTrap) : State :=
  let s1 := s.modCtx x fun c => { c with async := c.async.erase a }
  let s2 := match (s1.ctx x).queue.find? fun e => e.coupled && !e.parked with
    | some e => s1.recall x e
    | none => s1
  s2.enterTrap x { cause := a.cause, addr := a.addr, info := a.info } true false (s2.ctx x).pc

/-- A context may take an asynchronous trap: it runs at level U and one is pending. -/
def Ctx.interruptible (c : Ctx) : Bool := decide (c.status = .running ∧ c.level = .u) && !c.async.isEmpty

/-- It takes it now: an asynchronous trap waits for a synchronous one that is ready, which a pop without a token raises (R211, R287). -/
def State.delivers (s : State) (x : CtxNo) : Bool :=
  (s.ctx x).interruptible && !((s.ctx x).queue.any fun e => !e.parked && (s.underrun x e).isSome)

/-- TRAP_DELIVERY. -/
def execTrapDelivery (s : State) : Out :=
  match s.arg with
  | .ctx x =>
    if s.delivers x then
      match nextAsync (s.ctx x).async with
      | some a => .next (s.deliver x a)
      | none => .next s
    else .next s
  | _ => .next s

/-! ## `vqdrain` (R291) -/

/-- The parked entries as they wait to issue, the trapped one at the index in `vstart`. -/
def Ctx.unpark (c : Ctx) : Ctx := { c with queue := c.rearmed.map fun e => { e with parked := false } }

/-- The oldest entry of each queue. -/
def Ctx.heads (c : Ctx) : List Entry :=
  c.queue.filter fun e => !(c.queue.any fun o => decide (o.queue = e.queue ∧ o.seq < e.seq))

/-- Entries issue in program order in each queue, until the oldest of each would wait or trap. -/
def State.drainQueue (s : State) (x : CtxNo) : Nat → State
  | 0 => s
  | n + 1 =>
    match (s.ctx x).heads.findSome? fun e =>
        match queueDef e.instr with
        | none => none
        | some d =>
          if s.ready x e then
            match runEntry d.body x e (s.without x e) with
            | .ok _ t => some t
            | .error _ _ => none
          else none with
    | some t => t.drainQueue x n
    | none => s

/-- What `vqdrain` does at once: the entries that can issue do, the others stay parked; `vstart` is 0 when the trapped entry has
completed, and the planes' states follow what the queue then holds (R231). -/
def State.drainParked (s : State) (x : CtxNo) : State :=
  let held := (s.ctx x).trappedEntry
  let s1 := (s.modCtx x Ctx.unpark).drainQueue x (s.ctx x).queue.length
  (s1.modCtx x fun c => { c with
    queue := c.queue.map fun e => { e with parked := true }
    vstart := match held with
      | some h => if c.queue.any fun e => e.seq == h.seq then c.vstart else 0
      | none => c.vstart }).replan x

/-- `vqdrain`, which also waits while a chain of the record can go on. -/
def execVqdrain : State → Out :=
  front fun x c => do
    needS c
    waitAll x
    upd fun s => s.drainParked x
    if (← ctxM x).copying = true ∧ ((← get).chainStep x).isSome = true then stall
    pure (c.after 8)

/-! ## The queue image (R293)

Its numbers are laid out as those of its entries. -/

/-- The numbers that bytes hold, at most as many as there are bytes. -/
def takeNats : Nat → List Byte → List Nat
  | 0, _ => []
  | _, [] => []
  | k + 1, b :: t => ofLe (t.take b.toNat) :: takeNats k (t.drop b.toNat)

/-- The queue of a number. -/
def queueOf (n : Nat) : QueueNo := if n = 0 then .vector else if n = 1 then .matrix else .copy
/-- The level of a number. -/
def levelOf (n : Nat) : Level := if n = 0 then .u else if n = 1 then .s else .f
/-- The mode of a number. -/
def modeOf (n : Nat) : DMode := if n = 0 then .off else if n = 1 then .fwd else .rev

/-- The instruction of such a number. -/
def natInstr (n : Nat) : Option Instr :=
  match decodeBytes (leBytes 12 n) with
  | .ok d => some d.instr
  | .error _ => none

/-- The entry of a number of `Entry.nat`. -/
def entryOf (loopNo seq prev n : Nat) : Option Entry :=
  match takeFields n entryWidths with
  | [k, asid, vl, vt, vstart, sh, strip, pc, i, last] =>
    match natInstr i, vtypeOf vt with
    | some i, some t =>
      let cols := k / 1024 % 2 == 1
      let off := if k / 128 % 2 = 1 then prev else if cols then last else 0
      let bytes := match parts64 i with | some (_, f) => opBytes f | none => 4
      some {
        seq := seq, queue := queueOf (k % 4), instr := i, pc := BitVec.ofNat 64 pc, bytes := bytes, vl := vl, vt := t, vstart := vstart
        sa := if cols then 0 else BitVec.ofNat 64 (last / 2 ^ 64), sb := if cols then 0 else BitVec.ofNat 64 last
        level := levelOf (k / 4 % 4), asid := BitVec.ofNat 16 asid, mode := modeOf (k / 16 % 4), shape := sh
        top := if queueOf (k % 4) = .matrix then ~~~(BitVec.ofNat 2048 off) else 0
        strip := if strip < 2 ^ 56 then none else some (loopNo - strip % 256, strip % 2 ^ 56 / 256)
        popped := k / 64 % 2 == 1, parked := true, trapped := k / 256 % 2 == 1, doomed := k / 512 % 2 == 1 }
    | _, _ => none
  | _ => none

/-- The entries of such numbers, from a dispatch number on. -/
def entriesOf (loopNo : Nat) : (seq prev : Nat) → List Nat → List Entry
  | _, _, [] => []
  | seq, prev, n :: t =>
    match entryOf loopNo seq prev n with
    | some e => e :: entriesOf loopNo (seq + 1) e.maskedOff t
    | none => entriesOf loopNo seq prev t

/-- What the queue image holds. -/
structure QueueImage where
  held : Nat := 1
  resume : Option Word := none
  shape : Nat := 128
  loopNo : Nat := 0
  inStrip : Bool := false
  /-- The wait at a `bar` that is to go on at level U. -/
  bars : List (Nat × BarWait) := []
  tokens : List Tokens := List.replicate 6 {}
  counters : List (Nat × Counter) := []
  /-- The terms; `holdAt` counts the saved entries before the hold. -/
  terms : List (Nat × Term) := []
  entries : List Entry := []
  deriving DecidableEq, Repr

/-- The image of a context's parked entries, its resume point, tokens, chase entries and shape. -/
def State.queueImage (s : State) (x : CtxNo) : QueueImage :=
  let c := s.ctx x
  let k := s.core (coreOf x)
  { held := c.held, resume := c.resume, shape := c.shape, loopNo := c.loopNo, inStrip := c.inStrip
    bars := c.barWaits.filter fun w => w.1 % 4 == 0, tokens := (List.range 6).map fun f => c.tok (fifoIx f)
    counters := k.counters.filter fun e => e.2.owner == x
    terms := (k.terms.filter fun e => e.2.owner == x).map fun (e : Nat × Term) =>
      (e.1, { e.2 with holdAt := (c.queue.filter fun o => decide (o.seq < e.2.holdAt)).length })
    entries := c.queue }

/-- The number of a term's phase. -/
def TermPhase.code : TermPhase → Nat
  | .low => 0
  | .due => 1
  | .fired => 2
/-- The phase of a number. -/
def phaseOf (n : Nat) : TermPhase := if n = 0 then .low else if n = 1 then .due else .fired

/-- The numbers of an image. -/
def QueueImage.nats (q : QueueImage) : List Nat :=
  [q.held, flagNat q.resume.isSome, (q.resume.getD 0).toNat, q.shape, q.loopNo * 2 + flagNat q.inStrip] ++
  q.bars.length :: (q.bars.flatMap fun w => [w.1, w.2.key, w.2.phase]) ++
  (q.tokens.flatMap fun t => [(t.u + 64).toNat, (t.f + 64).toNat, t.held]) ++
  q.counters.length :: (q.counters.flatMap fun e => [e.1, e.2.word.toNat, e.2.count]) ++
  q.terms.length :: (q.terms.flatMap fun e =>
    [e.1, e.2.word.toNat, flagNat e.2.armed + 2 * e.2.phase.code, e.2.holdAt, e.2.level.code, e.2.asid.toNat]) ++
  q.entries.length :: entriesNats q.loopNo 0 q.entries

/-- Cuts a list into `k` parts of `n`. -/
def parts (n : Nat) : Nat → List Nat → List (List Nat)
  | 0, _ => []
  | k + 1, l => l.take n :: parts n k (l.drop n)

/-- Field `i` of a list. -/
def fieldAt (l : List Nat) (i : Nat) : Nat := l.getD i 0

/-- Reads an image of numbers for a context whose next dispatch number is `seq`. -/
def imageOf (x : CtxNo) (seq : Nat) (l : List Nat) : QueueImage :=
  let nb := fieldAt l 5
  let l0 := l.drop (6 + 3 * nb)
  let toks := parts 3 6 l0
  let l1 := l0.drop 18
  let nc := fieldAt l1 0
  let l2 := l1.drop (1 + 3 * nc)
  let nt := fieldAt l2 0
  let l3 := l2.drop (1 + 6 * nt)
  let loopNo := fieldAt l 4 / 2
  { held := fieldAt l 0
    resume := if fieldAt l 1 = 0 then none else some (BitVec.ofNat 64 (fieldAt l 2))
    shape := fieldAt l 3, loopNo := loopNo, inStrip := decide (fieldAt l 4 % 2 = 1)
    bars := (parts 3 nb (l.drop 6)).map fun t => (fieldAt t 0, ⟨fieldAt t 1, fieldAt t 2⟩)
    tokens := toks.map fun t => { u := (fieldAt t 0 : Int) - 64, f := (fieldAt t 1 : Int) - 64, held := fieldAt t 2 }
    counters := (parts 3 nc (l1.drop 1)).map fun t => (fieldAt t 0, ⟨x, BitVec.ofNat 64 (fieldAt t 1), fieldAt t 2⟩)
    terms := (parts 6 nt (l2.drop 1)).map fun t => (fieldAt t 0,
      ⟨x, BitVec.ofNat 64 (fieldAt t 1), fieldAt t 2 % 2 == 1, phaseOf (fieldAt t 2 / 2), seq + fieldAt t 3, levelOf (fieldAt t 4), BitVec.ofNat 16 (fieldAt t 5)⟩)
    entries := entriesOf loopNo seq 0 ((l3.drop 1).take (fieldAt l3 0)) }

/-- The bytes of an image: none for the image of a context that keeps nothing but a held trap (R293). -/
def QueueImage.bytes (q : QueueImage) : List Byte := if q = { loopNo := q.loopNo, inStrip := q.inStrip } then [] else putNats q.nats
/-- The image of such bytes. -/
def imageFrom (x : CtxNo) (seq : Nat) (bs : List Byte) : QueueImage :=
  if bs.isEmpty then {} else imageOf x seq (takeNats bs.length bs)

/-! ## `ctxsv` (R292, R293) -/

/-- The 64-bit words of a bit string, the least significant first. -/
def wordsOf {n : Nat} (v : BitVec n) : List Word := (List.range (n / 64)).map fun i => v.extractLsb' (64 * i) 64
/-- Bytes as words, the last one filled with zeros. -/
def packWords : Nat → List Byte → List Word
  | 0, _ => []
  | _, [] => []
  | k + 1, bs => BitVec.ofNat 64 (ofLe (bs.take 8)) :: packWords k (bs.drop 8)
/-- The bytes of words. -/
def unpackWords (ws : List Word) : List Byte := ws.flatMap fun w => leBytes 8 w.toNat

/-- The magic of a context block. -/
def blockMagic : Nat := 0x4B515342

/-- The words of the block of a context (R293) with a queue image. -/
def State.blockWords (s : State) (x : CtxNo) (image : List Word) : List Word :=
  let c := s.ctx x
  let head := BitVec.ofNat 64 (blockMagic + 2 ^ 32 + 2 ^ 48 * (8 * image.length))
  let reg (n : Nat) : Word := csrValue s x n
  let stack := c.stack.reverse.flatMap wordsOf
  [head, reg 0x023, reg 0x102, reg 0x101, reg 0x000, reg 0x001, reg 0x002, reg 0x003, reg 0x004, reg 0x005, reg 0x006, reg 0x010,
   reg 0x011, reg 0x012, reg 0x013, reg 0x008] ++
  wordsOf c.pm ++ List.replicate 16 0 ++ stack ++ List.replicate (512 - stack.length) 0 ++ image

/-- Writes words at rising addresses. -/
def storeWords (ag : Agent) (va : Word) : List Word → M Unit
  | [] => pure ()
  | w :: t => do
    storeVa ag va 8 w.toNat false
    storeWords ag (va + 8) t

/-- The most bytes of a queue image (R293). -/
def imageBytes : Nat := 4096

/-- `ctxsv`: it waits for the earlier entries of S, spills the galley buffer and writes the block. DESIGN CHOICE: where the parked
entries capture more than 4,096 bytes hold, they issue first as under `vqdrain`, and while too many are left it waits. -/
def execCtxsv (f : Op64) : State → Out :=
  front fun x c => do
    needS c
    let va := c.rg (gpr f.vs1)
    if va.toNat % 64 ≠ 0 then raise (misalign va)
    waitAll x
    upd fun s => s.spillGalley x
    if imageBytes < ((← get).queueImage x).bytes.length then upd fun s => s.drainParked x
    let bytes := ((← get).queueImage x).bytes
    if imageBytes < bytes.length then stall
    let image := packWords bytes.length bytes
    storeWords (agentOf x c) va ((← get).blockWords x image)
    pure (c.after (opBytes f))

/-! ## `ctxrs` (R292, R294) -/

/-- A bit string from words. -/
def bitsFrom (n : Nat) (ws : List Word) : BitVec n := BitVec.ofNat n (ws.foldr (fun w a => w.toNat + 2 ^ 64 * a) 0)

/-- The tile and the forme that an instruction names. -/
def matrixUnits (i : Instr) : Option Nat × Option Nat :=
  match i with
  | .wld f => (none, some f.vd.toNat)
  | .wswap f => (none, some f.vd.toNat)
  | .mma f => (some f.vd.toNat, some f.vs2.toNat)
  | .mmat f => (some f.vd.toNat, some f.vs2.toNat)
  | .tmv f => (some f.vs1.toNat, none)
  | .tcol f => (some f.vs1.toNat, none)
  | .tld f => (some f.vd.toNat, none)
  | .mzero f => (some f.vd.toNat, none)
  | _ => (none, none)

/-- The first unit of the image that the context does not own (R294). -/
def strangerUnit (k : Core) (x : CtxNo) (es : List Entry) : Option TrapInfo :=
  es.findSome? fun e =>
    let u := matrixUnits e.instr
    let bad (word : Word) (code : Nat) (j : Option Nat) : Option TrapInfo :=
      match j with
      | some j => if owns word j x then none else some (matHandle code j)
      | none => none
    (bad k.tallot 0x06 u.1).or (bad k.wallot 0x07 u.2)

/-- The bits of `tcause` that are not reserved (R282). -/
def causeMask : Word := 0xF0FF

/-- The context with the registers of a block. -/
def Ctx.restored (c : Ctx) (r : List Word) (prows : Word) (pm : BitVec 2048) (stack : List (BitVec 2048)) (q : QueueImage) : Ctx :=
  let w (i : Nat) : Word := r.getD i 0
  { c with
    trap := { c.trap with tepc := w 0, tcause := w 1 &&& causeMask }
    vl := (w 2).toNat, vt := (vtypeOf (w 3).toNat).getD c.vt, vstart := (w 4).setWidth 16, vcsr := c.vcsr.write (w 5)
    vrem := w 6, vsc := vscOf (w 7), stack := stack, mode := modeOf (w 9).toNat
    galbase := w 10, galptr := w 11, gallim := w 12, prows := prows, pm := pm
    held := q.held, resume := q.resume, shape := q.shape, begunS := false, loopNo := q.loopNo, inStrip := q.inStrip
    tokens := (q.tokens.zip (List.range 6)).foldl (fun t (e : Tokens × Nat) => Tab.put t e.2 e.1) []
    queue := q.entries, seq := c.seq + q.entries.length
    barWaits := q.bars.foldl (fun t (e : Nat × BarWait) => Tab.put t e.1 e.2) (c.barWaits.filter fun w => w.1 % 4 != 0) }

/-- Replaces a context's chase entries by those of an image, which take their places on the core (R218). -/
def State.restoreChase (s : State) (x : CtxNo) (q : QueueImage) : State :=
  (s.dropChase x).modCore (coreOf x) fun k => { k with
    counters := q.counters.foldl (fun t e => Tab.put t e.1 e.2) k.counters
    terms := q.terms.foldl (fun t e => Tab.put t e.1 e.2) k.terms }

/-- A restored value is invalid (R294). -/
def badRegs (r : List Word) : Bool :=
  let w (i : Nat) : Nat := (r.getD i 0).toNat
  match vtypeOf (w 3) with
  | none => true
  | some t => decide (t.vlmax < w 2) || decide (16 < w 8) || decide (3 ≤ w 9)

/-- The entries of an image find room in the queues of a context's core beside what the other contexts hold and their reserves (R15,
R207). -/
def State.imageFits (s : State) (x : CtxNo) (es : List Entry) : Bool :=
  [.vector, .matrix, .copy].all fun q =>
    let mine := (es.filter fun e => decide (e.queue = q)).length
    let others := ((ctxsOfCore (coreOf x)).filter fun y => y != x).foldl (fun n y => n + Nat.max ((s.ctx y).inQueue q) (queueReserve q)) 0
    decide (mine ≤ queueReserve q ∨ mine + others ≤ queueTotal q)

/-- `ctxrs`: it reads and checks the block, and restores the context. DESIGN CHOICE: it waits while the core's queues have no room for
the entries of the image, of which the spec says nothing. -/
def execCtxrs (f : Op64) : State → Out :=
  front fun x c => do
    needS c
    let va := c.rg (gpr f.vs1)
    if va.toNat % 64 ≠ 0 then raise (misalign va)
    waitAll x
    let ag := agentOf x c
    let head ← loadWords ag va 16
    let h := (head.getD 0 0).toNat
    let qbytes := h / 2 ^ 48
    if h % 2 ^ 32 ≠ blockMagic ∨ bitsOf 47 32 h ≠ 1 ∨ 4096 < qbytes then raise (badHandle 0x1A)
    let regs := (head.drop 2).take 13
    let pm ← loadWords ag (va + 0x80) 32
    let zeros ← loadWords ag (va + 0x180) 16
    let depth := (regs.getD 8 0).toNat
    if (zeros.any fun w => w != 0) || badRegs regs then raise (badHandle 0x1A)
    let stack ← loadWords ag (va + 0x200) 512
    let image ← loadWords ag (va + 0x1200) (ceilDiv qbytes 8)
    if head.getD 1 0 ≠ errataWord (← get).hub then raise (badHandle 0x1B)
    let bytes := (unpackWords image).take qbytes
    let q := imageFrom x c.seq bytes
    match strangerUnit ((← get).core (coreOf x)) x q.entries with
    | some t => raise t
    | none => pure ()
    if !((← get).imageFits x q.entries) then stall
    let masks := (List.range depth).map fun i => bitsFrom 2048 ((stack.drop (32 * i)).take 32)
    upd fun s => ((((s.spillGalley x).restoreChase x q).modCtx x fun k =>
      k.restored regs (head.getD 15 0) (bitsFrom 2048 pm) masks.reverse q).replan x).lookTerms (coreOf x)
    pure (c.after (opBytes f))

end Sys2Proof.Machine
end

