-- ==== Sys2Proof/Machine/ScalarFloat.lean ====
section
/-! DEFINITION. Scalar floating point (R102-R107, R124). -/

namespace Sys2Proof.Machine

/-- The FP32 value in bits [31:0] of a register. -/
def Ctx.fp (c : Ctx) (r : Reg) : Nat := (c.rg r).toNat % 2 ^ 32
/-- The value that a register's FP32 bits hold. -/
def Ctx.fval (c : Ctx) (r : Reg) : Val := Fmt.decode .fp32 (c.fp r)

/-- The rounding mode of an `fpu` instruction. -/
def Ctx.fpMode (c : Ctx) (rm : BitVec 3) : Rm := if rm = 6 then rmOf c.vcsr.frm.toNat else rmOf rm.toNat

/-- Writes a result with its flags; a flag whose trap enable is set raises ARITH before gd is written (R107). -/
def fpuOp (d : Reg) (f : Ctx → Word × Nat) : State → Out :=
  front fun x c => do
    let (w, fl) := f c
    if c.vcsr.traps fl then raise { cause := 0x09, info := BitVec.ofNat 64 fl }
    updCtx x fun k => { k.wg d w with vcsr := k.vcsr.raise fl }
    pure (c.after 4)

/-- An operation that rounds its exact value once to FP32 (R103). -/
def fpuRound (d : Reg) (rm : BitVec 3) (f : Ctx → Rm → Val × Nat) : State → Out :=
  fpuOp d fun c =>
    let (v, fl) := f c (c.fpMode rm)
    let (b, fl') := roundTo .fp32 (c.fpMode rm) c.vcsr.sat8 0 v
    (BitVec.ofNat 64 b, fl ||| fl')

def execFadd (d a b : Reg) (rm : BitVec 3) : State → Out := fpuRound d rm fun c m => addVal m (c.fval a) (c.fval b)
def execFsub (d a b : Reg) (rm : BitVec 3) : State → Out := fpuRound d rm fun c m => addVal m (c.fval a) (c.fval b).negate
def execFmul (d a b : Reg) (rm : BitVec 3) : State → Out := fpuRound d rm fun c _ => mulVal (c.fval a) (c.fval b)
def execFdiv (d a b : Reg) (rm : BitVec 3) : State → Out := fpuRound d rm fun c _ => divVal (c.fval a) (c.fval b)
def execFsqrt (d a : Reg) (rm : BitVec 3) : State → Out := fpuRound d rm fun c _ => sqrtVal (c.fval a)

/-- minimumNumber or maximumNumber, exactly (R93, R106). -/
def fpuMinMax (isMax : Bool) (d a b : Reg) : State → Out :=
  fpuOp d fun c => (BitVec.ofNat 64 (roundTo .fp32 .rne false 0 (minMax isMax false (c.fval a) (c.fval b))).1, 0)
def execFmin (d a b : Reg) : State → Out := fpuMinMax false d a b
def execFmax (d a b : Reg) : State → Out := fpuMinMax true d a b

/-- An integer of 64 bits to FP32. -/
def fpuFromInt (signed : Bool) (d a : Reg) (rm : BitVec 3) : State → Out :=
  fpuRound d rm fun c _ => (Val.ofInt (intVal signed 64 (c.rg a).toNat), 0)
def execFcvtFI (d a : Reg) (rm : BitVec 3) : State → Out := fpuFromInt true d a rm
def execFcvtFN (d a : Reg) (rm : BitVec 3) : State → Out := fpuFromInt false d a rm

/-- FP32 to an integer of 64 bits; NaN and out of range follow R106. -/
def fpuToInt (signed : Bool) (d a : Reg) (rm : BitVec 3) : State → Out :=
  fpuOp d fun c => let r := convertVal (.int signed 64) (c.fpMode rm) false 0 (c.fval a); (BitVec.ofNat 64 r.1, r.2)
def execFcvtIF (d a : Reg) (rm : BitVec 3) : State → Out := fpuToInt true d a rm
def execFcvtNF (d a : Reg) (rm : BitVec 3) : State → Out := fpuToInt false d a rm

/-- A comparison writes 1 or 0 (R106, R124); the conditions are those of R158. -/
def fpuCompare (cond : Nat) (d a b : Reg) : State → Out :=
  fpuOp d fun c => let r := fcond cond (c.fval a) (c.fval b); (flagWord r.1, r.2)
def execFeq (d a b : Reg) : State → Out := fpuCompare 0 d a b
def execFlt (d a b : Reg) : State → Out := fpuCompare 2 d a b
def execFle (d a b : Reg) : State → Out := fpuCompare 3 d a b

def execFclass (d a : Reg) : State → Out := fpuOp d fun c => (BitVec.ofNat 64 (classCode .fp32 (c.fp a)), 0)

/-- Sign operations (R93, R124). -/
def fpuSign (op : Nat) (d a b : Reg) : State → Out := fpuOp d fun c => (BitVec.ofNat 64 (signInject .fp32 op (c.fp a) (c.fp b)), 0)
def execFsgnj (d a b : Reg) : State → Out := fpuSign 0 d a b
def execFsgnjn (d a b : Reg) : State → Out := fpuSign 1 d a b
def execFsgnjx (d a b : Reg) : State → Out := fpuSign 2 d a b

end Sys2Proof.Machine
end

