-- ==== Sys2Proof/Machine/Dispatch.lean ====
section
/-! DEFINITION. Runs one instruction or event: one arm for each constructor of `Instr`. -/

namespace Sys2Proof.Machine

def exec (i : Instr) (s : State) : Host.Outcome State Fault Refusal :=
  match i with
  | .add d a b => Sys2Proof.Machine.execAdd d a b s
  | .sub d a b => Sys2Proof.Machine.execSub d a b s
  | .and d a b => Sys2Proof.Machine.execAnd d a b s
  | .or d a b => Sys2Proof.Machine.execOr d a b s
  | .xor d a b => Sys2Proof.Machine.execXor d a b s
  | .andn d a b => Sys2Proof.Machine.execAndn d a b s
  | .sll d a b => Sys2Proof.Machine.execSll d a b s
  | .srl d a b => Sys2Proof.Machine.execSrl d a b s
  | .sra d a b => Sys2Proof.Machine.execSra d a b s
  | .slt d a b => Sys2Proof.Machine.execSlt d a b s
  | .sltu d a b => Sys2Proof.Machine.execSltu d a b s
  | .min d a b => Sys2Proof.Machine.execMin d a b s
  | .max d a b => Sys2Proof.Machine.execMax d a b s
  | .minu d a b => Sys2Proof.Machine.execMinu d a b s
  | .maxu d a b => Sys2Proof.Machine.execMaxu d a b s
  | .mul d a b => Sys2Proof.Machine.execMul d a b s
  | .mulh d a b => Sys2Proof.Machine.execMulh d a b s
  | .mulhu d a b => Sys2Proof.Machine.execMulhu d a b s
  | .div d a b => Sys2Proof.Machine.execDiv d a b s
  | .divu d a b => Sys2Proof.Machine.execDivu d a b s
  | .rem d a b => Sys2Proof.Machine.execRem d a b s
  | .remu d a b => Sys2Proof.Machine.execRemu d a b s
  | .popc d a => Sys2Proof.Machine.execPopc d a s
  | .clz d a => Sys2Proof.Machine.execClz d a s
  | .ctz d a => Sys2Proof.Machine.execCtz d a s
  | .sext d a b => Sys2Proof.Machine.execSext d a b s
  | .zext d a b => Sys2Proof.Machine.execZext d a b s
  | .bswap d a => Sys2Proof.Machine.execBswap d a s
  | .addi d a imm => Sys2Proof.Machine.execAddi d a imm s
  | .andi d a imm => Sys2Proof.Machine.execAndi d a imm s
  | .ori d a imm => Sys2Proof.Machine.execOri d a imm s
  | .xori d a imm => Sys2Proof.Machine.execXori d a imm s
  | .slli d a sh => Sys2Proof.Machine.execSlli d a sh s
  | .srli d a sh => Sys2Proof.Machine.execSrli d a sh s
  | .srai d a sh => Sys2Proof.Machine.execSrai d a sh s
  | .slti d a imm => Sys2Proof.Machine.execSlti d a imm s
  | .sltiu d a imm => Sys2Proof.Machine.execSltiu d a imm s
  | .lih d imm => Sys2Proof.Machine.execLih d imm s
  | .pca d imm => Sys2Proof.Machine.execPca d imm s
  | .jal d off => Sys2Proof.Machine.execJal d off s
  | .jalr d a imm => Sys2Proof.Machine.execJalr d a imm s
  | .calli slot => Sys2Proof.Machine.execCalli slot s
  | .beq a b off => Sys2Proof.Machine.execBeq a b off s
  | .bne a b off => Sys2Proof.Machine.execBne a b off s
  | .blt a b off => Sys2Proof.Machine.execBlt a b off s
  | .bge a b off => Sys2Proof.Machine.execBge a b off s
  | .bltu a b off => Sys2Proof.Machine.execBltu a b off s
  | .bgeu a b off => Sys2Proof.Machine.execBgeu a b off s
  | .ld d a cls size off => Sys2Proof.Machine.execLd d a cls size off s
  | .ldz d a cls size off => Sys2Proof.Machine.execLdz d a cls size off s
  | .st d a cls size off => Sys2Proof.Machine.execSt d a cls size off s
  | .lda d a cls size scope => Sys2Proof.Machine.execLda d a cls size scope s
  | .stl d a cls size scope => Sys2Proof.Machine.execStl d a cls size scope s
  | .amoadd d a b size scope ord => Sys2Proof.Machine.execAmoadd d a b size scope ord s
  | .amoand d a b size scope ord => Sys2Proof.Machine.execAmoand d a b size scope ord s
  | .amoor d a b size scope ord => Sys2Proof.Machine.execAmoor d a b size scope ord s
  | .amoxor d a b size scope ord => Sys2Proof.Machine.execAmoxor d a b size scope ord s
  | .amomin d a b size scope ord => Sys2Proof.Machine.execAmomin d a b size scope ord s
  | .amomax d a b size scope ord => Sys2Proof.Machine.execAmomax d a b size scope ord s
  | .amominu d a b size scope ord => Sys2Proof.Machine.execAmominu d a b size scope ord s
  | .amomaxu d a b size scope ord => Sys2Proof.Machine.execAmomaxu d a b size scope ord s
  | .amoswap d a b size scope ord => Sys2Proof.Machine.execAmoswap d a b size scope ord s
  | .amofadd d a b scope ord => Sys2Proof.Machine.execAmofadd d a b scope ord s
  | .amosadd d a b size scope ord => Sys2Proof.Machine.execAmosadd d a b size scope ord s
  | .cas d a b size scope ord => Sys2Proof.Machine.execCas d a b size scope ord s
  | .csrr d csr => Sys2Proof.Machine.execCsrr d csr s
  | .csrw d a csr => Sys2Proof.Machine.execCsrw d a csr s
  | .csrs d a csr => Sys2Proof.Machine.execCsrs d a csr s
  | .csrc d a csr => Sys2Proof.Machine.execCsrc d a csr s
  | .fadd d a b rm => Sys2Proof.Machine.execFadd d a b rm s
  | .fsub d a b rm => Sys2Proof.Machine.execFsub d a b rm s
  | .fmul d a b rm => Sys2Proof.Machine.execFmul d a b rm s
  | .fdiv d a b rm => Sys2Proof.Machine.execFdiv d a b rm s
  | .fsqrt d a rm => Sys2Proof.Machine.execFsqrt d a rm s
  | .fmin d a b => Sys2Proof.Machine.execFmin d a b s
  | .fmax d a b => Sys2Proof.Machine.execFmax d a b s
  | .fcvtFI d a rm => Sys2Proof.Machine.execFcvtFI d a rm s
  | .fcvtIF d a rm => Sys2Proof.Machine.execFcvtIF d a rm s
  | .fcvtFN d a rm => Sys2Proof.Machine.execFcvtFN d a rm s
  | .fcvtNF d a rm => Sys2Proof.Machine.execFcvtNF d a rm s
  | .feq d a b => Sys2Proof.Machine.execFeq d a b s
  | .flt d a b => Sys2Proof.Machine.execFlt d a b s
  | .fle d a b => Sys2Proof.Machine.execFle d a b s
  | .fclass d a => Sys2Proof.Machine.execFclass d a s
  | .fsgnj d a b => Sys2Proof.Machine.execFsgnj d a b s
  | .fsgnjn d a b => Sys2Proof.Machine.execFsgnjn d a b s
  | .fsgnjx d a b => Sys2Proof.Machine.execFsgnjx d a b s
  | .fence scope mask => Sys2Proof.Machine.execFence scope mask s
  | .ifence scope => Sys2Proof.Machine.execIfence scope s
  | .cyc d => Sys2Proof.Machine.execCyc d s
  | .spawn d a => Sys2Proof.Machine.execSpawn d a s
  | .joindec a => Sys2Proof.Machine.execJoindec a s
  | .barArrive d b scope => Sys2Proof.Machine.execBarArrive d b scope s
  | .barWait d b scope => Sys2Proof.Machine.execBarWait d b scope s
  | .barArrwait d b scope => Sys2Proof.Machine.execBarArrwait d b scope s
  | .barDrop d b scope => Sys2Proof.Machine.execBarDrop d b scope s
  | .vsetvl f => Sys2Proof.Machine.execVsetvl f s
  | .vsettype f => Sys2Proof.Machine.execVsettype f s
  | .vloop f => Sys2Proof.Machine.execVloop f s
  | .vstrip f => Sys2Proof.Machine.execVstrip f s
  | .vnext f => Sys2Proof.Machine.execVnext f s
  | .vget f => Sys2Proof.Machine.execVget f s
  | .vadd f => Sys2Proof.Machine.execVadd f s
  | .vsub f => Sys2Proof.Machine.execVsub f s
  | .vrsub f => Sys2Proof.Machine.execVrsub f s
  | .vmul f => Sys2Proof.Machine.execVmul f s
  | .vmulh f => Sys2Proof.Machine.execVmulh f s
  | .vmulhu f => Sys2Proof.Machine.execVmulhu f s
  | .vmac f => Sys2Proof.Machine.execVmac f s
  | .vdiv f => Sys2Proof.Machine.execVdiv f s
  | .vdivu f => Sys2Proof.Machine.execVdivu f s
  | .vrem f => Sys2Proof.Machine.execVrem f s
  | .vremu f => Sys2Proof.Machine.execVremu f s
  | .vmin f => Sys2Proof.Machine.execVmin f s
  | .vmax f => Sys2Proof.Machine.execVmax f s
  | .vminu f => Sys2Proof.Machine.execVminu f s
  | .vmaxu f => Sys2Proof.Machine.execVmaxu f s
  | .vand f => Sys2Proof.Machine.execVand f s
  | .vor f => Sys2Proof.Machine.execVor f s
  | .vxor f => Sys2Proof.Machine.execVxor f s
  | .vandn f => Sys2Proof.Machine.execVandn f s
  | .vshl f => Sys2Proof.Machine.execVshl f s
  | .vshr f => Sys2Proof.Machine.execVshr f s
  | .vsra f => Sys2Proof.Machine.execVsra f s
  | .vshrr f => Sys2Proof.Machine.execVshrr f s
  | .vsadd f => Sys2Proof.Machine.execVsadd f s
  | .vsaddu f => Sys2Proof.Machine.execVsaddu f s
  | .vssub f => Sys2Proof.Machine.execVssub f s
  | .vssubu f => Sys2Proof.Machine.execVssubu f s
  | .vpmac f => Sys2Proof.Machine.execVpmac f s
  | .vpopc f => Sys2Proof.Machine.execVpopc f s
  | .vclz f => Sys2Proof.Machine.execVclz f s
  | .vctz f => Sys2Proof.Machine.execVctz f s
  | .vabsd f => Sys2Proof.Machine.execVabsd f s
  | .vcmp f => Sys2Proof.Machine.execVcmp f s
  | .vsel f => Sys2Proof.Machine.execVsel f s
  | .vbcast f => Sys2Proof.Machine.execVbcast f s
  | .viota f => Sys2Proof.Machine.execViota f s
  | .vfadd f => Sys2Proof.Machine.execVfadd f s
  | .vfsub f => Sys2Proof.Machine.execVfsub f s
  | .vfmul f => Sys2Proof.Machine.execVfmul f s
  | .vfma f => Sys2Proof.Machine.execVfma f s
  | .vfnma f => Sys2Proof.Machine.execVfnma f s
  | .vfdiv f => Sys2Proof.Machine.execVfdiv f s
  | .vfsqrt f => Sys2Proof.Machine.execVfsqrt f s
  | .vfrcp f => Sys2Proof.Machine.execVfrcp f s
  | .vfrsq f => Sys2Proof.Machine.execVfrsq f s
  | .vfexp2 f => Sys2Proof.Machine.execVfexp2 f s
  | .vflog2 f => Sys2Proof.Machine.execVflog2 f s
  | .vftanh f => Sys2Proof.Machine.execVftanh f s
  | .vfmin f => Sys2Proof.Machine.execVfmin f s
  | .vfmax f => Sys2Proof.Machine.execVfmax f s
  | .vfcmp f => Sys2Proof.Machine.execVfcmp f s
  | .vfclass f => Sys2Proof.Machine.execVfclass f s
  | .vfsgnj f => Sys2Proof.Machine.execVfsgnj f s
  | .vfsgnjn f => Sys2Proof.Machine.execVfsgnjn f s
  | .vfsgnjx f => Sys2Proof.Machine.execVfsgnjx f s
  | .vcvt f => Sys2Proof.Machine.execVcvt f s
  | .vquant f => Sys2Proof.Machine.execVquant f s
  | .vdeq f => Sys2Proof.Machine.execVdeq f s
  | .vnarrow f => Sys2Proof.Machine.execVnarrow f s
  | .vwiden f => Sys2Proof.Machine.execVwiden f s
  | .vld f => Sys2Proof.Machine.execVld f s
  | .vlds f => Sys2Proof.Machine.execVlds f s
  | .vldx f => Sys2Proof.Machine.execVldx f s
  | .vldr f => Sys2Proof.Machine.execVldr f s
  | .vst f => Sys2Proof.Machine.execVst f s
  | .vsts f => Sys2Proof.Machine.execVsts f s
  | .vstx f => Sys2Proof.Machine.execVstx f s
  | .vstr f => Sys2Proof.Machine.execVstr f s
  | .vgld f => Sys2Proof.Machine.execVgld f s
  | .vscc f => Sys2Proof.Machine.execVscc f s
  | .vldk f => Sys2Proof.Machine.execVldk f s
  | .vstk f => Sys2Proof.Machine.execVstk f s
  | .vamo f => Sys2Proof.Machine.execVamo f s
  | .vldff f => Sys2Proof.Machine.execVldff f s
  | .vperm f => Sys2Proof.Machine.execVperm f s
  | .vslup f => Sys2Proof.Machine.execVslup f s
  | .vsldn f => Sys2Proof.Machine.execVsldn f s
  | .vreshape f => Sys2Proof.Machine.execVreshape f s
  | .vcompr f => Sys2Proof.Machine.execVcompr f s
  | .vexpnd f => Sys2Proof.Machine.execVexpnd f s
  | .vred f => Sys2Proof.Machine.execVred f s
  | .vredx f => Sys2Proof.Machine.execVredx f s
  | .vscan f => Sys2Proof.Machine.execVscan f s
  | .vext f => Sys2Proof.Machine.execVext f s
  | .vsortk f => Sys2Proof.Machine.execVsortk f s
  | .vmv f => Sys2Proof.Machine.execVmv f s
  | .vmvRow f => Sys2Proof.Machine.execVmvRow f s
  | .mlog f => Sys2Proof.Machine.execMlog f s
  | .mpopc f => Sys2Proof.Machine.execMpopc f s
  | .mfirst f => Sys2Proof.Machine.execMfirst f s
  | .mpush f => Sys2Proof.Machine.execMpush f s
  | .minv f => Sys2Proof.Machine.execMinv f s
  | .mpop f => Sys2Proof.Machine.execMpop f s
  | .bempty f => Sys2Proof.Machine.execBempty f s
  | .bany f => Sys2Proof.Machine.execBany f s
  | .mset f => Sys2Proof.Machine.execMset f s
  | .pmrd f => Sys2Proof.Machine.execPmrd f s
  | .pmclr f => Sys2Proof.Machine.execPmclr f s
  | .mshape f => Sys2Proof.Machine.execMshape f s
  | .wld f => Sys2Proof.Machine.execWld f s
  | .wswap f => Sys2Proof.Machine.execWswap f s
  | .mma f => Sys2Proof.Machine.execMma f s
  | .mmat f => Sys2Proof.Machine.execMmat f s
  | .mzero f => Sys2Proof.Machine.execMzero f s
  | .tmv f => Sys2Proof.Machine.execTmv f s
  | .tcol f => Sys2Proof.Machine.execTcol f s
  | .tld f => Sys2Proof.Machine.execTld f s
  | .cpy f => Sys2Proof.Machine.execCpy f s
  | .evcfgCnt f => Sys2Proof.Machine.execEvcfgCnt f s
  | .evcfgTerm f => Sys2Proof.Machine.execEvcfgTerm f s
  | .evpulse f => Sys2Proof.Machine.execEvpulse f s
  | .tkwait f => Sys2Proof.Machine.execTkwait f s
  | .tkpush f => Sys2Proof.Machine.execTkpush f s
  | .waitc f => Sys2Proof.Machine.execWaitc f s
  | .vfence f => Sys2Proof.Machine.execVfence f s
  | .nmopAdamw f => Sys2Proof.Machine.execNmopAdamw f s
  | .nmopSgdm f => Sys2Proof.Machine.execNmopSgdm f s
  | .nmopScadd f => Sys2Proof.Machine.execNmopScadd f s
  | .nmopClr f => Sys2Proof.Machine.execNmopClr f s
  | .nmfen f => Sys2Proof.Machine.execNmfen f s
  | .coll f => Sys2Proof.Machine.execColl f s
  | .dreg f => Sys2Proof.Machine.execDreg f s
  | .dunreg f => Sys2Proof.Machine.execDunreg f s
  | .dmodeOff f => Sys2Proof.Machine.execDmodeOff f s
  | .dmodeFwd f => Sys2Proof.Machine.execDmodeFwd f s
  | .dmodeRev f => Sys2Proof.Machine.execDmodeRev f s
  | .galset f => Sys2Proof.Machine.execGalset f s
  | .galmark f => Sys2Proof.Machine.execGalmark f s
  | .galcut f => Sys2Proof.Machine.execGalcut f s
  | .adjld f => Sys2Proof.Machine.execAdjld f s
  | .adjclr f => Sys2Proof.Machine.execAdjclr f s
  | .pwb f => Sys2Proof.Machine.execPwb f s
  | .rsend f => Sys2Proof.Machine.execRsend f s
  | .rrecv f => Sys2Proof.Machine.execRrecv f s
  | .rredst f => Sys2Proof.Machine.execRredst f s
  | .rslot f => Sys2Proof.Machine.execRslot f s
  | .rpoll f => Sys2Proof.Machine.execRpoll f s
  | .ctxsv f => Sys2Proof.Machine.execCtxsv f s
  | .ctxrs f => Sys2Proof.Machine.execCtxrs f s
  | .tlbinv f => Sys2Proof.Machine.execTlbinv f s
  | .sysTrap => Sys2Proof.Machine.execSysTrap s
  | .tret => Sys2Proof.Machine.execTret s
  | .brk => Sys2Proof.Machine.execBrk s
  | .snap => Sys2Proof.Machine.execSnap s
  | .wfe => Sys2Proof.Machine.execWfe s
  | .exitRecord => Sys2Proof.Machine.execExitRecord s
  | .yieldRecord => Sys2Proof.Machine.execYieldRecord s
  | .waitcRecheck => Sys2Proof.Machine.execWaitcRecheck s
  | .vqdrain => Sys2Proof.Machine.execVqdrain s
  | .nmopElement => Sys2Proof.Machine.execNmopElement s
  | .nmopCompletion => Sys2Proof.Machine.execNmopCompletion s
  | .collTransfer => Sys2Proof.Machine.execCollTransfer s
  | .galleySpill => Sys2Proof.Machine.execGalleySpill s
  | .psync => Sys2Proof.Machine.execPsync s
  | .rfen => Sys2Proof.Machine.execRfen s
  | .tallotWrite => Sys2Proof.Machine.execTallotWrite s
  | .wallotWrite => Sys2Proof.Machine.execWallotWrite s
  | .vcsrWrite => Sys2Proof.Machine.execVcsrWrite s
  | .controlSpaceWrite => Sys2Proof.Machine.execControlSpaceWrite s
  | .termFire => Sys2Proof.Machine.execTermFire s
  | .chainCopy => Sys2Proof.Machine.execChainCopy s
  | .chainGather => Sys2Proof.Machine.execChainGather s
  | .chainLoop => Sys2Proof.Machine.execChainLoop s
  | .chainIfz => Sys2Proof.Machine.execChainIfz s
  | .chainToken => Sys2Proof.Machine.execChainToken s
  | .chainPulse => Sys2Proof.Machine.execChainPulse s
  | .chainWaitw => Sys2Proof.Machine.execChainWaitw s
  | .chainEnd => Sys2Proof.Machine.execChainEnd s
  | .retirementTrackerFree => Sys2Proof.Machine.execRetirementTrackerFree s
  | .drainingEnd => Sys2Proof.Machine.execDrainingEnd s
  | .postedOperation => Sys2Proof.Machine.execPostedOperation s
  | .homeUnitOperation => Sys2Proof.Machine.execHomeUnitOperation s
  | .trapDelivery => Sys2Proof.Machine.execTrapDelivery s
  | .recordPop => Sys2Proof.Machine.execRecordPop s
  | .recordKill => Sys2Proof.Machine.execRecordKill s
  | .preemptSignal => Sys2Proof.Machine.execPreemptSignal s
  | .preemptTimeout => Sys2Proof.Machine.execPreemptTimeout s
  | .wfeTimeout => Sys2Proof.Machine.execWfeTimeout s
  | .boundaryInterval => Sys2Proof.Machine.execBoundaryInterval s
  | .boundaryMove => Sys2Proof.Machine.execBoundaryMove s
  | .launch => Sys2Proof.Machine.execLaunch s
  | .kick => Sys2Proof.Machine.execKick s
  | .rootQueue => Sys2Proof.Machine.execRootQueue s
  | .counterReport => Sys2Proof.Machine.execCounterReport s
  | .dieConfirm => Sys2Proof.Machine.execDieConfirm s
  | .launchComplete => Sys2Proof.Machine.execLaunchComplete s
  | .controllerTakeover => Sys2Proof.Machine.execControllerTakeover s
  | .hostWrite => Sys2Proof.Machine.execHostWrite s
  | .hostRead => Sys2Proof.Machine.execHostRead s
  | .acknowledgement => Sys2Proof.Machine.execAcknowledgement s
  | .frameRetransmit => Sys2Proof.Machine.execFrameRetransmit s
  | .imageFrame => Sys2Proof.Machine.execImageFrame s
  | .bootRom => Sys2Proof.Machine.execBootRom s
  | .bootStatus => Sys2Proof.Machine.execBootStatus s
  | .verifyImage => Sys2Proof.Machine.execVerifyImage s
  | .attestation => Sys2Proof.Machine.execAttestation s
  | .snapshotFrame => Sys2Proof.Machine.execSnapshotFrame s
  | .dvfs => Sys2Proof.Machine.execDvfs s
  | .powerLimit => Sys2Proof.Machine.execPowerLimit s
  | .quadBoundary => Sys2Proof.Machine.execQuadBoundary s
  | .preEmptionMask => Sys2Proof.Machine.execPreEmptionMask s
  | .drainShare => Sys2Proof.Machine.execDrainShare s
  | .confirmVersion => Sys2Proof.Machine.execConfirmVersion s
  | .retest => Sys2Proof.Machine.execRetest s
  | .snapshotRequest => Sys2Proof.Machine.execSnapshotRequest s
  | .logsRequest => Sys2Proof.Machine.execLogsRequest s
  | .queueSetup => Sys2Proof.Machine.execQueueSetup s
  | .podJoin => Sys2Proof.Machine.execPodJoin s
  | .linkPin => Sys2Proof.Machine.execLinkPin s
  | .podBarrierReset => Sys2Proof.Machine.execPodBarrierReset s
  | .governorStep => Sys2Proof.Machine.execGovernorStep s
  | .thermalThrottle => Sys2Proof.Machine.execThermalThrottle s
  | .thermalShutdown => Sys2Proof.Machine.execThermalShutdown s
  | .powerLoss => Sys2Proof.Machine.execPowerLoss s
  | .persistAccept => Sys2Proof.Machine.execPersistAccept s
  | .persistDrain => Sys2Proof.Machine.execPersistDrain s
  | .uncorrectableError => Sys2Proof.Machine.execUncorrectableError s
  | .dieLinkFailure => Sys2Proof.Machine.execDieLinkFailure s
  | .hubLinkFailure => Sys2Proof.Machine.execHubLinkFailure s
  | .flitReplay => Sys2Proof.Machine.execFlitReplay s
  | .linkStepDown => Sys2Proof.Machine.execLinkStepDown s
  | .linkStepUp => Sys2Proof.Machine.execLinkStepUp s
  | .linkDown => Sys2Proof.Machine.execLinkDown s
  | .deviceFailure => Sys2Proof.Machine.execDeviceFailure s
  | .slotWrite => Sys2Proof.Machine.execSlotWrite s
  | .remoteReduce => Sys2Proof.Machine.execRemoteReduce s
  | .slotReleaseNotice => Sys2Proof.Machine.execSlotReleaseNotice s
  | .remoteAcknowledgement => Sys2Proof.Machine.execRemoteAcknowledgement s
  | .podBarrierArrival => Sys2Proof.Machine.execPodBarrierArrival s
  | .recordTransitArrival => Sys2Proof.Machine.execRecordTransitArrival s
  | .collTransferAtPeer => Sys2Proof.Machine.execCollTransferAtPeer s
  | .hostAbort => Sys2Proof.Machine.execHostAbort s

end Sys2Proof.Machine
end

