-- ==== Sys2Proof/Machine/Run.lean ====
section
/-! DEFINITION. The turns of the machine: a context's next instruction, what the package does by itself, and what the agenda
names. -/

namespace Sys2Proof.Machine

/-! ## Errors in scalar registers (R295) -/

/-- The scalar registers that an instruction reads. -/
def readRegs (i : Instr) : List Reg :=
  match i with
  | .add _ a b | .sub _ a b | .and _ a b | .or _ a b | .xor _ a b | .andn _ a b | .sll _ a b | .srl _ a b | .sra _ a b => [a, b]
  | .slt _ a b | .sltu _ a b | .min _ a b | .max _ a b | .minu _ a b | .maxu _ a b | .mul _ a b | .mulh _ a b => [a, b]
  | .mulhu _ a b | .div _ a b | .divu _ a b | .rem _ a b | .remu _ a b | .sext _ a b | .zext _ a b => [a, b]
  | .popc _ a | .clz _ a | .ctz _ a | .bswap _ a => [a]
  | .addi _ a _ | .andi _ a _ | .ori _ a _ | .xori _ a _ | .slti _ a _ | .sltiu _ a _ | .jalr _ a _ => [a]
  | .slli _ a _ | .srli _ a _ | .srai _ a _ => [a]
  | .calli _ => [4]
  | .beq a b _ | .bne a b _ | .blt a b _ | .bge a b _ | .bltu a b _ | .bgeu a b _ => [a, b]
  | .ld _ a _ _ _ | .ldz _ a _ _ _ | .lda _ a _ _ _ => [a]
  | .st d a _ _ _ | .stl d a _ _ _ => [d, a]
  | .amoadd _ a b _ _ _ | .amoand _ a b _ _ _ | .amoor _ a b _ _ _ | .amoxor _ a b _ _ _ | .amomin _ a b _ _ _ => [a, b]
  | .amomax _ a b _ _ _ | .amominu _ a b _ _ _ | .amomaxu _ a b _ _ _ | .amoswap _ a b _ _ _ | .amosadd _ a b _ _ _ => [a, b]
  | .amofadd _ a b _ _ => [a, b]
  | .cas d a b _ _ _ => [d, a, b]
  | .csrw _ a _ | .csrs _ a _ | .csrc _ a _ => [a]
  | .fadd _ a b _ | .fsub _ a b _ | .fmul _ a b _ | .fdiv _ a b _ => [a, b]
  | .fmin _ a b | .fmax _ a b | .feq _ a b | .flt _ a b | .fle _ a b | .fsgnj _ a b | .fsgnjn _ a b | .fsgnjx _ a b => [a, b]
  | .fsqrt _ a _ | .fcvtFI _ a _ | .fcvtIF _ a _ | .fcvtFN _ a _ | .fcvtNF _ a _ | .fclass _ a => [a]
  | .spawn _ a | .joindec a => [a]
  | .yieldRecord => [3, 5, 8]
  | .barArrive _ b _ | .barWait _ b _ | .barArrwait _ b _ | .barDrop _ b _ => [b]
  | i =>
    match parts64 i with
    | none => []
    | some (major, f) =>
      match shape major with
      | none => []
      | some sh =>
        (if vs1Opnd major sh f = .gpr then [gpr f.vs1] else []) ++ (if sh.vs2 = .gpr then [gpr f.vs2] else []) ++
        (match i with | .tlbinv _ | .nmopAdamw _ | .nmopSgdm _ | .nmopScadd _ | .nmopClr _ => [gpr f.vd] | _ => [])

/-- POISON at an instruction that reads a scalar register with an uncorrectable error. -/
def regCheck (i : Instr) (c : Ctx) : M Unit :=
  if (readRegs i).any fun r => c.gp.contains r.toNat then raise { cause := 0x0F } else pure ()

/-! ## A context's turn -/

/-- What a trap of the front end before the instruction runs does: a fetch fault at the first instruction at `tvec` kills the
record; otherwise it waits for the older entries and is taken (R283, R287). -/
def State.fetchTrap (s s' : State) (x : CtxNo) (t : TrapInfo) (fault : Bool) : State :=
  let c := s.ctx x
  if c.entering = true ∧ fault = true then s'.kill x (.tvecFault (c.trap.tcause.setWidth 8))
  else if c.busy then s
  else s'.enterTrap x t false false c.pc

/-- The checks of a fetched instruction: that its encoding is present, and the registers that it reads (R67, R295). -/
def instrCheck (c : Ctx) (i : Instr) : M Unit := do
  unimplCheck i c.pc
  regCheck i c

/-- The front end of the current context runs its next instruction. -/
def frontEnd (s : State) : Out :=
  let x := s.cur
  let c := s.ctx x
  if c.queue.any fun e => e.coupled && !e.parked then .next s
  else
    match fetchInstr (agentOf x c) c.pc s with
    | .ok d s1 =>
      match instrCheck c d.instr s1 with
      | .ok _ s2 => exec d.instr (if c.entering then s2.modCtx x fun c => { c with entering := false } else s2)
      | .error (.trap t) s2 => .next (s.fetchTrap s2 x t false)
      | .error .wait _ => .next s
    | .error (.trap t) s1 => .next (s.fetchTrap s1 x t (decide (t.cause ≠ 0x01)))
    | .error .wait _ => .next s

/-- The turn of the current context: an idle one takes a record; a running one takes a pending asynchronous trap at a boundary
of level U (R287), issues a ready entry, or runs its next instruction. -/
def ctxTurn (s : State) : Out :=
  match (s.ctx s.cur).status with
  | .idle => if s.served s.cur then exec .recordPop { s with arg := .ctx s.cur } else .next s
  | .draining => .next s
  | .running =>
    if s.delivers s.cur then exec .trapDelivery { s with arg := .ctx s.cur }
    else match s.pump s.cur with
    | some t => .next t
    | none => frontEnd s

/-! ## What the package does by itself -/

/-- The event of a chain's next entry. -/
def chainInstr (typ : Nat) : Instr :=
  match typ with
  | 1 => .chainCopy
  | 2 => .chainGather
  | 3 => .chainLoop
  | 4 => .chainIfz
  | 5 => .chainToken
  | 6 => .chainPulse
  | 7 => .chainWaitw
  | _ => .chainEnd

/-- What is due for a context. -/
def State.ctxDue (s : State) (x : CtxNo) (c : Ctx) : Option Turn :=
  if s.delivers x then some (.event .trapDelivery (.ctx x))
  else if (s.chainStep x).isSome then some (.event (chainInstr ((s.chainType x).getD 0)) (.ctx x))
  else if (s.drained x).isSome then some (.event .drainingEnd (.ctx x))
  else if c.status = .running ∧ c.latch = false ∧ Config.wfeLooks ≤ c.wfeLooks then some (.event .wfeTimeout (.ctx x))
  else none

/-- What is due for a core. -/
def State.coreDue (s : State) (k : Nat) (c : Core) : Option Turn :=
  let at_ := BitVec.ofNat 8 k
  match c.terms.find? fun t => decide (t.2.phase = .due) with
  | some t => some (.event .termFire (.coreIx at_ t.1))
  | none => (c.tracker.find? fun t => (s.freedEntry k t.1).isSome).map fun t => .event .retirementTrackerFree (.coreIx at_ t.1)

/-- What is due for a quad. -/
def State.quadDue (s : State) (q : Nat) (e : Quad) : Option Turn :=
  let at_ := BitVec.ofNat 6 q
  if e.mayMove true then some (.event .boundaryMove (.move at_ true))
  else if e.mayMove false then some (.event .boundaryMove (.move at_ false))
  else match e.counts.find? fun n => !s.presentQuad q (BitVec.ofNat 32 n.1) with
    | some n => some (.event .counterReport (.count (.quad at_) (BitVec.ofNat 32 n.1)))
    | none => none

/-- What is due for a die. -/
def State.dieDue (s : State) (d : Nat) (e : Die) : Option Turn :=
  let at_ := BitVec.ofNat 2 d
  match e.transit with
  | r :: _ => some (.event .recordTransitArrival (.dies at_ (BitVec.ofNat 2 (recDie d r.w0))))
  | [] =>
    if (reserveMove s d).isSome then some (.reserve at_)
    else if e.takeover then some (.event .controllerTakeover (.die at_))
    else if e.controllers ≠ 0 ∧ e.tested = false ∧ e.overdue.isEmpty = false then some (.event .preemptSignal (.die at_))
    else match e.coll.find? fun c => (s.collStep d c.1).isSome with
      | some c => some (.event .collTransfer (.dieSlot at_ (BitVec.ofNat 6 c.1)))
      | none => match e.counts.find? fun n => !s.presentDie d (BitVec.ofNat 32 n.1) with
        | some n => some (.event .counterReport (.count (.die at_) (BitVec.ofNat 32 n.1)))
        | none => none

/-- What is due for a posted operation. -/
def State.postedDue (s : State) (p : Posted) : Option Turn :=
  if p.arrived then some (.event .homeUnitOperation (.num p.unit.2))
  else if s.follows p then none
  else some (.event .postedOperation (.num p.no))

/-- What is due for an optimiser command. -/
def Nmop.due (c : Nmop) : Turn :=
  match c.left with
  | i :: _ => .event .nmopElement (.element c.no i)
  | [] => .event .nmopCompletion (.num c.no)

/-- What is due for a launch. -/
def State.launchDue (s : State) (l : Launch) : Option Turn :=
  if s.completable l = true ∧ s.inTurn l.tag = true then some (.event .launchComplete (.tag l.tag))
  else if s.rootReady l = true ∧ (s.sendJoin l.die.toNat (s.rootOf l)).isSome = true then some (.event .rootQueue (.tag l.tag))
  else if l.total = 0 ∧ (l.rooted = true ∨ l.aborted = true) then
    match [0, 1, 2, 3].find? fun d => !l.confirmed.contains d && s.dieClear d l.tag with
    | some d => some (.event .dieConfirm (.dieTag (BitVec.ofNat 2 d) l.tag))
    | none => none
  else none

/-- The packets that the device has sent to itself, by the number of their operations. -/
def Hub.loops (h : Hub) : List (Nat × Turn) :=
  ((h.outSlots.filter fun p => p.dst == h.me && p.src == h.me).map fun p => (p.op, .event .slotWrite (.slotPkt p))) ++
  ((h.outReduces.filter fun p => p.dst == h.me && p.src == h.me).map fun p => (p.op, .event .remoteReduce (.reducePkt p))) ++
  ((h.outNotices.filter fun p => p.dst == h.me && p.src == h.me).map fun p => (p.op, .event .slotReleaseNotice (.noticePkt p))) ++
  ((h.outColls.filter fun p => p.dst == h.me && p.src == h.me).map fun p => (p.op, .event .collTransferAtPeer (.collPkt p)))

/-- The oldest packet that the device has sent to itself. -/
def Hub.loopDue (h : Hub) : Option Turn :=
  if h.boot = .run then
    (h.loops.foldl (fun (best : Option (Nat × Turn)) p =>
      match best with
      | none => some p
      | some b => if p.1 < b.1 then some p else some b) none).map fun p => p.2
  else none

/-- What is due for the hub. A waiting write is accepted when the persist buffer has room, and a full buffer drains first. -/
def State.hubDue (s : State) : Option Turn :=
  let h := s.hub
  if h.boot = .rom then some (.event .bootRom .none)
  else if h.boot = .verify then some (.event .verifyImage .none)
  else match h.waiting with
    | w :: _ =>
      if h.buffer.length < persistLines ∨ h.buffer.contains w.line = true then some (.event .persistAccept (.num 0))
      else h.buffer.head?.map fun l => .event .persistDrain (.num l)
    | [] => h.loopDue

/-- The persist buffer drains whenever it holds data, when nothing else is due (R372, R380). -/
def Hub.drainDue (h : Hub) : Option Turn := h.buffer.head?.map fun l => .event .persistDrain (.num l)

/-- The first thing that is due in the package, if any. -/
def State.due (s : State) : Option Turn :=
  match s.hubDue with
  | some t => some t
  | none =>
    match s.ctxs.findSome? fun (e : Nat × Ctx) => s.ctxDue (BitVec.ofNat 10 e.1) e.2 with
    | some t => some t
    | none =>
      match s.posted.findSome? s.postedDue with
      | some t => some t
      | none =>
        match s.nmops with
        | c :: _ => some c.due
        | [] =>
          match s.cores.findSome? fun (e : Nat × Core) => s.coreDue e.1 e.2 with
          | some t => some t
          | none =>
            match s.dies.findSome? fun (e : Nat × Die) => s.dieDue e.1 e.2 with
            | some t => some t
            | none =>
              match s.quads.findSome? fun (e : Nat × Quad) => s.quadDue e.1 e.2 with
              | some t => some t
              | none =>
                match s.hub.launches.findSome? fun (e : Nat × Launch) => s.launchDue e.2 with
                | some t => some t
                | none => s.hub.drainDue

/-! ## A turn -/

/-- A turn runs on a context and gives the schedule back. -/
def onTurn (x : CtxNo) (s : State) : Out :=
  match ctxTurn { s with cur := x } with
  | .next t => .next { t with cur := s.cur }
  | o => o

/-- What a turn does. -/
def runTurn (t : Turn) (s : State) : Out :=
  match t with
  | .run x => onTurn x s
  | .event i a => exec i { s with arg := a }
  | .evictL1 c l => .next (s.dropL1 none c.toNat l)
  | .evictQuad q l => .next (s.evictQuad q.toNat l)
  | .dropCode c l => .next (s.modCore c.toNat fun k => { k with icache := Tab.del k.icache l })
  | .dropTlb c => .next (s.modCore c.toNat fun k => { k with tlb := k.tlb.dropLast })
  | .evictL2 l => .next (s.dropL2 l)
  | .upset x twice => .next { s with upset := some (x, twice) }
  | .reserve d => .next ((reserveMove s d.toNat).getD s)

/-- The next context's turn, after which the package's own work is looked at again. -/
def rotate (s : State) : Out :=
  match ctxTurn s with
  | .next t => .next { t with cur := s.cur + 1, yours := false }
  | o => o

/-- One step: the head of the agenda; else, unless the last step was the package's own, what is due in the package; else the turn
of the current context. A package without power does nothing. -/
def oneStep (s : State) : Out :=
  match s.agenda with
  | t :: rest => runTurn t { s with agenda := rest }
  | [] =>
    if s.hub.boot = .off then .fault .noPower
    else
      match if s.yours then none else s.due with
      | some t => runTurn t { s with yours := true }
      | none => rotate s

/-! ## Placing an instruction -/

/-- Where a placed instruction stands: a page that a TLB entry maps to HBM. -/
def placedAt : Nat := 0x1000

/-- The state with the bytes of an instruction at the pc of the current context, which runs: the bytes in memory, the page in the
core's TLB, and the context's turn next. -/
def State.placed (s : State) (bits : Nat) : State :=
  let x := s.cur
  let c := s.ctx x
  let s1 := { s.rawWrite (placedAt / 64) (patchOf placedAt 16 bits false []) with l2 := Tab.del s.l2 (placedAt / 64) }
  let s2 := s1.modCore (coreOf x) fun k => { k with
    icache := Tab.del k.icache (placedAt / 64)
    tlb := tlbAdd 128 (k.tlb.filter fun e => !e.maps c.asid placedAt) ⟨c.asid, false, placedAt / 2 ^ 16, 0x11F#64⟩ }
  let s3 := s2.modCtx x fun c => { c with
    status := .running, pc := BitVec.ofNat 64 placedAt, queue := [], entering := false
    rec_ := some (c.rec_.getD ⟨0, 0, 0, 0⟩) }
  { s3 with agenda := .run x :: s3.agenda }

end Sys2Proof.Machine
end

