-- ==== Sys2Proof/Safety.lean ====
section
/-! DEFINITION. What claims about runs are stated in: runs that go on, properties that a step keeps, and the canonical forms of
the state. -/

namespace Sys2Proof.Machine

/-- A run from `s` reaches `t` in `k` steps. -/
def Reaches (s : State) (k : Nat) (t : State) : Prop := Host.Core.run core k s = .next t

/-- No step of a run from `s` stops. -/
def GoesOn (s : State) : Prop := ∀ k, ∃ t, Reaches s k t

/-- A property that every step keeps, from every state that has it. -/
def Kept (P : State → Prop) : Prop := ∀ s t, P s → step s = .next t → P t

/-- Memory is in its canonical form: addresses rise strictly, and no listed byte is what an unlisted address reads as. -/
def Canonical (s : State) : Prop := Memory.wf s.mem = true

end Sys2Proof.Machine
end

