-- ==== Sys2Proof/Claims.lean ====
section
/-! DEFINITION. The words that the statements share: when an instruction of a queue issues at once, the context that it leaves,
and what its elements receive. -/

namespace Sys2Proof.Claims

open Sys2Proof.Machine

/-! ## Instructions of the queues -/

/-- The context whose instruction runs. -/
abbrev here (s : State) : Ctx := s.ctx s.cur

/-- The entry's token is popped: promised to it at dispatch, taken at issue (R211). -/
def popTok (k : Fifo) (c : Ctx) : Ctx :=
  let t := c.tok k
  c.setTok k { u := t.u - 1, f := t.f - 1, held := t.held - 1 }
/-- The entry's token is promised at dispatch, and not pushed yet. -/
def oweTok (k : Fifo) (c : Ctx) : Ctx :=
  let t := c.tok k
  c.setTok k { t with u := t.u + 1, f := t.f + 1 }
/-- The context after the token effects of an entry that has issued and not retired. -/
def tokensOwed (u : TokenUse) (c : Ctx) : Ctx :=
  let c1 := match u.pop with | none => c | some k => popTok k c
  match u.push with | none => c1 | some k => oweTok k c1

/-- What the front end keeps of an instruction that it dispatches: the pc after it, its number, and `vstart` consumed at U (R80). -/
def past (f : Op64) (usesVstart : Bool) (c : Ctx) : Ctx :=
  { c with pc := c.pc + BitVec.ofNat 64 (if f.pfx.isSome then 12 else 8), seq := c.seq + 1,
           vstart := if usesVstart = true ∧ c.level = .u then 0 else c.vstart }

/-- The context after an instruction that has retired, but for what it computes and for its push. -/
def retired (q : QueueNo) (i : Instr) (f : Op64) (usesVstart : Bool) (c : Ctx) : Ctx :=
  past f usesVstart (tokensOwed (instrTokens i q) c)

/-- Nothing keeps an instruction of a queue from issuing at once: every entry of the context that has not completed is older and parked
by a trap, its queue has a place, no armed term of the context holds a queue and the chase has nothing to note of the other contexts'
terms, the token that it pops has been pushed, the FIFO that it pushes has room, and the checking hardware reports no mismatch. -/
structure Ready (s : State) (i : Instr) (q : QueueNo) : Prop where
  idle : ∀ e ∈ (here s).queue, e.parked = true ∧ e.seq ≤ (here s).seq
  room : s.shareFull s.cur q = false
  sound : s.upset = none
  free : ∀ t ∈ (s.core (coreOf s.cur)).terms, t.2.owner = s.cur → t.2.armed = false ∧ t.2.phase = .low
  quiet : ∀ t ∈ (s.core (coreOf s.cur)).terms, t.2.owner ≠ s.cur → t.2.look (s.termTrue (coreOf s.cur) t.2) = t.2
  pop : ∀ k, (instrTokens i q).pop = some k → 0 < ((here s).tok k).held ∧
    (0 < ((here s).tok k).u ∨ (k = .cv ∨ k = .cm) ∧ (here s).chained = true)
  push : ∀ k, (instrTokens i q).push = some k → ((here s).tok k).u ≠ 16 ∧ ((here s).tok k).f ≠ 16

/-- The instructions that the proof lane checks (R297): majors 0x08 to 0x54, and `vmv`. -/
def laneChecked (i : Instr) : Bool :=
  match parts64 i with
  | some (major, f) => decide (0x08 ≤ major ∧ major ≤ 0x54 ∨ major = 0x7B ∧ f.fn4 = 0)
  | none => false
/-- The instructions that the proof column checks (R246). -/
def colChecked (i : Instr) : Bool :=
  match parts64 i with
  | some (major, _) => decide (major = 0x93 ∨ major = 0x94)
  | none => false

/-- The counts of checked instructions after one more. -/
def counted (i : Instr) (s : State) : State :=
  if laneChecked i then s.modCore (coreOf s.cur) fun k => { k with proofLane := k.proofLane + 1 }
  else if colChecked i then s.modCore (coreOf s.cur) fun k => { k with proofCol := k.proofCol + 1 }
  else s

/-- The account of durable writes after the pop of an instruction that issues. -/
def tookToken (i : Instr) (q : QueueNo) (s : State) : State :=
  match (instrTokens i q).pop with
  | none => s
  | some k => s.tokenTaken s.cur q k
/-- The push of an instruction that retires: behind the vector engine's posted operations (R252), with what is known before it. -/
def pushed (i : Instr) (q : QueueNo) (x : CtxNo) (s : State) : State :=
  match (instrTokens i q).push with
  | none => s
  | some k =>
    let s1 := if q = .vector then s.settle fun p => p.x == x && decide (p.scope ≠ 7) && p.vector else s
    ((s1.tokenGiven x k (s1.pushClock x q)).modCtx x fun c =>
      let t := c.tok k; c.setTok k { t with held := t.held + 1 }).lookTerms (coreOf x)

/-- The instruction retires, and leaves the current context as `c` before its push; but for its pop's part of the account, the counts of
R297 and R246, and the push, nothing else of the machine changes. -/
def Leaves (i : Instr) (q : QueueNo) (s : State) (c : Ctx) : Prop :=
  exec i s = .next (pushed i q s.cur (counted i (tookToken i q (s.setCtx s.cur c))))

/-! ## Elements of vector rows (R72, R143, R295, R296) -/

/-- The marks of an element's nibbles. -/
def marks (w : Row) (ew c : Nat) : Nat := (w.pois >>> (c * ew / 4)).toNat % 2 ^ (ew / 4)

/-- The bits and the marks of one element of a context. -/
def cell (c : Ctx) (ew row k : Nat) : Nat × Nat := ((c.row row).elem ew k, marks (c.row row) ew k)

/-- What an active element's result leaves in its place. -/
def Res.cell (ew : Nat) (old : Nat × Nat) : Res → Nat × Nat
  | .val b _ => (b % 2 ^ ew, 0)
  | .poison => (0, 2 ^ (ew / 4) - 1)
  | .keep => old
/-- The flags that a result raises. -/
def Res.flags : Res → Nat
  | .val _ fl => fl
  | _ => 0

/-- What an instruction leaves that computes element by element: the element (r, col) of number r x vl + col from `start` on goes
to `dst r col`. An active one leaves its result, an inactive one 0 under the zero policy; every other element of the rows keeps
its bits and marks; the flags of the active elements are raised, and the poisoned columns and rows are noted. -/
structure Lanes (c c' : Ctx) (g vl start ew : Nat) (mask : BitVec 2048) (pol : Bool) (dst : Nat → Nat → Nat × Nat)
    (res : Nat → Nat → Res) (fl : Nat → Nat → Nat) : Prop where
  written : ∀ r < g, ∀ col < vl, start ≤ r * vl + col →
    cell c' ew (dst r col).1 (dst r col).2 =
      (if mask.getLsbD col then Res.cell ew (cell c ew (dst r col).1 (dst r col).2) (res r col)
       else if pol then (0, 0) else cell c ew (dst r col).1 (dst r col).2)
  kept : ∀ row k, (∀ r < g, ∀ col < vl, start ≤ r * vl + col → dst r col ≠ (row, k)) → cell c' ew row k = cell c ew row k
  flags : ∀ n < 9, c'.vcsr.flags.getLsbD n = true ↔ c.vcsr.flags.getLsbD n = true ∨
    ∃ r < g, ∃ col < vl, start ≤ r * vl + col ∧ mask.getLsbD col = true ∧ (fl r col).testBit n = true
  columns : ∀ k < 2048, c'.pm.getLsbD k = true ↔ c.pm.getLsbD k = true ∨
    ∃ r < g, ∃ col < vl, start ≤ r * vl + col ∧ mask.getLsbD col = true ∧ res r col = .poison ∧ (dst r col).2 = k
  blocks : ∀ k < 64, c'.prows.getLsbD k = true ↔ c.prows.getLsbD k = true ∨
    ∃ r < g, ∃ col < vl, start ≤ r * vl + col ∧ mask.getLsbD col = true ∧ res r col = .poison ∧ (dst r col).1 / 4 = k

/-- A context that differs from another in its vector rows, its `vcsr` flags and its poison registers alone. -/
def RowsOnly (c c' : Ctx) : Prop :=
  c' = { c with v := c'.v, vcsr := { c.vcsr with flags := c'.vcsr.flags }, pm := c'.pm, prows := c'.prows }

/-! ## Operands and forms (R31-R37, R142, R153) -/

/-- The operand a: the element of the vs2 group at the column that its modifier gives, and whether it is poisoned. -/
def opA (c : Ctx) (f : Op64) (w r col : Nat) : Nat × Bool :=
  let v := cell c w (f.vs2.toNat + r) (srcCol f.mod12 col)
  (v.1, v.2 != 0)
/-- The operand b: the element of the vs1 group, the low bits of g[vs1], or the sign-extended immediate. -/
def opB (c : Ctx) (f : Op64) (w r col : Nat) : Nat × Bool :=
  match f.fn3.toNat with
  | 0 => let v := cell c w (f.vs1.toNat + r) (srcCol (opMod1 f) col); (v.1, v.2 != 0)
  | 1 => ((c.rg (gpr f.vs1)).toNat % 2 ^ w, false)
  | _ => ((f.vs1.toInt % (2 ^ w : Nat)).toNat, false)
/-- The operand b of a float instruction: an element, or the FP32 scalar rounded once to the format. -/
def opBf (c : Ctx) (f : Op64) (fmt : Fmt) (r col : Nat) : Nat × Bool :=
  match f.fn3.toNat with
  | 0 => let v := cell c fmt.width (f.vs1.toNat + r) (srcCol (opMod1 f) col); (v.1, v.2 != 0)
  | _ => ((roundTo fmt (opRm c f) c.vcsr.sat8 0 (Fmt.decode .fp32 ((c.rg (gpr f.vs1)).toNat % 2 ^ 32))).1, false)

/-- The index at which an element-wise instruction starts: `vstart` at U, 0 at S (R80, R285). -/
def startOf (c : Ctx) : Nat := if c.level = .u then c.vstart.toNat else 0

/-- Two groups of rows share none. -/
def apartRows (a ga b gb : Nat) : Prop := a + ga ≤ b ∨ b + gb ≤ a

/-- The operands of an arithmetic instruction pass check 5 of R68: its groups start at multiples of their size, its type is
taken and `vl` fits it, a q4 type has a scale register, and a source with a modifier shares no row with the destination. -/
structure Form (major : Nat) (f : Op64) (c : Ctx) (accepts : Ty → Bool) : Prop where
  rows : ∀ sh, shape major = some sh → (sh.vd = .group → f.vd.toNat % c.vt.size = 0) ∧
    (vs1Opnd major sh f = .group → f.vs1.toNat % c.vt.size = 0) ∧ (sh.vs2 = .group → f.vs2.toNat % c.vt.size = 0)
  type : accepts (opTy c.vt f) = true
  fits : c.vl ≤ 8192 / (opTy c.vt f).width
  scale : opTy c.vt f = .q4 → c.vt.ks = true
  mods : ∀ sh, shape major = some sh → sh.vd = .group →
    (f.mod12 ≠ 0 → sh.mod = .source → sh.vs2 = .group → apartRows f.vd.toNat c.vt.size f.vs2.toNat c.vt.size) ∧
    (opMod1 f ≠ 0 → vs1Opnd major sh f = .group → apartRows f.vd.toNat c.vt.size f.vs1.toNat c.vt.size)

/-- An instruction that computes element by element: its fields, the condition under which its operands pass their checks, the
width and place of its results, the first element, the active columns, and the result of the element (r, col). -/
structure Lane where
  f : Op64
  form : Ctx → Prop
  ew : Ctx → Nat := fun c => (opTy c.vt f).width
  dst : Nat → Nat → Nat × Nat := fun r col => (f.vd.toNat + r, col)
  start : Ctx → Nat := startOf
  mask : Ctx → BitVec 2048 := fun c => effMask c f
  res : Ctx → Nat → Nat → Res

/-- A result that poison passes to. -/
def orPoison (bad : Bool) (v : Nat × Nat) : Res := if bad then .poison else .val v.1 v.2

/-- A lane of an arithmetic instruction with the given results. -/
def rawLane (major : Nat) (f : Op64) (accepts : Ty → Bool) (res : Ctx → Nat → Nat → Res) : Lane :=
  { f := f, form := fun c => Form major f c accepts, res := res }
/-- An integer or raw lane on a and b. -/
def intLane (major : Nat) (f : Op64) (accepts : Ty → Bool) (op : Ctx → Ty → Nat → Nat → Nat × Nat) : Lane :=
  { f := f, form := fun c => Form major f c accepts, res := fun c r col =>
      let a := opA c f (opTy c.vt f).width r col
      let b := opB c f (opTy c.vt f).width r col
      orPoison (a.2 || b.2) (op c (opTy c.vt f) a.1 b.1) }
/-- An integer lane on a, b and the accumulator d. -/
def accLane (major : Nat) (f : Op64) (accepts : Ty → Bool) (op : Ty → Nat → Nat → Nat → Nat) : Lane :=
  { f := f, form := fun c => Form major f c accepts, res := fun c r col =>
      let a := opA c f (opTy c.vt f).width r col
      let b := opB c f (opTy c.vt f).width r col
      let d := cell c (opTy c.vt f).width (f.vd.toNat + r) col
      orPoison (a.2 || b.2 || d.2 != 0) (op (opTy c.vt f) a.1 b.1 d.1, 0) }
/-- A lane on a alone. -/
def oneLane (major : Nat) (f : Op64) (accepts : Ty → Bool) (op : Ctx → Ty → (i a : Nat) → Nat × Nat) : Lane :=
  { f := f, form := fun c => Form major f c accepts, res := fun c r col =>
      let a := opA c f (opTy c.vt f).width r col
      orPoison a.2 (op c (opTy c.vt f) (r * c.vl + col) a.1) }
/-- A float lane on a and b, with the mode and the dither index. -/
def fpLane (major : Nat) (f : Op64) (op : Ctx → Fmt → (i a b : Nat) → Nat × Nat) : Lane :=
  { f := f, form := fun c => Form major f c fpTy, res := fun c r col =>
      let fmt := (opTy c.vt f).fmt
      let a := opA c f fmt.width r col
      let b := opBf c f fmt r col
      orPoison (a.2 || b.2) (op c fmt (r * c.vl + col) a.1 b.1) }
/-- A fused float lane on a, b and the accumulator d. -/
def fmaLane (major : Nat) (f : Op64) (op : Ctx → Fmt → (i a b d : Nat) → Nat × Nat) : Lane :=
  { f := f, form := fun c => Form major f c fpTy, res := fun c r col =>
      let fmt := (opTy c.vt f).fmt
      let a := opA c f fmt.width r col
      let b := opBf c f fmt r col
      let d := cell c fmt.width (f.vd.toNat + r) col
      orPoison (a.2 || b.2 || d.2 != 0) (op c fmt (r * c.vl + col) a.1 b.1 d.1) }

/-- A pattern of width `w` read as a signed integer. -/
def sgn (w x : Nat) : Int := if x < 2 ^ (w - 1) then (x : Int) else (x : Int) - (2 ^ w : Nat)
/-- An integer modulo 2^w. -/
def mod2 (w : Nat) (x : Int) : Nat := (x % (2 ^ w : Nat)).toNat
/-- A result without flags. -/
def quiet (op : Ty → Nat → Nat → Nat) : Ctx → Ty → Nat → Nat → Nat × Nat := fun _ ty a b => (op ty a b, 0)

/-- Quotient, remainder and flags of R111 on patterns of width `w`, signed. -/
def sdiv (w a b : Nat) : Nat × Nat × Nat :=
  if b = 0 then (if sgn w a < 0 then 2 ^ (w - 1) else 2 ^ (w - 1) - 1, a, fDZ)
  else if a = 2 ^ (w - 1) ∧ b = 2 ^ w - 1 then (2 ^ (w - 1), 0, fIOV)
  else (mod2 w ((sgn w a).tdiv (sgn w b)), mod2 w ((sgn w a).tmod (sgn w b)), 0)
/-- The same, unsigned. -/
def udiv (w a b : Nat) : Nat × Nat × Nat := if b = 0 then (2 ^ w - 1, a, fDZ) else (a / b, a % b, 0)
/-- Clamp to the signed range, with SAT. -/
def clampS (w : Nat) (x : Int) : Nat × Nat :=
  if (2 ^ (w - 1) : Nat) ≤ x then (2 ^ (w - 1) - 1, fSAT)
  else if x < -(2 ^ (w - 1) : Nat) then (2 ^ (w - 1), fSAT) else (mod2 w x, 0)
/-- Clamp to the unsigned range, with SAT. -/
def clampU (w : Nat) (x : Int) : Nat × Nat :=
  if (2 ^ w : Nat) ≤ x then (2 ^ w - 1, fSAT) else if x < 0 then (0, fSAT) else (x.toNat, 0)
/-- The byte `j` of a word, signed or not. -/
def byteOf (signed : Bool) (x j : Nat) : Int := if signed then sgn 8 (x / 256 ^ j % 256) else ((x / 256 ^ j % 256 : Nat) : Int)
/-- R105 on an exact integer: `vxrm` of a right shift by `s`. -/
def roundShift (vxrm : Nat) (x : Int) (s : Nat) : Int :=
  if s = 0 then x
  else
    let q := x / (2 ^ s : Nat)
    let h := x / (2 ^ (s - 1) : Nat) % 2
    let lo := x % (2 ^ (s - 1) : Nat)
    match vxrm with
    | 0 => q + (if h = 1 ∧ (lo ≠ 0 ∨ q % 2 = 1) then 1 else 0)
    | 1 => q + h
    | 2 => if (h = 1 ∨ lo ≠ 0) ∧ q % 2 = 0 then q + 1 else q
    | _ => q

/-- The integer and raw instructions of R144 to R147, R150 and R151. -/
def intTable : Instr → Option Lane
  | .vadd f => some (intLane 0x08 f intTy (quiet fun ty a b => (a + b) % 2 ^ ty.width))
  | .vsub f => some (intLane 0x09 f intTy (quiet fun ty a b => (a + 2 ^ ty.width - b) % 2 ^ ty.width))
  | .vrsub f => some (intLane 0x0A f intTy (quiet fun ty a b => (b + 2 ^ ty.width - a) % 2 ^ ty.width))
  | .vmul f => some (intLane 0x0B f intTy (quiet fun ty a b => a * b % 2 ^ ty.width))
  | .vmulh f => some (intLane 0x0C f intTy (quiet fun ty a b => mod2 ty.width (sgn ty.width a * sgn ty.width b / (2 ^ ty.width : Nat))))
  | .vmulhu f => some (intLane 0x0D f intTy (quiet fun ty a b => a * b / 2 ^ ty.width))
  | .vmac f => some (accLane 0x0E f intTy fun ty a b d => (d + a * b) % 2 ^ ty.width)
  | .vdiv f => some (intLane 0x0F f intTy fun _ ty a b => ((sdiv ty.width a b).1, (sdiv ty.width a b).2.2))
  | .vdivu f => some (intLane 0x10 f intTy fun _ ty a b => ((udiv ty.width a b).1, (udiv ty.width a b).2.2))
  | .vrem f => some (intLane 0x11 f intTy fun _ ty a b => ((sdiv ty.width a b).2.1, (sdiv ty.width a b).2.2))
  | .vremu f => some (intLane 0x12 f intTy fun _ ty a b => ((udiv ty.width a b).2.1, (udiv ty.width a b).2.2))
  | .vmin f => some (intLane 0x13 f intTy (quiet fun ty a b => if sgn ty.width a ≤ sgn ty.width b then a else b))
  | .vmax f => some (intLane 0x14 f intTy (quiet fun ty a b => if sgn ty.width a ≤ sgn ty.width b then b else a))
  | .vminu f => some (intLane 0x15 f intTy (quiet fun _ a b => Nat.min a b))
  | .vmaxu f => some (intLane 0x16 f intTy (quiet fun _ a b => Nat.max a b))
  | .vand f => some (intLane 0x17 f rawTy (quiet fun _ a b => a &&& b))
  | .vor f => some (intLane 0x18 f rawTy (quiet fun _ a b => a ||| b))
  | .vxor f => some (intLane 0x19 f rawTy (quiet fun _ a b => a ^^^ b))
  | .vandn f => some (intLane 0x1A f rawTy (quiet fun ty a b => a &&& (2 ^ ty.width - 1 - b)))
  | .vshl f => some (intLane 0x1B f intTy (quiet fun ty a b => a * 2 ^ (b % ty.width) % 2 ^ ty.width))
  | .vshr f => some (intLane 0x1C f intTy (quiet fun ty a b => a / 2 ^ (b % ty.width)))
  | .vsra f => some (intLane 0x1D f intTy (quiet fun ty a b => mod2 ty.width (sgn ty.width a / (2 ^ (b % ty.width) : Nat))))
  | .vshrr f => some (intLane 0x1E f intTy fun c ty a b =>
      (mod2 ty.width (roundShift c.vcsr.vxrm.toNat (if f.fn4 = 1 then sgn ty.width a else a) (b % ty.width)), 0))
  | .vsadd f => some (intLane 0x1F f intTy fun _ ty a b => clampS ty.width (sgn ty.width a + sgn ty.width b))
  | .vsaddu f => some (intLane 0x20 f intTy fun _ ty a b => clampU ty.width ((a : Int) + b))
  | .vssub f => some (intLane 0x21 f intTy fun _ ty a b => clampS ty.width (sgn ty.width a - sgn ty.width b))
  | .vssubu f => some (intLane 0x22 f intTy fun _ ty a b => clampU ty.width ((a : Int) - b))
  | .vpmac f => some (accLane 0x23 f word32Ty fun _ a b d =>
      let x (j : Nat) : Int := byteOf (f.fn4 != 1) a j
      let y (j : Nat) : Int := byteOf (f.fn4 == 0) b j
      mod2 32 (d + x 0 * y 0 + x 1 * y 1 + x 2 * y 2 + x 3 * y 3))
  | .vpopc f => some (oneLane 0x24 f rawTy fun _ ty _ a => (((List.range ty.width).filter a.testBit).length, 0))
  | .vclz f => some (oneLane 0x25 f rawTy fun _ ty _ a => (if a = 0 then ty.width else ty.width - 1 - a.log2, 0))
  | .vctz f => some (oneLane 0x26 f rawTy fun _ ty _ a => (((List.range ty.width).find? a.testBit).getD ty.width, 0))
  | .vabsd f => some (intLane 0x27 f intTy (quiet fun ty a b =>
      if ty.signed then (sgn ty.width a - sgn ty.width b).natAbs % 2 ^ ty.width else Nat.max a b - Nat.min a b))
  | .vbcast f => some (rawLane 0x2A f rawTy fun c r col => .val (opB c f (opTy c.vt f).width r col).1 0)
  | .viota f => some (rawLane 0x2B f intTy fun c r col =>
      .val (if f.fn4 = 1 then ((List.range col).filter (effMask c f).getLsbD).length else r * c.vl + col) 0)
  | _ => none

/-- What an element-wise instruction leaves, under the conditions under which every active element completes: its operands pass
their checks, nothing keeps it from issuing, and no active element raises a flag whose trap is enabled. -/
def LaneRuns (i : Instr) (l : Lane) (s : State) : Prop :=
  Ready s i .vector → l.form (here s) →
  (∀ r < (here s).vt.size, ∀ col < (here s).vl, l.start (here s) ≤ r * (here s).vl + col → (l.mask (here s)).getLsbD col = true →
    (here s).vcsr.enables.toNat &&& Res.flags (l.res (here s) r col) = 0) →
  ∃ c', Leaves i .vector s c' ∧ RowsOnly (retired .vector i l.f true (here s)) c' ∧
    Lanes (here s) c' (here s).vt.size (here s).vl (l.start (here s)) (l.ew (here s)) (l.mask (here s)) (opPol l.f) l.dst
      (l.res (here s)) (fun r col => Res.flags (l.res (here s) r col))

/-- What an instruction that computes element by element has left behind its elements from `start` on below number `stop`: those
elements have their results, and no other element of the rows has changed. -/
structure LanesTo (c c' : Ctx) (g vl start stop ew : Nat) (mask : BitVec 2048) (pol : Bool) (dst : Nat → Nat → Nat × Nat)
    (res : Nat → Nat → Res) : Prop where
  written : ∀ r < g, ∀ col < vl, start ≤ r * vl + col → r * vl + col < stop →
    cell c' ew (dst r col).1 (dst r col).2 =
      (if mask.getLsbD col then Res.cell ew (cell c ew (dst r col).1 (dst r col).2) (res r col)
       else if pol then (0, 0) else cell c ew (dst r col).1 (dst r col).2)
  kept : ∀ row k, (∀ r < g, ∀ col < vl, start ≤ r * vl + col → r * vl + col < stop → dst r col ≠ (row, k)) → cell c' ew row k = cell c ew row k

/-- ILLEGAL of a 64-bit instruction at dispatch, with a reason (R69). -/
def illegal64 (c : Ctx) (major : Nat) (f : Op64) (reason : Nat) : TrapInfo :=
  { cause := 0x01, addr := c.pc, info := BitVec.ofNat 64 (major + 2 ^ 8 * (if f.pfx.isSome then 3 else 1) + 2 ^ 12 * reason) }

/-- What a trap of the entry that an instruction became leaves of its context: the trap registers, with q = 1 at U; at U the entry is
parked to restart at `start`, which for the vector queue `vstart` holds, with its pop done, and the front end resumes behind the
instruction; at S the entry and every younger one of S are gone, and `vstart` keeps its value (R80, R211, R282-R286). -/
structure EntryTraps (i : Instr) (f : Op64) (s : State) (c' : Ctx) (t : TrapInfo) (start : Nat) (q : QueueNo := .vector) : Prop where
  goes : c'.pc = (here s).trap.tvec ∧ c'.level = .s ∧ c'.trap.tvec = (here s).trap.tvec
  cause : c'.trap.tcause = BitVec.ofNat 64 (t.cause + if (here s).level = .u then 2 ^ 15 else 2 ^ 12)
  epc : c'.trap.tepc = (here s).pc
  place : c'.trap.telem = BitVec.ofNat 64 t.elem ∧ c'.trap.trow = BitVec.ofNat 64 t.row
  info : c'.trap.taddr = t.addr ∧ c'.trap.tinfo = t.info
  parked : ∀ e ∈ c'.queue, e.parked = true
  atU : (here s).level = .u → c'.vstart = (if q = .vector then BitVec.ofNat 16 start else (here s).vstart) ∧
    c'.resume = some ((here s).pc + BitVec.ofNat 64 (if f.pfx.isSome then 12 else 8)) ∧
    ∃ e ∈ c'.queue, e.seq = (here s).seq ∧ e.instr = i ∧ e.pc = (here s).pc ∧ e.vstart = start ∧ e.popped = true
  atS : (here s).level = .s → c'.vstart = (here s).vstart ∧ ∀ e ∈ c'.queue, e.level = .s → e.seq < (here s).seq

/-- What an element-wise instruction leaves when the element (r, col) is the first active one that raises a flag whose trap is enabled:
ARITH at it, with every flag that it raised; the elements before it are complete, with their flags, and no other is written (R80, R107). -/
def LaneTraps (i : Instr) (l : Lane) (s : State) : Prop :=
  ∀ r < (here s).vt.size, ∀ col < (here s).vl, let c := here s; let k := r * c.vl + col; let fl (r col : Nat) := Res.flags (l.res c r col)
    Ready s i .vector → l.form c → c.trap.tvec ≠ 0 → c.level ≠ .f → l.start c ≤ k → (l.mask c).getLsbD col = true →
    c.vcsr.enables.toNat &&& fl r col ≠ 0 →
    (∀ r' < c.vt.size, ∀ col' < c.vl, l.start c ≤ r' * c.vl + col' → r' * c.vl + col' < k → (l.mask c).getLsbD col' = true →
      c.vcsr.enables.toNat &&& fl r' col' = 0) →
    ∃ t, exec i s = .next t ∧
      EntryTraps i l.f s (t.ctx s.cur) { cause := 0x09, info := BitVec.ofNat 64 (fl r col), elem := k, row := r } k ∧
      LanesTo c (t.ctx s.cur) c.vt.size c.vl (l.start c) k (l.ew c) (l.mask c) (opPol l.f) l.dst (l.res c) ∧
      (∀ n < 9, (t.ctx s.cur).vcsr.flags.getLsbD n = true ↔ c.vcsr.flags.getLsbD n = true ∨
        ∃ r' < c.vt.size, ∃ col' < c.vl, l.start c ≤ r' * c.vl + col' ∧ r' * c.vl + col' < k ∧ (l.mask c).getLsbD col' = true ∧
          (fl r' col').testBit n = true) ∧
      t.mem = s.mem ∧ ∀ y, y ≠ s.cur → t.ctx y = s.ctx y

/-! ## Floating point and conversion (R153-R163, R165) -/

/-- An exact value rounded once under the instruction's mode, with its own flags and those of the rounding. -/
def roundRes (c : Ctx) (f : Op64) (fmt : Fmt) (i : Nat) (v : Val × Nat) : Nat × Nat :=
  let r := roundTo fmt (opRm c f) c.vcsr.sat8 i v.1
  (r.1, v.2 ||| r.2)

/-- A sign operation on the signs of a and b (R93, R155): a NaN becomes the canonical one. -/
def signLane (f : Op64) (sign : Nat → Nat → Nat) : Lane :=
  fpLane 0x40 f fun _ fmt _ a b =>
    (if (fmt.decode a).isNan then fmt.nan
     else a % fmt.signBit + sign (a / fmt.signBit) (b / fmt.signBit) * fmt.signBit, 0)

/-- The float instructions of R155 to R157. -/
def fpTable : Instr → Option Lane
  | .vfadd f => some (fpLane 0x30 f fun c fmt i a b => roundRes c f fmt i (addVal (opRm c f) (fmt.decode a) (fmt.decode b)))
  | .vfsub f => some (fpLane 0x31 f fun c fmt i a b => roundRes c f fmt i (addVal (opRm c f) (fmt.decode a) (fmt.decode b).negate))
  | .vfmul f => some (fpLane 0x32 f fun c fmt i a b => roundRes c f fmt i (mulVal (fmt.decode a) (fmt.decode b)))
  | .vfma f => some (fmaLane 0x33 f fun c fmt i a b d =>
      roundRes c f fmt i (fmaVal (opRm c f) (fmt.decode d) (fmt.decode a) (fmt.decode b)))
  | .vfnma f => some (fmaLane 0x34 f fun c fmt i a b d =>
      roundRes c f fmt i (fmaVal (opRm c f) (fmt.decode d) (fmt.decode a).negate (fmt.decode b)))
  | .vfdiv f => some (fpLane 0x35 f fun c fmt i a b => roundRes c f fmt i (divVal (fmt.decode a) (fmt.decode b)))
  | .vfsqrt f => some (oneLane 0x36 f fpTy fun c ty i a => unaryElem 0 c ty.fmt (opRm c f) i a)
  | .vfrcp f => some (oneLane 0x37 f fpTy fun c ty i a => unaryElem 1 c ty.fmt (opRm c f) i a)
  | .vfrsq f => some (oneLane 0x38 f fpTy fun c ty i a => unaryElem 2 c ty.fmt (opRm c f) i a)
  | .vfexp2 f => some (oneLane 0x39 f fpTy fun c ty i a => unaryElem 3 c ty.fmt (opRm c f) i a)
  | .vflog2 f => some (oneLane 0x3A f fpTy fun c ty i a => unaryElem 4 c ty.fmt (opRm c f) i a)
  | .vftanh f => some (oneLane 0x3B f fpTy fun c ty i a => unaryElem 5 c ty.fmt (opRm c f) i a)
  | .vfmin f => some (fpLane 0x3C f fun _ fmt _ a b =>
      ((roundTo fmt .rne false 0 (minMax false (f.fn4 == 1) (fmt.decode a) (fmt.decode b))).1, 0))
  | .vfmax f => some (fpLane 0x3D f fun _ fmt _ a b =>
      ((roundTo fmt .rne false 0 (minMax true (f.fn4 == 1) (fmt.decode a) (fmt.decode b))).1, 0))
  | .vfclass f => some (oneLane 0x3F f fpTy fun _ ty _ a => (classCode ty.fmt a, 0))
  | .vfsgnj f => some (signLane f fun _ b => b)
  | .vfsgnjn f => some (signLane f fun _ b => 1 - b)
  | .vfsgnjx f => some (signLane f fun a b => (a + b) % 2)
  | _ => none

/-- The checks of R162 on a narrowing (`gd` = G / 2) or widening (`gd` = 2G) move. -/
structure Resize (f : Op64) (c : Ctx) (gd : Nat) : Prop where
  rows : f.vd.toNat % gd = 0 ∧ f.vs2.toNat % c.vt.size = 0
  fits : c.vl ≤ 8192 / (opTy c.vt f).width
  scale : opTy c.vt f = .q4 → c.vt.ks = true
  apart : apartRows f.vd.toNat gd f.vs2.toNat c.vt.size

/-- The conversions of R160 to R163 and R165. -/
def convTable : Instr → Option Lane
  | .vcvt f => some {
      f := f
      form := fun c => Form 0x50 f c rawTy ∧ dstTy f ≠ .q4 ∧ c.vl ≤ 8192 / (dstTy f).width ∧
        ((opTy c.vt f).width ≠ (dstTy f).width → apartRows f.vd.toNat c.vt.size f.vs2.toNat c.vt.size)
      ew := fun _ => (dstTy f).width
      res := fun c r col =>
        let a := opA c f (opTy c.vt f).width r col
        orPoison a.2 (convertElem c c.vt (opTy c.vt f) (dstTy f) (opRm c f) (r * c.vl + col) r col a.1) }
  | .vnarrow f => some {
      f := f
      form := fun c => Resize f c (c.vt.size / 2) ∧ 2 ≤ c.vt.size ∧ 2 * (dstTy f).width = (opTy c.vt f).width
      ew := fun _ => (dstTy f).width
      dst := fun r col => (f.vd.toNat + r / 2, r % 2 * (4096 / (dstTy f).width) + col)
      res := fun c r col =>
        let a := opA c f (opTy c.vt f).width r col
        orPoison a.2 (match opTy c.vt f, dstTy f with
          | .int s w, .int s' w' => convertInt s' w' (roundShift c.vcsr.vxrm.toNat (if s then sgn w a.1 else a.1) (w / 2))
          | _, dst => convertElem c c.vt (opTy c.vt f) dst (opRm c f) (r * c.vl + col) r col a.1) }
  | .vwiden f => some {
      f := f
      form := fun c => Resize f c (2 * c.vt.size) ∧ c.vt.size ≤ 16 ∧ (dstTy f).width = 2 * (opTy c.vt f).width
      ew := fun _ => (dstTy f).width
      dst := fun r col => (f.vd.toNat + 2 * r + col / (8192 / (dstTy f).width), col % (8192 / (dstTy f).width))
      res := fun c r col =>
        let a := opA c f (opTy c.vt f).width r col
        orPoison a.2 (match opTy c.vt f, dstTy f with
          | .int s w, .int _ w' => (mod2 w' (if s then sgn w a.1 else a.1), 0)
          | _, dst => convertElem c c.vt (opTy c.vt f) dst (opRm c f) (r * c.vl + col) r col a.1) }
  | .vdeq f => some {
      f := f
      form := fun c => f.vd.toNat % c.vt.size = 0 ∧ f.vs2.toNat % c.vt.size = 0 ∧ c.vt.ks = true ∧ c.vl ≤ 8192 / (dstTy f).width ∧
        (f.vd ≠ f.vs2 ∨ f.mod12 ≠ 0 → apartRows f.vd.toNat c.vt.size f.vs2.toNat c.vt.size)
      ew := fun _ => (dstTy f).width
      res := fun c r col =>
        let a := opA c f c.vt.ty.width r col
        orPoison a.2 (convertVal (dstTy f) (opRm c f) c.vcsr.sat8 (r * c.vl + col) (srcValue c c.vt c.vt.ty r col a.1)) }
  | _ => none

/-! ## Moves of elements (R167-R171, R177) -/

/-- An element that moves with its poison. -/
def movedRes (v : Nat × Bool) : Res := if v.2 then .poison else .val v.1 0

/-- The distance, length or index of a form: g[vs1] or the immediate, unsigned. -/
def amountOf (c : Ctx) (f : Op64) : Nat := if f.fn3 = 1 then (c.rg (gpr f.vs1)).toNat else f.vs1.toNat

/-- What a destination element receives that no element moves to: 0 under the zero policy, and otherwise its own bits, without a
mark (R167). -/
def restRes (c : Ctx) (f : Op64) (r col : Nat) : Res :=
  .val (if opPol f then 0 else (cell c (opTy c.vt f).width (f.vd.toNat + r) col).1) 0
/-- What every element of a destination receives: the columns of a mask what moves to them, one that is to keep its value its own bits
without a mark. -/
def moveRes (mask : Ctx → BitVec 2048) (f : Op64) (res : Ctx → Nat → Nat → Res) (c : Ctx) (r col : Nat) : Res :=
  if (mask c).getLsbD col then
    match res c r col with
    | .keep => .val (cell c (opTy c.vt f).width (f.vd.toNat + r) col).1 0
    | v => v
  else restRes c f r col

/-- A whole-group move runs from element 0, and its destination shares no row with the sources. -/
def moveLane (major : Nat) (f : Op64) (more : Ctx → Prop) (mask : Ctx → BitVec 2048) (res : Ctx → Nat → Nat → Res) : Lane :=
  { f := f, form := fun c => Form major f c rawTy ∧ apartRows f.vd.toNat c.vt.size f.vs2.toNat c.vt.size ∧ more c,
    start := fun _ => 0, mask := fun _ => BitVec.allOnes 2048, res := moveRes mask f res }

/-- The active columns below `vl`, rising. -/
def actives (c : Ctx) (f : Op64) : List Nat := (List.range c.vl).filter (effMask c f).getLsbD

/-- The moves of R168 to R171 and `vmv`. -/
def moveTable : Instr → Option Lane
  | .vperm f => some (moveLane 0x70 f (fun c => apartRows f.vd.toNat c.vt.size f.vs1.toNat c.vt.size) (fun c => effMask c f)
      fun c r col =>
        let ew := (opTy c.vt f).width
        let j := opA c f ew r col
        if c.vl ≤ j.1 then .val 0 0
        else
          let d := cell c ew (f.vs1.toNat + r) (srcCol (opMod1 f) j.1)
          movedRes (d.1, d.2 != 0 || j.2))
  | .vslup f => some (moveLane 0x71 f (fun _ => True) (fun c => effMask c f) fun c r col =>
      let d := amountOf c f
      let src (k : Nat) : Res := movedRes (opA c f (opTy c.vt f).width r k)
      if f.fn4 = 2 then src ((col + (c.vl - d % c.vl)) % c.vl)
      else if d ≤ col then src (col - d)
      else if f.fn4 = 1 then .keep else .val 0 0)
  | .vsldn f => some (moveLane 0x72 f (fun _ => True) (fun c => effMask c f) fun c r col =>
      let d := amountOf c f
      let src (k : Nat) : Res := movedRes (opA c f (opTy c.vt f).width r k)
      if f.fn4 = 2 then src ((col + d) % c.vl)
      else if col + d < c.vl then src (col + d)
      else if f.fn4 = 1 then .keep else .val 0 0)
  | .vreshape f => some (moveLane 0x73 f
      (fun c => c.vt.size * c.vl = 0 ∨ amountOf c f ≠ 0 ∧ c.vt.size * c.vl % amountOf c f = 0) (fun c => effMask c f)
      fun c r col =>
        let rows := c.vt.size * c.vl / amountOf c f
        let k := (r * c.vl + col) % rows * amountOf c f + (r * c.vl + col) / rows
        movedRes (opA c f (opTy c.vt f).width (k / c.vl) (k % c.vl)))
  | .vcompr f => some (moveLane 0x74 f (fun _ => True) (fun c => BitVec.ofNat 2048 (2 ^ (actives c f).length - 1)) fun c r col =>
      movedRes (opA c f (opTy c.vt f).width r ((actives c f).getD col 0)))
  | .vexpnd f => some (moveLane 0x75 f (fun _ => True) (fun c => effMask c f) fun c r col =>
      movedRes (opA c f (opTy c.vt f).width r ((List.range col).filter (effMask c f).getLsbD).length))
  | .vmv f => some { rawLane 0x7B f rawTy (moveRes (fun c => effMask c f) f fun c r col => movedRes (opA c f (opTy c.vt f).width r col)) with
      mask := fun _ => BitVec.allOnes 2048 }
  | .vsel f => some { rawLane 0x29 f rawTy (fun c r col =>
      movedRes (if (effMask c f).getLsbD col then opB c f (opTy c.vt f).width r col else opA c f (opTy c.vt f).width r col)) with
      mask := fun _ => BitVec.allOnes 2048 }
  | _ => none

/-! ## Trees of reductions and scans (R109, R110, R172-R174) -/

/-- Two patterns combined by a reduction op, and the flags of the step. -/
def combine (op : Nat) (ty : Ty) (m : Rm) (sat8 : Bool) (idx a b : Nat) : Nat × Nat :=
  let w := ty.width
  let u := ty.fmt.decode a
  let v := ty.fmt.decode b
  match op with
  | 0 => ((a + b) % 2 ^ w, 0)
  | 1 => (if sgn w a ≤ sgn w b then a else b, 0)
  | 2 => (if sgn w b ≤ sgn w a then a else b, 0)
  | 3 => (Nat.min a b, 0)
  | 4 => (Nat.max a b, 0)
  | 5 => (a &&& b, 0)
  | 6 => (a ||| b, 0)
  | 7 => (a ^^^ b, 0)
  | 8 => let r := roundTo ty.fmt m sat8 idx (addVal m u v).1; (r.1, (addVal m u v).2 ||| r.2)
  | 9 => ((roundTo ty.fmt .rne false 0 (minMax false false u v)).1, 0)
  | 10 => ((roundTo ty.fmt .rne false 0 (minMax true false u v)).1, 0)
  | 11 => clampS w (sgn w a + sgn w b)
  | _ => clampU w ((a : Int) + b)
/-- The identity of a reduction op (R110). -/
def neutral (op : Nat) (ty : Ty) : Nat :=
  let w := ty.width
  match op with
  | 1 => 2 ^ (w - 1) - 1
  | 2 => 2 ^ (w - 1)
  | 3 => 2 ^ w - 1
  | 5 => 2 ^ w - 1
  | 8 => 2 ^ (w - 1)
  | 9 => if ty.fmt = .fp32 then 0x7F800000 else if ty.fmt = .fp16 then 0x7C00 else 0x7F80
  | 10 => if ty.fmt = .fp32 then 0xFF800000 else if ty.fmt = .fp16 then 0xFC00 else 0xFF80
  | _ => 0

/-- A value on its way through the tree, none when it is poisoned, with the flags raised for it. -/
abbrev Wire := Option Nat × Nat
/-- A step of the tree. -/
def meet (op : Nat) (ty : Ty) (m : Rm) (sat8 : Bool) (idx : Nat) (a b : Wire) : Wire :=
  match a.1, b.1 with
  | some u, some v => let r := combine op ty m sat8 idx u v; (some r.1, a.2 ||| b.2 ||| r.2)
  | _, _ => (none, a.2 ||| b.2)
/-- The node of R109 over the 2^k leaves from j x 2^k on. -/
def treeAt {α : Type} (step : Nat → α → α → α) (x : Nat → α) : (k j : Nat) → α
  | 0, j => x j
  | k + 1, j => step (j * 2 ^ (k + 1)) (treeAt step x k (2 * j)) (treeAt step x k (2 * j + 1))
/-- The largest aligned block that starts at b and lies inside [b, hi]. -/
def blockAt (b hi : Nat) : Nat := ((List.range 17).filter fun k => b % 2 ^ k == 0 && decide (b + 2 ^ k ≤ hi + 1)).foldl Nat.max 0
/-- The value of the rest [b, hi] of a range that starts at `s`, behind the value of its first part (R174). -/
def rangeOf {α : Type} (step : Nat → α → α → α) (x : Nat → α) (s hi : Nat) : (fuel b : Nat) → α → α
  | 0, _, v => v
  | n + 1, b, v => if hi < b then v
      else rangeOf step x s hi n (b + 2 ^ blockAt b hi) (step s v (treeAt step x (blockAt b hi) (b / 2 ^ blockAt b hi)))
/-- The leaves of a reduction: the elements of the source group, the identity where they are inactive or do not exist. -/
def leafOf (c : Ctx) (f : Op64) (op : Nat) (i : Nat) : Wire :=
  if i < c.vt.size * c.vl ∧ (effMask c f).getLsbD (i % c.vl) = true then
    let a := opA c f (opTy c.vt f).width (i / c.vl) (i % c.vl)
    (if a.2 then none else some a.1, 0)
  else (some (neutral op (opTy c.vt f)), 0)
/-- The value that element i of a scan receives: that of its range, whose first block is a node of the tree (R174). -/
def scanOf (c : Ctx) (f : Op64) (i : Nat) : Wire :=
  let ty := opTy c.vt f
  let op := f.fn4.toNat
  let step := meet op ty (opRm c f) c.vcsr.sat8
  let x := leafOf c f op
  let seg := decide (f.fn3 = 3 ∨ f.fn3 = 5)
  let s := ((List.range (i + 1)).filter fun j => j == 0 || seg && (c.mask f.vs1.toNat).getLsbD (j % c.vl)).foldl Nat.max 0
  let range (hi : Nat) : Wire :=
    rangeOf step x s hi 40 (s + 2 ^ blockAt s hi) (treeAt step x (blockAt s hi) (s / 2 ^ blockAt s hi))
  if 4 ≤ f.fn3.toNat then (if i = s then (some (neutral op ty), 0) else range (i - 1)) else range i
/-- A NaN as a result is the canonical one (R93). -/
def canon (ty : Ty) (b : Nat) : Nat :=
  match ty with
  | .flt g => if (g.decode b).isNan then g.nan else b
  | _ => b
/-- An element receives what the tree gives for it. -/
def wireRes (ty : Ty) (w : Wire) : Res := match w.1 with | some b => .val (canon ty b) 0 | none => .poison
/-- One element of a context written with what the tree gives. -/
def Wire.write (w : Wire) (row ew col : Nat) (c : Ctx) : Ctx :=
  let c1 := { c with vcsr := { c.vcsr with flags := c.vcsr.flags ||| BitVec.ofNat 9 w.2 } }
  match w.1 with | some b => c1.putElem row ew col b | none => c1.markPoison row ew col
/-- The types of the reduction ops. -/
def redTypes (op : Nat) (ty : Ty) : Bool := if 8 ≤ op ∧ op ≤ 10 then fpTy ty else intTy ty
/-- q is strictly better than p for a `vredx` (R173). -/
def beats (fn4 : Nat) (ty : Ty) (q p : Nat) : Bool :=
  let u := ty.fmt.decode q
  let v := ty.fmt.decode p
  match fn4 with
  | 0 => decide (sgn ty.width q < sgn ty.width p)
  | 1 => decide (sgn ty.width p < sgn ty.width q)
  | 2 => decide (q < p)
  | 3 => decide (p < q)
  | 4 => !u.isNan && (v.isNan || ltMin u v)
  | _ => !u.isNan && (v.isNan || ltMin v u)
/-- A key goes strictly before another in the order of a `vsortk` (R176): source index, bits and poison. -/
def keyFirst (fn4 : Nat) (a b : Nat × Nat × Bool) : Bool :=
  let lt (x y : Nat) : Bool := match fn4 % 8 with
    | 0 => decide (x < y)
    | 1 => decide (sgn 32 x < sgn 32 y)
    | _ => let u := Fmt.decode .fp32 x; let v := Fmt.decode .fp32 y; !u.isNan && (v.isNan || ltMin u v)
  if a.2.2 || b.2.2 then !a.2.2 else if 8 ≤ fn4 then lt b.2.1 a.2.1 else lt a.2.1 b.2.1

/-! ## Accesses one after another -/

/-- The state in which an instruction of a queue issues: it is dispatched, its token is popped, and it is counted. -/
def issuing (i : Instr) (q : QueueNo) (f : Op64) (usesVstart : Bool) (s : State) : State :=
  counted i (tookToken i q (s.setCtx s.cur (retired q i f usesVstart (here s))))
/-- The entry that an instruction becomes at its dispatch. -/
def entryOf (i : Instr) (q : QueueNo) (f : Op64) (usesVstart : Bool) (s : State) : Entry :=
  s.known s.cur ((here s).entry q i f (if usesVstart then startOf (here s) else 0))

/-- Reads at addresses, in order, each as `rd` reads its place: what each gives, with its mark, and the state behind them; none when
one of them is refused. -/
def readsAt (ag : Agent) (rd : Place → State → State × Nat × Bool) : List Word → State → Option (List (Nat × Bool) × State)
  | [], s => some ([], s)
  | va :: l, s => match place ag (.core (coreOf ag.x)) .read false va s with
    | .ok p s1 => (readsAt ag rd l (rd p s1).1).map fun r => ((rd p s1).2 :: r.1, r.2)
    | .error _ _ => none
/-- How the front end reads a doubleword (R120). -/
def frontReads (x : CtxNo) (p : Place) (s : State) : State × Nat × Bool := s.readBy x p 8
/-- How an access of a vector entry reads `n` bytes: in its class, and in an acquire form with what its word's releases cover. -/
def entryReads (e : Entry) (f : Op64) (x : CtxNo) (n : Nat) (p : Place) (s : State) : State × Nat × Bool :=
  let a := s.entryAccess x e f.cls4.toNat
  let r := s.readBy x p n a
  (if f.fn4 = 1 then r.1.learnWord x f.fn3.toNat p.word a else r.1, r.2)

/-- Stores of elements of `w` bits at addresses, in order, each as `wr` writes its place; a 4-bit element is merged into its byte, the
upper half where the flag says so (R189, R192). -/
def storesAt (ag : Agent) (w : Nat) (wr : Place → (n v : Nat) → Bool → State → State) :
    List ((Word × Bool) × Nat × Bool) → State → Option State
  | [], s => some s
  | ((va, upper), v, bad) :: l, s => match place ag (.core (coreOf ag.x)) .write false va s with
    | .ok p s1 => storesAt ag w wr l (if w = 4 then
        let r := s1.readPlace (coreOf ag.x) p 1
        wr p 1 (if upper then r.2.1 % 16 + 16 * v else r.2.1 / 16 * 16 + v) bad r.1
      else wr p (w / 8) v bad s1)
    | .error _ _ => none
/-- How an access of a vector entry writes: in its class, and in a release form as a release of its word. -/
def entryWrites (e : Entry) (f : Op64) (x : CtxNo) (p : Place) (n v : Nat) (bad : Bool) (s : State) : State :=
  let a := s.entryAccess x e f.cls4.toNat
  let s1 := s.writePlace x p n v bad a
  if f.fn4 = 2 then s1.publishWord x f.fn3.toNat p.word a e.past else s1

/-- Atomics at addresses, in order, each behind a purge of its line: those that return a value and those in a window perform at
once, the others are left to be posted (R196, R316). -/
def amosAt (ag : Agent) (e : Entry) (cls size : Nat) (op : AtomOp) (returns : Bool) : List (Word × Nat) → State →
    Option ((List (Nat × Bool) × List Atom) × State)
  | [], s => some (([], []), s)
  | (va, v) :: l, s => match place ag (.core (coreOf ag.x)) .atomic false va s with
    | .ok p s1 =>
      let a : Atom := ⟨p.home.1, p.home.2, size, op, v, false⟩
      let s2 := s1.purgePlace ag.x p
      let r := s2.atomBy ag.x a (s2.entryAccess ag.x e cls)
      let now : Bool := returns || match p with | .window _ _ => true | .phys _ _ => false
      if now then (amosAt ag e cls size op returns l r.1).map fun t => (((r.2.1, r.2.2.1) :: t.1.1, t.1.2), t.2)
      else (amosAt ag e cls size op returns l s2).map fun t => ((t.1.1, a :: t.1.2), t.2)
    | .error _ _ => none

/-- Linked reads at addresses, in order: each at home behind a purge, on an ordinary page, and it sets the link of its line (R197). -/
def linksAt (ag : Agent) (e : Entry) (cls scope n : Nat) : List Word → State → Option (List (Nat × Bool) × State)
  | [], s => some ([], s)
  | va :: l, s => match place { ag with noWindow := true } (.core (coreOf ag.x)) .read false va s with
    | .ok (.phys pa pte) s1 =>
      if pteMs pte || pteD pte then none
      else
        let a := s1.entryAccess ag.x e cls
        let s2 := (((s1.purge ag.x (pa / 64)).reachHome (pa / 64)).sawWord ag.x (physWord pa) a).access ag.x a
        let s3 := if scope = 0 then s2 else s2.learnWord ag.x scope (physWord pa) a
        (linksAt ag e cls scope n l (s3.modDie (homeDie pa) fun d => { d with links := setLink ag.x (pa / 64) d.links })).map fun r =>
          (s2.homeRead pa n :: r.1, r.2)
    | _ => none

/-- The physical addresses of a scatter, each on an ordinary page, in order (R198). -/
def scatterAt (ag : Agent) : List (Nat × Word) → State → Option (List (Nat × Nat) × State)
  | [], s => some ([], s)
  | (k, va) :: l, s => match place { ag with noWindow := true } (.core (coreOf ag.x)) .write false va s with
    | .ok (.phys pa pte) s1 => if pteMs pte || pteD pte then none else (scatterAt ag l s1).map fun r => ((k, pa) :: r.1, r.2)
    | _ => none

/-- The lines of a scatter, one after another: where the context's link holds, its elements are written and their columns noted, and
at a scope above 0 each write is a release and those that watch the line are woken (R198, R127). -/
def linesAt (x : CtxNo) (e : Entry) (cls w scope : Nat) (value : Nat → Nat × Bool) (elems : List (Nat × Nat)) :
    List Nat → State → List Nat × State
  | [], s => ([], s)
  | ln :: l, s =>
    if (s.die (homeDie (64 * ln))).links.contains (ln, x) then
      let mine := elems.filter fun v => v.2 / 64 == ln
      let s1 := mine.foldl (fun t v =>
        let a := t.entryAccess x e cls
        let t1 := ((t.homePut (some x) v.2 (w / 8) (value v.1).1 (value v.1).2).wroteWord x (physWord v.2) a).access x a
        if scope = 0 then t1 else t1.publishWord x scope (physWord v.2) a e.past) (s.purge x ln)
      let r := linesAt x e cls w scope value elems l (if scope = 0 then s1 else s1.wakeLine x ln)
      (mine.map (fun v => v.1) ++ r.1, r.2)
    else linesAt x e cls w scope value elems l s

/-! ## Elements in memory (R189) -/

/-- How a vector access finds its elements: in a row, at a stride, in rows at a stride, or by indices. -/
inductive Course where
  | unit | stride | row | index
  deriving DecidableEq, Repr

/-- The byte address of an element, and whether a 4-bit one is the upper half of its byte. -/
def addrOf (k : Course) (c : Ctx) (f : Op64) (i : Nat) : Word × Bool :=
  let w := c.vt.bitsW
  let base := c.rg (gpr f.vs1)
  let step := c.rg (gpr f.vs2)
  let along (b : Word) (n : Nat) : Word × Bool :=
    if w = 4 then (b + BitVec.ofNat 64 (n / 2), n % 2 == 1) else (b + BitVec.ofNat 64 (n * (w / 8)), false)
  match k with
  | .unit => along base i
  | .stride => (base + BitVec.ofNat 64 i * step, false)
  | .row => along (base + BitVec.ofNat 64 (i / c.vl) * step) (i % c.vl)
  | .index => along base (cell c w (f.vs2.toNat + i / c.vl) (i % c.vl)).1

/-- The active elements from `start` on that have an address, rising. -/
def liveAt (k : Course) (c : Ctx) (f : Op64) (start : Nat) : List Nat :=
  ((List.range (c.vt.size * c.vl)).drop start).filter fun i => (effMask c f).getLsbD (i % c.vl) &&
    (k != .index || (cell c c.vt.bitsW (f.vs2.toNat + i / c.vl) (i % c.vl)).2 == 0)

/-- The bytes of an access of one element. -/
def bytesOfElem (w : Nat) : Nat := if w < 8 then 1 else w / 8
/-- An element in the bytes that its access reads. -/
def part (w : Nat) (upper : Bool) (v : Nat) : Nat := if w = 4 then (if upper then v / 16 else v % 16) else v
/-- An element is aligned (R190). -/
def alignedAt (k : Course) (c : Ctx) (f : Op64) (i : Nat) : Bool :=
  if c.vt.bitsW = 4 then !(decide (k = .row ∧ c.vl ≤ i) && (c.rg (gpr f.vs2)).getLsbD 0)
  else (addrOf k c f i).1.toNat % (c.vt.bitsW / 8) == 0
/-- The groups and the type of a vector access pass its checks (R188). -/
def Grouped (k : Course) (c : Ctx) (f : Op64) (accepts : Ty → Bool) : Prop :=
  f.vd.toNat % c.vt.size = 0 ∧ (k = .index → f.vs2.toNat % c.vt.size = 0) ∧ accepts c.vt.ty = true
/-- They pass, and the elements of the access are aligned. -/
def Addressed (k : Course) (c : Ctx) (f : Op64) (accepts : Ty → Bool) (start : Nat) : Prop :=
  Grouped k c f accepts ∧ ∀ i ∈ liveAt k c f start, alignedAt k c f i = true
/-- The types that an access of a course takes: a q4 element has no address of its own but in rows (R188). -/
def accepted (k : Course) (ty : Ty) : Bool := decide (k = .unit ∨ k = .row) || ty != .q4
/-- The fault of an access to an element, with the state that it leaves (R193). -/
def faultAt (k : Course) (c : Ctx) (f : Op64) (ag : Agent) (acc : Acc) (i : Nat) (t : State) : Option (TrapInfo × State) :=
  let va := (addrOf k c f i).1
  if alignedAt k c f i then
    match place ag (.core (coreOf ag.x)) acc false va t with
    | .error (.trap tr) u => some (tr, u)
    | _ => none
  else some ({ cause := 0x05, addr := va }, t)

/-- The same of a linked access, which no window serves, and no MS or durable page (R197, R314, R343). -/
def linkFault (c : Ctx) (f : Op64) (ag : Agent) (acc : Acc) (i : Nat) (t : State) : Option (TrapInfo × State) :=
  let va := (addrOf .index c f i).1
  if alignedAt .index c f i then
    match place { ag with noWindow := true } (.core (coreOf ag.x)) acc false va t with
    | .ok (.phys _ pte) u =>
      if pteMs pte || pteD pte then some ({ cause := 0x07, addr := va, info := if acc = .write then 0x41600 else 0x1600 }, u) else none
    | .error (.trap tr) u => some (tr, u)
    | _ => none
  else some ({ cause := 0x05, addr := va }, t)

/-- What the element (r, col) of a load receives: what the access of its number gave; poison where it gave poison, or had no
address. -/
def loaded (w vl : Nat) (upper : Nat → Bool) (vals : List (Nat × Nat × Bool)) (r col : Nat) : Res :=
  match vals.find? fun v => v.1 == r * vl + col with
  | some v => if v.2.2 then .poison else .val (part w (upper v.1) v.2.1) 0
  | none => .poison

/-! ## Weights (R236, R237) -/

/-- A byte of an image that has been read granule by granule, and its mark. -/
def imageByte (g : List (Nat × Bool)) (j : Nat) : Nat := (g.getD (j / 8) (0, false)).1 / 256 ^ (j % 8) % 256
def imageMark (g : List (Nat × Bool)) (j : Nat) : Bool := (g.getD (j / 8) (0, false)).2

/-- The weight of column `n` and logical row `k` of an image in a format, for a depth K and a width N, and its mark. -/
def weightOf (fmt depth width : Nat) (g : List (Nat × Bool)) (n k : Nat) : Val × Bool :=
  let b := if fmt ≤ 1 then 16 else if fmt = 4 ∨ fmt = 5 then 4 else 8
  let sparse : Bool := decide (5 ≤ fmt)
  let scaled : Bool := decide (fmt = 4 ∨ fmt = 5)
  let cs := ((if sparse then depth / 2 else depth) * b + 511) / 512 * 64
  let ms := (depth + 511) / 512 * 64
  let scales := width * cs + (if sparse then (width + 7) / 8 * ms else 0)
  let group := width * cs + n / 8 * ms + k / 4 / 2
  let nib := imageByte g group / 16 ^ (k / 4 % 2) % 16
  let idx0 := nib % 4
  let idx1 := nib / 4
  let stored : Option Nat := if !sparse then some k else if idx1 ≤ idx0 then none
    else if k % 4 = idx0 then some (2 * (k / 4)) else if k % 4 = idx1 then some (2 * (k / 4) + 1) else none
  match stored with
  | none => (Val.zero false, imageMark g group)
  | some e =>
    let at_ := n * cs + e * b / 8
    let scale := scales + n / 8 * 16 + e / 32
    let raw := if b = 4 then imageByte g at_ / 16 ^ (e % 2) % 16 else if b = 8 then imageByte g at_
      else imageByte g at_ + 256 * imageByte g (at_ + 1)
    (match fmt with
      | 0 => Fmt.decode .bf16 raw
      | 1 => Fmt.decode .fp16 raw
      | 3 => Fmt.decode .e5m2 raw
      | 4 | 5 => q4Val (imageByte g scale) raw
      | _ => Fmt.decode .e4m3 raw,
     imageMark g at_ || scaled && imageMark g scale || sparse && imageMark g group)

/-! ## Products (R108, R240-R242) -/

/-- A chunk of products added to an accumulator: the exact sum, NaN with NV for an invalid product or infinities of both signs, NaN
for a NaN product, then one rounding. -/
def chunkOf (acc : Nat × Nat) (ps : List (Val × Nat)) : Nat × Nat :=
  match ps with
  | [] => acc
  | p :: t =>
    let nv := (p :: t).any (fun q => q.2 &&& 1 != 0) || ((p :: t).any (fun q => q.1 == .inf false) && (p :: t).any fun q => q.1 == .inf true)
    let sum : Val := if nv || (p :: t).any (fun q => q.1.isNan) then .nan else t.foldl (fun a q => (addVal .rne a q.1).1) p.1
    let v := addVal .rne (Fmt.decode .fp32 acc.1) sum
    let r := roundTo .fp32 .rne false 0 v.1
    (r.1, acc.2 ||| (if nv then 1 else 0) ||| v.2 ||| r.2)

/-- Acc of R240 over the active indices below `n`, in chunks of 32. -/
def accOf (n : Nat) (active : Nat → Bool) (a b : Nat → Val) (acc : Nat) : Nat × Nat :=
  (List.range ((n + 31) / 32)).foldl (fun v ch =>
    chunkOf v ((((List.range 32).map fun i => 32 * ch + i).filter fun k => decide (k < n) && active k).map fun k => mulVal (a k) (b k))) (acc, 0)

/-- What one element of a product receives, none when it is poisoned, and its flags. -/
def productOf (n : Nat) (active : Nat → Bool) (a b : Nat → Val × Bool) (old : Nat × Bool) : Option Nat × Nat :=
  if old.2 || (List.range n).any (fun k => active k && ((a k).2 || (b k).2)) then (none, 0)
  else let r := accOf n active (fun k => (a k).1) (fun k => (b k).1) old.1; (some r.1, r.2)

/-- What an element of a tile holds: its bits, and whether it is poisoned. -/
def tileCell (tiles : Tab (Tab TileRow)) (t r col : Nat) : Nat × Bool := (Tab.look {} (Tab.look [] tiles t) r).elem col
/-- A unit's owner field and its enable name a context of its core (R232). -/
def Owned (word : Word) (j : BitVec 8) (x : CtxNo) : Prop := word.toNat / 16 ^ j.toNat % 16 / 8 = 1 ∧ word.toNat / 16 ^ j.toNat % 4 = x.toNat % 4

end Sys2Proof.Claims
end

