-- ==== Sys2Proof/Certificates/Slice0/Obligations.lean ====
section
/-! DEFINITION. The statements for the provers. -/

open Sys2Proof Sys2Proof.Machine Sys2Proof.Claims

/-! ## Encoding and decoding -/

/-- The bytes of words in memory, least significant first (R2, R26). -/
def Sys2Proof.Claims.bytesOf (ws : List (BitVec 32)) : List Byte := ws.flatMap fun w => leBytes 4 w.toNat

/-- Every well-formed instruction decodes from its own bytes, whatever follows them, with every operand at every value that its
encoding admits, and takes its own number of bytes (R26, R27, R30, R51-R64). -/
def Obligations.DecodeOfEncode : Prop :=
  ∀ (i : Instr) (ws : List (BitVec 32)) (rest : List Byte), i.wf = true → encode i = some ws →
    decodeBytes (bytesOf ws ++ rest) = .ok ⟨i, 4 * ws.length⟩

/-- Whatever bytes decode are the encoding of a well-formed instruction: no bit of them is left out of account (R51-R68). -/
def Obligations.EncodeOfDecode : Prop :=
  ∀ (bs : List Byte) (d : Decoded), 12 ≤ bs.length → decodeBytes bs = .ok d →
    d.instr.wf = true ∧ ∃ ws, encode d.instr = some ws ∧ bytesOf ws = bs.take d.bytes

/-- Words written out from the encodings of R30, R51 to R56 and R145 decode to their instructions. -/
def Obligations.DecodedWords : Prop :=
  -- addi g0, g0, 0 (R28)
  decodeTableWord 32 0x00000002 = some (.addi 0 0 0) ∧
  -- trap, tret, brk and snap (R288)
  decodeTableWord 32 0x00000030 = some .sysTrap ∧ decodeTableWord 32 0x00200030 = some .tret ∧
  decodeTableWord 32 0x00400030 = some .brk ∧ decodeTableWord 32 0x00800030 = some .snap ∧
  -- vshrr.a v0:2, 3, v4:2: 79 00 0C 10 08 00 02 40 (R145)
  decodeTableWord 64 0x40020008100C0079 = some (.vshrr ⟨none, 2, 0, 0, 0, 1, 0, 0, 1, 0, 4, 3, 0⟩)

/-- The word 0 is illegal, where it would be `add g0, g0, g0`; the no-operation is the word 2, and runs as one (R28). -/
def Obligations.ZeroWordIsIllegal : Prop :=
  (∀ rest : List Byte, ∃ e, decodeBytes ([0, 0, 0, 0] ++ rest) = .error e) ∧ encode (.add 0 0 0) = some [0x00000000#32] ∧
  encode (.addi 0 0 0) = some [0x00000002#32] ∧ (∀ rest, decodeBytes ([2, 0, 0, 0] ++ rest) = .ok ⟨.addi 0 0 0, 4⟩) ∧
  ∀ s, exec (.addi 0 0 0) s = .next (s.modCtx s.cur fun c => { c with pc := c.pc + 4 })

/-! ## The step -/

/-- The words at the pc that an instruction of their length needs are fetched one after another, from state to state (R26, R352). -/
def Sys2Proof.Claims.Fetches (ag : Agent) (pc : Word) (s : State) (w0 w1 w2 : BitVec 32) (s' : State) : Prop :=
  ∃ s1 s2, fetchWord ag pc s = .ok w0 s1 ∧
    (if 8 ≤ unitLength w0 then fetchWord ag (pc + 4) s1 = .ok w1 s2 else w1 = 0 ∧ s2 = s1) ∧
    (if unitLength w0 = 12 ∧ w1.toNat % 4 = 1 then fetchWord ag (pc + 8) s2 = .ok w2 s' else w2 = 0 ∧ s' = s2)

/-- The turn of the current context comes: it runs, nothing is scheduled before it, no asynchronous trap is pending that it may take, no
entry of its queues can issue, and no instruction whose result the front end waits for is queued. -/
structure Sys2Proof.Claims.Turns (s : State) : Prop where
  agenda : s.agenda = []
  power : s.hub.boot ≠ .off
  rest : s.yours = true ∨ s.due = none
  runs : (here s).status = .running
  calm : (here s).level = .u → (here s).async = []
  pump : s.pump s.cur = none
  coupled : ∀ e ∈ (here s).queue, e.coupled = true → e.parked = true

/-- A step runs the decoded instruction: when the words at an aligned pc decode to an instruction that the fount table has, and
none of the scalar registers that it reads holds an error, the step is its `exec` at the state that the fetch leaves, with the
mark of a trap's first instruction cleared; then the next context has its turn (R26, R67, R68, R283, R295). -/
def Obligations.StepRunsDecoded : Prop :=
  ∀ (s s1 : State) (w0 w1 w2 : BitVec 32) (d : Decoded), Turns s → (here s).pc.toNat % 4 = 0 →
    Fetches (agentOf s.cur (here s)) (here s).pc s w0 w1 w2 s1 → decodeWords w0 w1 w2 = .ok d →
    unimplCheck d.instr (here s).pc s1 = .ok () s1 → (∀ r ∈ readRegs d.instr, r.toNat ∉ (here s).gp) →
    step s = match exec d.instr (if (here s).entering then s1.modCtx s.cur fun c => { c with entering := false } else s1) with
      | .next t => .next { t with cur := s.cur + 1, yours := false }
      | o => o

/-- The meaning of every instruction and event answers a next state, from every state. -/
def Sys2Proof.Claims.ExecAnswers : Prop := ∀ (i : Instr) (s : State), ∃ t, exec i s = .next t

/-- A step stops only where the package is without power and nothing is scheduled; it refuses nothing. -/
def Sys2Proof.Claims.StepStopsOnlyWithoutPower : Prop :=
  ∀ s : State, (∀ r, step s ≠ .refused r) ∧ ((∃ f, step s = .fault f) ↔ s.agenda = [] ∧ s.hub.boot = .off)

/-- Every instruction and event answers a next state, and a step stops only where the package is without power and nothing is scheduled. -/
def Obligations.StepAnswers : Prop :=
  Sys2Proof.Claims.ExecAnswers ∧ Sys2Proof.Claims.StepStopsOnlyWithoutPower

/-- The state after reset: the hub is in ROM (R382), every context is idle, its type, mask stack and token counts are those of
R71 and R211, the allotments give unit j to context j mod 4 (R232), the arm of the snapshot registers is set (R299), the quad
thresholds and the power limit are those of R319 and R388, and memory is canonical. -/
def Obligations.ResetState : Prop :=
  Canonical State.reset ∧ State.reset.hub.boot = .rom ∧
  (∀ x : CtxNo, (State.reset.ctx x).status = .idle ∧ (State.reset.ctx x).queue = [] ∧ (State.reset.ctx x).stack = [] ∧
    (State.reset.ctx x).tokens = [] ∧ (State.reset.ctx x).level = .u) ∧
  (∀ k, (State.reset.core k).tallot = 0xBA98BA98 ∧ (State.reset.core k).wallot = 0xBA98BA98) ∧
  State.reset.hub.snap.armed = true ∧ (∀ q, (State.reset.quad q).cfg.thr = 0x0400) ∧ State.reset.hub.powerLimit = 3600

/-- Every step keeps memory in its canonical form: addresses rise strictly and no listed byte is one that an unlisted address
reads as. -/
def Obligations.StepKeepsCanonical : Prop := Kept Canonical

/-- Registers: g0 reads 0 and discards what is written; a write of another register is what it then reads, its error is gone,
and every other register keeps its value (R7, R29, R295). -/
def Sys2Proof.Claims.RegisterFile : Prop :=
  ∀ (c : Ctx) (d r : Reg) (v : Word), c.rg 0 = 0 ∧ c.wg 0 v = c ∧ (d ≠ 0 → (c.wg d v).rg d = v ∧ d.toNat ∉ (c.wg d v).gp) ∧
    (r ≠ d → (c.wg d v).rg r = c.rg r)

/-! ## Scalar instructions -/

/-- The instruction writes `v` to gd and goes on at the next one; nothing else changes. -/
def Sys2Proof.Claims.Writes (i : Instr) (s : State) (d : Reg) (v : Word) : Prop :=
  exec i s = .next (s.modCtx s.cur fun c => { c.wg d v with pc := c.pc + 4 })

/-- 1 when a proposition holds, else 0. -/
def Sys2Proof.Claims.truth01 (p : Bool) : Word := if p then 1 else 0

/-- The register forms of R117 that raise no flag: exact sums, differences and products modulo 2^64, bitwise operations, shifts by
b[5:0], comparisons, minima and maxima, counts, extensions, and the reversal of the bytes. -/
def Sys2Proof.Claims.AluResults : Prop :=
  ∀ (s : State) (d a b : Reg), let x := (here s).rg a; let y := (here s).rg b; let n := y.toNat % 64
    Writes (.add d a b) s d (BitVec.ofNat 64 (x.toNat + y.toNat)) ∧
    Writes (.sub d a b) s d (BitVec.ofNat 64 (x.toNat + 2 ^ 64 - y.toNat)) ∧
    Writes (.and d a b) s d (BitVec.ofNat 64 (x.toNat &&& y.toNat)) ∧ Writes (.or d a b) s d (BitVec.ofNat 64 (x.toNat ||| y.toNat)) ∧
    Writes (.xor d a b) s d (BitVec.ofNat 64 (x.toNat ^^^ y.toNat)) ∧
    Writes (.andn d a b) s d (BitVec.ofNat 64 (x.toNat &&& (2 ^ 64 - 1 - y.toNat))) ∧
    Writes (.sll d a b) s d (BitVec.ofNat 64 (x.toNat * 2 ^ n)) ∧ Writes (.srl d a b) s d (BitVec.ofNat 64 (x.toNat / 2 ^ n)) ∧
    Writes (.sra d a b) s d (BitVec.ofInt 64 (x.toInt / (2 ^ n : Nat))) ∧
    Writes (.slt d a b) s d (truth01 (decide (x.toInt < y.toInt))) ∧
    Writes (.sltu d a b) s d (truth01 (decide (x.toNat < y.toNat))) ∧
    Writes (.min d a b) s d (if x.toInt ≤ y.toInt then x else y) ∧ Writes (.max d a b) s d (if x.toInt ≤ y.toInt then y else x) ∧
    Writes (.minu d a b) s d (if x.toNat ≤ y.toNat then x else y) ∧
    Writes (.maxu d a b) s d (if x.toNat ≤ y.toNat then y else x) ∧
    Writes (.mul d a b) s d (BitVec.ofNat 64 (x.toNat * y.toNat)) ∧
    Writes (.mulh d a b) s d (BitVec.ofInt 64 (x.toInt * y.toInt / 2 ^ 64)) ∧
    Writes (.mulhu d a b) s d (BitVec.ofNat 64 (x.toNat * y.toNat / 2 ^ 64)) ∧
    Writes (.popc d a) s d (BitVec.ofNat 64 ((List.range 64).filter x.getLsbD).length) ∧
    Writes (.clz d a) s d (BitVec.ofNat 64 (if x = 0 then 64 else 63 - x.toNat.log2)) ∧
    Writes (.ctz d a) s d (BitVec.ofNat 64 (((List.range 64).find? x.getLsbD).getD 64)) ∧
    Writes (.sext d a b) s d (BitVec.ofInt 64 (if x.getLsbD n then (x.toNat % 2 ^ n : Nat) - (2 ^ n : Int) else x.toNat % 2 ^ n)) ∧
    Writes (.zext d a b) s d (BitVec.ofNat 64 (x.toNat % 2 ^ (n + 1))) ∧
    ∃ v, Writes (.bswap d a) s d v ∧ ∀ j < 8, v.toNat / 256 ^ j % 256 = x.toNat / 256 ^ (7 - j) % 256

/-- The immediate forms compute from g[ga], the immediate and the pc, and raise nothing (R118). -/
def Sys2Proof.Claims.ImmediateResults : Prop :=
  ∀ (s : State) (d a : Reg) (imm : BitVec 16) (sh : BitVec 6) (u : BitVec 21), let x := (here s).rg a
    Writes (.addi d a imm) s d (BitVec.ofInt 64 (x.toNat + imm.toInt)) ∧
    Writes (.andi d a imm) s d (BitVec.ofNat 64 (x.toNat &&& imm.toNat)) ∧
    Writes (.ori d a imm) s d (BitVec.ofNat 64 (x.toNat ||| imm.toNat)) ∧
    Writes (.xori d a imm) s d (BitVec.ofNat 64 (x.toNat ^^^ imm.toNat)) ∧
    Writes (.slli d a sh) s d (BitVec.ofNat 64 (x.toNat * 2 ^ sh.toNat)) ∧
    Writes (.srli d a sh) s d (BitVec.ofNat 64 (x.toNat / 2 ^ sh.toNat)) ∧
    Writes (.srai d a sh) s d (BitVec.ofInt 64 (x.toInt / (2 ^ sh.toNat : Nat))) ∧
    Writes (.slti d a imm) s d (truth01 (decide (x.toInt < imm.toInt))) ∧
    Writes (.sltiu d a imm) s d (truth01 (decide ((x.toNat : Int) < imm.toInt % (2 ^ 64 : Nat)))) ∧
    Writes (.lih d u) s d (BitVec.ofInt 64 (u.toInt * 2 ^ 11)) ∧
    Writes (.pca d u) s d (BitVec.ofInt 64 ((here s).pc.toNat + u.toInt * 4))

/-- Quotient, remainder and flags of R111 on 64-bit words. -/
def Sys2Proof.Claims.divWord (signed : Bool) (x y : Word) : Word × Word × Nat :=
  let r := if signed then sdiv 64 x.toNat y.toNat else udiv 64 x.toNat y.toNat
  (BitVec.ofNat 64 r.1, BitVec.ofNat 64 r.2.1, r.2.2)

/-- Division and remainder (R111, R117, R107): they write the quotient or the remainder and raise DZ or IOV where R111 says so;
where the enable of that flag is set, the instruction traps with ARITH before it writes, with the flags in `tinfo`. -/
def Sys2Proof.Claims.DivisionResults : Prop :=
  ∀ (s : State) (d a b : Reg) (signed rem : Bool), let i : Instr := match signed, rem with
      | true, false => .div d a b
      | false, false => .divu d a b
      | true, true => .rem d a b
      | false, true => .remu d a b
    let r := divWord signed ((here s).rg a) ((here s).rg b)
    ((here s).vcsr.enables.toNat &&& r.2.2 = 0 →
      exec i s = .next (s.modCtx s.cur fun c => { c.wg d (if rem then r.2.1 else r.1) with
        vcsr := { c.vcsr with flags := c.vcsr.flags ||| BitVec.ofNat 9 r.2.2 }, pc := c.pc + 4 })) ∧
    ((here s).vcsr.enables.toNat &&& r.2.2 ≠ 0 → (∀ e ∈ (here s).queue, e.parked = true) →
      exec i s = .next (s.enterTrap s.cur { cause := 0x09, info := BitVec.ofNat 64 r.2.2 } false false (here s).pc))

/-- The register file and the scalar integer instructions (R7, R29, R107, R111, R117, R118, R295). -/
def Obligations.ScalarIntegers : Prop :=
  Sys2Proof.Claims.RegisterFile ∧ Sys2Proof.Claims.AluResults ∧ Sys2Proof.Claims.ImmediateResults ∧ Sys2Proof.Claims.DivisionResults


/-! ## Memory -/

/-- Memory holds what is written at home: a write of up to 8 bytes within a granule of HBM is read back with its mark, which a clean
write of a whole granule removes (R295); every byte outside it reads as before. A write to a durable line waits, and no read sees
it before the persist buffer accepts it; then it is read (R370, R372). -/
def Sys2Proof.Claims.HomeReadWrite : Prop :=
  ∀ (s : State) (x : Option CtxNo) (a n v b m : Nat) (p : Bool), Canonical s → 0 < n → a % 8 + n ≤ 8 → v < 2 ^ (8 * n) → b % 8 + m ≤ 8 →
    let t := s.homePut x a n v p
    (isDurable a = false → t.homeRead a n = (v, p || decide (n < 8) && (s.homeRead a n).2) ∧
      (b + m ≤ a ∨ a + n ≤ b → (t.homeRead b m).1 = (s.homeRead b m).1)) ∧
    (isDurable a = true → t.homeRead b m = s.homeRead b m ∧ ((t.acceptLine (a / 64)).homeRead a n).1 = v ∧
      (b / 64 ≠ a / 64 → (t.acceptLine (a / 64)).homeRead b m = s.homeRead b m))

/-- A core's store to an ordinary or durable page, behind the durable writes of its line, is what the core then reads there, and no
other byte that it reads changes. Where the core's L1 holds the line, no other core of any quad, and no home, sees anything of it before
a write-back (R254, R312, R370). That a line which the L1 does not hold is taken where there is room, and is else written in the quad
cache where that has a way, is the model's choice of a replacement (log 10). -/
def Sys2Proof.Claims.StoreIsLocal : Prop :=
  ∀ (s : State) (x : CtxNo) (a n v b m c : Nat) (pte pte' : Word) (p : Bool), Canonical s → 0 < n → a % 8 + n ≤ 8 → v < 2 ^ (8 * n) →
    b % 8 + m ≤ 8 → pteMs pte = false → pteNc pte = false → pteMs pte' = false →
    (∀ w ∈ s.hub.waiting, w.line ≠ a / 64) → let t := s.writePlace x (.phys a pte) n v p
    let room := (s.core (coreOf x)).l1Room (a / 64)
    let way := (Tab.find (t.quad (quadOf x)).cache (a / 64)).isSome
    (room = true ∨ way = true ∨ isDurable a = false → (t.engineRead (coreOf x) (.phys a pte') n).1 = v ∧
      (b + m ≤ a ∨ a + n ≤ b → (t.engineRead (coreOf x) (.phys b pte') m).1 = (s.engineRead (coreOf x) (.phys b pte') m).1)) ∧
    (room = true → c ≠ coreOf x → t.engineRead c (.phys b pte') m = s.engineRead c (.phys b pte') m) ∧
    (room = true ∨ way = true → t.homeRead b m = s.homeRead b m) ∧ t.ctxs = s.ctxs

/-- A store to an MS or NC page goes through to its home at once; to a durable line it waits there for the persist buffer (R192, R320,
R370, R372). -/
def Sys2Proof.Claims.StoreThrough : Prop :=
  ∀ (s : State) (x : CtxNo) (a n v : Nat) (pte : Word) (p : Bool), Canonical s → 0 < n → a % 8 + n ≤ 8 → v < 2 ^ (8 * n) →
    (pteMs pte = true ∨ pteNc pte = true) → let t := s.writePlace x (.phys a pte) n v p
    (pteMs pte = true ∨ isDurable a = false → (t.pageRead pte a n).1 = v) ∧
    (pteMs pte = false → isDurable a = true → ((t.acceptLine (a / 64)).pageRead pte a n).1 = v)

/-- The quad store: a store to its own part of a quad's window is what every core of the quad then reads there, every other byte of
that part keeps its value, and no byte of memory changes (R312, R314). -/
def Sys2Proof.Claims.WindowStore : Prop :=
  ∀ (s : State) (x : CtxNo) (o n v k m : Nat) (p : Bool), v < 2 ^ (8 * n) → o / 0x40000 < (s.quad (quadOf x)).bound →
    k / 0x40000 < (s.quad (quadOf x)).bound → let q := quadOf x; let t := s.writePlace x (.window q o) n v p
    (t.storeRead q o n).1 = v ∧ (k + m ≤ o ∨ o + n ≤ k → (t.storeRead q k m).1 = (s.storeRead q k m).1) ∧
    (∀ c pa pte j, t.engineRead c (.phys pa pte) j = s.engineRead c (.phys pa pte) j) ∧ t.ctxs = s.ctxs

/-- What memory holds at home, and what a store changes: to an ordinary or durable page, to an MS or NC page, and to the quad store (R192,
R254, R295, R312, R314, R320, R370, R372). -/
def Obligations.MemoryWrites : Prop :=
  Sys2Proof.Claims.HomeReadWrite ∧ Sys2Proof.Claims.StoreIsLocal ∧ Sys2Proof.Claims.StoreThrough ∧ Sys2Proof.Claims.WindowStore

/-- Translating an address changes no context and no cached byte, and neither does a load: they fill caches, TLBs and walk caches, and
log refusals; an access that comes behind durable writes that wait for the persist buffer has them accepted, one that comes behind
posted operations at a base-die unit has them performed, of which a context sees its SAT flag alone, and no other byte of memory
changes (R110, R254, R300, R342, R348, R361, R372). -/
def Obligations.AccessesKeepData : Prop :=
  (∀ (ag : Agent) (site : Site) (acc : Acc) (cell : Bool) (va : Word) (s t : State),
    ((∃ p, place ag site acc cell va s = .ok p t) ∨ ∃ e, place ag site acc cell va s = .error e t) →
    t.posted.Sublist s.posted ∧
    (∀ y, t.ctx y = { s.ctx y with vcsr := { (s.ctx y).vcsr with flags := (t.ctx y).vcsr.flags } }) ∧
    ((∀ p ∈ s.posted, p.arrived = false) → t.ctxs = s.ctxs ∧ t.posted = s.posted ∧ t.l2 = s.l2 ∧
      t.hub.waiting.Sublist s.hub.waiting ∧ (s.hub.waiting = [] → t.mem = s.mem ∧ t.marks = s.marks) ∧
      (∀ c, (t.core c).l1 = (s.core c).l1) ∧ ∀ q, (t.quad q).cache = (s.quad q).cache ∧ (t.quad q).store = (s.quad q).store)) ∧
  ∀ (s : State) (c n : Nat) (p : Place), let t := (s.readPlace c p n).1
    t.ctxs = s.ctxs ∧ t.posted = s.posted ∧ t.hub.waiting.Sublist s.hub.waiting ∧
    (s.hub.waiting = [] → t.mem = s.mem ∧ t.marks = s.marks ∧ ((∀ pa pte, p = .phys pa pte → pteMs pte = false) →
      ∀ k a pte m, pteMs pte = false → t.engineRead k (.phys a pte) m = s.engineRead k (.phys a pte) m))

/-! ## Translation (R314, R340, R344-R348) -/

/-- The fault of a page-table entry at a walk level: the first of conditions 1 to 5 of R346 that fails, or 0. -/
def Sys2Proof.Claims.entryFault (e : Word) (lvl : Nat) : Nat :=
  let leaf := e.getLsbD 8
  let pa := (e.extractLsb' 16 36).toNat * 2 ^ 16
  let durable := decide (2 ^ 41 ≤ pa ∧ pa < 2 ^ 42)
  if e.getLsbD 0 = false then 0x01
  else if e.extractLsb' 52 12 ≠ 0 ∨ e.extractLsb' 9 7 ≠ 0 ∨ leaf = false ∧ e.extractLsb' 1 7 ≠ 0 then 0x02
  else if leaf = true ∧ lvl = 1 ∨ leaf = false ∧ lvl = 3 then 0x03
  else if leaf = true ∧ lvl = 2 ∧ e.extractLsb' 16 13 ≠ 0 then 0x04
  else if leaf = true ∧ (e.getLsbD 2 = true ∧ e.getLsbD 1 = false ∨ e.getLsbD 5 = true ∧ e.getLsbD 6 = true ∨
    e.getLsbD 6 ≠ durable ∨ e.getLsbD 5 = true ∧ 2 ^ 39 ≤ pa) then 0x05
  else 0
/-- What a leaf refuses: the first of conditions 6 to 9 of R346 that fails, or 0. -/
def Sys2Proof.Claims.refusal (e : Word) (acc : Acc) (level : Level) : Nat :=
  if acc = .read ∧ e.getLsbD 1 = false then 0x11
  else if acc = .write ∧ e.getLsbD 2 = false ∨ acc = .atomic ∧ (e.getLsbD 1 = false ∨ e.getLsbD 2 = false) then 0x12
  else if acc = .fetch ∧ e.getLsbD 3 = false then 0x13
  else if level = .u ∧ e.getLsbD 4 = false then 0x14
  else 0
/-- The trap of a failed translation, with the fields of R347: PAGE for the codes of the walk, PROT for the others. -/
def Sys2Proof.Claims.pageFault (va : Word) (acc : Acc) (lvl code : Nat) (cell : Bool) : TrapInfo :=
  let kind := match acc with | .read => 0 | .write => 1 | .fetch => 2 | .atomic => 3
  { cause := if code ≤ 0x08 then 0x06 else 0x07, addr := va,
    info := BitVec.ofNat 64 (kind * 2 ^ 18 + lvl * 2 ^ 16 + code * 2 ^ 8 + if cell then 1 else 0) }
/-- The walk of R344 over levels, each with the place of its index in the address, from a table: the leaf and its level, or the code,
the level and what the refusing block logs. -/
def Sys2Proof.Claims.walkDown (s : State) (va : Nat) : List (Nat × Nat) → Nat → Except (Nat × Nat × Option (Nat × Nat)) (Word × Nat)
  | [], _ => .error (0x03, 4, none)
  | (lvl, lo) :: rest, table =>
    let a := table + va / 2 ^ lo % 8192 * 8
    if 0xF000000000000 ≤ a ∧ a ≤ 0xF00FFFFFFFFFF then .error (0x07, lvl, some (a, 2))
    else if ¬ (a < 2 ^ 39 ∨ 2 ^ 41 ≤ a ∧ a < 2 ^ 42) then .error (0x07, lvl, some (a, 1))
    else if (s.homeRead a 8).2 = true then .error (0x08, lvl, none)
    else
      let e : Word := BitVec.ofNat 64 (s.homeRead a 8).1
      if entryFault e lvl ≠ 0 then .error (entryFault e lvl, lvl, none)
      else if e.getLsbD 8 = true then .ok (e, lvl)
      else walkDown s va rest ((e.extractLsb' 16 36).toNat * 2 ^ 16)
/-- The physical address that a leaf of a level gives. -/
def Sys2Proof.Claims.leafAddress (e : Word) (lvl va : Nat) : Nat :=
  if lvl = 2 then (e.extractLsb' 29 23).toNat * 2 ^ 29 + va % 2 ^ 29 else (e.extractLsb' 16 36).toNat * 2 ^ 16 + va % 2 ^ 16

/-- An address whose bits [63:56] do not repeat bit 55 is PAGE 0x06; a TLB entry that maps it answers without a walk, and its leaf's
permissions are checked; else the tables are walked from the root that bit 55 selects. A walk that fails raises PAGE, a leaf that
refuses raises PROT, and neither leaves anything in a TLB; a leaf that allows the access gives the address, and a TLB entry then maps it
(R344-R348). -/
def Sys2Proof.Claims.Walks : Prop :=
  ∀ (s : State) (site : Site) (asid : BitVec 16) (level : Level) (acc : Acc) (cell : Bool) (va : Word),
    let top : Nat := if va.getLsbD 55 then 255 else 0
    let hit := (s.tlbs site).find? fun k => k.maps asid va.toNat
    let d := s.die site.die
    let walk := walkDown s va.toNat [(1, 42), (2, 29), (3, 16)] (Tab.look 0 (if va.getLsbD 55 then d.root1 else d.root0) asid.toNat)
    (va.toNat / 2 ^ 56 ≠ top → xlate site asid level acc cell va s = .error (.trap (pageFault va acc 0 0x06 cell)) s) ∧
    (va.toNat / 2 ^ 56 = top →
      (∀ k, hit = some k → let lvl := if k.big then 2 else 3; let code := refusal k.pte acc level
        (code ≠ 0 → xlate site asid level acc cell va s = .error (.trap (pageFault va acc lvl code cell)) s) ∧
        (code = 0 → xlate site asid level acc cell va s = .ok (leafAddress k.pte lvl va.toNat, k.pte) (s.tlbFill site k))) ∧
      (hit = none → d.walks = [] →
        (∀ code lvl note, walk = .error (code, lvl, note) →
          xlate site asid level acc cell va s = .error (.trap (pageFault va acc lvl code cell)) (match note with
            | none => s
            | some (a, reason) => s.logViol (logOf a) (BitVec.ofNat 64 a) 0xFC00 1 reason 0)) ∧
        (∀ e lvl, walk = .ok (e, lvl) → let code := refusal e acc level
          (code ≠ 0 → ∃ t, xlate site asid level acc cell va s = .error (.trap (pageFault va acc lvl code cell)) t ∧
            t.tlbs site = s.tlbs site) ∧
          (code = 0 → ∃ t k, xlate site asid level acc cell va s = .ok (leafAddress e lvl va.toNat, e) t ∧
            (t.tlbs site).find? (fun k => k.maps asid va.toNat) = some k ∧ k.pte = e ∧ k.big = decide (lvl = 2)))))

/-- The window of the quad store is not translated: a fetch there is PROT 0x15; an access of a record whose launch does not own the
store, or of an instruction that may not name the window, is VIOL with reason 2, one beyond the store's part with reason 1, each logged
by the quad's controller; any other goes to the quad's store. An address that translates to no memory, or below level F to control
space, is VIOL with reason 1 or 2, logged by the block that refuses it (R314, R340). -/
def Sys2Proof.Claims.Destinations : Prop :=
  ∀ (s : State) (ag : Agent) (site : Site) (acc : Acc) (cell : Bool) (va : Word),
    let q := ag.x.toNat / 16
    let o := va.toNat - 0x00FFFF0000000000
    let kind := if ag.engine then 4 else match acc with | .read | .fetch => 1 | .write => 2 | .atomic => 3
    let refused := fun (t : State) (block : Nat) (a : Word) (reason : Nat) =>
      place ag site acc cell va s = .error (.trap { cause := 0x08, addr := va, reason := reason })
        (t.logViol block a ag.x.toNat kind reason ag.tag)
    (0x00FFFF0000000000 ≤ va.toNat → va.toNat < 0x00FFFF0000800000 →
      (acc = .fetch → place ag site acc cell va s = .error (.trap (pageFault va .fetch 0 0x15 cell)) s) ∧
      (acc ≠ .fetch →
        (ag.noWindow = true ∨ (s.quad q).owner ≠ some ag.tag → refused s (256 + q) va 2) ∧
        (ag.noWindow = false → (s.quad q).owner = some ag.tag →
          ((s.quad q).dmax * 0x40000 ≤ o → refused s (256 + q) va 1) ∧
          (o < (s.quad q).dmax * 0x40000 → ∃ t, place ag site acc cell va s = .ok (.window q o) t ∧ t.ctxs = s.ctxs)))) ∧
    (va.toNat < 0x00FFFF0000000000 ∨ 0x00FFFF0000800000 ≤ va.toNat →
      (∀ e t, xlate site ag.asid ag.level acc cell va s = .error e t → place ag site acc cell va s = .error e t) ∧
      (∀ pa pte t, xlate site ag.asid ag.level acc cell va s = .ok (pa, pte) t →
        (pa < 2 ^ 39 → place ag site acc cell va s = .ok (.phys pa pte) (if pteMs pte then t.settleUnit pa else t)) ∧
        (2 ^ 41 ≤ pa → pa < 2 ^ 42 → place ag site acc cell va s = .ok (.phys pa pte) (t.acceptLine (pa / 64))) ∧
        (0xF000000000000 ≤ pa → pa ≤ 0xF00FFFFFFFFFF → ag.level ≠ .f → refused t (logOf pa) (BitVec.ofNat 64 pa) 2) ∧
        (2 ^ 39 ≤ pa → ¬ (2 ^ 41 ≤ pa ∧ pa < 2 ^ 42) → ¬ (0xF000000000000 ≤ pa ∧ pa ≤ 0xF00FFFFFFFFFF) →
          refused t (logOf pa) (BitVec.ofNat 64 pa) 1)))

/-- Every access is translated: the walk with its faults, and where the translated address goes (R314, R340, R344-R348). -/
def Obligations.Translation : Prop :=
  Sys2Proof.Claims.Walks ∧ Sys2Proof.Claims.Destinations

/-- A release waits for the context's posted operations of covered scope, and writes the core's dirty bytes back at quad scope and
above, the quad's at die scope and above, but for those of the window; an acquire drops the clean copies of the same caches (R254, R255,
R316, R375). That it writes lines with dirty bytes back first and drops those too, but for those of the window, is the model's choice
(log 107). -/
def Obligations.ReleaseAndAcquire : Prop :=
  ∀ (s : State) (x : CtxNo) (sc : Nat), sc ≤ 6 →
    (∀ p ∈ (s.release x sc).posted, p ∈ s.posted ∧ (p.x = x → scopeCovers sc p.scope = false)) ∧
    (2 ≤ sc → ∀ ln l, Tab.find ((s.release x sc).core (coreOf x)).l1 ln = some l → l.dirty = 0) ∧
    (3 ≤ sc → ∀ ln l, Tab.find ((s.release x sc).quad (quadOf x)).cache ln = some l → l.dirty &&& ~~~l.win = 0) ∧
    (2 ≤ sc → ((s.acquire x sc).core (coreOf x)).l1 = []) ∧
    (3 ≤ sc → ∀ ln l, Tab.find ((s.acquire x sc).quad (quadOf x)).cache ln = some l → l.dirty ≠ 0 ∧ l.dirty &&& ~~~l.win = 0)

/-! ## Scalar memory accesses -/

/-- No vector access of the current context waits, and none of its entries waits for a token that a `wld` pushes (R238, R248). -/
def Sys2Proof.Claims.NoAccess (s : State) : Prop := (here s).vecBusy = false
/-- Nothing of the current context waits in its queues, but for what a trap has parked. -/
def Sys2Proof.Claims.Idle (s : State) : Prop := ∀ e ∈ (here s).queue, e.parked = true
/-- The earlier remote operations of the current context are acknowledged, where a scope asks for it: at pod scope all, at another the
reduce stores of covered scope (R363, R408). -/
def Sys2Proof.Claims.Acked (s : State) (scope : Nat) : Prop :=
  ∀ r ∈ (here s).remote, r.acked = true ∨ scope ≠ 5 ∧ (r.major ≠ 0xC2 ∨ scopeCovers scope r.scope = false)
/-- The instruction traps: the trap is the context's, with `tepc` the instruction (R283). -/
def Sys2Proof.Claims.Traps (i : Instr) (s t : State) (info : TrapInfo) : Prop :=
  exec i s = .next (t.enterTrap s.cur info false false (here s).pc)
/-- The agent of the current context. -/
def Sys2Proof.Claims.self (s : State) : Agent := agentOf s.cur (here s)
/-- The state whose current context goes on behind a 32-bit instruction. -/
def Sys2Proof.Claims.goOn (s t : State) (f : Ctx → Ctx) : State := t.modCtx s.cur fun c => { f c with pc := (here s).pc + 4 }

/-- Loads: the bytes at g[ga] + imm x size, extended, go to gd; a poisoned location raises POISON and a misaligned address
MISALIGN, with gd unchanged (R120, R295). A load waits for the queued vector accesses that its class orders before it, and for the
stores that may touch its bytes (R248, R250). -/
def Sys2Proof.Claims.Loads : Prop :=
  ∀ (s s1 : State) (d a : Reg) (cls : BitVec 4) (size : BitVec 2) (off : BitVec 10) (p : Place),
    let n : Nat := 2 ^ size.toNat
    let va : Word := BitVec.ofInt 64 (((here s).rg a).toNat + off.toInt * (n : Int))
    let ld : Instr := .ld d a cls size off
    let ldz : Instr := .ldz d a cls size off
    (va.toNat % n ≠ 0 → Idle s → Traps ld s s { cause := 0x05, addr := va } ∧ Traps ldz s s { cause := 0x05, addr := va }) ∧
    (va.toNat % n = 0 → (here s).memBlocked cls.toNat false va n = false →
      place (self s) (.core (coreOf s.cur)) .read false va s = .ok p s1 →
      let r := s1.readBy s.cur p n (scalarAccess (here s) cls.toNat)
      (r.2.2 = false → exec ld s = .next (goOn s r.1 fun c => c.wg d (BitVec.ofInt 64 (sgn (8 * n) r.2.1))) ∧
        exec ldz s = .next (goOn s r.1 fun c => c.wg d (BitVec.ofNat 64 r.2.1))) ∧
      (r.2.2 = true → Idle s → Traps ld s r.1 { cause := 0x0F, addr := va } ∧ Traps ldz s r.1 { cause := 0x0F, addr := va }))

/-- Stores: the low bytes of gd, never poisoned, go to g[ga] + imm x size, and nothing else of the machine changes but for what the
access itself does (R120, R295); a page that refuses the access traps with its cause (R120, R346). A store waits for the queued vector
accesses that its class orders before it, for every load, and for the stores that may touch its bytes (R248, R249, R252). -/
def Sys2Proof.Claims.Stores : Prop :=
  ∀ (s s1 : State) (d a : Reg) (cls : BitVec 4) (size : BitVec 2) (off : BitVec 10) (p : Place) (t : TrapInfo),
    let n : Nat := 2 ^ size.toNat
    let va : Word := BitVec.ofInt 64 (((here s).rg a).toNat + off.toInt * (n : Int))
    (va.toNat % n ≠ 0 → Idle s → Traps (.st d a cls size off) s s { cause := 0x05, addr := va }) ∧
    (va.toNat % n = 0 → (here s).memBlocked cls.toNat true va n = false →
      (place (self s) (.core (coreOf s.cur)) .write false va s = .ok p s1 →
        exec (.st d a cls size off) s = .next (goOn s
          (s1.writePlace s.cur p n (((here s).rg d).toNat % 2 ^ (8 * n)) false (scalarAccess (here s) cls.toNat)) id)) ∧
      (place (self s) (.core (coreOf s.cur)) .write false va s = .error (.trap t) s1 → Idle s → Traps (.st d a cls size off) s s1 t))

/-- The plain scalar loads and stores (R120, R248-R250, R252, R295, R346). -/
def Obligations.LoadsAndStores : Prop :=
  Sys2Proof.Claims.Loads ∧ Sys2Proof.Claims.Stores

/-- `lda` is an acquire at its scope, and `wfe` watches its line; `stl` is a release at its scope, its store reaches what the
scope's agents share, and it wakes those that watch its line (R121, R127, R251, R254). -/
def Obligations.AcquireLoadReleaseStore : Prop :=
  ∀ (s s1 : State) (d a : Reg) (cls : BitVec 4) (size : BitVec 2) (scope : BitVec 3) (p : Place),
    let n : Nat := 2 ^ size.toNat
    let va := (here s).rg a
    let sc := if scope = 6 then 4 else scope.toNat
    let acc := scalarAccess (here s) cls.toNat
    va.toNat % n = 0 →
    ((here s).memBlocked cls.toNat false va n = false → place (self s) (.core (coreOf s.cur)) .read false va s = .ok p s1 →
      let r := (s1.acquire s.cur scope.toNat).readBy s.cur p n acc
      r.2.2 = false → exec (.lda d a cls size scope) s =
        .next (goOn s (r.1.learnWord s.cur scope.toNat p.word acc) fun c =>
          { c.wg d (BitVec.ofInt 64 (sgn (8 * n) r.2.1)) with ldaLine := some p.line })) ∧
    (NoAccess s → Acked s scope.toNat → place (self s) (.core (coreOf s.cur)) .write false va s = .ok p s1 →
      exec (.stl d a cls size scope) s = .next (goOn s
        (((((s1.release s.cur scope.toNat).writePlace s.cur p n (((here s).rg d).toNat % 2 ^ (8 * n)) false acc).writeBacks
          s.cur sc).publishWord s.cur scope.toNat p.word).wakePlace s.cur p) id))

/-- The atomics with their operations and sizes (R122). -/
def Sys2Proof.Claims.amos (d a b : Reg) (size : BitVec 2) (scope : BitVec 3) (ord : BitVec 2) : List (Instr × AtomOp × Nat) :=
  let n : Nat := 2 ^ size.toNat
  [(.amoadd d a b size scope ord, .add, n), (.amoand d a b size scope ord, .and, n), (.amoor d a b size scope ord, .or, n),
   (.amoxor d a b size scope ord, .xor, n), (.amomin d a b size scope ord, .min, n), (.amomax d a b size scope ord, .max, n),
   (.amominu d a b size scope ord, .minu, n), (.amomaxu d a b size scope ord, .maxu, n), (.amoswap d a b size scope ord, .swap, n),
   (.amofadd d a b scope ord, .fadd, 4), (.amosadd d a b size scope ord, .sadd, n)]

/-- What the ord bits ask for behind an atomic that has performed: a release is met at its word where it has written it, and wakes those
that watch the line; an acquire drops stale copies and learns what the word's releases cover. -/
def Sys2Proof.Claims.behind (s : State) (x : CtxNo) (p : Place) (scope : BitVec 3) (ord : BitVec 2) (wrote : Bool) (acc : Access) : State :=
  let t := if ord.getLsbD 1 then (if wrote then s.publishWord x scope.toNat p.word else s).wakePlace x p else s
  if ord.getLsbD 0 then (t.acquire x scope.toNat).learnWord x scope.toNat p.word acc else t
/-- The same behind one that has been posted: it is met when it performs. -/
def Sys2Proof.Claims.behindPosted (s : State) (x : CtxNo) (p : Place) (scope : BitVec 3) (ord : BitVec 2) : State :=
  let t := if ord.getLsbD 1 then s.wakePlace x p else s
  if ord.getLsbD 0 then t.acquire x scope.toNat else t

/-- Atomics (R122): at an aligned address that may be read and written, after a release when ord asks for it, the location's line is
purged and the operation applies at home; gd takes the old value, and saturation sets SAT; so in the window with gd = g0. With gd = g0
outside the window it is posted. A poisoned location raises POISON when a value returns; a misaligned address raises MISALIGN. That a
posted one which is a release wakes those that watch its line when it is issued, before it performs, is the model's choice (log 85). -/
def Sys2Proof.Claims.Atomics : Prop :=
  ∀ (s s1 : State) (d a b : Reg) (size : BitVec 2) (scope : BitVec 3) (ord : BitVec 2) (p : Place),
    ∀ k ∈ amos d a b size scope ord,
    let va := (here s).rg a
    let atom : Atom := ⟨p.home.1, p.home.2, k.2.2, k.2.1, ((here s).rg b).toNat % 2 ^ (8 * k.2.2), false⟩
    let acc := scalarAccess (here s) 15
    let s2 := if ord.getLsbD 1 then s1.release s.cur scope.toNat else s1
    let s3 := s2.purgePlace s.cur p
    let r := s3.atomBy s.cur atom acc
    let rel : Option Release := if ord.getLsbD 1 then some ⟨s.cur, scope.toNat, s2.releaseClock (s2.base s.cur) scope.toNat⟩ else none
    (va.toNat % k.2.2 ≠ 0 → Idle s → Traps k.1 s s { cause := 0x05, addr := va }) ∧
    (va.toNat % k.2.2 = 0 → NoAccess s → (ord.getLsbD 1 = true → Acked s scope.toNat) →
      place (self s) (.core (coreOf s.cur)) .atomic false va s = .ok p s1 →
      (d ≠ 0 ∧ r.2.2.1 = false ∨ d = 0 ∧ (∃ q o, p = .window q o) → exec k.1 s = .next (goOn s (behind r.1 s.cur p scope ord true acc) fun c =>
        { c.wg d (BitVec.ofInt 64 (sgn (8 * k.2.2) r.2.1)) with
          vcsr := { c.vcsr with flags := if r.2.2.2 then c.vcsr.flags ||| 32 else c.vcsr.flags } })) ∧
      (d ≠ 0 → r.2.2.1 = true → Idle s → Traps k.1 s r.1 { cause := 0x0F, addr := va }) ∧
      (d = 0 → (∃ pa pte, p = .phys pa pte) →
        exec k.1 s = .next (goOn s (behindPosted (s3.post s.cur 15 scope.toNat false false [atom] rel) s.cur p scope ord) id)))

/-- The operations of atomics on a location of `n` bytes (R110, R122, R196). -/
def Sys2Proof.Claims.AtomicOperations : Prop :=
  ∀ (n a b : Nat), (n = 4 ∨ n = 8) → a < 2 ^ (8 * n) → b < 2 ^ (8 * n) → let w := 8 * n
    atomApply .add n a b = ((a + b) % 2 ^ w, false) ∧ atomApply .and n a b = (a &&& b, false) ∧
    atomApply .or n a b = (a ||| b, false) ∧ atomApply .xor n a b = (a ^^^ b, false) ∧
    atomApply .min n a b = (if sgn w a ≤ sgn w b then a else b, false) ∧
    atomApply .max n a b = (if sgn w a ≤ sgn w b then b else a, false) ∧
    atomApply .minu n a b = (if a ≤ b then a else b, false) ∧ atomApply .maxu n a b = (if a ≤ b then b else a, false) ∧
    atomApply .swap n a b = (b, false) ∧
    atomApply .sadd n a b = ((clampS w (sgn w a + sgn w b)).1, decide ((clampS w (sgn w a + sgn w b)).2 ≠ 0)) ∧
    (n = 4 → atomApply .fadd n a b =
      ((roundTo .fp32 .rne false 0 (addVal .rne (Fmt.decode .fp32 a) (Fmt.decode .fp32 b)).1).1, false))

/-- The scalar atomics and what each of their operations gives (R110, R122, R196). -/
def Obligations.ScalarAtomics : Prop :=
  Sys2Proof.Claims.Atomics ∧ Sys2Proof.Claims.AtomicOperations

/-- `cas` compares with g[gd] and swaps at home in one action; gd takes the old value; a misaligned address raises
MISALIGN, and a poisoned location POISON with nothing written but what was written back (R123); the links on its line break
(R199). -/
def Obligations.CompareAndSwap : Prop :=
  ∀ (s s1 : State) (d a b : Reg) (size : BitVec 2) (scope : BitVec 3) (ord : BitVec 2) (p : Place),
    let n : Nat := 2 ^ size.toNat
    let va := (here s).rg a
    let acc := scalarAccess (here s) 15
    let released := if ord.getLsbD 1 then s1.release s.cur scope.toNat else s1
    let s2 := (released.purgePlace s.cur p).breakHome p.home.1 p.home.2
    let old := s2.atomRead p.home.1 p.home.2 n
    let swaps : Bool := old.1 == ((here s).rg d).toNat % 2 ^ (8 * n)
    let s3 := (s2.sawWord s.cur p.word acc).access s.cur acc
    let s4 := if swaps then (s3.atomWrite s.cur p.home.1 p.home.2 n (((here s).rg b).toNat % 2 ^ (8 * n)) false
        (s3.base s.cur + acc.part)).modBefore fun k => (k.modified (s3.base s.cur) p.word 15).access (s3.base s.cur) acc
      else s3
    (va.toNat % n ≠ 0 → Idle s → Traps (.cas d a b size scope ord) s s { cause := 0x05, addr := va }) ∧
    (va.toNat % n = 0 → NoAccess s → (ord.getLsbD 1 = true → Acked s scope.toNat) →
      place (self s) (.core (coreOf s.cur)) .atomic false va s = .ok p s1 →
      (old.2 = false → exec (.cas d a b size scope ord) s =
        .next (goOn s (behind s4 s.cur p scope ord swaps acc) fun c => c.wg d (BitVec.ofInt 64 (sgn (8 * n) old.1)))) ∧
      (old.2 = true → Idle s → Traps (.cas d a b size scope ord) s s2 { cause := 0x0F, addr := va }))

/-- The six branches complete from every state: each goes to its target, relative to its own address, where its condition holds, and
otherwise to the next instruction, and changes nothing else (R119). -/
def Sys2Proof.Claims.BranchesComplete : Prop :=
  ∀ (s : State) (a b : Reg) (off : BitVec 13),
    let x := (here s).rg a; let y := (here s).rg b
    let goes (p : Bool) : State := s.modCtx s.cur fun c =>
      { c with pc := if p then BitVec.ofInt 64 (c.pc.toNat + off.toInt * 4) else c.pc + 4 }
    exec (.beq a b off) s = .next (goes (decide (x = y))) ∧ exec (.bne a b off) s = .next (goes (decide (x ≠ y))) ∧
    exec (.blt a b off) s = .next (goes (decide (x.toInt < y.toInt))) ∧
    exec (.bge a b off) s = .next (goes (decide (y.toInt ≤ x.toInt))) ∧
    exec (.bltu a b off) s = .next (goes (decide (x.toNat < y.toNat))) ∧
    exec (.bgeu a b off) s = .next (goes (decide (y.toNat ≤ x.toNat)))

/-- The jumps complete with gd the address of the next instruction: `jal` from every state, to its target relative to its own
address; `jalr` where g[ga] + imm is a multiple of 4, and there it goes. Otherwise `jalr` traps with MISALIGN, the target in `taddr`,
before it writes (R119). -/
def Sys2Proof.Claims.JumpsComplete : Prop :=
  ∀ (s : State) (d a : Reg) (far : BitVec 21) (imm : BitVec 16), let t := BitVec.ofInt 64 (((here s).rg a).toNat + imm.toInt)
    exec (.jal d far) s = .next (s.modCtx s.cur fun c =>
      { c.wg d (c.pc + 4) with pc := BitVec.ofInt 64 (c.pc.toNat + far.toInt * 4) }) ∧
    (t.toNat % 4 = 0 → exec (.jalr d a imm) s = .next (s.modCtx s.cur fun c => { c.wg d (c.pc + 4) with pc := t })) ∧
    (t.toNat % 4 ≠ 0 → Idle s → Traps (.jalr d a imm) s s { cause := 0x05, addr := t })

/-- `calli` completes where its slot, 8 x imm above g4, is aligned and reads clean as a load does, and where the word that it reads is a
multiple of 4: it jumps there with g1 the return address. A misaligned slot or target raises MISALIGN (R119). -/
def Sys2Proof.Claims.CallThroughSlot : Prop :=
  ∀ (s s1 : State) (slot : BitVec 16) (p : Place),
    let va : Word := BitVec.ofInt 64 (((here s).rg 4).toNat + slot.toInt * 8)
    (va.toNat % 8 ≠ 0 → Idle s → Traps (.calli slot) s s { cause := 0x05, addr := va }) ∧
    (va.toNat % 8 = 0 → (here s).memBlocked 15 false va 8 = false → place (self s) (.core (coreOf s.cur)) .read false va s = .ok p s1 →
    let r := s1.readBy s.cur p 8
    let t := BitVec.ofNat 64 r.2.1
    r.2.2 = false →
    (t.toNat % 4 = 0 → exec (.calli slot) s = .next (r.1.modCtx s.cur fun c => { c.wg 1 ((here s).pc + 4) with pc := t })) ∧
    (t.toNat % 4 ≠ 0 → Idle s → Traps (.calli slot) s r.1 { cause := 0x05, addr := t }))

/-- Branches, jumps and calls: `beq`, `bne`, `blt`, `bge`, `bltu`, `bgeu`, `jal`, `jalr` and `calli` complete, and where (R119). -/
def Obligations.ControlTransfers : Prop :=
  Sys2Proof.Claims.BranchesComplete ∧ Sys2Proof.Claims.JumpsComplete ∧ Sys2Proof.Claims.CallThroughSlot

/-! ## Scalar floating point -/

/-- A value rounded once to FP32 under a mode, with its flags and those of the rounding. -/
def Sys2Proof.Claims.single (c : Ctx) (rm : BitVec 3) (v : Rm → Val × Nat) : Word × Nat :=
  let m := if rm = 6 then rmOf c.vcsr.frm.toNat else rmOf rm.toNat
  let r := roundTo .fp32 m c.vcsr.sat8 0 (v m).1
  (BitVec.ofNat 64 r.1, (v m).2 ||| r.2)

/-- The `fpu` instructions with their results and flags (R102-R106, R124). -/
def Sys2Proof.Claims.fpuTable (c : Ctx) (d a b : Reg) (rm : BitVec 3) : List (Instr × Word × Nat) :=
  let x := (c.rg a).toNat % 2 ^ 32
  let y := (c.rg b).toNat % 2 ^ 32
  let u := Fmt.decode .fp32 x
  let v := Fmt.decode .fp32 y
  let m := if rm = 6 then rmOf c.vcsr.frm.toNat else rmOf rm.toNat
  let one (r : Nat × Nat) : Word × Nat := (BitVec.ofNat 64 r.1, r.2)
  let test (r : Bool × Nat) : Word × Nat := (truth01 r.1, r.2)
  let sign (bit : Nat) : Word × Nat := (BitVec.ofNat 64 (if u.isNan then 0x7FC00000 else x % 2 ^ 31 + bit % 2 * 2 ^ 31), 0)
  [(.fadd d a b rm, single c rm fun m => addVal m u v), (.fsub d a b rm, single c rm fun m => addVal m u v.negate),
   (.fmul d a b rm, single c rm fun _ => mulVal u v), (.fdiv d a b rm, single c rm fun _ => divVal u v),
   (.fsqrt d a rm, single c rm fun _ => sqrtVal u),
   (.fmin d a b, one ((roundTo .fp32 .rne false 0 (minMax false false u v)).1, 0)),
   (.fmax d a b, one ((roundTo .fp32 .rne false 0 (minMax true false u v)).1, 0)),
   (.fcvtFI d a rm, single c rm fun _ => (Val.ofInt (c.rg a).toInt, 0)),
   (.fcvtFN d a rm, single c rm fun _ => (Val.ofInt (c.rg a).toNat, 0)),
   (.fcvtIF d a rm, one (convertVal (.int true 64) m false 0 u)), (.fcvtNF d a rm, one (convertVal (.int false 64) m false 0 u)),
   (.feq d a b, test (fcond 0 u v)), (.flt d a b, test (fcond 2 u v)), (.fle d a b, test (fcond 3 u v)),
   (.fclass d a, one (classCode .fp32 x, 0)),
   (.fsgnj d a b, sign (y / 2 ^ 31)), (.fsgnjn d a b, sign (y / 2 ^ 31 + 1)), (.fsgnjx d a b, sign (x / 2 ^ 31 + y / 2 ^ 31))]

/-- Scalar floating point: gd takes the result, zero-extended, and `vcsr` the flags; a flag whose enable is set traps with ARITH
before gd is written (R102-R107, R124). -/
def Obligations.FloatResults : Prop :=
  ∀ (s : State) (d a b : Reg) (rm : BitVec 3), ∀ k ∈ fpuTable (here s) d a b rm,
    ((here s).vcsr.enables.toNat &&& k.2.2 = 0 → exec k.1 s = .next (goOn s s fun c =>
      { c.wg d k.2.1 with vcsr := { c.vcsr with flags := c.vcsr.flags ||| BitVec.ofNat 9 k.2.2 } })) ∧
    ((here s).vcsr.enables.toNat &&& k.2.2 ≠ 0 → Idle s → Traps k.1 s s { cause := 0x09, info := BitVec.ofNat 64 k.2.2 })

/-! ## Control and status registers -/

/-- The CSRs with the levels that read and, where they have a writable field, write them (R129). -/
def Sys2Proof.Claims.csrTable : List (Nat × Level × Option Level) :=
  [(0x000, .u, none), (0x001, .u, none), (0x002, .u, some .u), (0x003, .u, some .u), (0x004, .u, some .u), (0x005, .u, some .u),
   (0x006, .u, none), (0x007, .u, none), (0x008, .u, none), (0x010, .u, none), (0x011, .u, none), (0x012, .u, none),
   (0x013, .u, none), (0x020, .u, none), (0x021, .u, none), (0x022, .u, none), (0x023, .u, none), (0x100, .s, some .s),
   (0x101, .s, none), (0x102, .s, some .s), (0x103, .s, none), (0x104, .s, none), (0x105, .s, none), (0x106, .s, none),
   (0x110, .s, some .f), (0x111, .s, some .f), (0x112, .s, some .f)]

/-- The four `csr` forms, whether they write, and the word that they write (R128). -/
def Sys2Proof.Claims.csrForms (c : Ctx) (d a : Reg) (n : BitVec 12) (old : Word) : List (Instr × Bool × Word) :=
  [(.csrr d n, false, old), (.csrw d a n, true, c.rg a), (.csrs d a n, a != 0, old ||| c.rg a), (.csrc d a n, a != 0, old &&& ~~~c.rg a)]

/-- The four `csr` forms (R128, R129): gd takes the old value, and a register with a writable field takes the new one; a number that
is not listed is ILLEGAL with reason 10, and an access below its level raises PRIV. `vcsr`, `pm`, `prows` and the galley's registers wait
for the queued vector and matrix instructions; `mstk` waits for none, since the front end keeps the depth (R79, R101, R271, R296). -/
def Sys2Proof.Claims.CsrAccess : Prop :=
  ∀ (s : State) (d a : Reg) (n : BitVec 12), let x := s.cur; let old := csrValue s x n.toNat
    ∀ k ∈ csrForms (here s) d a n old,
    (Idle s → (∀ r ∈ csrTable, r.1 ≠ n.toNat) → Traps k.1 s s { cause := 0x01, addr := (here s).pc, info := 0xA015 }) ∧
    (∀ r ∈ csrTable, r.1 = n.toNat →
      (Idle s → (here s).level.code < r.2.1.code ∨ k.2.1 = true ∧ (∃ l, r.2.2 = some l ∧ (here s).level.code < l.code) →
        Traps k.1 s s { cause := 0x04, addr := (here s).pc }) ∧
      (r.2.1.code ≤ (here s).level.code → (k.2.1 = true → ∀ l, r.2.2 = some l → l.code ≤ (here s).level.code) → n ≠ 0x020 →
        (n = 0x003 ∨ n = 0x007 ∨ n = 0x008 ∨ n = 0x011 ∨ n = 0x012 ∨ n = 0x013 →
          ∀ e ∈ (here s).queue, e.parked = true ∨ e.queue = .copy) →
        (here s).level ≠ .f → exec k.1 s = .next (goOn s s fun c => (if k.2.1 then csrWrite n.toNat k.2.2 c else c).wg d old)))

/-- What a written CSR then reads: its writable bits, and 0 in those reserved; `frm` keeps its value when 6 or 7 is written, and
`tvec` has its low bits clear (R4, R78, R82, R100, R282). No other CSR of the context changes. -/
def Sys2Proof.Claims.CsrReadBack : Prop :=
  ∀ (s : State) (x : CtxNo) (n m : Nat) (w : Word), let t := s.setCtx x (csrWrite n w (s.ctx x))
    csrValue (s.setCtx x (csrWrite 0x002 w (s.ctx x))) x 0x002 = w &&& 0xFFFF ∧
    csrValue (s.setCtx x (csrWrite 0x003 w (s.ctx x))) x 0x003 =
      (if w.toNat % 8 < 6 then w &&& 0x01FFFFFF &&& ~~~0x00038000#64
       else w &&& 0x01FFFFF8 &&& ~~~0x00038000#64 ||| (s.ctx x).vcsr.frm.setWidth 64) ∧
    csrValue (s.setCtx x (csrWrite 0x004 w (s.ctx x))) x 0x004 = w ∧
    csrValue (s.setCtx x (csrWrite 0x005 w (s.ctx x))) x 0x005 = w &&& 0xC000FFFFFFFFFFFF ∧
    csrValue (s.setCtx x (csrWrite 0x100 w (s.ctx x))) x 0x100 = w &&& ~~~3#64 ∧
    csrValue (s.setCtx x (csrWrite 0x102 w (s.ctx x))) x 0x102 = w ∧
    (n ≠ m → csrValue t x m = csrValue s x m)

/-- Access to control and status registers, and what they then read (R4, R78, R82, R100, R128, R129, R282). -/
def Obligations.ControlRegisters : Prop :=
  Sys2Proof.Claims.CsrAccess ∧ Sys2Proof.Claims.CsrReadBack

/-! ## System instructions -/

/-- Fences, waits and counters of the front end: `fence` and `ifence` (R126, R256, R352, R375), `psync` (R374), `nmfen` (R367), `cyc`
and the CSR `cyc`, which runs on by a free amount (R14), and `wfe`, which takes the latch or looks again (R127). -/
def Sys2Proof.Claims.FencesAndWaits : Prop :=
  ∀ (s : State) (d : Reg) (scope : BitVec 5) (mask : BitVec 16) (f : Op64), Idle s →
    let x := s.cur
    let k := coreOf x
    let sc := if 4 ≤ scope.toNat then 4 else scope.toNat
    let now := (s.core k).cyc + Config.freeWord s.fresh
    let ticked : State := { s with fresh := s.fresh + 1 }.modCore k fun e => { e with cyc := now }
    ((mask ≠ 0 → Acked s scope.toNat) → exec (.fence scope mask) s =
      .next (goOn s (let t := s.fence x scope.toNat mask.toNat false; if scope = 6 then t.fencePersist x mask.toNat else t) id)) ∧
    exec (.ifence scope) s = .next (goOn s ((s.writeBacks x (if sc < 3 then 3 else sc)).dropCode (scopeCores sc x) (scopeDies sc x)) id) ∧
    exec .psync s = .next ((s.persistWait x).modCtx x fun c => { c with pc := (here s).pc + 8 }) ∧
    (Acked s f.fn3.toNat → exec (.nmfen f) s = .next ((s.settle fun p => p.x == x && scopeCovers f.fn3.toNat p.scope).modCtx x fun c =>
      { c with pc := (here s).pc + (if f.pfx.isSome then 12 else 8) })) ∧
    exec (.cyc d) s = .next (goOn s ticked fun c => c.wg d now) ∧
    exec (.csrr d 0x020) s = .next (goOn s ticked fun c => c.wg d now) ∧
    exec .wfe s = .next (if (here s).latch then goOn s s fun c => { c with latch := false, wfeLooks := 0 }
      else s.modCtx x fun c => { c with wfeLooks := c.wfeLooks + 1 })

/-- A fence of a class waits for the context's posted operations of that class and of class 15, at a covering scope (R256); with
a mask of 0 it orders nothing. A persist wait, of a `psync` and of a `fence.dur`, leaves no write on its way to a durable line, no durable operation of the context,
and no dirty durable byte in its core and its quad (R374). -/
def Sys2Proof.Claims.FenceEffects : Prop :=
  ∀ (s : State) (x : CtxNo) (sc mask : Nat), sc ≤ 5 →
    s.fence x sc 0 false = s ∧
    (mask ≠ 0 → (∀ p ∈ (s.fence x sc mask false).posted, p ∈ s.posted ∧
      (p.x = x → mask.testBit p.cls = true ∨ p.cls = 15 → scopeCovers sc p.scope = false))) ∧
    (s.persistWait x).hub.waiting = [] ∧
    (∀ p ∈ (s.persistWait x).posted, p.x = x → p.scope ≠ 7 → ∀ a ∈ p.atoms, a.home ≠ .durable) ∧
    (∀ ln l, isDurable (64 * ln) = true → Tab.find ((s.persistWait x).core (coreOf x)).l1 ln = some l → l.dirty = 0) ∧
    (∀ ln l, isDurable (64 * ln) = true → Tab.find ((s.persistWait x).quad (quadOf x)).cache ln = some l → l.dirty = 0) ∧
    let d := s.fencePersist x mask
    d.hub.waiting = [] ∧ (∀ p ∈ d.posted, p.x = x → p.scope ≠ 7 → ∀ a ∈ p.atoms, a.home ≠ .durable) ∧
    (∀ ln l, isDurable (64 * ln) = true → Tab.find (d.core (coreOf x)).l1 ln = some l → l.dirty = 0) ∧
    (∀ ln l, isDurable (64 * ln) = true → Tab.find (d.quad (quadOf x)).cache ln = some l → l.dirty = 0)

/-- `snap` is the common trigger at level S: each trigger takes the next sequence number, armed registers latch it with every
context's pc, level and cause, and a trigger that finds them latched is counted, to 255 (R299). -/
def Sys2Proof.Claims.SnapshotTrigger : Prop :=
  ∀ s : State, (here s).level = .s → ∃ t, exec .snap s = .next t ∧ t.hub.snap.seqNo = s.hub.snap.seqNo + 1 ∧
    t.ctxs = (s.setCtx s.cur { here s with pc := (here s).pc + 4 }).ctxs ∧ t.mem = s.mem ∧
    (s.hub.snap.armed = true → t.hub.snap.armed = false ∧ t.hub.snap.latchedSeq = some (s.hub.snap.seqNo + 1) ∧
      t.hub.snap.missed = s.hub.snap.missed ∧ ∀ n c, Tab.find s.ctxs n = some c →
        ∃ e, Tab.find t.hub.snap.ctxs n = some e ∧ e.pc = c.pc ∧ e.level = c.level ∧ e.cause = c.trap.tcause) ∧
    (s.hub.snap.armed = false → t.hub.snap.latchedSeq = s.hub.snap.latchedSeq ∧ t.hub.snap.ctxs = s.hub.snap.ctxs ∧
      t.hub.snap.missed = Nat.min (s.hub.snap.missed + 1) 255)

/-- Fences, waits, counters and the snapshot trigger, and what a fence leaves (R14, R126, R127, R256, R299, R352, R367, R374, R375). -/
def Obligations.FencesAndSnapshots : Prop :=
  Sys2Proof.Claims.FencesAndWaits ∧ Sys2Proof.Claims.FenceEffects ∧ Sys2Proof.Claims.SnapshotTrigger

/-- The instructions that need a level above U, and the CSR accesses, raise PRIV below it (R65, R129). -/
def Obligations.Privilege : Prop :=
  ∀ (s : State) (d a : Reg) (f : Op64) (n : BitVec 12), Idle s →
    let priv (i : Instr) : Prop := Traps i s s { cause := 0x04, addr := (here s).pc }
    ((here s).level = .u → priv .tret ∧ priv .snap ∧ priv .vqdrain ∧ priv (.ctxsv f) ∧ priv (.ctxrs f) ∧ priv (.tlbinv f) ∧
      (0x100 ≤ n.toNat ∧ n.toNat ≤ 0x106 ∨ 0x110 ≤ n.toNat ∧ n.toNat ≤ 0x112 →
        priv (.csrr d n) ∧ priv (.csrw d a n) ∧ priv (.csrs d a n) ∧ priv (.csrc d a n))) ∧
    ((here s).level = .s → 0x110 ≤ n.toNat ∧ n.toNat ≤ 0x112 →
      priv (.csrw d a n) ∧ (a ≠ 0 → priv (.csrs d a n) ∧ priv (.csrc d a n)))

/-! ## Refused encodings (R27, R30, R34-R37, R66-R69) -/

/-- The 64-bit majors that the tables of R58 to R64 list. -/
def Sys2Proof.Claims.listed8 (m : Nat) : Prop :=
  m ≤ 0x05 ∨ 0x08 ≤ m ∧ m ≤ 0x2B ∨ 0x30 ≤ m ∧ m ≤ 0x40 ∨ 0x50 ≤ m ∧ m ≤ 0x54 ∨ 0x58 ≤ m ∧ m ≤ 0x65 ∨ 0x70 ≤ m ∧ m ≤ 0x7B ∨
    0x80 ≤ m ∧ m ≤ 0x8A ∨ 0x90 ≤ m ∧ m ≤ 0x98 ∨ 0xA0 ≤ m ∧ m ≤ 0xAA ∨ 0xB0 ≤ m ∧ m ≤ 0xB9 ∨ 0xC0 ≤ m ∧ m ≤ 0xC5 ∨ 0xC8 ≤ m ∧ m ≤ 0xCA
/-- The binary integer majors of R58 with the forms VV, VX and VI and fn4 = 0. -/
def Sys2Proof.Claims.plainBinary (m : Nat) : Prop := 0x08 ≤ m ∧ m ≤ 0x1D ∨ 0x1F ≤ m ∧ m ≤ 0x22 ∨ m = 0x29
/-- A source modifier keeps the field rules of R37. -/
def Sys2Proof.Claims.goodModifier (m : BitVec 12) : Prop :=
  m = 0 ∨ m.extractLsb' 10 2 ≠ 0 ∧ (m.extractLsb' 7 3).toNat ≤ 4 ∧ (m.extractLsb' 2 5).toNat < 2 ^ ((m.extractLsb' 7 3).toNat + 1) ∧
    m.extractLsb' 0 2 = 0

/-- Check 2 of R68, with the reason and the fields of R69: the zero word, reserved majors, prefix pairings, and the fields of the binary
integer rows, of the acquire loads, the release stores and the fences. -/
def Sys2Proof.Claims.StaticRefusals : Prop :=
  ∀ (w0 w1 w2 : BitVec 32),
    let short (r : Nat) : Prop := decodeWords w0 w1 w2 = .error ⟨r, false, false, (w0.extractLsb' 1 5).toNat⟩
    let major := (w0.extractLsb' 2 8).toNat
    let long (r : Nat) : Prop := decodeWords w0 w1 w2 = .error ⟨r, false, true, major⟩
    let next := (w1.extractLsb' 2 8).toNat
    let paired (r : Nat) : Prop := decodeWords w0 w1 w2 = .error ⟨r, true, true, next⟩
    (w0 = 0 → decodeWords w0 w1 w2 = .error ⟨8, false, false, 0⟩) ∧
    (w0 ≠ 0 → w0.getLsbD 0 = false → let m := (w0.extractLsb' 1 5).toNat
      (0x1B ≤ m → short 1) ∧
      (m = 0x11 ∨ m = 0x12 → (w0.extractLsb' 22 3 = 7 → short 2) ∧ (w0.extractLsb' 22 3 ≠ 7 → w0.extractLsb' 25 7 ≠ 0 → short 3)) ∧
      (m = 0x17 → (7 ≤ (w0.extractLsb' 6 5).toNat → short 2) ∧
        ((w0.extractLsb' 6 5).toNat < 7 → w0.extractLsb' 11 5 ≠ 0 → short 3))) ∧
    (w0.extractLsb' 0 2 = 1 →
      (¬ listed8 major → long 1) ∧
      (plainBinary major → let fn3 := (w1.extractLsb' 29 3).toNat
        let unlisted := 3 ≤ fn3 ∨ w1.extractLsb' 27 2 = 3 ∨ w1.extractLsb' 25 2 = 3 ∨ w1.extractLsb' 21 4 = 15
        let nonzero := w1.extractLsb' 17 4 ≠ 0 ∨ fn3 = 1 ∧ w0.extractLsb' 23 3 ≠ 0 ∨ fn3 ≠ 0 ∧ w1.getLsbD 2 = true
        let modifier := goodModifier (w1.extractLsb' 5 12)
        (unlisted → long 2) ∧ (¬ unlisted → nonzero → long 3) ∧ (¬ unlisted → ¬ nonzero → ¬ modifier → long 7) ∧
        (¬ unlisted → ¬ nonzero → modifier → ∃ i, decodeWords w0 w1 w2 = .ok ⟨i, 8⟩))) ∧
    (w0.extractLsb' 0 2 = 3 →
      (w1.extractLsb' 0 2 = 3 → decodeWords w0 w1 w2 = .error ⟨4, true, false, 0⟩) ∧
      (w1.getLsbD 0 = false → decodeWords w0 w1 w2 = .error ⟨4, true, false, (w1.extractLsb' 1 5).toNat⟩) ∧
      (w1.extractLsb' 0 2 = 1 →
        (w0.extractLsb' 30 2 ≠ 0 ∨ 0x90 ≤ next → paired 4) ∧
        (w0.extractLsb' 30 2 = 0 → next < 0x90 →
          (¬ listed8 next → paired 1) ∧
          (listed8 next → w0.getLsbD 5 = false ∧ w0.extractLsb' 2 3 ≠ 0 ∨ w0.extractLsb' 9 8 ≠ 0 → paired 4)))) ∧
    decodeWords 0x40200CA1 0x0018000C 0 = .error ⟨2, false, true, 0x28⟩ ∧ decodeWords 0x1A0B5266 0 0 = .error ⟨2, false, false, 0x13⟩

/-- A unit that does not decode raises ILLEGAL before any effect but the fetch's, and one whose encoding the fount table marks absent
raises UNIMPL; `taddr` and `tepc` hold its address, or its prefix's, and `tinfo` the fields of R69 (R66, R67). -/
def Sys2Proof.Claims.RefusedUnits : Prop :=
  ∀ (s s1 : State) (w0 w1 w2 : BitVec 32), let pc := (here s).pc
    let traps (cause info : Nat) : Prop := let t := s1.enterTrap s.cur { cause := cause, addr := pc, info := BitVec.ofNat 64 info } false false pc
      step s = .next { t with cur := s.cur + 1, yours := false }
    Turns s → Idle s → pc.toNat % 4 = 0 → Fetches (agentOf s.cur (here s)) pc s w0 w1 w2 s1 →
    (∀ e, decodeWords w0 w1 w2 = .error e →
      traps 0x01 (e.major + (if e.len then 2 ^ 8 else 0) + (if e.pfx then 2 ^ 9 else 0) + e.reason * 2 ^ 12)) ∧
    (∀ d e, decodeWords w0 w1 w2 = .ok d → encodingOf d.instr = some e → s1.hub.absent.contains e = true →
      traps 0x02 (e.major + (if e.long then 2 ^ 8 else 0) +
        (if (match parts64 d.instr with | some (_, f) => f.pfx.isSome | none => false) then 2 ^ 9 else 0)))

/-- The types that the integer and float rows of R58 and R59 take (R141, R144-R151, R153). -/
def Sys2Proof.Claims.admits (major : Nat) (ty : Ty) : Prop :=
  if 0x30 ≤ major then ty = .flt .fp32 ∨ ty = .flt .fp16 ∨ ty = .flt .bf16
  else if major = 0x23 then ∃ sg, ty = .int sg 32
  else if 0x17 ≤ major ∧ major ≤ 0x1A ∨ 0x24 ≤ major ∧ major ≤ 0x26 ∨ major = 0x29 ∨ major = 0x2A then True
  else ∃ sg w, ty = .int sg w

/-- Check 5 of R68 for the rows of R58 and R59 that compute element by element: the alignment of their groups (reason 5), then the
element type, the `vl` that it holds and the scale register of q4 (6), then a modified source that shares a row with the destination (7);
each whatever the mask (R31, R34, R37, R68). -/
def Sys2Proof.Claims.DynamicRefusals : Prop :=
  ∀ (s : State) (i : Instr) (major : Nat) (f : Op64), let c := here s; let g := c.vt.size
    let vdGroup := major ≠ 0x28 ∧ major ≠ 0x3E
    let unary := 0x24 ≤ major ∧ major ≤ 0x26 ∨ major = 0x2B ∨ 0x36 ≤ major ∧ major ≤ 0x3B ∨ major = 0x3F
    let vs1Group := f.fn3 = 0 ∧ ¬ unary
    let vs2Group := major ≠ 0x2A ∧ major ≠ 0x2B
    let meets (v : BitVec 8) : Prop := v.toNat < f.vd.toNat + g ∧ f.vd.toNat < v.toNat + g
    let mod1 : BitVec 12 := match f.pfx with | some p => p.mod1 | none => 0
    let off := vdGroup ∧ f.vd.toNat % g ≠ 0 ∨ vs1Group ∧ f.vs1.toNat % g ≠ 0 ∨ vs2Group ∧ f.vs2.toNat % g ≠ 0
    let type := ¬ admits major (opTy c.vt f) ∨ 8192 / (opTy c.vt f).width < c.vl ∨ opTy c.vt f = .q4 ∧ c.vt.ks = false
    let mixed := vdGroup ∧ (vs2Group ∧ f.mod12 ≠ 0 ∧ meets f.vs2 ∨ vs1Group ∧ mod1 ≠ 0 ∧ meets f.vs1)
    parts64 i = some (major, f) → 0x08 ≤ major ∧ major ≤ 0x2B ∨ 0x30 ≤ major ∧ major ≤ 0x40 → Idle s →
    (off → Traps i s s (illegal64 c major f 5)) ∧ (¬ off → type → Traps i s s (illegal64 c major f 6)) ∧
    (¬ off → ¬ type → mixed → Traps i s s (illegal64 c major f 7))

/-- Reserved encodings, breached fields, absent encodings, and operands that the dynamic checks refuse, each with its cause and reason
(R27, R31, R34-R37, R66-R69). -/
def Obligations.DispatchChecks : Prop :=
  Sys2Proof.Claims.StaticRefusals ∧ Sys2Proof.Claims.RefusedUnits ∧ Sys2Proof.Claims.DynamicRefusals

/-- Taking a trap: with `tvec` = 0 the record is killed. Otherwise every entry that has not completed is parked, the trap registers
hold the cause with `as`, `q` and the level, the resume point, element, row, address and information; the links of the context
break, its latch is set, and it goes on at `tvec` at level S; a trap that an instruction raises at U in a split loop writes `nd`, which in FWD and
REV is 0 (R85, R270). Everything else of it, and every other context, is as it was; a trap at S discards the trapping entry, of the number
`from_`, and the younger entries of level S (R283, R285). `trap` and `brk`
take theirs with causes 0x12 and 0x13 and their own address (R286). -/
def Obligations.TrapEntry : Prop :=
  (∀ (s : State) (x y : CtxNo) (t : TrapInfo) (as q : Bool) (epc : Word) (strip : Option (Nat × Nat)) (from_ : Nat), t.cause < 256 →
      (s.ctx x).level ≠ .f →
    let c := s.ctx x
    let s' := s.enterTrap x t as q epc strip from_
    let c' := s'.ctx x
    (c.trap.tvec = 0 → c.status = .running → c'.status ≠ .running) ∧
    (c.trap.tvec ≠ 0 →
      c'.pc = c.trap.tvec ∧ c'.level = .s ∧ c'.latch = true ∧ c'.trap.tvec = c.trap.tvec ∧
      c'.trap.tcause.toNat = t.cause + (if c.level = .u then 0 else 4096) + (if as then 16384 else 0) + (if q then 32768 else 0) ∧
      c'.trap.tepc = epc ∧ c'.trap.telem = BitVec.ofNat 64 t.elem ∧ c'.trap.trow = BitVec.ofNat 64 t.row ∧
      c'.trap.taddr = t.addr ∧ c'.trap.tinfo = t.info ∧
      (∀ e ∈ c'.queue, e.parked = true ∧ (c.level = .s → e.level = .s → e.seq < from_)) ∧
      (∀ e ∈ c.queue, c.level = .u ∨ e.level ≠ .s ∨ e.seq < from_ → { e with parked := true } ∈ c'.queue) ∧
      (c.level = .u → c'.queue.map (fun e => e.seq) = c.queue.map fun e => e.seq) ∧
      (∀ d ∈ s'.dies, ∀ l ∈ d.2.links, l.2 ≠ x) ∧
      c'.g = c.g ∧ c'.v = c.v ∧ c'.m = c.m ∧ c'.k = c.k ∧ c'.stack = c.stack ∧ c'.vl = c.vl ∧ c'.vt = c.vt ∧ c'.vstart = c.vstart ∧
      c'.vrem = c.vrem ∧ c'.vcsr = c.vcsr ∧
      c'.vsc = { c.vsc with nd := if c.level = .u ∧ as = false ∧ c.vsc.sp = true then decide (c.mode = .off) && c.nextStripDone strip else c.vsc.nd } ∧
      c'.pm = c.pm ∧ c'.prows = c.prows ∧ c'.mode = c.mode ∧
      s'.mem = s.mem ∧ (y ≠ x → s'.ctx y = s.ctx y))) ∧
  ∀ s : State, Idle s → Traps .sysTrap s s { cause := 0x12 } ∧ Traps .brk s s { cause := 0x13 }

/-- `tret` at level S goes back to the level of `plev`, U when no trap is held (`noTrap`: the record began at S, no `ctxrs` ran, and every
trap has returned); at U it resumes the front end at the saved point of a
trap with q = 1 and at `tepc` otherwise, and releases the parked entries, of which the one that trapped restarts at `vstart`, or as a
whole, and `vstart` is then 0; at S the entries of U stay parked. The wait of an interrupted `bar` goes on only where U resumes at it
(R261). A resume address that is not a multiple of 4 raises MISALIGN (R26, R80, R81, R284, R285, R288). -/
def Obligations.TrapReturn : Prop :=
  ∀ s : State, (here s).level ≠ .u → Idle s →
    let c := here s
    let toU : Bool := c.noTrap || !(c.trap.tcause.getLsbD 12)
    let t := if toU = true ∧ c.trap.tcause.getLsbD 15 = true ∧ c.noTrap = false then c.resume.getD c.trap.tepc else c.trap.tepc
    (t.toNat % 4 = 0 → ∃ s', exec .tret s = .next s' ∧ let c' := s'.ctx s.cur
      c'.pc = t ∧ c'.level = (if toU then .u else .s) ∧ c'.queue.map (fun e => e.seq) = c.queue.map (fun e => e.seq) ∧
      (∀ e ∈ c'.queue, e.parked = (!toU && decide (e.level = .u))) ∧
      (∀ e rest, toU = true → c.trappedEntry = some e → c.queue = e :: rest → c'.vstart = 0 ∧ ∃ rest', c'.queue =
        { e with vstart := if wholeRestart e.instr then 0 else c.vstart.toNat, parked := false } :: rest') ∧
      (toU = false ∨ c.trappedEntry = none → c'.vstart = c.vstart) ∧
      c'.barWaits = (if toU then c.barWaits.filter fun w => decide (w.1 = t.toNat * 4) else c.barWaits) ∧ c'.g = c.g ∧ c'.v = c.v ∧ c'.m = c.m ∧ c'.k = c.k ∧ c'.stack = c.stack ∧ c'.vl = c.vl ∧
      c'.vt = c.vt ∧ c'.vrem = c.vrem ∧ c'.vsc = c.vsc ∧ c'.vcsr = c.vcsr ∧ c'.trap = c.trap ∧ s'.mem = s.mem ∧
      ∀ y, y ≠ s.cur → s'.ctx y = s.ctx y) ∧
    (t.toNat % 4 ≠ 0 → Traps .tret s s { cause := 0x05, addr := t })

/-! ## Tasks and barriers -/

/-- `spawn`: a record that its rule lets pass is queued behind a release and behind those of the join reserve, with the asid of its
launch, and gd is 0, and a full queue gives 1 and queues nothing; otherwise PRIV, or BADHANDLE with code 3; a record that is not
aligned raises MISALIGN (R130, R324, R327, R349). -/
def Sys2Proof.Claims.SpawnResults : Prop :=
  ∀ (s s1 : State) (d a : Reg) (w0 w1 w2 w3 : Word), let x := s.cur; let va := (here s).rg a; let own := dieOf x
    let prio := bitsOf 59 56 w0.toNat
    let die := if w0.getLsbD 63 then bitsOf 62 61 w0.toNat else own
    let sc := if die = own then 3 else 4
    let bad : Bool := decide (12 ≤ prio ∨ (w0.getLsbD 63 = false ∧ bitsOf 62 61 w0.toNat ≠ 0))
    let priv : Bool := decide ((here s).level ≠ .f ∧ prio < 2 ∨ w0.getLsbD 60 = true ∧ (here s).level = .u)
    (va.toNat % 8 ≠ 0 → Idle s → Traps (.spawn d a) s s { cause := 0x05, addr := va }) ∧
    (va.toNat % 8 = 0 → NoAccess s → loadWords (self s) va 4 s = .ok [w0, w1, w2, w3] s1 →
    (priv = true → Idle s → Traps (.spawn d a) s s1 { cause := 0x04, addr := (here s).pc }) ∧
    (priv = false → bad = true → Idle s → Traps (.spawn d a) s s1 { cause := 0x03, info := 3 }) ∧
    (priv = false → bad = false → Acked s sc → let t := (s1.release x sc).drainReserve die prio
      ((t.queueFull die prio) = true → exec (.spawn d a) s = .next (goOn s t fun c => c.wg d 1)) ∧
      ((t.queueFull die prio) = false → exec (.spawn d a) s = .next (goOn s
        ((t.send own { w0 := w0, w1 := w1, w2 := w2, w3 := w3, tag := (here s).tag, asid := t.launchAsid (here s).tag (here s).asid
                       cr := va, scope := sc, waited := 0, pops := 0, hb := t.releaseClock (t.base x) sc }).quadCount (quadOf x)
          (here s).tag 1) fun c => c.wg d 0))))

/-- `joindec`: a count above 1 falls by 1 at home, behind a release; a count of 1 falls to 0, and behind an acquire the embedded record is
queued, with a release at package scope first when it goes to another die; 0 raises BADHANDLE with code 2 at the block, a poisoned
count POISON, and a misaligned block MISALIGN (R131, R295, R326, R327, R328). -/
def Sys2Proof.Claims.JoinDecrement : Prop :=
  ∀ (s s1 : State) (a : Reg) (p : Place), let x := s.cur; let va := (here s).rg a; let own := dieOf x
    let sc := joinScope own p
    let s2 := (s1.release x sc).purgePlace x p
    let old := s2.atomRead p.home.1 p.home.2 8
    let base := s1.base x
    let dec := (s2.atomDo x ⟨p.home.1, p.home.2, 8, .add, 2 ^ 64 - 1, false⟩ (base + 15)).1.wakePlace x p
    let less := dec.publish x sc p.word (dec.releaseClock base sc)
    let got := (less.acquire x sc).modBefore fun b => b.acquires base {} (metClock (Tab.look [] b.words p.word) x sc)
    (va.toNat % 64 ≠ 0 → Idle s → Traps (.joindec a) s s { cause := 0x05, addr := va }) ∧
    (va.toNat % 64 = 0 → NoAccess s → Acked s sc → place (self s) (.core (coreOf s.cur)) .atomic false va s = .ok p s1 →
    (old.2 = false → 1 < old.1 → exec (.joindec a) s = .next (goOn s less id)) ∧
    (old.2 = false → old.1 = 1 → ∀ w0 w1 w2 w3 s4 s5, loadWords (self s) (va + 8) 4 got = .ok [w0, w1, w2, w3] s4 →
      recCheck (here s).level w0 = none → (sc < recScope own w0 → Acked s 4) →
      let t := if sc < recScope own w0 then s4.release x 4 else s4
      t.sendJoin own { w0 := w0, w1 := w1, w2 := w2, w3 := w3, tag := (here s).tag, asid := t.launchAsid (here s).tag (here s).asid
                       cr := va + 8, scope := recScope own w0, waited := 0, pops := 0, hb := t.releaseClock base 4 } = some s5 →
      exec (.joindec a) s = .next (goOn s (s5.quadCount (quadOf x) (here s).tag 1) id)) ∧
    (old.2 = false → old.1 = 0 → Idle s → Traps (.joindec a) s s2 { cause := 0x03, addr := va, info := 2 }) ∧
    (old.2 = true → Idle s → Traps (.joindec a) s s2 { cause := 0x0F, addr := va }))

/-- Spawning a record and counting down a join block (R130, R131, R295, R324, R328). -/
def Obligations.Tasks : Prop :=
  Sys2Proof.Claims.SpawnResults ∧ Sys2Proof.Claims.JoinDecrement

/-- The barrier that a `bar` of a context names by its word, with the owner that it must have (R22, R260). -/
def Sys2Proof.Claims.barHere (s : State) (b : Reg) (scope : BitVec 3) : Nat × Nat × Nat :=
  let unit := match scope.toNat with | 1 => coreOf s.cur | 2 => quadOf s.cur | 3 => dieOf s.cur | _ => 0
  ((scope.toNat * 1024 + unit) * 64 + bitsOf 5 0 ((here s).rg b).toNat, bitsOf 63 32 ((here s).rg b).toNat,
   if scope = 5 then (here s).asid.toNat else (here s).tag.toNat)

/-- The word of a `bar` passes the checks of R260: its id and count are in range, its reserved bits are 0, and an open or broken
barrier belongs to the launch, at pod scope to the asid. -/
def Sys2Proof.Claims.barGood (s : State) (b : Reg) (scope : BitVec 3) : Prop :=
  let w := ((here s).rg b).toNat
  let k := barHere s b scope
  1 ≤ scope.toNat ∧ scope.toNat ≤ 5 ∧ w % 2 ^ 32 < (match scope.toNat with | 1 => 8 | 2 => 16 | 5 => 16 | _ => 32) ∧
  1 ≤ k.2.1 ∧ k.2.1 ≤ (match scope.toNat with | 1 => 4 | 2 => 16 | 3 => 256 | 4 => 1024 | _ => 2 ^ 28) ∧
  ((s.bar k.1).state = .idle ∨ (s.bar k.1).owner = k.2.2)

/-- `bar.arrive` and `bar.arrwait`: an arrival opens an idle barrier with the word's count, counts up to the last participant, which
completes the phase; gd is 0, and 0x14 at a broken barrier. `bar.arrwait` then waits, the last arrival not at all (R260, R261). -/
def Sys2Proof.Claims.BarrierArrivals : Prop :=
  ∀ (s : State) (d b : Reg) (scope : BitVec 3), let x := s.cur; let k := barHere s b scope; let o := s.bar k.1
    Idle s → Acked s scope.toNat → barGood s b scope → Tab.find (here s).barWaits (here s).barAt = none →
    (o.state = .broken → ∃ t, exec (.barArrive d b scope) s = .next t ∧ exec (.barArrwait d b scope) s = .next t ∧
      t.bar k.1 = o ∧ (t.ctx x).rg d = (if d = 0 then 0 else 0x14) ∧ (t.ctx x).pc = (here s).pc + 4) ∧
    (o.state ≠ .broken → let n := if o.state = .idle then k.2.1 else o.n; let a := if o.state = .idle then 0 else o.a
      let drops := if o.state = .idle then 0 else o.drops; let devs := if o.state = .idle then [] else o.devs
      ∃ t u, exec (.barArrive d b scope) s = .next t ∧ exec (.barArrwait d b scope) s = .next u ∧ t.bar k.1 = u.bar k.1 ∧
      (t.ctx x).rg d = 0 ∧ (t.ctx x).pc = (here s).pc + 4 ∧
      (a + 1 < n → t.bar k.1 = { o with state := .open_, n := n, a := a + 1, drops := drops, owner := k.2.2, devs := devs } ∧
        Tab.find (t.ctx x).parts k.1 = some (.phase o.phase) ∧ (u.ctx x).pc = (here s).pc) ∧
      (n ≤ a + 1 → t.bar k.1 = { o with
          state := if n - drops = 0 then .idle else .open_, n := n - drops, a := 0, drops := 0, phase := o.phase + 1, owner := k.2.2
          idleAt := if n - drops = 0 then o.phase + 1 else o.idleAt
          devs := devs.map fun d => { d with now := 0 } } ∧
        (t.ctx x).latch = true ∧ (u.ctx x).rg d = (if d = 0 then 0 else if o.brks.contains o.phase then 0x14 else 0) ∧
        (u.ctx x).pc = (here s).pc + 4))

/-- `bar.wait` on an idle barrier completes at once with 0, on an open one waits, and on a broken one gives 0x14; `bar.drop` of a
context that has arrived in the open phase leaves the next one, one that has not also counts as an arrival (R261). -/
def Sys2Proof.Claims.BarrierWaitsAndDrops : Prop :=
  ∀ (s : State) (d b : Reg) (scope : BitVec 3), let x := s.cur; let k := barHere s b scope; let o := s.bar k.1
    Idle s → Acked s scope.toNat → barGood s b scope → Tab.find (here s).barWaits (here s).barAt = none →
    (o.state = .idle → o.brks.contains o.phase = false → ∃ t, exec (.barWait d b scope) s = .next t ∧ (t.ctx x).rg d = 0 ∧
      (t.ctx x).pc = (here s).pc + 4 ∧ t.bar k.1 = o) ∧
    (o.state = .open_ → ∃ t, exec (.barWait d b scope) s = .next t ∧ (t.ctx x).pc = (here s).pc ∧
      Tab.find (t.ctx x).barWaits (here s).barAt = some ⟨k.1, o.phase⟩ ∧ t.bar k.1 = o) ∧
    (o.state = .broken → ∃ t, exec (.barWait d b scope) s = .next t ∧ (t.ctx x).rg d = (if d = 0 then 0 else 0x14) ∧
      (t.ctx x).pc = (here s).pc + 4 ∧ t.bar k.1 = o) ∧
    (o.state = .open_ → ∃ t, exec (.barDrop d b scope) s = .next t ∧ (t.ctx x).rg d = 0 ∧ (t.ctx x).pc = (here s).pc + 4 ∧
      (Tab.find (here s).parts k.1 = some (.phase o.phase) → t.bar k.1 = { o with drops := o.drops + 1 } ∧
        Tab.find (t.ctx x).parts k.1 = none) ∧
      (Tab.find (here s).parts k.1 ≠ some (.phase o.phase) → o.a + 1 < o.n →
        t.bar k.1 = { o with drops := o.drops + 1, a := o.a + 1 }))

/-- Arrivals, waits and drops at barriers (R22, R260, R261). -/
def Obligations.Barriers : Prop :=
  Sys2Proof.Claims.BarrierArrivals ∧ Sys2Proof.Claims.BarrierWaitsAndDrops

/-- `exit` of a record that holds no barrier, has nothing on its way and joins nothing frees its context at once: only `tvec` stays, and the
launch's count in its quad falls by 1. `yield` queues the continuation, with its code pointer behind the instruction, and frees the
context; with its queue full it only goes on (R132, R133, R227, R327, R349). -/
def Obligations.RecordEnds : Prop :=
  ∀ (s : State) (r : Running), let x := s.cur; let c := here s
    let w0 : Word := BitVec.ofNat 64 ((if c.level = .s then 2 ^ 60 else 0) + bitsOf 59 56 r.w0.toNat * 2 ^ 56 +
      bitsOf 63 61 r.w0.toNat * 2 ^ 61 + (c.pc + 4).toNat % 2 ^ 56)
    Idle s → c.rec_ = some r → c.parts = [] → c.galBuf = [] → s.outstanding x = false → s.ordinary x = [] → c.chained = false → c.tag ≠ 0 →
    (r.w2 = 0 → ∃ t, exec .exitRecord s = .next t ∧ (t.ctx x).status = .idle ∧ (t.ctx x).rec_ = none ∧ (t.ctx x).queue = [] ∧
      (t.ctx x).trap.tvec = c.trap.tvec ∧ t.mem = s.mem ∧
      Tab.look 0 (t.quad (quadOf x)).counts c.tag.toNat = Tab.look 0 (s.quad (quadOf x)).counts c.tag.toNat - 1 ∧
      ∀ y, y ≠ x → t.ctx y = s.ctx y) ∧
    (let own := dieOf x; let die := recDie own w0; let sc := if die = own then 3 else 4
     let prio := bitsOf 59 56 r.w0.toNat; let t0 := s.drainReserve die prio; let t := t0.release x sc
      (t0.queueFull die prio = true → exec .yieldRecord s = .next (goOn s t0 id)) ∧
      (t0.queueFull die prio = false → Acked s sc → die = own → t.outstanding x = false → ∃ u, exec .yieldRecord s = .next u ∧
        (u.ctx x).status = .idle ∧ (u.die own).level prio = (t0.die own).level prio ++
          [{ w0 := w0, w1 := c.rg 3, w2 := r.w2, w3 := c.rg 8, tag := c.tag, asid := t.launchAsid c.tag c.asid, cr := c.rg 5
             scope := sc, waited := 0, pops := 0, hb := t.releaseClock (t.base x) sc }] ∧
        Tab.look 0 (u.quad (quadOf x)).counts c.tag.toNat = Tab.look 0 (s.quad (quadOf x)).counts c.tag.toNat))

/-! ## Configuration and loops -/

/-- The bytes of a 64-bit instruction with its prefix. -/
def Sys2Proof.Claims.len (f : Op64) : Word := if f.pfx.isSome then 12 else 8

/-- Configuration and hardware loops (R77-R83, R136-R140): `vsetvl`, `vsettype`, `vloop`, `vstrip`, `vnext` and `vget`, with their
whole effect; an invalid type image is ILLEGAL with reason 6. -/
def Sys2Proof.Claims.VectorConfiguration : Prop :=
  ∀ (s : State) (f : Op64), let c := here s; let d := gpr f.vd; let a := c.rg (gpr f.vs1)
    let next (i : Instr) (g : Ctx → Ctx) : Prop := exec i s = .next (s.modCtx s.cur fun k => { g k with pc := c.pc + len f })
    let vlmax := 8192 / c.vt.bitsW
    let image := if f.fn3 = 0 then a.toNat else f.vs1.toNat + 256 * f.vs2.toNat
    let rem := c.vrem.toNat - Nat.min c.vl c.vrem.toNat
    next (.vsetvl f) (fun k => { k.wg d (BitVec.ofNat 64 (Nat.min a.toNat vlmax)) with vl := Nat.min a.toNat vlmax }) ∧
    (∀ t, vtypeOf image = some t → next (.vsettype f) fun k => { k with vt := t, vl := Nat.min c.vl (8192 / t.bitsW) }) ∧
    (vtypeOf image = none → Idle s → Traps (.vsettype f) s s
      { cause := 0x01, addr := c.pc, info := BitVec.ofNat 64 (6 * 4096 + (if f.pfx.isSome then 512 else 0) + 256 + 1) }) ∧
    next (.vloop f) (fun k => { k with vrem := a, vsc := ⟨f.fn4 == 1, false, 0⟩, loopNo := k.loopNo + 1, inStrip := false }) ∧
    next (.vstrip f) (fun k => { k.wg d (BitVec.ofNat 64 (Nat.min c.vrem.toNat vlmax)) with vl := Nat.min c.vrem.toNat vlmax, inStrip := k.vsc.sp }) ∧
    exec (.vnext f) s = .next (s.modCtx s.cur fun k => { k with
      vrem := BitVec.ofNat 64 rem, vsc := { k.vsc with n := k.vsc.n + 1, nd := false }, inStrip := false
      pc := if rem = 0 then c.pc + len f
        else BitVec.ofInt 64 (c.pc.toNat + (BitVec.ofNat 13 (f.vs1.toNat + f.vs2.toNat % 32 * 256)).toInt * 4) }) ∧
    (f.fn4 = 0 → next (.vget f) fun k => k.wg d (BitVec.ofNat 64 c.vl)) ∧ (f.fn4 = 1 → next (.vget f) fun k => k.wg d c.vrem) ∧
    (f.fn4 = 2 → next (.vget f) fun k => k.wg d (csrValue s s.cur 0x005)) ∧
    (f.fn4 = 3 → next (.vget f) fun k => k.wg d (BitVec.ofNat 64 vlmax))

/-- The type images that are valid (R75, R76): reserved bits 0, a group of at most 32 rows, and the widths and scale registers that
the kind allows; `vtype` then reads as the image. -/
def Sys2Proof.Claims.TypeImages : Prop :=
  ∀ n : Nat, let ew := n % 8; let kind := n / 8 % 16; let g := n / 128 % 8; let k := n / 1024 % 16; let ks := n / 16384 % 2
    let ok : Bool := decide (n < 32768 ∧ g ≤ 5 ∧ (ks = 1 ∨ k = 0)) && match kind with
      | 0 | 1 => decide (1 ≤ ew ∧ ew ≤ 4 ∧ ks = 0)
      | 2 => decide ((ew = 2 ∨ ew = 3) ∧ ks = 0)
      | 3 => decide (ew = 2 ∧ ks = 0)
      | 4 | 5 => decide (ew = 1)
      | 6 => decide (ew = 0 ∧ ks = 1)
      | _ => false
    (vtypeOf n).isSome = ok ∧ ∀ t, vtypeOf n = some t → t.word = n ∧ t.bitsW = 4 * 2 ^ ew ∧ t.size = 2 ^ g

/-- Vector configuration and type images (R75-R83). -/
def Obligations.VectorTypes : Prop :=
  Sys2Proof.Claims.VectorConfiguration ∧ Sys2Proof.Claims.TypeImages

/-! ## Element-wise instructions -/

/-- The integer and raw instructions, element by element, and their traps at an element whose flag is enabled (R80, R107, R143-R147, R150,
R151, R284, R285). -/
def Obligations.IntegerLanes : Prop := ∀ (i : Instr) (l : Lane) (s : State), intTable i = some l → LaneRuns i l s ∧ LaneTraps i l s
/-- The float instructions, element by element, and their traps at an element whose flag is enabled (R80, R107, R153-R157, R284, R285).
That a NaN scalar gives `vfsgnj` and its kin the sign 0 in the VX form, as the canonical NaN that it is rounded to, is the model's
choice (log 86). -/
def Obligations.FloatLanes : Prop := ∀ (i : Instr) (l : Lane) (s : State), fpTable i = some l → LaneRuns i l s ∧ LaneTraps i l s
/-- The conversions, element by element, and their traps at an element whose flag is enabled (R80, R107, R159-R163, R165, R284, R285). That
a `vdeq` in place, resumed inside a row, reads the row as it then stands is the model's choice (log 88). -/
def Obligations.ConversionLanes : Prop := ∀ (i : Instr) (l : Lane) (s : State), convTable i = some l → LaneRuns i l s ∧ LaneTraps i l s
/-- The moves of elements and the selection; an element that none moves to follows the policy and carries no poison (R149, R167-R171,
R177). That a poisoned `vperm` index at or above `vl` gives 0 without a mark is the model's choice (log 90). -/
def Obligations.MoveLanes : Prop := ∀ (i : Instr) (l : Lane) (s : State), moveTable i = some l → LaneRuns i l s

/-- A mask whose columns hold what a comparison of the rows of a group gives (R148). -/
def Sys2Proof.Claims.Compares (c : Ctx) (f : Op64) (new : BitVec 2048) (holds : Nat → Nat → Bool) : Prop :=
  ∀ k < 2048, new.getLsbD k =
    if k < c.vl ∧ startOf c ≤ (c.vt.size - 1) * c.vl + k then
      (if (effMask c f).getLsbD k then decide (∀ r < c.vt.size, startOf c ≤ r * c.vl + k → holds r k = true)
       else if opPol f then false else (c.mask f.vd.toNat).getLsbD k)
    else (c.mask f.vd.toNat).getLsbD k

/-- The integer conditions (R148). -/
def Sys2Proof.Claims.condOf (n w a b : Nat) : Bool :=
  match n with
  | 0 => decide (a = b) | 1 => decide (a ≠ b) | 2 => decide (sgn w a < sgn w b) | 3 => decide (sgn w a ≤ sgn w b)
  | 4 => decide (sgn w b < sgn w a) | 5 => decide (sgn w b ≤ sgn w a) | 6 => decide (a < b) | 7 => decide (a ≤ b)
  | 8 => decide (b < a) | _ => decide (b ≤ a)

/-- `vcmp` and `vfcmp` write one mask bit for each column: the condition holds in every row from `vstart` on, and a poisoned operand
leaves 0. `vfcmp` sets NV where an ordered condition meets a NaN in an active, clean element, and never traps (R148, R158). -/
def Obligations.CompareMasks : Prop :=
  ∀ (s : State) (f : Op64), let c := here s
    (Ready s (.vcmp f) .vector → Form 0x28 f c intTy → f.fn4.toNat < 10 →
      ∃ new, Leaves (.vcmp f) .vector s ((retired .vector (.vcmp f) f true c).setMask f.vd.toNat new) ∧ Compares c f new fun r k =>
        let w := (opTy c.vt f).width; let a := opA c f w r k; let b := opB c f w r k
        !a.2 && !b.2 && condOf f.fn4.toNat w a.1 b.1) ∧
    (Ready s (.vfcmp f) .vector → Form 0x3E f c fpTy → f.fn4.toNat < 8 →
      let fmt := (opTy c.vt f).fmt
      let nan (r k : Nat) : Bool := (fmt.decode (opA c f fmt.width r k).1).isNan || (fmt.decode (opBf c f fmt r k).1).isNan
      let clean (r k : Nat) : Bool := !(opA c f fmt.width r k).2 && !(opBf c f fmt r k).2
      let nv := 2 ≤ f.fn4.toNat ∧ f.fn4.toNat ≤ 5 ∧ ∃ r < c.vt.size, ∃ k < c.vl, startOf c ≤ r * c.vl + k ∧
        (effMask c f).getLsbD k = true ∧ clean r k = true ∧ nan r k = true
      ∃ new fl, Leaves (.vfcmp f) .vector s { (retired .vector (.vfcmp f) f true c).setMask f.vd.toNat new with
          vcsr := { c.vcsr with flags := fl } } ∧ (nv → fl = c.vcsr.flags ||| 1) ∧ (¬ nv → fl = c.vcsr.flags) ∧
        Compares c f new fun r k =>
          let o := cmpVal (fmt.decode (opA c f fmt.width r k).1) (fmt.decode (opBf c f fmt r k).1)
          clean r k && match f.fn4.toNat with
            | 0 => !nan r k && decide (o = 0) | 1 => nan r k || decide (o ≠ 0) | 2 => !nan r k && decide (o < 0)
            | 3 => !nan r k && decide (o ≤ 0) | 4 => !nan r k && decide (0 < o) | 5 => !nan r k && decide (0 ≤ o)
            | 6 => nan r k | _ => !nan r k)

/-- `vquant` gives every block of 32 columns with an active clean element its scale byte, and encodes the elements under the bytes; the
first element that raises a flag whose trap is enabled traps with ARITH, behind every scale byte and the elements before it (R80, R98,
R99, R107, R164). That an encoded q4 element never raises UF, and one that saturates SAT and NX without OF, is the model's choice
(logs 87, 108). -/
def Obligations.BlockQuantisation : Prop :=
  ∀ (s : State) (f : Op64), let c := here s; let i : Instr := .vquant f
    let src := (opTy c.vt f).fmt; let w := c.vt.bitsW; let k := c.vt.k.toNat; let nb := 8192 / w / 32
    let e : Entry := c.entry .vector i f (startOf c)
    let res (c' : Ctx) (r col : Nat) : Res :=
      let a := opA c f src.width r col
      let v := encodeBlock (byteKind (quantKind f) (c'.scaleByte k w r col)) (c'.scaleByte k w r col) (opRm c f) (r * c.vl + col)
        (src.decode a.1)
      let nv := match (blockElems c e f src r (col / 32)).find? fun y => y.2.isInf with
        | some y => if y.1 = r * c.vl + col then 1 else 0 | none => 0
      if a.2 then .poison else .val v.1 (v.2 ||| nv)
    Ready s i .vector → Form 0x51 f c fpTy → (f.cls4 = 9 ∨ f.cls4 = 10 ∨ f.cls4 = 11) → quantAgrees c.vt f = true →
    apartRows f.vd.toNat c.vt.size f.vs2.toNat c.vt.size →
    ∃ ck : Ctx, ck = { c with k := ck.k } ∧ (∀ n, n ≠ k → ck.scale n = c.scale n) ∧
      (∀ r < c.vt.size, ∀ b < nb, ck.scaleByte k w r (32 * b) =
        match blockElems c e f src r b with | [] => c.scaleByte k w r (32 * b) | xs => blockByte (quantKind f) (opRm c f) xs % 256) ∧
      let raised (r col : Nat) : Nat := c.vcsr.enables.toNat &&& Res.flags (res ck r col)
      let active (r col : Nat) : Prop := startOf c ≤ r * c.vl + col ∧ (effMask c f).getLsbD col = true
      let dst (r col : Nat) := (f.vd.toNat + r, col)
      ((∀ r < c.vt.size, ∀ col < c.vl, active r col → raised r col = 0) →
        ∃ c', Leaves i .vector s c' ∧ RowsOnly { retired .vector i f true c with k := ck.k } c' ∧
          Lanes c c' c.vt.size c.vl (startOf c) w (effMask c f) (opPol f) dst (res ck) (fun r col => Res.flags (res ck r col))) ∧
      (∀ r < c.vt.size, ∀ col < c.vl, active r col → raised r col ≠ 0 →
        (∀ r' < c.vt.size, ∀ col' < c.vl, active r' col' → r' * c.vl + col' < r * c.vl + col → raised r' col' = 0) →
        c.trap.tvec ≠ 0 → c.level ≠ .f → ∃ t, exec i s = .next t ∧ (t.ctx s.cur).k = ck.k ∧ t.mem = s.mem ∧
          EntryTraps i f s (t.ctx s.cur)
            { cause := 0x09, info := BitVec.ofNat 64 (Res.flags (res ck r col)), elem := r * c.vl + col, row := r } (r * c.vl + col) ∧
          LanesTo c (t.ctx s.cur) c.vt.size c.vl (startOf c) (r * c.vl + col) w (effMask c f) (opPol f) dst (res ck))

/-! ## Reductions, scans, sorting, extraction -/

/-- `vred`: the tree of R109 over the elements of the source group, inactive ones the identity, behind the initial element of vs1;
the result goes to element (0, 0) of vd, flags are set without a trap, and every other element keeps its value (R109, R110, R172). -/
def Sys2Proof.Claims.Reductions : Prop :=
  ∀ (s : State) (f : Op64) (k : Nat), let c := here s; let op := f.fn4.toNat; let ty := opTy c.vt f; let n := c.vt.size * c.vl
    let step := meet op ty (opRm c f) c.vcsr.sat8
    let a := cell c ty.width f.vs1.toNat (srcCol (opMod1 f) 0)
    n ≤ 2 ^ k → (k = 0 ∨ 2 ^ (k - 1) < n) → op < 13 → Ready s (.vred f) .vector → Form 0x76 f c (redTypes op) →
    Leaves (.vred f) .vector s ((step 0 (if a.2 = 0 then some a.1 else none, 0) (treeAt step (leafOf c f op) k 0)).write f.vd.toNat ty.width 0
      (retired .vector (.vred f) f true c))

/-- `vredx`: the best active element and its index, the lowest on a tie, in elements 0 and 1 of vd's first row; the identity and all
ones when none is active; poison when an active element is poisoned; the canonical NaN when every active one is a NaN (R93, R173). -/
def Sys2Proof.Claims.ExtremeWithIndex : Prop :=
  ∀ (s : State) (f : Op64), let c := here s; let ty := opTy c.vt f; let w := ty.width
    let live (i : Nat) : Prop := i < c.vt.size * c.vl ∧ (effMask c f).getLsbD (i % c.vl) = true
    let x (i : Nat) : Nat × Bool := opA c f w (i / c.vl) (i % c.vl)
    let put (v ix : Nat) : Ctx := ((retired .vector (.vredx f) f true c).putElem f.vd.toNat w 0 v).putElem f.vd.toNat w 1 ix
    f.fn4.toNat < 6 → Ready s (.vredx f) .vector → Form 0x77 f c (fun t => if f.fn4.toNat < 4 then intTy t && decide (16 ≤ t.width) else
        fpTy t) →
    ((∃ i, live i ∧ (x i).2 = true) → Leaves (.vredx f) .vector s
      (((retired .vector (.vredx f) f true c).markPoison f.vd.toNat w 0).markPoison f.vd.toNat w 1)) ∧
    ((∀ i, ¬ live i) → Leaves (.vredx f) .vector s (put (neutral (if f.fn4.toNat < 4 then f.fn4.toNat + 1 else f.fn4.toNat + 5) ty) (2 ^ w - 1))) ∧
    (∀ i, live i → (∀ j, live j → (x j).2 = false ∧ beats f.fn4.toNat ty (x j).1 (x i).1 = false ∧
        (j < i → beats f.fn4.toNat ty (x i).1 (x j).1 = true)) →
      Leaves (.vredx f) .vector s (put (canon ty (x i).1) i))

/-- `vscan`: every active element receives the value of its range, formed from the nodes of the tree over its largest aligned blocks;
flags are set without a trap; a NaN that it receives is the canonical one (R93, R174). -/
def Sys2Proof.Claims.Scans : Prop :=
  ∀ (s : State) (f : Op64), let c := here s; let op := f.fn4.toNat
    op < 13 → (f.fn3 = 0 ∨ f.fn3 = 3 ∨ f.fn3 = 4 ∨ f.fn3 = 5) → f.vs1.toNat < 8 → Ready s (.vscan f) .vector →
    Form 0x78 f c (redTypes op) → apartRows f.vd.toNat c.vt.size f.vs2.toNat c.vt.size →
    ∃ c', Leaves (.vscan f) .vector s c' ∧ RowsOnly (retired .vector (.vscan f) f true c) c' ∧
      Lanes c c' c.vt.size c.vl 0 (opTy c.vt f).width (BitVec.allOnes 2048) (opPol f) (fun r col => (f.vd.toNat + r, col))
        (fun r col => if (effMask c f).getLsbD col then wireRes (opTy c.vt f) (scanOf c f (r * c.vl + col)) else restRes c f r col)
        (fun r col => if (effMask c f).getLsbD col then (scanOf c f (r * c.vl + col)).2 else 0)

/-- Reductions through the tree, extremes with their index, and scans (R93, R109, R110, R172-R174). -/
def Obligations.ReductionsAndScans : Prop :=
  Sys2Proof.Claims.Reductions ∧ Sys2Proof.Claims.ExtremeWithIndex ∧ Sys2Proof.Claims.Scans

/-- `vext` gives an element of the group, extended as its type says, 0 at or above the end, and raises POISON at a poisoned one, in the
front end, with nothing written; `vmv.row` copies whole rows with their
marks (R175, R177). -/
def Sys2Proof.Claims.ExtractAndCopyRows : Prop :=
  ∀ (s : State) (f : Op64), let c := here s; let w := (opTy c.vt f).width; let i := amountOf c f
    let v := opA c f w (i / c.vl) (i % c.vl)
    (Ready s (.vext f) .vector → Form 0x79 f c rawTy → i < c.vt.size * c.vl → v.2 = true → c.trap.tvec ≠ 0 → c.level ≠ .f →
      ∃ t, exec (.vext f) s = .next t ∧ t.mem = s.mem ∧ let c' := t.ctx s.cur
        c'.pc = c.trap.tvec ∧ c'.trap.tcause = BitVec.ofNat 64 (0x0F + if c.level = .u then 0 else 2 ^ 12) ∧ c'.trap.tepc = c.pc ∧
        c'.trap.telem = BitVec.ofNat 64 i ∧ c'.trap.trow = BitVec.ofNat 64 (i / c.vl) ∧ c'.trap.taddr = 0 ∧ c'.trap.tinfo = 0 ∧
        c'.g = c.g ∧ c'.v = c.v ∧ ∀ k, c'.tok k = c.tok k) ∧
    (Ready s (.vext f) .vector → Form 0x79 f c rawTy → (i < c.vt.size * c.vl → v.2 = false) →
      Leaves (.vext f) .vector s ((retired .vector (.vext f) f true c).wg (gpr f.vd)
        (if c.vt.size * c.vl ≤ i then 0 else if (opTy c.vt f).signed then BitVec.ofInt 64 (sgn w v.1) else BitVec.ofNat 64 v.1))) ∧
    (Ready s (.vmvRow f) .vector → Form 0x7B f c rawTy → f.fn4 = 1 →
      ∃ c', Leaves (.vmvRow f) .vector s c' ∧ c' = { retired .vector (.vmvRow f) f true c with v := c'.v, prows := c'.prows } ∧
        (∀ r < c.vt.size, c'.row (f.vd.toNat + r) = c.row (f.vs2.toNat + r)) ∧
        (∀ n, (n < f.vd.toNat ∨ f.vd.toNat + c.vt.size ≤ n) → c'.row n = c.row n) ∧
        ∀ b < 64, c'.prows.getLsbD b = true ↔ c.prows.getLsbD b = true ∨
          f.vd ≠ f.vs2 ∧ ∃ r < c.vt.size, (f.vd.toNat + r) / 4 = b ∧ (c.row (f.vs2.toNat + r)).pois ≠ 0)

/-- `vsortk`: the active keys, stably in the order of fn4 with the poisoned last, go to the first elements of vd, and their indices to
those of vs1; the elements behind them follow the policy and carry no poison (R167, R176). -/
def Sys2Proof.Claims.StableSort : Prop :=
  ∀ (s : State) (f : Op64), let c := here s; let i : Instr := .vsortk f; let n := c.vt.size * c.vl; let g := c.vt.size
    let keys := ((List.range n).filter fun i => (effMask c f).getLsbD (i % c.vl)).map fun i =>
      (i, (opA c f 32 (i / c.vl) (i % c.vl)).1, (opA c f 32 (i / c.vl) (i % c.vl)).2)
    f.fn4.toNat % 8 < 3 → Ready s i .vector → Form 0x7A f c (fun t => decide (t = .int true 32 ∨ t = .int false 32 ∨ t = .flt .fp32)) →
    apartRows f.vd.toNat g f.vs1.toNat g → apartRows f.vd.toNat g f.vs2.toNat g → apartRows f.vs1.toNat g f.vs2.toNat g →
    ∃ (c' : Ctx) (sorted : List (Nat × Nat × Bool)), Leaves i .vector s c' ∧
        c' = { retired .vector i f true c with v := c'.v, pm := c'.pm, prows := c'.prows } ∧
      sorted.Perm keys ∧ sorted.Pairwise (fun a b => keyFirst f.fn4.toNat a b = true ∨ keyFirst f.fn4.toNat b a = false ∧ a.1 < b.1) ∧
      (∀ j < n, cell c' 32 (f.vd.toNat + j / c.vl) (j % c.vl) = match sorted[j]? with
        | some k => if k.2.2 then (0, 255) else (k.2.1, 0)
        | none => if opPol f then (0, 0) else ((cell c 32 (f.vd.toNat + j / c.vl) (j % c.vl)).1, 0)) ∧
      (∀ j < n, cell c' 32 (f.vs1.toNat + j / c.vl) (j % c.vl) = match sorted[j]? with
        | some k => if k.2.2 then (0, 255) else (k.1, 0)
        | none => if opPol f then (0, 0) else ((cell c 32 (f.vs1.toNat + j / c.vl) (j % c.vl)).1, 0)) ∧
      (∀ row, (row < f.vd.toNat ∨ f.vd.toNat + g ≤ row) → (row < f.vs1.toNat ∨ f.vs1.toNat + g ≤ row) → c'.row row = c.row row) ∧
      ((∀ k ∈ keys, k.2.2 = false) → c'.pm = c.pm ∧ c'.prows = c.prows)

/-- Extraction, whole-row moves and the stable sort (R175-R177). -/
def Obligations.ExtractSortAndCopyRows : Prop :=
  Sys2Proof.Claims.ExtractAndCopyRows ∧ Sys2Proof.Claims.StableSort

/-! ## Masks -/

/-- Mask logic (R180, R181, R183): `mlog` applies its truth table, `mset` sets, clears or counts columns, `pmrd` reads the poison
mask, all below `vl` alone; `mpopc` counts, `mfirst` finds the lowest set column or gives all ones; `pmclr` clears the poison
registers. -/
def Sys2Proof.Claims.MaskResults : Prop :=
  ∀ (s : State) (f : Op64), let c := here s
    let leaves (i : Instr) (g : Ctx → Ctx) : Prop := Ready s i .vector → Leaves i .vector s (g (retired .vector i f true c))
    let old := c.mask f.vd.toNat; let a := c.mask f.vs1.toNat; let b := c.mask f.vs2.toNat
    let sets (i : Instr) (bit : Nat → Bool) : Prop := Ready s i .vector → ∃ new : BitVec 2048,
      Leaves i .vector s ((retired .vector i f true c).setMask f.vd.toNat new) ∧
      ∀ k < 2048, new.getLsbD k = if k < c.vl then bit k else old.getLsbD k
    sets (.mlog f) (fun k => f.fn4.getLsbD (2 * (if a.getLsbD k then 1 else 0) + (if b.getLsbD k then 1 else 0))) ∧
    (f.fn4.toNat ≤ 2 → sets (.mset f) (fun k => f.fn4 = 0 ∨ f.fn4 = 2 ∧ k < (c.rg (gpr f.vs1)).toNat)) ∧
    sets (.pmrd f) (fun k => c.pm.getLsbD k) ∧
    leaves (.pmclr f) (fun k => { k with pm := 0, prows := 0 }) ∧
    leaves (.mpopc f) (fun k => k.wg (gpr f.vd) (BitVec.ofNat 64 ((List.range c.vl).filter b.getLsbD).length)) ∧
    leaves (.mfirst f) (fun k => k.wg (gpr f.vd) (match (List.range c.vl).find? b.getLsbD with
      | some j => BitVec.ofNat 64 j | none => BitVec.allOnes 64))

/-- The mask stack (R178, R179, R182): `mpush` pushes the top and the mask, `minv` takes the rest of the entry below, `mpop` pops;
a seventeenth push and an empty pop or inversion raise MSTACK. `bempty` and `bany` branch on the columns of the top below `vl`, and
consume `vstart` at U (R184). That the depth leaves out the pushes and pops of parked entries is the model's choice (log 43). -/
def Sys2Proof.Claims.MaskStack : Prop :=
  ∀ (s : State) (f : Op64), let c := here s
    let leaves (i : Instr) (st : List (BitVec 2048)) : Prop := Leaves i .vector s { retired .vector i f true c with stack := st }
    let top := match c.stack with | [] => BitVec.allOnes 2048 | t :: _ => t
    let go (i : Instr) (taken : Bool) : Prop := exec i s = .next (s.modCtx s.cur fun k => { k with
      vstart := if k.level = .u then 0 else k.vstart
      pc := if taken then BitVec.ofInt 64 (c.pc.toNat + (BitVec.ofNat 13 (f.vs1.toNat + f.vs2.toNat % 32 * 256)).toInt * 4)
        else c.pc + len f })
    (Ready s (.mpush f) .vector → c.stack.length < 16 → leaves (.mpush f) ((top &&& c.mask f.vs2.toNat) :: c.stack)) ∧
    (Idle s → c.stack.length = 16 → Traps (.mpush f) s s { cause := 0x0B }) ∧
    (∀ t r, c.stack = t :: r →
      (Ready s (.minv f) .vector → leaves (.minv f) (((match r with | [] => BitVec.allOnes 2048 | p :: _ => p) &&& ~~~t) :: r)) ∧
      (Ready s (.mpop f) .vector → leaves (.mpop f) r)) ∧
    (Idle s → c.stack = [] → Traps (.minv f) s s { cause := 0x0B, info := 1 } ∧ Traps (.mpop f) s s { cause := 0x0B, info := 1 }) ∧
    (Idle s → let set := (List.range 2048).any fun k => decide (k < c.vl) && top.getLsbD k
      go (.bempty f) (!set) ∧ go (.bany f) set)

/-- Mask logic, the poison registers and the mask stack (R178-R183). -/
def Obligations.Masks : Prop :=
  Sys2Proof.Claims.MaskResults ∧ Sys2Proof.Claims.MaskStack

/-! ## Vector memory accesses -/

/-- The plain loads by their course, and `vldff` (R188, R194). -/
def Sys2Proof.Claims.loadOf (k : Course) (first : Bool) (f : Op64) : Instr :=
  if first then .vldff f else match k with | .unit => .vld f | .stride => .vlds f | .row => .vldr f | .index => .vldx f
/-- The plain stores by their course (R188). -/
def Sys2Proof.Claims.storeOf (k : Course) (f : Op64) : Instr :=
  match k with | .unit => .vst f | .stride => .vsts f | .row => .vstr f | .index => .vstx f

/-- `vld`, `vlds`, `vldr`, `vldx` and `vldff` outside differentiable regions: behind an acquire when the form asks for one, every active
element from `vstart` on reads its address, in order, and receives what it read, or poison; the rest follows the mask policy. The first
element that is refused ends the load: a `vldff` from element 0 that a page, its permissions or an unmapped place refuses at element k > 0
sets `vl` to k; any other traps at the element, with the elements before it complete (R80, R188-R191, R193, R194, R200). -/
def Obligations.VectorLoads : Prop :=
  ∀ (s t : State) (f : Op64) (k : Course) (first : Bool) (vals : List (Nat × Bool)), let c := here s; let w := c.vt.bitsW
    let i := loadOf k first f
    let live := liveAt k c f (startOf c)
    let s0 := issuing i .vector f true s
    let s1 := if f.fn4 = 1 then s0.acquire s.cur f.fn3.toNat else s0
    let reads (l : List Nat) := readsAt (self s) (entryReads (entryOf i .vector f true s) f s.cur (bytesOfElem w))
      (l.map fun e => (addrOf k c f e).1) s1
    let res (from_ : List Nat) := loaded w c.vl (fun e => (addrOf k c f e).2) (from_.zip vals)
    let dst (r col : Nat) := (f.vd.toNat + r, col)
    Ready s i .vector → Grouped k c f (accepted k) → (first = true → k = .unit ∧ c.vt.size = 1) →
    (first = false → c.mode = .rev → ∀ e ∈ live, s.regionAt c.asid (addrOf k c f e).1 = none) →
    ((∀ e ∈ live, alignedAt k c f e = true) → reads live = some (vals, t) →
      ∃ c', exec i s = .next (pushed i .vector s.cur (t.setCtx s.cur c')) ∧ RowsOnly (t.ctx s.cur) c' ∧
        Lanes (t.ctx s.cur) c' c.vt.size c.vl (startOf c) w (effMask c f) (opPol f) dst (res live) fun _ _ => 0) ∧
    (∀ pre e rest tr u, live = pre ++ e :: rest → (∀ o ∈ pre, alignedAt k c f o = true) → reads pre = some (vals, t) →
      faultAt k c f (self s) .read e t = some (tr, u) →
      let ends : Prop := first = true ∧ startOf c = 0 ∧ e ≠ 0 ∧ (tr.cause = 0x06 ∧ tr.info.toNat / 256 % 256 ≠ 6 ∨ tr.cause = 0x07 ∨
        tr.cause = 0x08)
      (ends → ∃ c', exec i s = .next (pushed i .vector s.cur (u.setCtx s.cur { c' with vl := e })) ∧ RowsOnly (u.ctx s.cur) c' ∧
        Lanes (u.ctx s.cur) c' 1 e 0 w (effMask c f) (opPol f) dst (res pre) fun _ _ => 0) ∧
      (¬ ends → c.trap.tvec ≠ 0 → c.level ≠ .f → ∃ t', exec i s = .next t' ∧ t'.mem = u.mem ∧
        EntryTraps i f s (t'.ctx s.cur) { tr with elem := e, row := e / c.vl } e ∧
        LanesTo (u.ctx s.cur) (t'.ctx s.cur) c.vt.size c.vl (startOf c) e w (effMask c f) (opPol f) dst (res pre)))

/-- `vst`, `vsts`, `vstr` and `vstx` outside differentiable regions: every active element from `vstart` on that has an address stores its
bits and its mark there, in order; a release form waits and writes back before, and its stores reach what its scope shares. The first
element that is refused traps, with the stores of those before it made (R80, R188-R193, R200, R254). -/
def Obligations.VectorStores : Prop :=
  ∀ (s t : State) (f : Op64) (k : Course), let c := here s; let w := c.vt.bitsW
    let i := storeOf k f
    let o := entryOf i .vector f true s
    let live := liveAt k c f (startOf c)
    let s0 := issuing i .vector f true s
    let s1 := if f.fn4 = 2 then s0.release s.cur f.fn3.toNat (s0.entryAccess s.cur o f.cls4.toNat) o.past else s0
    let stores (l : List Nat) := storesAt (self s) w (entryWrites o f s.cur) (l.map fun e =>
      let v := cell c w (f.vd.toNat + e / c.vl) (e % c.vl); (addrOf k c f e, v.1, v.2 != 0)) s1
    Ready s i .vector → (f.fn4 = 2 → Acked s f.fn3.toNat) → Grouped k c f (accepted k) →
    (c.mode ≠ .off → ∀ e ∈ liveAt k c f 0, s.regionAt c.asid (addrOf k c f e).1 = none) →
    ((∀ e ∈ live, alignedAt k c f e = true) → stores live = some t →
      exec i s = .next (pushed i .vector s.cur (if f.fn4 = 2 then t.writeBacks s.cur (scopeRank f.fn3.toNat) else t))) ∧
    (∀ pre e rest tr u, live = pre ++ e :: rest → (∀ j ∈ pre, alignedAt k c f j = true) → stores pre = some t →
      faultAt k c f (self s) .write e t = some (tr, u) → c.trap.tvec ≠ 0 → c.level ≠ .f →
      ∃ t', exec i s = .next t' ∧ t'.mem = u.mem ∧ (t'.ctx s.cur).v = (u.ctx s.cur).v ∧
        EntryTraps i f s (t'.ctx s.cur) { tr with elem := e, row := e / c.vl } e)

/-- Scale bytes (R195): `vldk` fills the bytes of the active part of a scale register and `vstk` stores them, a byte for each block of 32
columns of each row. That a refused byte n traps with `trow` 0 is the model's choice (R195 names `taddr` and `telem` alone), and that
the instructions set `vstart` to 0 too (log 44). -/
def Sys2Proof.Claims.ScaleBytes : Prop :=
  ∀ (s t : State) (f : Op64) (vals : List (Nat × Bool)), let c := here s; let x := s.cur; let w := c.vt.bitsW
    let nb := (c.vl + 31) / 32; let wide := 8192 / w / 32
    let bytes := List.range (c.vt.size * nb)
    let at_ (n : Nat) : Word := c.rg (gpr f.vs1) + BitVec.ofNat 64 n
    let acq (u : State) := if f.fn4 = 1 then u.acquire x f.fn3.toNat else u
    let o := entryOf (.vstk f) .vector f true s
    let rel (u : State) := if f.fn4 = 2 then u.release x f.fn3.toNat (u.entryAccess x o f.cls4.toNat) o.past else u
    let reads (l : List Nat) := readsAt (self s) (entryReads (entryOf (.vldk f) .vector f true s) f x 1) (l.map at_)
      (acq (issuing (.vldk f) .vector f true s))
    let fills (c0 c' : Ctx) (count : Nat) : Prop := (∀ n, n ≠ f.vd.toNat → c'.scale n = c0.scale n) ∧
      ∀ b < 2048, (c'.scale f.vd.toNat).toNat / 256 ^ b % 256 =
        if b / wide < c.vt.size ∧ b % wide < nb ∧ b / wide * nb + b % wide < count
        then (let v := vals.getD (b / wide * nb + b % wide) (0, false); if v.2 then 255 else v.1)
        else (c0.scale f.vd.toNat).toNat / 256 ^ b % 256
    (Ready s (.vldk f) .vector → reads bytes = some (vals, t) →
      ∃ c', exec (.vldk f) s = .next (pushed (.vldk f) .vector x (t.setCtx x c')) ∧ c' = { t.ctx x with k := c'.k } ∧
        fills (t.ctx x) c' (c.vt.size * nb)) ∧
    (∀ n tr u, Ready s (.vldk f) .vector → n < c.vt.size * nb → reads (List.range n) = some (vals, t) →
      place (self s) (.core (coreOf x)) .read false (at_ n) t = .error (.trap tr) u → c.trap.tvec ≠ 0 → c.level ≠ .f →
      ∃ t', exec (.vldk f) s = .next t' ∧ t'.mem = u.mem ∧ fills (u.ctx x) (t'.ctx x) n ∧
        EntryTraps (.vldk f) f s (t'.ctx x) { tr with elem := n, row := 0 } 0) ∧
    (Ready s (.vstk f) .vector → (f.fn4 = 2 → Acked s f.fn3.toNat) → storesAt (self s) 8 (entryWrites o f x) (bytes.map fun n =>
        ((at_ n, false), (c.scale f.vd.toNat).toNat / 256 ^ (n / nb * wide + n % nb) % 256, false)) (rel (issuing (.vstk f) .vector f true s)) = some t →
      exec (.vstk f) s = .next (pushed (.vstk f) .vector x (if f.fn4 = 2 then t.writeBacks x (scopeRank f.fn3.toNat) else t)))

/-- Linked accesses and vector atomics (R196-R198): `vgld` reads at home and sets links; `vscc` writes the elements of the lines whose
link holds and says which in a mask; `vamo` applies its atomics in element order, and returns the old values or posts the rest. That a
`vscc` with a scope wakes those that watch its lines is the model's choice (log 51). -/
def Sys2Proof.Claims.LinksAndAtomics : Prop :=
  ∀ (s t : State) (f : Op64) (vals : List (Nat × Bool)), let c := here s; let x := s.cur; let w := c.vt.bitsW; let vl := c.vl
    let live := liveAt .index c f
    let dst (r col : Nat) := (f.vd.toNat + r, col)
    let own (e : Nat) := cell c w (f.vd.toNat + e / vl) (e % vl)
    (Ready s (.vgld f) .vector → Addressed .index c f (fun ty => ty != .q4) (startOf c) → c.vt.size = 1 →
      linksAt (self s) (entryOf (.vgld f) .vector f true s) f.cls4.toNat f.fn3.toNat (w / 8) ((live (startOf c)).map fun e =>
          (addrOf .index c f e).1) (issuing (.vgld f) .vector f true s) = some (vals, t) →
      let u := if f.fn3 = 0 then t else t.acquire x f.fn3.toNat
      ∃ c', exec (.vgld f) s = .next (pushed (.vgld f) .vector x (u.setCtx x c')) ∧ RowsOnly (u.ctx x) c' ∧
        Lanes (u.ctx x) c' 1 vl (startOf c) w (effMask c f) (opPol f) dst (loaded w vl (fun _ => false) ((live (startOf c)).zip vals)) fun _ _ => 0) ∧
    (∀ elems, Ready s (.vscc f) .vector → Acked s f.fn3.toNat → Addressed .index c f (fun ty => ty != .q4) 0 → c.vt.size = 1 →
      scatterAt (self s) ((live 0).map fun e => (e, (addrOf .index c f e).1)) (issuing (.vscc f) .vector f true s) = some (elems, t) →
      let o := entryOf (.vscc f) .vector f true s
      let r := linesAt x o f.cls4.toNat w f.fn3.toNat (fun e => let v := own e; (v.1, v.2 != 0)) elems
        ((elems.map fun v => v.2 / 64).eraseDups) (t.release x f.fn3.toNat (t.entryAccess x o f.cls4.toNat) o.past)
      let m := f.fn4.toNat % 8
      ∃ new, exec (.vscc f) s = .next (pushed (.vscc f) .vector x (r.2.modCtx x fun k => k.setMask m new)) ∧
        ∀ col < 2048, new.getLsbD col = if col < vl ∧ ((effMask c f).getLsbD col = true ∨ opPol f = true) then decide (col ∈ r.1)
          else (c.mask m).getLsbD col) ∧
    (∀ atoms, Ready s (.vamo f) .vector → Addressed .index c f (vamoTy f) (startOf c) →
      let returns := !(f.fn4.getLsbD 3)
      let op := match f.fn4.toNat % 8 with
        | 0 => AtomOp.add | 1 => .fadd | 2 => .bfadd | 3 => if c.vt.ty.signed then .min else .minu
        | 4 => if c.vt.ty.signed then .max else .maxu | 5 => .and | 6 => .or | _ => .xor
      let mine := (live (startOf c)).filter fun e => (own e).2 == 0
      amosAt (self s) (entryOf (.vamo f) .vector f true s) f.cls4.toNat (w / 8) op returns
        (mine.map fun e => ((addrOf .index c f e).1, (own e).1)) (issuing (.vamo f) .vector f true s) = some ((vals, atoms), t) →
      (returns = true → ∃ c', exec (.vamo f) s = .next (pushed (.vamo f) .vector x (t.setCtx x c')) ∧ RowsOnly (t.ctx x) c' ∧
        Lanes (t.ctx x) c' c.vt.size vl (startOf c) w (effMask c f) (opPol f) dst (loaded w vl (fun _ => false) (mine.zip vals)) fun _ _ => 0) ∧
      (returns = false → exec (.vamo f) s = .next (pushed (.vamo f) .vector x
        ((packets atoms).foldl (fun u p => u.post x f.cls4.toNat f.fn3.toNat true false p) t))))

/-- Where they trap (R80, R193, R196-R198): `vgld` and `vamo` at the first element that is refused, with what the elements before it have
done, the atomics of those posted too; `vscc` at the first element that is refused, with nothing written, to run as a whole again. -/
def Sys2Proof.Claims.LinkAndAtomicTraps : Prop :=
  ∀ (s t u : State) (f : Op64) (pre rest : List Nat) (e : Nat) (tr : TrapInfo), let c := here s; let x := s.cur; let w := c.vt.bitsW
    let vl := c.vl
    let dst (r col : Nat) := (f.vd.toNat + r, col)
    let own (e : Nat) := cell c w (f.vd.toNat + e / vl) (e % vl)
    let at_ (e : Nat) := (addrOf .index c f e).1
    c.trap.tvec ≠ 0 → c.level ≠ .f → (∀ o ∈ pre, alignedAt .index c f o = true) →
    (∀ vals, Ready s (.vgld f) .vector → Grouped .index c f (fun ty => ty != .q4) → c.vt.size = 1 →
      liveAt .index c f (startOf c) = pre ++ e :: rest →
      linksAt (self s) (entryOf (.vgld f) .vector f true s) f.cls4.toNat f.fn3.toNat (w / 8) (pre.map at_) (issuing (.vgld f) .vector f true s) =
        some (vals, t) → linkFault c f (self s) .read e t = some (tr, u) →
      ∃ t', exec (.vgld f) s = .next t' ∧ t'.mem = u.mem ∧ EntryTraps (.vgld f) f s (t'.ctx x) { tr with elem := e, row := e / vl } e ∧
        LanesTo (u.ctx x) (t'.ctx x) 1 vl (startOf c) e w (effMask c f) (opPol f) dst (loaded w vl (fun _ => false) (pre.zip vals))) ∧
    (∀ elems, Ready s (.vscc f) .vector → Grouped .index c f (fun ty => ty != .q4) → c.vt.size = 1 → liveAt .index c f 0 = pre ++ e :: rest →
      scatterAt (self s) (pre.map fun e => (e, at_ e)) (issuing (.vscc f) .vector f true s) = some (elems, t) →
      linkFault c f (self s) .write e t = some (tr, u) →
      ∃ t', exec (.vscc f) s = .next t' ∧ t'.mem = u.mem ∧ (t'.ctx x).m = (u.ctx x).m ∧
        EntryTraps (.vscc f) f s (t'.ctx x) { tr with elem := e, row := e / vl } 0) ∧
    (∀ vals atoms, Ready s (.vamo f) .vector → Grouped .index c f (vamoTy f) → liveAt .index c f (startOf c) = pre ++ e :: rest →
      (own e).2 = 0 → let returns := !(f.fn4.getLsbD 3)
      let mine := pre.filter fun e => (own e).2 == 0
      amosAt (self s) (entryOf (.vamo f) .vector f true s) f.cls4.toNat (w / 8) (vamoOp f c.vt.ty) returns
        (mine.map fun e => (at_ e, (own e).1)) (issuing (.vamo f) .vector f true s) = some ((vals, atoms), t) →
      faultAt .index c f (self s) .atomic e t = some (tr, u) →
      ∃ t', exec (.vamo f) s = .next t' ∧ t'.mem = u.mem ∧
        t'.posted = ((packets atoms).foldl (fun v p => v.post x f.cls4.toNat f.fn3.toNat true false p) u).posted ∧
        EntryTraps (.vamo f) f s (t'.ctx x) { tr with elem := e, row := e / vl } e ∧
        LanesTo (u.ctx x) (t'.ctx x) c.vt.size vl (startOf c) e w (if returns then effMask c f else 0) (returns && opPol f) dst
          (loaded w vl (fun _ => false) (mine.zip vals)))

/-- Scale bytes, linked accesses and vector atomics (R193, R195-R198). -/
def Obligations.ScalesLinksAndAtomics : Prop :=
  Sys2Proof.Claims.ScaleBytes ∧ Sys2Proof.Claims.LinksAndAtomics ∧ Sys2Proof.Claims.LinkAndAtomicTraps

/-! ## The matrix engine -/

/-- A depth that a format takes (R236). -/
def Sys2Proof.Claims.depthFits (fmt k : Nat) : Prop :=
  1 ≤ k ∧ k ≤ [128, 128, 256, 256, 512, 1024, 512].getD fmt 0 ∧ (5 ≤ fmt → k % 4 = 0)

/-- `mshape` sets the shape; `wld`, behind the context's posted operations of its class, loads an image into the shadow plane of an
owned forme, each weight where the layout puts it, and a fault of it leaves the plane empty; `wswap` exchanges the planes; `mzero`
writes +0 without poison to rows of an owned tile or to all of it, and nothing else (R231, R235-R239, R244, R258). -/
def Sys2Proof.Claims.MatrixUpdates : Prop :=
  ∀ (s t : State) (f : Op64) (vals : List (Nat × Bool)), let c := here s; let x := s.cur; let k := s.core (coreOf x)
    let n := (c.rg (gpr f.vs1)).toNat
    let l := wimage (wfmt f.fn4.toNat) c.vl c.shape
    let begun (i : Instr) := issuing i .matrix f false s
    let forked := (((begun (.wld f)).modForme x f.vd.toNat fun w => { w with shadowTag := some ⟨f.fn4.toNat, c.vl, c.shape⟩ }).modBefore
      fun b => b.learn (s.base x + queuePart .matrix) (entryOf (.wld f) .matrix f false s).hb).settle (forkCovers x f.cls4.toNat)
    let at_ (j : Nat) : Word := c.rg (gpr f.vs1) + BitVec.ofNat 64 (8 * j)
    let reads (m : Nat) := readsAt (self s) (fun p u => u.readPlace (coreOf x) p 8) ((List.range m).map at_) forked
    (Ready s (.mshape f) .matrix → 1 ≤ n → n ≤ 128 → Leaves (.mshape f) .matrix s { retired .matrix (.mshape f) f false c with shape := n }) ∧
    (∀ m tr u, Ready s (.wld f) .matrix → f.fn4.toNat < 7 → Owned k.wallot f.vd x → depthFits f.fn4.toNat c.vl →
      (n % 64 ≠ 0 ∧ tr = { cause := 0x05, addr := at_ 0 } ∧ u = forked ∨
        n % 64 = 0 ∧ m < l.bytes / 8 ∧ reads m = some (vals, t) ∧ place (self s) (.core (coreOf x)) .read false (at_ m) t = .error (.trap tr) u) →
      c.trap.tvec ≠ 0 → c.level ≠ .f → ∃ t', exec (.wld f) s = .next t' ∧ t'.mem = u.mem ∧
        ((t'.core (coreOf x)).forme f.vd.toNat).shadow = none ∧
        EntryTraps (.wld f) f s (t'.ctx x) { tr with elem := 0, row := 0 } 0 .matrix) ∧
    (Ready s (.wld f) .matrix → f.fn4.toNat < 7 → Owned k.wallot f.vd x → depthFits f.fn4.toNat c.vl → n % 64 = 0 →
      reads (l.bytes / 8) = some (vals, t) →
      ∃ p, exec (.wld f) s = .next (pushed (.wld f) .matrix x (t.modForme x f.vd.toNat fun w => { w with shadow := some p })) ∧
        p.tag = ⟨f.fn4.toNat, c.vl, c.shape⟩ ∧
        ∀ col < c.shape, ∀ r < c.vl, (p.weight col r, p.marked col r) = weightOf f.fn4.toNat c.vl c.shape vals col r) ∧
    (Ready s (.wswap f) .matrix → Owned k.wallot f.vd x →
      exec (.wswap f) s = .next (pushed (.wswap f) .matrix x ((begun (.wswap f)).modForme x f.vd.toNat fun w =>
        { active := w.shadow, shadow := w.active, activeTag := w.shadowTag, shadowTag := w.activeTag }))) ∧
    (Ready s (.mzero f) .matrix → Owned k.tallot f.vd x → (f.fn4 = 0 → f.mod12.toNat + c.vt.size ≤ 128) →
      ∃ tl, exec (.mzero f) s = .next (pushed (.mzero f) .matrix x ((begun (.mzero f)).modCore (coreOf x) fun k =>
          { k with tiles := tl })) ∧
        ∀ j r, Tab.look {} (Tab.look [] tl j) r = if j = f.vd.toNat ∧ (f.fn4 ≠ 0 ∨ f.mod12.toNat ≤ r ∧
            r < f.mod12.toNat + c.vt.size) then {}
          else k.tileRow j r)

/-- Where the matrix engine's instructions refuse a handle at dispatch, with the unit's index and the code in `tinfo` (R233, R236, R241):
a tile or a forme that the context does not own, a depth or a shape out of range, and the checks of the active plane. -/
def Sys2Proof.Claims.MatrixRefusals : Prop :=
  ∀ (s : State) (f : Op64), let c := here s; let x := s.cur; let k := s.core (coreOf x); let ty := c.vt.ty
    let bad (i : Instr) (code : Nat) (j : BitVec 8) : Prop := Traps i s s { cause := 0x03, info := BitVec.ofNat 64 (code + 256 * j.toNat) }
    let n := (c.rg (gpr f.vs1)).toNat
    let fits := f.mod12.toNat + c.vt.size ≤ 128
    let aligned (v : BitVec 8) := v.toNat % c.vt.size = 0
    let flt : Prop := ∃ t, ty = .flt t
    Idle s →
    (n = 0 ∨ 128 < n → bad (.mshape f) 0x0D 0) ∧
    (¬ Owned k.wallot f.vd x → bad (.wld f) 0x07 f.vd ∧ bad (.wswap f) 0x07 f.vd) ∧
    (f.fn4.toNat < 7 → Owned k.wallot f.vd x → ¬ depthFits f.fn4.toNat c.vl → bad (.wld f) 0x0C f.vd) ∧
    (¬ Owned k.tallot f.vd x → ((f.fn4 = 0 → fits) → bad (.mzero f) 0x06 f.vd) ∧
      (fits → c.vl ≤ 128 → aligned f.vs1 → flt ∨ ty = .q4 → bad (.tld f) 0x06 f.vd)) ∧
    (¬ Owned k.tallot f.vs1 x → fits → c.vl ≤ 128 → aligned f.vd → flt → c.vt.ks = false →
      bad (.tmv f) 0x06 f.vs1 ∧ bad (.tcol f) 0x06 f.vs1) ∧
    (aligned f.vs1 → fits → ∀ trans : Bool, let i : Instr := if trans then .mmat f else .mma f
      (¬ Owned k.tallot f.vd x → bad i 0x06 f.vd) ∧
      (Owned k.tallot f.vd x → (¬ Owned k.wallot f.vs2 x → bad i 0x07 f.vs2) ∧
        (Owned k.wallot f.vs2 x →
          ((k.forme f.vs2.toNat).activeTag = none → bad i 0x08 f.vs2) ∧
          ∀ p, (k.forme f.vs2.toNat).activeTag = some p →
            let takes : Prop := match p.fmt with
              | 0 => ty = .flt .bf16 | 1 => ty = .flt .fp16 | 2 | 3 | 6 => ty = .flt .e4m3 ∨ ty = .flt .e5m2 | _ => ty = .q4
            let within : Prop := if trans then c.vl ≤ p.n ∧ c.shape ≤ p.k else c.vl ≤ p.k ∧ c.shape ≤ p.n
            (¬ takes → bad i 0x09 f.vs2) ∧ (takes → ¬ within → bad i 0x0A f.vs2) ∧
            (takes → within → trans = true → 4 ≤ p.fmt → bad i 0x0B f.vs2))))

/-- The state of the matrix engine, and its handles (R231, R233, R235-R239, R241, R244, R258). -/
def Obligations.MatrixState : Prop :=
  Sys2Proof.Claims.MatrixUpdates ∧ Sys2Proof.Claims.MatrixRefusals

/-- `mma` and `mmat`: every element of rows row to row + G - 1, columns 0 to N - 1, of an owned tile receives Acc over the active
indices below `vl`, or poison; flags are set without a trap, MDERR for a metadata group that does not rise; nothing is written with
`vl` = 0 (R108, R240-R242). -/
def Obligations.MatrixProducts : Prop :=
  ∀ (s : State) (f : Op64) (trans : Bool) (p : Plane), let c := here s; let x := s.cur; let k := s.core (coreOf x)
    let i : Instr := if trans then .mmat f else .mma f
    let ty := c.vt.ty; let fmt := p.tag.fmt
    let a (r j : Nat) : Val × Bool := let v := cell c c.vt.bitsW (f.vs1.toNat + r) j; (srcValue c c.vt ty r j v.1, v.2 != 0)
    let b (n j : Nat) : Val × Bool := if trans then (p.weight j n, p.marked j n) else (p.weight n j, p.marked n j)
    let out (r n : Nat) := productOf c.vl c.top.getLsbD (a r) (b n) (tileCell k.tiles f.vd.toNat (f.mod12.toNat + r) n)
    let falls := trans = false ∧ 5 ≤ fmt ∧ ∃ cb < (c.shape + 7) / 8, ∃ j < (c.vl + 3) / 4,
      let nib := (Tab.look 0 p.mdata cb).toNat / 16 ^ j % 16; nib / 4 ≤ nib % 4
    Ready s i .matrix → f.vs1.toNat % c.vt.size = 0 → f.mod12.toNat + c.vt.size ≤ 128 → Owned k.tallot f.vd x → Owned k.wallot f.vs2 x →
    (k.forme f.vs2.toNat).active = some p → (k.forme f.vs2.toNat).activeTag = some p.tag →
    (match fmt with | 0 => ty = .flt .bf16 | 1 => ty = .flt .fp16 | 2 | 3 | 6 => ty = .flt .e4m3 ∨ ty = .flt .e5m2 | _ => ty = .q4) →
    (trans = false → c.vl ≤ p.tag.k ∧ c.shape ≤ p.tag.n) → (trans = true → c.vl ≤ p.tag.n ∧ c.shape ≤ p.tag.k ∧ fmt < 4) →
    ∃ tl fl, exec i s = .next (pushed i .matrix x (((issuing i .matrix f false s).modCtx x fun k =>
        { k with vcsr := { k.vcsr with flags := fl } }).modCore (coreOf x) fun k => { k with tiles := tl })) ∧
      (∀ j r, ∀ col < 128, tileCell tl j r col =
        if j = f.vd.toNat ∧ f.mod12.toNat ≤ r ∧ r < f.mod12.toNat + c.vt.size ∧ col < c.shape ∧ 0 < c.vl then
          (match (out (r - f.mod12.toNat) col).1 with | some v => (v % 2 ^ 32, false) | none => (0, true))
        else tileCell k.tiles j r col) ∧
      ∀ n < 9, fl.getLsbD n = true ↔ c.vcsr.flags.getLsbD n = true ∨ 0 < c.vl ∧
        (n = 8 ∧ falls ∨ ∃ r < c.vt.size, ∃ col < c.shape, (out r col).2.testBit n = true)

/-- `tmv`, `tcol` and `tld` convert elements between a group and rows or columns of an owned tile, for the active columns below `vl`, with
`frm` and flags that never trap; poison moves with its element (R243). -/
def Obligations.TileMoves : Prop :=
  ∀ (s : State) (f : Op64) (col : Bool), let c := here s; let x := s.cur; let k := s.core (coreOf x); let ty := c.vt.ty
    let o := f.mod12.toNat; let m := rmOf c.vcsr.frm.toNat
    let flt : Prop := ∃ t, ty = .flt t
    o + c.vt.size ≤ 128 → c.vl ≤ 128 →
    (let i : Instr := if col then .tcol f else .tmv f
     let src (r j : Nat) := if col then tileCell k.tiles f.vs1.toNat j (o + r) else tileCell k.tiles f.vs1.toNat (o + r) j
     let res (r j : Nat) : Res := if (src r j).2 then .poison else if ty = .flt .fp32 then .val (src r j).1 0 else
       let v := convertVal ty m c.vcsr.sat8 (r * c.vl + j) (Fmt.decode .fp32 (src r j).1); .val v.1 v.2
     Ready s i .matrix → f.vd.toNat % c.vt.size = 0 → flt → c.vt.ks = false → Owned k.tallot f.vs1 x →
     ∃ c', Leaves i .matrix s c' ∧ RowsOnly (retired .matrix i f false c) c' ∧
       Lanes c c' c.vt.size c.vl 0 ty.width c.top false (fun r j => (f.vd.toNat + r, j)) res fun r j => Res.flags (res r j)) ∧
    (let res (r j : Nat) : Nat × Nat := let v := cell c ty.width (f.vs1.toNat + r) j
       if ty = .flt .fp32 then (v.1, 0) else roundTo .fp32 m false (r * c.vl + j) (srcValue c c.vt ty r j v.1)
     let bad (r j : Nat) : Bool := (cell c ty.width (f.vs1.toNat + r) j).2 != 0
     Ready s (.tld f) .matrix → f.vs1.toNat % c.vt.size = 0 → (flt ∨ ty = .q4) → Owned k.tallot f.vd x →
     ∃ tl fl, exec (.tld f) s = .next (pushed (.tld f) .matrix x (((issuing (.tld f) .matrix f false s).modCtx x fun k =>
         { k with vcsr := { k.vcsr with flags := fl } }).modCore (coreOf x) fun k => { k with tiles := tl })) ∧
       (∀ t r, ∀ j < 128, tileCell tl t r j = if t = f.vd.toNat ∧ o ≤ r ∧ r < o + c.vt.size ∧ j < c.vl ∧ c.top.getLsbD j = true then
           (if bad (r - o) j then (0, true) else ((res (r - o) j).1 % 2 ^ 32, false)) else tileCell k.tiles t r j) ∧
       ∀ n < 9, fl.getLsbD n = true ↔ c.vcsr.flags.getLsbD n = true ∨ ∃ r < c.vt.size, ∃ j < c.vl, c.top.getLsbD j = true ∧
           bad r j = false ∧
         (res r j).2.testBit n = true)

/-! ## Tokens, the chase, copies and waits -/

/-- The counters and terms of the chase, pulses and tokens, after each of which the chase looks at its terms, `waitc`, `vfence`, and the
start of a chain by `cpy` behind its fork edge (R210-R220, R226, R252, R257, R258). -/
def Obligations.EngineInstructions : Prop :=
  ∀ (s s1 : State) (f : Op64) (p : Place), let c := here s; let x := s.cur; let w := c.rg (gpr f.vs1); let v := c.rg (gpr f.vs2)
    let field (hi lo : Nat) := w.toNat / 2 ^ lo % 2 ^ (hi + 1 - lo)
    let on (i : Instr) (t : State) : Prop := exec i s = .next (t.modCtx x fun k => { k with pc := c.pc + len f })
    let queueOfFifo (give : Bool) : QueueNo := match f.fn4.toNat with
      | 0 => if give then .vector else .matrix | 1 => if give then .matrix else .vector | 2 => if give then .vector else .copy
      | 3 => if give then .copy else .vector | 4 => if give then .matrix else .copy | _ => if give then .copy else .matrix
    let free (q : QueueNo) : Prop := q = .copy → c.copying = false
    let goodCounter : Prop := field 63 26 = 0 ∧ field 24 24 = 0 ∧ field 7 6 = 0 ∧ (field 5 0 < 8 ∨ 16 ≤ field 5 0 ∧ field 5 0 < 32) ∧
      (field 25 25 = 1 → field 23 8 ≠ 0)
    let goodTerm : Prop := field 39 36 = 0 ∧ field 34 32 ≤ 4 ∧ field 15 14 = 0 ∧ field 31 30 = 0 ∧
      (if field 34 32 = 4 then field 63 40 % 32 = 0 ∧ field 63 40 < 0x800000 else field 63 40 = 0) ∧ (field 34 32 ≠ 0 → field 31 0 ≠ 0)
    (goodCounter → on (.evcfgCnt f) ((s.modCore (coreOf x) fun k =>
      { k with counters := Tab.put k.counters (f.fn4.toNat % 8) ⟨x, w, 0⟩ }).lookTerms (coreOf x))) ∧
    (¬ goodCounter → Idle s → Traps (.evcfgCnt f) s s { cause := 0x03, info := 4 }) ∧
    (goodTerm → on (.evcfgTerm f) ((s.modCore (coreOf x) fun k =>
      { k with terms := Tab.put k.terms (f.fn4.toNat % 8) ⟨x, w, field 34 32 != 0, .low, c.seq, c.level, c.asid⟩ }).lookTerms (coreOf x))) ∧
    (¬ goodTerm → Idle s → Traps (.evcfgTerm f) s s { cause := 0x03, info := 4 }) ∧
    (let q : QueueNo := match f.fn3.toNat with | 0 => .vector | 1 => .matrix | _ => .copy
     Ready s (.evpulse f) q → free q →
         exec (.evpulse f) s = .next (((s.setCtx x (retired q (.evpulse f) f false c)).modCore (coreOf x) fun k =>
       { k with counters := k.counters.map fun e => if e.2.word.getLsbD 25 = true ∧ e.2.word.toNat % 64 = f.fn4.toNat ∧ e.2.owner = x then
           (e.1, { e.2 with count := Nat.min (e.2.count + 1) 65535 }) else e }).lookTerms (coreOf x))) ∧
    (f.fn4.toNat < 6 → Ready s (.tkwait f) (queueOfFifo false) →
      Leaves (.tkwait f) (queueOfFifo false) s (retired (queueOfFifo false) (.tkwait f) f false c)) ∧
    (f.fn4.toNat < 6 → Ready s (.tkpush f) (queueOfFifo true) → free (queueOfFifo true) →
      Leaves (.tkpush f) (queueOfFifo true) s (retired (queueOfFifo true) (.tkpush f) f false c)) ∧
    (w.toNat % 8 = 0 → c.memBlocked 15 false w 8 = false → place (self s) (.core (coreOf x)) .read false w s = .ok p s1 →
      let r := (s1.acquire x f.fn3.toNat).readBy x p 8
      let t := r.1.learnWord x f.fn3.toNat p.word {}
      (r.2.2 = true → Idle s → Traps (.waitc f) s t { cause := 0x0F, addr := w }) ∧
      (r.2.2 = false → (v.toNat ≤ r.2.1 → on (.waitc f) t) ∧ (r.2.1 < v.toNat → exec (.waitc f) s = .next t))) ∧
    (w.toNat % 8 ≠ 0 → Idle s → Traps (.waitc f) s s { cause := 0x05, addr := w }) ∧
    (let mask := f.fn4.toNat * 4096 + f.mod12.toNat; let t := issuing (.vfence f) .vector f false s
     Ready s (.vfence f) .vector → (mask = 0 → Leaves (.vfence f) .vector s (retired .vector (.vfence f) f false c)) ∧
      (mask ≠ 0 → Acked s f.fn3.toNat → exec (.vfence f) s = .next (pushed (.vfence f) .vector x
        (let u := t.fence x f.fn3.toNat mask true; if f.fn3 = 6 then u.vfencePersist x mask else u)))) ∧
    (w.toNat % 32 = 0 → v.toNat % 8 = 0 → w.toNat / 2 ^ 23 = 0x00FFFF0000000000 / 2 ^ 23 →
      w.toNat % 2 ^ 23 < (match Tab.find s.hub.launches c.tag.toNat with | some l => l.dmax * 0x40000 | none => 0) →
      Ready s (.cpy f) .copy → c.chain = none →
      let begun := issuing (.cpy f) .copy f false s
      let t := begun.fork x f.cls4.toNat f.fn3.toNat
      let chain : Chain :=
        { head := w, at_ := w, obj := v, chase := false, scope := f.fn3.toNat, push := f.tkpush.toNat, level := c.level, asid := c.asid,
          fwd := decide (c.mode = .fwd), tag := c.tag, loops := [], start := c.start, exited := false, no := t.serial,
          hb := joinClock (entryOf (.cpy f) .copy f false s).hb (begun.before.at_ (s.base x + queuePart .copy)) }
      exec (.cpy f) s = .next (({ t with serial := t.serial + 1 }.begins t.serial c.tag []).modCtx x fun k => { k with chain := some chain }))

/-- The token checks of a dispatch (R211): a pop without a promise, and a push where 16 are promised, raise TOKEN_UNDERRUN; a push where
16 are not taken waits. A pop from the copy engine that no promise is left for traps when it is the oldest. That a start of the
chase which waits for the slot counts as a chain in flight is the model's choice (R220). -/
def Sys2Proof.Claims.TokenTraps : Prop :=
  ∀ (s : State) (k : Fifo), let c := here s
    let empty : Prop := (c.tok k).u ≤ 0 ∧ ¬ ((k = .cv ∨ k = .cm) ∧ c.chained = true)
    let under (i : Instr) (full : Nat) : Prop := Traps i s s { cause := 0x0A, info := BitVec.ofNat 64 (k.ix + 16 * full) }
    (∀ f : Op64, Idle s → f.fn4.toNat = k.ix → (empty → under (.tkwait f) 0) ∧ ((c.tok k).u = 16 → under (.tkpush f) 1)) ∧
    (∀ f : Op64, f.fn4.toNat = k.ix → (c.tok k).u ≠ 16 → (c.tok k).f = 16 → exec (.tkpush f) s = .next s) ∧
    (∀ i l, intTable i = some l → Idle s → l.form c → ((instrTokens i .vector).pop = some k → empty → under i 0) ∧
      ((instrTokens i .vector).pop = none → (instrTokens i .vector).push = some k → (c.tok k).u = 16 → under i 1)) ∧
    ∀ (x : CtxNo) (pre rest : List Entry) (e : Entry), let c := s.ctx x
      c.queue = pre ++ e :: rest → (∀ o ∈ pre, o.parked = true) → (∀ o ∈ rest, e.seq < o.seq) → e.parked = false →
      (k = .cv ∨ k = .cm) → (instrTokens e.instr e.queue).pop = some k → e.popped = false →
      (e.doomed = true ∨ (c.tok k).held = 0 ∧ (c.tok k).u < 0 ∧ c.chained = false ∧ ∀ o ∈ c.queue, o.parked = true ∨ ∀ g, o.instr ≠ .cpy g) →
      c.trap.tvec ≠ 0 → c.level = e.level → c.level ≠ .f →
      ∃ t, s.pump x = some t ∧ t.mem = s.mem ∧ let c' := t.ctx x
        c'.pc = c.trap.tvec ∧ c'.trap.tepc = e.pc ∧ c'.trap.tinfo = BitVec.ofNat 64 k.ix ∧ c'.g = c.g ∧ c'.v = c.v ∧
        c'.trap.tcause = BitVec.ofNat 64 (0x0A + if c.level = .u then 2 ^ 15 else 2 ^ 12)

/-- An input of a term that is false and that no dispatched instruction and no chain can make true (R217). -/
def Sys2Proof.Claims.deadInput (s : State) (x : CtxNo) (bit : Nat) : Prop :=
  (bit < 8 ∧ ∃ n, Tab.find (s.core (coreOf x)).counters bit = some n ∧ n.word.getLsbD 25 = true ∧ n.word.toNat % 64 < 8 ∧
    (s.ctx n.owner).chained = false ∧
    n.count + ((s.ctx n.owner).queue.filter fun e => match e.instr with
      | .evpulse f => decide (f.fn4.toNat % 8 = n.word.toNat % 64) | _ => false).length < n.word.toNat / 2 ^ 8 % 2 ^ 16) ∨
  (8 ≤ bit ∧ bit < 14 ∧ ((s.ctx x).tok (fifoIx (bit - 8))).held = 0 ∧ ((s.ctx x).tok (fifoIx (bit - 8))).f = 0)

/-- Dispatch into a full share (R207, R217): it waits; where a term of the context holds the queue and cannot become true, an input of
its and-mask dead or every one of its or-mask, the instruction that cannot dispatch raises HOLD_UNDERRUN with the term's index. -/
def Sys2Proof.Claims.HoldTraps : Prop :=
  ∀ (s : State) (f : Op64) (q : QueueNo), let x := s.cur
    let k := s.core (coreOf x)
    let holds (j : Nat) (t : Term) : Prop := j < 8 ∧ Tab.find k.terms j = some t ∧ t.owner = x ∧ t.armed = true ∧
      t.word.toNat / 2 ^ 32 % 8 = (match q with | .vector => 1 | .matrix => 2 | .copy => 3)
    f.fn3.toNat = (match q with | .vector => 0 | .matrix => 1 | .copy => 2) → s.shareFull x q = true →
    ((∀ j t, ¬ holds j t) → exec (.evpulse f) s = .next s) ∧
    (∀ j t, holds j t → (∀ j' t', holds j' t' → j' = j) → (∀ e ∈ (here s).queue, e.parked = true ∨ s.heldEntry x e = true) →
      ((∃ b < 16, t.word.getLsbD b = true ∧ deadInput s x b) ∨
        (∃ b < 16, t.word.getLsbD (16 + b) = true) ∧ ∀ b < 16, t.word.getLsbD (16 + b) = true → deadInput s x b) →
      Traps (.evpulse f) s s { cause := 0x16, info := BitVec.ofNat 64 j })

/-- A mismatch of the proof lane or the proof column (R246, R297, R298): the first replays, counted as corrected, unless firmware withdraws
the core at it; the second withdraws the core, whose other contexts receive PREEMPT, and raises CHECK with nothing written. -/
def Sys2Proof.Claims.CheckTraps : Prop :=
  ∀ (s : State) (twice : Bool), let x := s.cur; let c := here s; let k := s.core (coreOf x)
    let clean : State := { s with upset := none }
    let replays (i : Instr) : Prop := exec i s = exec i (clean.modCore (coreOf x) fun k => { k with corrected := Nat.min (k.corrected + 1) 65535 })
    let gone (t : State) : Prop := (t.core (coreOf x)).withdrawn = true ∧ t.mem = s.mem ∧ (t.ctx x).v = c.v ∧ (t.ctx x).vcsr = c.vcsr ∧
      ∀ y ∈ ctxsOfCore (coreOf x), y ≠ x → (s.ctx y).status = .running → (s.ctx y).signalled = false →
        (t.ctx y).signalled = true ∧ ∃ w, ⟨0x11, 0, w⟩ ∈ (t.ctx y).async
    s.upset = some (x, twice) → c.trap.tvec ≠ 0 → c.level ≠ .f →
    (∀ i l, intTable i = some l → Ready clean i .vector → l.form c → (twice = false → k.firstMismatch = false → replays i) ∧
      (twice = true ∨ k.firstMismatch = true → ∃ t, ∃ cl < 8, exec i s = .next t ∧ gone t ∧
        EntryTraps i l.f s (t.ctx x) { cause := 0x10, info := BitVec.ofNat 64 (16 * cl),
                                       elem := (32 * cl + k.proofLane % 32) * 32 / (opTy c.vt l.f).width } (startOf c))) ∧
    (∀ (f : Op64) (trans : Bool), let i : Instr := if trans then .mmat f else .mma f
      Ready clean i .matrix → mmaCheck (if trans then 0x94 else 0x93) f x c s = .ok () s →
      (twice = false → k.firstMismatch = false → replays i) ∧
      (twice = true ∨ k.firstMismatch = true → ∃ t, exec i s = .next t ∧ gone t ∧ (t.core (coreOf x)).tiles = k.tiles ∧
        EntryTraps i f s (t.ctx x) { cause := 0x10, info := 1 } 0 .matrix))

/-- The traps of the queues beside those of elements: tokens, holds and checking (R211, R217, R246, R297, R298). -/
def Obligations.QueueTraps : Prop :=
  Sys2Proof.Claims.TokenTraps ∧ Sys2Proof.Claims.HoldTraps ∧ Sys2Proof.Claims.CheckTraps

/-! ## Commands of the package's engines -/

/-- The reduce stores of the context that a fork edge of a class covers are acknowledged (R363, R366, R406). -/
def Sys2Proof.Claims.Forked (s : State) (cls : Nat) : Prop :=
  ∀ r ∈ (here s).remote, r.acked = true ∨ r.major ≠ 0xC2 ∨ (cls ≠ 15 ∧ r.cls ≠ 15 ∧ r.cls ≠ cls)

/-- The optimiser commands read their block, check it and their arrays, and start behind their fork edge: the used arrays on MS
pages, each in one page, aligned and apart, the unused bases 0, and the object outside the window. The first condition of R366 that fails
traps (R364-R366). -/
def Sys2Proof.Claims.OptimiserCommands : Prop :=
  ∀ (s s1 s2 : State) (f : Op64) (w : List Word) (bases : List Nat), let c := here s; let x := s.cur
    let a := c.rg (gpr f.vs1); let obj := c.rg (gpr f.vs2); let cls := f.cls4.toNat
    let word (k : Nat) : Word := w.getD k 0
    let n := (word 0).toNat; let half := (word 8).toNat / 2 ^ 32; let grad := if half = 1 then 2 else 4
    let arrays (op : Nat) : List (Nat × Nat) :=
      [(1, 4)] ++ (if op ≠ 3 then [(2, grad)] else []) ++ (if op ≤ 1 then [(3, 4)] else []) ++ (if op = 0 then [(4, 4)] else [])
    let at_ (k : Nat) := (word k).toNat
    let page (k : Nat) : Nat := match s1.peek (.core (coreOf x)) c.asid (word k) with
      | some (_, _, false) => 2 ^ 16 | _ => 2 ^ 29
    let fields (op : Nat) : Prop := half < 2 ∧ word 9 = 0 ∧ word 10 = 0 ∧ word 11 = 0 ∧
      ∀ k, 1 ≤ k → k ≤ 4 → if k ∈ (arrays op).map Prod.fst then at_ k % 64 = 0 else word k = 0
    let placed (op : Nat) (v : Nat × Nat) : Prop := at_ v.1 % page v.1 + n * v.2 ≤ page v.1 ∧
      ∀ o ∈ arrays op, o.1 < v.1 → n = 0 ∨ at_ v.1 + n * v.2 ≤ at_ o.1 ∨ at_ o.1 + n * o.2 ≤ at_ v.1
    ∀ i op, (i, op) ∈ [(Instr.nmopAdamw f, 0), (.nmopSgdm f, 1), (.nmopScadd f, 2), (.nmopClr f, 3)] →
      (a.toNat % 32 ≠ 0 → Idle s → Traps i s s { cause := 0x05, addr := a }) ∧
      (a.toNat % 32 = 0 → obj.toNat % 8 ≠ 0 ∨ obj = 0 → Idle s → Traps i s s { cause := 0x05, addr := obj }) ∧
      (a.toNat % 32 = 0 → obj.toNat % 8 = 0 → obj ≠ 0 → NoAccess s → w.length = 12 →
        readsAt { self s with noWindow := true } (frontReads x) ((List.range 12).map fun k => a + BitVec.ofNat 64 (8 * k)) s =
          some (w.map fun v => (v.toNat, false), s1) →
        (¬ fields op → Idle s → Traps i s s1 { cause := 0x03, info := 0x1E }) ∧
        (fields op → ∀ v ∈ arrays op, ¬ placed op v → (∀ o ∈ arrays op, o.1 < v.1 → placed op o) → Idle s →
          Traps i s s1 { cause := 0x03, addr := word v.1, info := 0x1F }) ∧
        (fields op → (∀ v ∈ arrays op, placed op v) → nmBases { self s with noWindow := true } (nmArrays op w) s1 = .ok bases s2 →
          inWindow obj = false → Forked s cls →
          let t := s2.fork x cls f.fn3.toNat
          let started : Nmop :=
            { no := t.serial, x := x, tag := c.tag, asid := c.asid, level := c.level, op := op, scope := f.fn3.toNat, obj := obj, block := w,
              bases := bases, left := List.range n, hb := t.forkClock x cls }
          exec i s = .next (State.modCtx { { t with serial := t.serial + 1 }.begins t.serial c.tag [] with nmops := t.nmops ++ [started] } x
            fun k => { k with pc := c.pc + len f })))

/-- The fields of a collective's record are valid (R411). -/
def Sys2Proof.Claims.RecordValid (w : List Word) : Prop :=
  let word (k : Nat) : Nat := (w.getD k 0).toNat
  let ctl := word 0; let op := ctl % 4; let wf := ctl / 4 % 4; let et := ctl / 16 % 4
  let size := if et = 1 then 2 else 4; let levels := ctl / 512 % 4 + 1
  op ≤ 1 ∧ wf ≤ 2 ∧ et ≤ 2 ∧ ctl / 64 % 8 ≤ 5 ∧ ctl / 2 ^ 11 % 2 ^ 21 = 0 ∧ 1 ≤ ctl / 2 ^ 32 ∧ ctl / 2 ^ 32 ≤ 65536 ∧
  word 1 % size = 0 ∧ word 2 % (if op = 1 then 4 else size) = 0 ∧ word 3 % 8 = 0 ∧ word 5 < 2 ^ 32 ∧ word 6 % 8 = 0 ∧
  word 7 / 2 ^ 6 % 4 = 0 ∧ word 7 / 2 ^ 14 % 4 = 0 ∧ word 7 / 2 ^ 22 % 2 ^ 26 = 0 ∧
  (∀ j < 4, if j < levels then word (8 + 2 * j) < 2 ^ 40 else word (8 + 2 * j) = 0 ∧ word (9 + 2 * j) = 0) ∧
  (op = 1 → wf = 0 ∧ et ≤ 1 ∨ wf = 1 ∧ et = 0 ∨ wf = 2 ∧ et = 2)

/-- `coll` reads its record, checks it, and starts behind its fork edge in a free record of its die, for which it waits; the first
condition of R410 that fails traps (R410, R411). -/
def Sys2Proof.Claims.CollectiveCommand : Prop :=
  ∀ (s s1 : State) (f : Op64) (w : List Word), let c := here s; let x := s.cur
    let a := c.rg (gpr f.vs1); let obj := c.rg (gpr f.vs2); let cls := f.cls4.toNat
    (a.toNat % 64 ≠ 0 → Idle s → Traps (.coll f) s s { cause := 0x05, addr := a }) ∧
    (a.toNat % 64 = 0 → obj.toNat % 8 ≠ 0 ∨ obj = 0 → Idle s → Traps (.coll f) s s { cause := 0x05, addr := obj }) ∧
    (a.toNat % 64 = 0 → obj.toNat % 8 = 0 → obj ≠ 0 → NoAccess s → w.length = 16 →
      readsAt (self s) (frontReads x) ((List.range 16).map fun k => a + BitVec.ofNat 64 (8 * k)) s = some (w.map fun v => (v.toNat, false), s1) →
      (¬ RecordValid w → Idle s → Traps (.coll f) s s1 { cause := 0x03, info := 0x24 }) ∧
      (RecordValid w → Forked s cls →
        ((∀ j < 64, Tab.find (s1.die (dieOf x)).coll j ≠ none) → exec (.coll f) s = .next s1) ∧
        ∀ j < 64, Tab.find (s1.die (dieOf x)).coll j = none → (∀ i < j, Tab.find (s1.die (dieOf x)).coll i ≠ none) →
          let t := s1.fork x cls f.fn3.toNat
          let started : Coll :=
            { x := x, tag := c.tag, asid := c.asid, level := c.level, scope := f.fn3.toNat, obj := obj, words := w, next := 0, flight := [],
              failed := false, start := c.start, no := t.serial, hb := t.forkClock x cls }
          exec (.coll f) s = .next (((({ t with serial := t.serial + 1 } : State).begins t.serial c.tag []).modDie (dieOf x) fun d =>
            { d with coll := Tab.put d.coll j started }).modCtx x fun k => { k with pc := c.pc + len f })))

/-- The commands of the package's engines (R364-R366, R410, R411). -/
def Obligations.EngineCommands : Prop :=
  Sys2Proof.Claims.OptimiserCommands ∧ Sys2Proof.Claims.CollectiveCommand

/-! ## Differentiation -/

/-- `dreg` enters a descriptor's region at the lowest free index of its asid's table, when its fields are in range (else code 0x11), no
range
of it meets a range of another or its own adjoint range (0x12), and a place is free (0x13); `dunreg` removes one behind all adjoint
traffic; neither runs outside OFF (0x19). `dmode` changes the mode behind the context's own adjoint traffic and spills (R264-R268). -/
def Obligations.RegionsAndModes : Prop :=
  ∀ (s s1 : State) (f : Op64) (base n adj ctl : Word), let c := here s; let x := s.cur; let a := c.rg (gpr f.vs1)
    let slot (k : Nat) := c.asid.toNat * 64 + k
    let size (t : BitVec 2) : Nat := match t.toNat with | 0 => 4 | 1 => 2 | _ => 1
    let cells (q : Region) := q.len.toNat / size q.type * 4
    let r : Region := ⟨base, n, ctl.extractLsb' 0 2, adj, ctl.getLsbD 8, ctl.getLsbD 9⟩
    let meets (u v w z : Nat) : Prop := u < w + z ∧ w < u + v
    let good : Prop := base.toNat % 64 = 0 ∧ adj.toNat % 64 = 0 ∧ n.toNat % 64 = 0 ∧ n ≠ 0 ∧ ctl.toNat / 1024 = 0 ∧ ctl.toNat / 4 % 64 = 0
    let clear : Prop := ¬ meets adj.toNat (cells r) base.toNat n.toNat ∧ ∀ k < 64, ∀ o, Tab.find s1.regions (slot k) = some o →
      ¬ meets base.toNat n.toNat o.base.toNat o.len.toNat ∧ ¬ meets base.toNat n.toNat o.adj.toNat (cells o) ∧
      ¬ meets adj.toNat (cells r) o.base.toNat o.len.toNat
    let next (i : Instr) (t : State) (g : Ctx → Ctx) : Prop := exec i s = .next (t.modCtx x fun k => { g k with pc := c.pc + len f })
    let bad (i : Instr) (t : State) (code : Word) : Prop := Idle s → Traps i s t { cause := 0x03, info := code }
    (c.mode = .off → a.toNat % 8 = 0 → NoAccess s →
      readsAt (self s) (frontReads x) [a, a + 8, a + 16, a + 24] s = some ([base, n, adj, ctl].map fun v => (v.toNat, false), s1) →
      (∀ k < 64, good → clear → Tab.find s1.regions (slot k) = none → (∀ j < k, Tab.find s1.regions (slot j) ≠ none) →
        next (.dreg f) { s1 with regions := Tab.put s1.regions (slot k) r } fun k' => k'.wg (gpr f.vd) (BitVec.ofNat 64 k)) ∧
      (¬ good → bad (.dreg f) s1 0x11) ∧ (good → ¬ clear → bad (.dreg f) s1 0x12) ∧
      (good → clear → (∀ k < 64, Tab.find s1.regions (slot k) ≠ none) → bad (.dreg f) s1 0x13)) ∧
    (c.mode = .off → NoAccess s → a.toNat < 64 → Tab.find s.regions (slot a.toNat) ≠ none →
      next (.dunreg f) (let t := s.settle fun p => p.adj; { t with regions := Tab.del t.regions (slot a.toNat) }) id) ∧
    (c.mode = .off → (64 ≤ a.toNat ∨ Tab.find s.regions (slot a.toNat) = none) → bad (.dunreg f) s 0x14) ∧
    (c.mode ≠ .off → bad (.dreg f) s 0x19 ∧ bad (.dunreg f) s 0x19) ∧
    ∀ i m, (i, m) ∈ [(Instr.dmodeOff f, DMode.off), (.dmodeFwd f, .fwd), (.dmodeRev f, .rev)] → NoAccess s →
      next i ((s.settle fun p => p.x == x && p.adj).spillGalley x) fun k => { k with mode := m }

/-- An entry pushed on the galley at `galptr`: where the context's buffer is full, its oldest entry goes to memory first (R271). -/
def Sys2Proof.Claims.pushEntry (ag : Agent) (bytes : List Byte) (marks : List Nat) (s : State) : State :=
  let c := s.ctx ag.x
  let s1 := match c.galBuf with
    | o :: t => if 32 ≤ c.galBuf.length then (State.spillOne ag s o).modCtx ag.x fun k => { k with galBuf := t } else s
    | [] => s
  s1.modCtx ag.x fun k => { k with galBuf := k.galBuf ++ [⟨c.galptr, bytes, marks⟩], galptr := k.galptr + 128 }

/-- Reads of adjoint cells at home, in order, each behind a purge of its line; with a scope, each is an acquire (R277). -/
def Sys2Proof.Claims.cellsAt (ag : Agent) (e : Entry) (cls scope : Nat) : List Word → State → Option (List (Nat × Bool) × State)
  | [], s => some ([], s)
  | va :: l, s => match place ag (.core (coreOf ag.x)) .read true va s with
    | .ok p s1 =>
      let a := s1.entryAccess ag.x e cls
      let s2 := ((s1.purgePlace ag.x p).sawWord ag.x p.word a).access ag.x a
      let s3 := if scope = 0 then s2 else s2.learnWord ag.x scope p.word a
      (cellsAt ag e cls scope l s3).map fun r => (s3.atomRead p.home.1 p.home.2 4 :: r.1, r.2)
    | .error _ _ => none

/-- Clears of adjoint cells, in order, each behind a purge of its line: posted, in a window performed; with a scope, each is a release
(R277, R316). -/
def Sys2Proof.Claims.clearsAt (ag : Agent) (e : Entry) (cls scope : Nat) : List Word → State → Option State
  | [], s => some s
  | va :: l, s => match place ag (.core (coreOf ag.x)) .write true va s with
    | .ok p s1 =>
      let a : Atom := ⟨p.home.1, p.home.2, 4, .clear, 0, false⟩
      let s2 := s1.purgePlace ag.x p
      let acc := s2.entryAccess ag.x e cls
      clearsAt ag e cls scope l (match p with
        | .window _ _ =>
          let t := (s2.atomBy ag.x a acc).1
          if scope = 0 then t else t.publishWord ag.x scope p.word acc e.past
        | .phys _ _ => s2.post ag.x cls scope true true [a]
          (if scope = 0 then none else some ⟨ag.x, scope, s2.releaseClock (s2.base ag.x) scope acc e.past⟩))
    | .error _ _ => none

/-- `galset` sets the galley's range, `galmark` pushes a marker and gives its address, `galcut` cuts the galley at a marker; where their
operands fail they raise BADHANDLE with 0x16 and 0x17, and GALLEY_OVF (R276). That the buffer holds 32 entries, and that the
three keep `vstart`, is the model's choice (logs 32, 44). -/
def Sys2Proof.Claims.GalleyInstructions : Prop :=
  ∀ (s s1 : State) (f : Op64) (head : Nat) (bad : Bool), let c := here s; let x := s.cur
    let a := c.rg (gpr f.vs1); let b := c.rg (gpr f.vs2)
    let begun (i : Instr) := issuing i .vector f false s
    let traps (i : Instr) (t : TrapInfo) : Prop := c.trap.tvec ≠ 0 → c.level ≠ .f → ∃ t', exec i s = .next t' ∧ t'.mem = s1.mem ∧
      EntryTraps i f s (t'.ctx x) t 0 ∧ (t'.ctx x).galptr = c.galptr ∧ (t'.ctx x).gallim = c.gallim ∧ (t'.ctx x).galbase = c.galbase
    let good : Prop := a.toNat % 64 = 0 ∧ b.toNat % 64 = 0 ∧ (if a = 0 then c.galptr.toNat ≤ b.toNat else a.toNat ≤ b.toNat ∧ c.mode = .off)
    (Ready s (.galset f) .vector → good →
      (a = 0 → Leaves (.galset f) .vector s { retired .vector (.galset f) f false c with gallim := b }) ∧
      (a ≠ 0 → exec (.galset f) s = .next (pushed (.galset f) .vector x (((begun (.galset f)).spillGalley x).modCtx x fun k =>
        { k with galbase := a, galptr := a, gallim := b })))) ∧
    (Ready s (.galset f) .vector → ¬ good → s1 = s → traps (.galset f) { cause := 0x03, info := 0x16 }) ∧
    let marker := leBytes 8 2 ++ leBytes 8 c.galptr.toNat ++ List.replicate 112 0
    (Ready s (.galmark f) .vector → c.galptr.toNat + 128 ≤ c.gallim.toNat →
      checkVa (self s) .write false c.galptr (begun (.galmark f)) = .ok () s1 →
      exec (.galmark f) s = .next (pushed (.galmark f) .vector x ((pushEntry (self s) marker [] s1).modCtx x fun k =>
        k.wg (gpr f.vd) c.galptr))) ∧
    (Ready s (.galmark f) .vector → c.gallim.toNat < c.galptr.toNat + 128 → s1 = s →
      traps (.galmark f) { cause := 0x0C, addr := c.galptr, info := 128 }) ∧
    let inside : Prop := c.galbase.toNat ≤ a.toNat ∧ a.toNat < c.galptr.toNat ∧ (a.toNat - c.galbase.toNat) % 128 = 0
    let reads : Prop := galleyRead (self s) ((begun (.galcut f)).entryAccess x (entryOf (.galcut f) .vector f false s) 15) a 0
      (begun (.galcut f)) = .ok (head, bad) s1
    (Ready s (.galcut f) .vector → inside → reads → head % 4 = 2 →
      exec (.galcut f) s = .next (pushed (.galcut f) .vector x ((s1.modCtx x fun k =>
        { k with galptr := a, galBuf := k.galBuf.filter fun e => decide (e.addr.toNat < a.toNat) }).spillGalley x))) ∧
    (Ready s (.galcut f) .vector → (¬ inside ∧ s1 = s ∨ inside ∧ reads ∧ head % 4 ≠ 2) → traps (.galcut f) { cause := 0x03, info := 0x17 })

/-- `adjld` reads the cells of consecutive elements of one region at home, and `adjclr` clears them; where no region holds them, both
raise BADHANDLE with 0x18 (R277). -/
def Sys2Proof.Claims.AdjointAccess : Prop :=
  ∀ (s s1 : State) (f : Op64) (r : Region) (k : Nat) (vals : List (Nat × Bool)), let c := here s; let x := s.cur
    let a := c.rg (gpr f.vs1); let size := match r.type.toNat with | 0 => 4 | 1 => 2 | _ => 1
    let active := (List.range (c.vt.size * c.vl)).filter fun e => c.top.getLsbD (e % c.vl)
    let fits (q : Region) : Prop := let z := match q.type.toNat with | 0 => 4 | 1 => 2 | _ => 1
      a.toNat % z = 0 ∧ ∀ e ∈ active, let p := (a + BitVec.ofNat 64 (e * z)).toNat; q.base.toNat ≤ p ∧ p < q.base.toNat + q.len.toNat
    let found : Prop := k < 64 ∧ s.region c.asid k = some r ∧ fits r ∧ ∀ j < k, ∀ q, s.region c.asid j = some q → ¬ fits q
    let mine := active.filter fun e => decide (startOf c ≤ e)
    let cellsOf := mine.map fun e => r.adj + BitVec.ofNat 64 (((a + BitVec.ofNat 64 (e * size)).toNat - r.base.toNat) / size * 4)
    let lone (i : Instr) : Prop := Ready s i .vector → f.pfx = none → active ≠ [] → (∀ j < 64, ∀ q, s.region c.asid j = some q → ¬ fits q) →
      c.trap.tvec ≠ 0 → c.level ≠ .f →
      ∃ t', exec i s = .next t' ∧ t'.mem = s.mem ∧ t'.posted = s.posted ∧ EntryTraps i f s (t'.ctx x) { cause := 0x03, info := 0x18 } (startOf c)
    let vector : Prop := f.vd.toNat % c.vt.size = 0 ∧ c.vt.ty = .flt .fp32 ∧ c.vt.ks = false
    (vector → lone (.adjld f)) ∧ lone (.adjclr f) ∧
    (Ready s (.adjld f) .vector → f.pfx = none → vector → found → active ≠ [] →
      cellsAt (self s) (entryOf (.adjld f) .vector f true s) f.cls4.toNat f.fn3.toNat cellsOf
        ((issuing (.adjld f) .vector f true s).settle fun p => p.x == x && p.adj) = some (vals, s1) →
      let t := if f.fn3 = 0 then s1 else s1.acquire x f.fn3.toNat
      ∃ c', exec (.adjld f) s = .next (pushed (.adjld f) .vector x (t.setCtx x c')) ∧ RowsOnly (t.ctx x) c' ∧
        Lanes (t.ctx x) c' c.vt.size c.vl (startOf c) 32 c.top false (fun r col => (f.vd.toNat + r, col)) (loaded 32 c.vl (fun _ => false) (mine.zip vals))
          fun _ _ => 0) ∧
    (Ready s (.adjclr f) .vector → f.pfx = none → Acked s f.fn3.toNat → found → active ≠ [] →
      let t := issuing (.adjclr f) .vector f true s
      let e := entryOf (.adjclr f) .vector f true s
      clearsAt (self s) e f.cls4.toNat f.fn3.toNat cellsOf
        (if f.fn3 = 0 then t else t.release x f.fn3.toNat (t.entryAccess x e f.cls4.toNat) e.past) = some s1 →
      exec (.adjclr f) s = .next (pushed (.adjclr f) .vector x s1))

/-- The galley's instructions and explicit adjoint access (R276, R277). -/
def Obligations.GalleyAndAdjoint : Prop :=
  Sys2Proof.Claims.GalleyInstructions ∧ Sys2Proof.Claims.AdjointAccess

/-! ## Inverted accesses -/

/-- Checks of addresses without an access, in order: kind, whether it is a cell, and the address (R272, R274). -/
def Sys2Proof.Claims.checksAt (ag : Agent) : List (Acc × Bool × Word) → State → Option State
  | [], s => some s
  | (acc, cell, va) :: l, s => match checkVa ag acc cell va s with
    | .ok _ s1 => checksAt ag l s1
    | .error _ _ => none

/-- An inverted access and what it works on: its course, fields and context, the regions of an address, and its elements. -/
structure Sys2Proof.Claims.Inverted where
  k : Course
  f : Op64
  c : Ctx
  region : Word → Option (Nat × Region)
  elems : List Nat

/-- The address of an element, its bytes, and its region. -/
def Sys2Proof.Claims.Inverted.at_ (v : Inverted) (e : Nat) : Word := (addrOf v.k v.c v.f e).1
def Sys2Proof.Claims.Inverted.bytes (v : Inverted) : Nat := bytesOfElem v.c.vt.bitsW
def Sys2Proof.Claims.Inverted.reg (v : Inverted) (e : Nat) : Option Region := (v.region (v.at_ e)).map fun p => p.2
/-- The bits of an element's register, and whether it is poisoned. -/
def Sys2Proof.Claims.Inverted.own (v : Inverted) (e : Nat) : Nat × Bool :=
  let w := cell v.c v.c.vt.bitsW (v.f.vd.toNat + e / v.c.vl) (e % v.c.vl); (w.1, w.2 != 0)
/-- The bytes of a primal element of a region, and the cell of an address in it (R265). -/
def Sys2Proof.Claims.cellAt (r : Region) (va : Word) : Word :=
  let size := match r.type.toNat with | 0 => 4 | 1 => 2 | _ => 1
  r.adj + BitVec.ofNat 64 ((va.toNat - r.base.toNat) / size * 4)
/-- The format of a region's elements (R264). -/
def Sys2Proof.Claims.fmtOf (r : Region) : Fmt :=
  match r.type.toNat with | 0 => .fp32 | 1 => .bf16 | 2 => .e4m3 | _ => .e5m2
/-- An element is of its region's type, without scales (R270). -/
def Sys2Proof.Claims.Inverted.typed (v : Inverted) (e : Nat) : Prop :=
  ∀ r, v.reg e = some r → v.c.vt.ty = .flt (fmtOf r) ∧ v.c.vt.ks = false
/-- The elements that a store tapes: those in a region without `notape`. -/
def Sys2Proof.Claims.Inverted.taped (v : Inverted) : List Nat := v.elems.filter fun e => match v.reg e with | some r => !r.notape | none => false
/-- The lines of a store, in the order of the lowest element that touches each (R272). -/
def Sys2Proof.Claims.Inverted.lines (v : Inverted) : List Nat := (v.taped.map fun e => (v.at_ e).toNat / 64).eraseDups
/-- The lowest element of a line, its region's number, and the mask of its bytes. -/
def Sys2Proof.Claims.Inverted.low (v : Inverted) (ln : Nat) : Nat := (v.taped.find? fun e => (v.at_ e).toNat / 64 == ln).getD 0
def Sys2Proof.Claims.Inverted.tag (v : Inverted) (ln : Nat) : Nat := match v.region (v.at_ (v.low ln)) with | some p => p.1 | none => 0
def Sys2Proof.Claims.Inverted.covers (v : Inverted) (ln b : Nat) : Bool :=
  v.taped.any fun e => (v.at_ e).toNat / 64 == ln && decide ((v.at_ e).toNat % 64 ≤ b ∧ b < (v.at_ e).toNat % 64 + v.bytes)
def Sys2Proof.Claims.Inverted.mask (v : Inverted) (ln : Nat) : Nat := (List.range 64).foldl (fun m b => if v.covers ln b then m + 2 ^ b else m) 0
/-- The granules of a line with a covered byte. -/
def Sys2Proof.Claims.Inverted.granules (v : Inverted) (ln : Nat) : List Nat :=
  (List.range 8).filter fun g => (List.range 8).any fun j => v.covers ln (8 * g + j)

/-- The checks of every element of an inverted store: its primal address as a write, and in REV its cell as an atomic. -/
def Sys2Proof.Claims.Inverted.checks (v : Inverted) (rev : Bool) : List (Acc × Bool × Word) :=
  v.elems.flatMap fun e => (.write, false, v.at_ e) ::
    match v.reg e with | some r => if rev then [(.atomic, true, cellAt r (v.at_ e))] else [] | none => []

/-- The bytes of a line's data entry, with its old granules (R271), and the granules of the entry that are poisoned. -/
def Sys2Proof.Claims.Inverted.entry (v : Inverted) (ln : Nat) (old : Nat → Nat × Bool) : List Byte × List Nat :=
  (leBytes 8 (64 * ln + 1) ++ leBytes 8 (v.mask ln) ++ leBytes 8 (v.tag ln) ++ List.replicate 40 0 ++
    (List.range 64).map fun b => if v.covers ln b then BitVec.ofNat 8 ((old (b / 8)).1 / 256 ^ (b % 8)) else 0,
   ((v.granules ln).filter fun g => (old g).2).map fun g => g + 8)

/-- The stores of an access, for `storesAt`. -/
def Sys2Proof.Claims.Inverted.stores (v : Inverted) : List ((Word × Bool) × Nat × Bool) :=
  v.elems.map fun e => (addrOf v.k v.c v.f e, (v.own e).1, (v.own e).2)

/-- The loads of a REV load, in order: an element in a region adds its value to its cell, behind the check of its primal address as a
read and a purge of the cell's line, and is posted, in a window performed; any other reads (R273). -/
def Sys2Proof.Claims.addsAt (v : Inverted) (ag : Agent) (o : Entry) : List Nat → State → Option (List (Nat × Nat × Bool) × State)
  | [], s => some ([], s)
  | e :: l, s => match v.reg e with
    | some r => match checkVa ag .read false (v.at_ e) s with
      | .ok _ s1 => match place ag (.core (coreOf ag.x)) .atomic true (cellAt r (v.at_ e)) s1 with
        | .ok p s2 =>
          let wide := (roundTo .fp32 .rne false 0 ((fmtOf r).decode (v.own e).1)).1
          let a : Atom := ⟨p.home.1, p.home.2, 4, .fadd, wide, (v.own e).2⟩
          let s3 := s2.purgePlace ag.x p
          addsAt v ag o l (match p with
            | .window _ _ => (s3.atomBy ag.x a (s3.entryAccess ag.x o v.f.cls4.toNat)).1
            | .phys _ _ => s3.post ag.x v.f.cls4.toNat 0 true true [a])
        | .error _ _ => none
      | .error _ _ => none
    | none => match place ag (.core (coreOf ag.x)) .read false (v.at_ e) s with
      | .ok p s1 =>
        let q := entryReads o v.f ag.x v.bytes p s1
        (addsAt v ag o l q.1).map fun t => ((e, q.2) :: t.1, t.2)
      | .error _ _ => none

/-- The elements of a REV store, in order: one in a region reads its cell at home, and clears it but with `keepadj`; any other is stored
(R274). What each reads, with its mark. -/
def Sys2Proof.Claims.takesAt (v : Inverted) (ag : Agent) (o : Entry) : List Nat → State → Option (List (Nat × Nat × Bool) × State)
  | [], s => some ([], s)
  | e :: l, s => match v.reg e with
    | some r => match place ag (.core (coreOf ag.x)) .atomic true (cellAt r (v.at_ e)) s with
      | .ok p s1 =>
        let s2 := s1.purgePlace ag.x p
        let old := s2.atomRead p.home.1 p.home.2 4
        let q := s2.atomBy ag.x ⟨p.home.1, p.home.2, 4, .clear, 0, false⟩ (s2.entryAccess ag.x o v.f.cls4.toNat)
        if r.keepadj then (takesAt v ag o l s2).map fun t => ((e, old) :: t.1, t.2)
        else (takesAt v ag o l q.1).map fun t => ((e, q.2.1, q.2.2.1) :: t.1, t.2)
      | .error _ _ => none
    | none => match storesAt ag v.c.vt.bitsW (entryWrites o v.f ag.x) [(addrOf v.k v.c v.f e, (v.own e).1, (v.own e).2)] s with
      | some s1 => takesAt v ag o l s1
      | none => none

/-- Writes of bytes at addresses, in order, in a class of an entry: size, value and mark. -/
def Sys2Proof.Claims.writesAt (ag : Agent) (a : Access) : List (Word × Nat × Nat × Bool) → State → Option State
  | [], s => some s
  | (va, n, b, bad) :: l, s => match place ag (.core (coreOf ag.x)) .write false va s with
    | .ok p s1 => writesAt ag a l (s1.writePlace ag.x p n b bad a)
    | .error _ _ => none

/-- What restores a line: the old granules under the mask, a whole one in one write. -/
def Sys2Proof.Claims.Inverted.restores (v : Inverted) (ln : Nat) (old : Nat → Nat × Bool) : List (Word × Nat × Nat × Bool) :=
  let va (b : Nat) : Word := BitVec.ofNat 64 (64 * ln) + BitVec.ofNat 64 b
  (List.range 8).flatMap fun g =>
    let set := (List.range 8).filter fun j => v.covers ln (8 * g + j)
    if set.length = 8 then [(va (8 * g), 8, (old g).1, (old g).2)]
    else set.map fun j => (va (8 * g) + BitVec.ofNat 64 j, 1, (old g).1 / 256 ^ j % 256, (old g).2)

/-- The code of the first condition of R274 that an entry with this head, mask and tag fails for a line; none when it is the line's. -/
def Sys2Proof.Claims.Inverted.differs (v : Inverted) (ln head mask tag : Nat) : Option Nat :=
  if head % 4 = 2 then some 2 else if head ≠ 64 * ln + 1 then some 3 else if mask ≠ v.mask ln then some 4
  else if tag ≠ v.tag ln then some 5 else none

/-- The doublewords of a galley entry that a comparison and a restore read, in order: head, mask and tag, then the old granules. -/
def Sys2Proof.Claims.entryWords (ag : Agent) (a : Access) (entry : Word) : List Nat → State → Option (List (Nat × Bool) × State)
  | [], s => some ([], s)
  | g :: l, s => match galleyRead ag a entry g s with
    | .ok w s1 => (entryWords ag a entry l s1).map fun t => (w :: t.1, t.2)
    | .error _ _ => none

/-- The entries under `top`, compared with the lines given, the store's last first: the old granules of each line. -/
def Sys2Proof.Claims.popsAt (v : Inverted) (ag : Agent) (a : Access) : (top : Word) → List Nat → State → Option (List (Nat × List (Nat × Bool)) × State)
  | _, [], s => some ([], s)
  | top, ln :: l, s => match entryWords ag a (top - 128) [0, 1, 2, 8, 9, 10, 11, 12, 13, 14, 15] s with
    | some (w, s1) =>
      if v.differs ln (w.getD 0 (0, false)).1 (w.getD 1 (0, false)).1 (w.getD 2 (0, false)).1 = none then
        (popsAt v ag a (top - 128) l s1).map fun t => ((ln, w.drop 3) :: t.1, t.2)
      else none
    | none => none

/-- The access of an instruction on the active elements from `start` on. -/
def Sys2Proof.Claims.invertedOf (s : State) (k : Course) (f : Op64) (start : Nat) : Inverted :=
  { k := k, f := f, c := here s, region := s.regionAt (here s).asid, elems := liveAt k (here s) f start }

/-- An inverted store in FWD tapes the old bytes of its lines and then writes (R272, R275): with every address checked as a write and the
entries translated, it pushes an entry for each line, and stores every element; where the entries do not fit it raises GALLEY_OVF, with
memory and the galley as they were. -/
def Sys2Proof.Claims.TapingStores : Prop :=
  ∀ (s t1 t2 t3 t4 : State) (k : Course) (f : Op64) (old : List (Nat × Bool)), let c := here s; let x := s.cur
    let i := storeOf k f
    let v := invertedOf s k f 0
    let o := entryOf i .vector f true s
    let s0 := issuing i .vector f true s
    let s1 := if f.fn4 = 2 then s0.release x f.fn3.toNat (s0.entryAccess x o f.cls4.toNat) o.past else s0
    let n := v.lines.length
    let touched := v.lines.flatMap fun ln => (v.granules ln).map fun g => (ln, g)
    let was (ln g : Nat) : Nat × Bool := match (touched.zip old).find? fun p => p.1 == (ln, g) with | some p => p.2 | none => (0, false)
    let pushes := v.lines.foldl (fun t ln => pushEntry (self s) (v.entry ln (was ln)).1 (v.entry ln (was ln)).2 t) t3
    Ready s i .vector → Grouped k c f (accepted k) → c.mode = .fwd → (f.fn4 = 2 → Acked s f.fn3.toNat) →
    (∃ e ∈ v.elems, v.reg e ≠ none) → (∀ e ∈ v.elems, v.typed e ∧ alignedAt k c f e = true) →
    checksAt (self s) (v.checks false) s1 = some t1 →
    (n ≠ 0 → c.gallim.toNat < c.galptr.toNat + 128 * n → c.trap.tvec ≠ 0 → c.level ≠ .f →
      ∃ t', exec i s = .next t' ∧ t'.mem = t1.mem ∧ (∀ j, (t'.core j).l1 = (t1.core j).l1) ∧ (t'.ctx x).galptr = c.galptr ∧
        (t'.ctx x).galBuf = c.galBuf ∧
        EntryTraps i f s (t'.ctx x)
          { cause := 0x0C, addr := c.galptr, info := BitVec.ofNat 64 (128 * n), elem := v.low (v.lines.headD 0),
            row := v.low (v.lines.headD 0) / c.vl } 0) ∧
    ((n ≠ 0 → c.galptr.toNat + 128 * n ≤ c.gallim.toNat) →
      checksAt (self s) ((List.range n).map fun j => (.write, false, c.galptr + BitVec.ofNat 64 (128 * j))) t1 = some t2 →
      readsAt (self s) (fun p u => u.readBy x p 8 (t2.entryAccess x o f.cls4.toNat))
        (touched.map fun q => BitVec.ofNat 64 (64 * q.1) + BitVec.ofNat 64 (8 * q.2)) t2 = some (old, t3) →
      storesAt (self s) c.vt.bitsW (entryWrites o f x) v.stores pushes = some t4 →
      exec i s = .next (pushed i .vector x (if f.fn4 = 2 then t4.writeBacks x (scopeRank f.fn3.toNat) else t4)))

/-- An inverted load in REV accumulates: every active element in a region adds its value, widened, to its adjoint cell, and keeps its
register; the other elements load (R273, R275). -/
def Sys2Proof.Claims.AccumulatingLoads : Prop :=
  ∀ (s t : State) (k : Course) (f : Op64) (vals : List (Nat × Nat × Bool)), let c := here s; let x := s.cur; let w := c.vt.bitsW
    let i := loadOf k false f
    let v := invertedOf s k f (startOf c)
    let s0 := issuing i .vector f true s
    let s1 := if f.fn4 = 1 then s0.acquire x f.fn3.toNat else s0
    let res (r col : Nat) : Res := let e := r * c.vl + col
      if e ∈ v.elems ∧ v.reg e ≠ none then .keep
      else loaded w c.vl (fun e => (addrOf k c f e).2) vals r col
    Ready s i .vector → Grouped k c f (accepted k) → c.mode = .rev → (∃ e ∈ v.elems, v.reg e ≠ none) →
    (∀ e ∈ v.elems, v.typed e ∧ alignedAt k c f e = true) → addsAt v (self s) (entryOf i .vector f true s) v.elems s1 = some (vals, t) →
    ∃ c', exec i s = .next (pushed i .vector x (t.setCtx x c')) ∧ RowsOnly (t.ctx x) c' ∧
      Lanes (t.ctx x) c' c.vt.size c.vl (startOf c) w (effMask c f) (opPol f) (fun r col => (f.vd.toNat + r, col)) res fun _ _ => 0

/-- An inverted store in REV: with every address checked and the top entries compared with its lines, the last with the top, every active
element in a region receives its cell, rounded, which is cleared but with `keepadj`, and each line, the last first, its old bytes, with
its entry popped; a comparison that fails raises GALLEY_MISMATCH with nothing changed (R274, R275). -/
def Sys2Proof.Claims.RestoringStores : Prop :=
  ∀ (s t1 t2 t3 t4 : State) (k : Course) (f : Op64) (olds : List (Nat × List (Nat × Bool))) (vals : List (Nat × Nat × Bool)),
    let c := here s; let x := s.cur; let w := c.vt.bitsW
    let i := storeOf k f
    let v := invertedOf s k f 0
    let o := entryOf i .vector f true s
    let s0 := issuing i .vector f true s
    let s1 := if f.fn4 = 2 then s0.release x f.fn3.toNat (s0.entryAccess x o f.cls4.toNat) o.past else s0
    let n := v.lines.length
    let a := t1.entryAccess x o f.cls4.toNat
    let given (r col : Nat) : Res := let e := r * c.vl + col
      match v.reg e, vals.find? fun q => q.1 == e with
      | some r', some q => if q.2.2 then .poison
          else let z := roundTo (fmtOf r') (opRm c f) c.vcsr.sat8 e (Fmt.decode .fp32 q.2.1); .val z.1 z.2
      | _, _ => .keep
    let cut (t : State) : State := if n = 0 then t else t.modCtx x fun k => { k with
      galptr := c.galptr - BitVec.ofNat 64 (128 * n)
      galBuf := k.galBuf.filter fun e => decide (e.addr.toNat < (c.galptr - BitVec.ofNat 64 (128 * n)).toNat) }
    let mismatch (t : State) (ln code : Nat) : Prop := c.trap.tvec ≠ 0 → c.level ≠ .f → ∃ t', exec i s = .next t' ∧ t'.mem = t.mem ∧
      t'.posted = t.posted ∧ (t'.ctx x).v = c.v ∧ (t'.ctx x).galptr = c.galptr ∧ (t'.ctx x).galBuf = c.galBuf ∧
      EntryTraps i f s (t'.ctx x)
        { cause := 0x0D, addr := BitVec.ofNat 64 (64 * ln), info := BitVec.ofNat 64 code, elem := v.low ln, row := v.low ln / c.vl } 0
    Ready s i .vector → Grouped k c f (accepted k) → c.mode = .rev → (f.fn4 = 2 → Acked s f.fn3.toNat) →
    (∃ e ∈ v.elems, v.reg e ≠ none) → (∀ e ∈ v.elems, v.typed e ∧ alignedAt k c f e = true) →
    checksAt (self s) (v.checks true) s1 = some t1 →
    let held := (c.galptr.toNat - c.galbase.toNat) / 128
    (held < n → mismatch t1 (v.lines.getLastD 0) 1) ∧
    (n ≤ held →
      (∀ below ln above words, v.lines = below ++ ln :: above → popsAt v (self s) a c.galptr above.reverse t1 = some (olds, t2) →
        ∀ code, entryWords (self s) a (c.galptr - BitVec.ofNat 64 (128 * (above.length + 1))) (List.range (if code ≤ 3 then 1 else code - 2)) t2 =
          some (words, t3) →
        v.differs ln (words.getD 0 (0, false)).1 (words.getD 1 (0, false)).1 (words.getD 2 (0, false)).1 = some code → mismatch t3 ln code) ∧
      (popsAt v (self s) a c.galptr v.lines.reverse t1 = some (olds, t2) → takesAt v (self s) o v.elems t2 = some (vals, t3) →
        writesAt (self s) a (olds.flatMap fun q => v.restores q.1 fun g => q.2.getD g (0, false)) t3 = some t4 →
        let t := cut t4
        ∃ c', exec i s = .next (pushed i .vector x ((if f.fn4 = 2 then (t.setCtx x c').writeBacks x (scopeRank f.fn3.toNat) else t.setCtx x c'))) ∧
          RowsOnly (t.ctx x) c' ∧
          Lanes (t.ctx x) c' c.vt.size c.vl 0 w (effMask c f) (opPol f) (fun r col => (f.vd.toNat + r, col)) given
            fun r col => Res.flags (given r col)))

/-- Where an inverted instruction is refused before it does anything: an FWD store, a REV load and a REV store with an element in a region of
another type than the register's raise BADHANDLE with 0x15 at the lowest of them (R270); a store of the right types traps at the first
element that is misaligned or whose address, or in REV whose cell, is refused (R272, R274). -/
def Sys2Proof.Claims.InvertedChecks : Prop :=
  ∀ (s t : State) (k : Course) (f : Op64) (store : Bool) (e : Nat), let c := here s; let x := s.cur
    let i := if store then storeOf k f else loadOf k false f
    let start := if store then 0 else startOf c
    let v := invertedOf s k f start
    let o := entryOf i .vector f true s
    let s0 := issuing i .vector f true s
    let s1 := if store then (if f.fn4 = 2 then s0.release x f.fn3.toNat (s0.entryAccess x o f.cls4.toNat) o.past else s0)
      else if f.fn4 = 1 then s0.acquire x f.fn3.toNat else s0
    let traps (u : State) (tr : TrapInfo) : Prop := ∃ t', exec i s = .next t' ∧ t'.mem = u.mem ∧ t'.posted = u.posted ∧
      (t'.ctx x).v = c.v ∧ (t'.ctx x).galptr = c.galptr ∧ (t'.ctx x).galBuf = c.galBuf ∧
      EntryTraps i f s (t'.ctx x) { tr with elem := e, row := e / c.vl } start
    (if store then c.mode ≠ .off else c.mode = .rev) → (store = true → f.fn4 = 2 → Acked s f.fn3.toNat) →
    Ready s i .vector → Grouped k c f (accepted k) → c.trap.tvec ≠ 0 → c.level ≠ .f →
    (e ∈ v.elems → ¬ v.typed e → (∀ j ∈ v.elems, j < e → v.typed j) → traps s1 { cause := 0x03, info := 0x15 }) ∧
    (∀ pre rest tr u, store = true → (∃ j ∈ v.elems, v.reg j ≠ none) → (∀ j ∈ v.elems, v.typed j) → v.elems = pre ++ e :: rest →
      (∀ j ∈ pre, alignedAt k c f j = true) →
      checksAt (self s) (Sys2Proof.Claims.Inverted.checks { v with elems := pre } (c.mode == DMode.rev)) s1 = some t →
      (alignedAt k c f e = false ∧ tr = { cause := 0x05, addr := v.at_ e } ∧ u = t ∨
        alignedAt k c f e = true ∧ (checkVa (self s) .write false (v.at_ e) t = .error (.trap tr) u ∨
          c.mode = .rev ∧ ∃ r t', v.reg e = some r ∧ checkVa (self s) .write false (v.at_ e) t = .ok () t' ∧
            checkVa (self s) .atomic true (cellAt r (v.at_ e)) t' = .error (.trap tr) u)) → traps u tr)

/-- Inverted accesses: taping, accumulation, and restoring (R269-R275). -/
def Obligations.InvertedAccesses : Prop :=
  Sys2Proof.Claims.TapingStores ∧ Sys2Proof.Claims.AccumulatingLoads ∧ Sys2Proof.Claims.RestoringStores ∧ Sys2Proof.Claims.InvertedChecks

/-! ## Remote operations and saved contexts -/

/-- A new remote operation of the context: it takes the device's next number, and is kept until it is answered; a destination without a
route
refuses it at once with code 0x02 (R399, R407). The scope and the class are those of a reduce store (R363, R406). -/
def Sys2Proof.Claims.remoteNew (x : CtxNo) (major scope cls : Nat) (dst : Coord3) (addr : Word) (s : State) : State :=
  let way := s.hub.route dst
  let r : Remote := ⟨s.hub.nextOp, major, scope, cls, if way.isSome then none else some ⟨0x02, addr⟩, way.isNone, way.getD 0⟩
  (s.modHub fun h => { h with nextOp := h.nextOp + 1 }).modCtx x fun c => { c with remote := c.remote ++ [r] }

/-- The instruction completes in `u`, with `h` of its context, and goes on behind its bytes. -/
def Sys2Proof.Claims.EndsIn (i : Instr) (f : Op64) (s u : State) (h : Ctx → Ctx) : Prop :=
  exec i s = .next (u.modCtx s.cur fun k => { h k with pc := (here s).pc + len f })

/-- The device, the asid and the other words of a descriptor of eight words (R401). -/
def Sys2Proof.Claims.deviceOf (w : List Word) : Coord3 :=
  let n := (w.getD 0 0).toNat
  ⟨BitVec.ofNat 6 n, BitVec.ofNat 6 (n / 2 ^ 8), BitVec.ofNat 6 (n / 2 ^ 16)⟩
def Sys2Proof.Claims.asidOf (w : List Word) : BitVec 16 := BitVec.ofNat 16 ((w.getD 0 0).toNat / 2 ^ 32)

/-- `pwb` completes where its range is at most 1 GiB and does not wrap: behind the context's posted operations of its class it writes
back the durable lines of the range, 64 KiB at a time, and what its class covers happens before a later `psync` (R252). Any other range
raises BADHANDLE with code 0x20 (R373). -/
def Sys2Proof.Claims.PwbCompletes : Prop :=
  ∀ (s : State) (f : Op64), let c := here s; let x := s.cur; let a := c.rg (gpr f.vs1); let b := c.rg (gpr f.vs2)
    let t := (s.settle fun p => p.x == x && decide (p.scope ≠ 7) && (f.cls4 == 15 || p.cls == 15 || p.cls == f.cls4.toNat)).coverClass x
      f.cls4.toNat
    let pages := (a.toNat + b.toNat - 1) / 0x10000 - a.toNat / 0x10000 + 1
    (b.toNat ≤ 2 ^ 30 → a.toNat + b.toNat ≤ 2 ^ 64 → NoAccess s → EndsIn (.pwb f) f s (if b = 0 then t else (List.range pages).foldl
      (fun u i => u.pwbPart x c.asid a.toNat (a.toNat + b.toNat) (a.toNat / 0x10000 + i)) t) id) ∧
    ((2 ^ 30 < b.toNat ∨ 2 ^ 64 < a.toNat + b.toNat) → Idle s → Traps (.pwb f) s s { cause := 0x03, info := 0x20 })

/-- `rsend` completes where its descriptor reads well, its group fits a slot, and a slot is free: it claims the next slot, and behind the
fork edge of its class and scope sends the group (R402, R403). -/
def Sys2Proof.Claims.RsendCompletes : Prop :=
  ∀ (s s1 s2 : State) (f : Op64) (w : List Word) (old : Nat), let c := here s; let x := s.cur; let a := c.rg (gpr f.vs1)
    let g := c.vt.size; let vl := c.vl; let nb := (vl + 31) / 32; let ag : Agent := { self s with noWindow := true }
    let word (k : Nat) := (w.getD k 0).toNat; let dst := deviceOf w
    let s0 := issuing (.rsend f) .vector f false s
    Ready s (.rsend f) .vector → f.vs2.toNat % g = 0 →
    readChan ag (s0.entryAccess x (entryOf (.rsend f) .vector f false s) 15) 0 a s0 = .ok w s1 →
    64 + 1024 * g + (if c.vt.ks then g * nb else 0) ≤ 2 ^ (word 2 / 2 ^ 16 % 32) →
    claimSlot ag a (word 2 % 2 ^ 16 + 1) s1 = .ok old s2 →
    let slot := w.getD 1 0 + BitVec.ofNat 64 (old % (word 2 % 2 ^ 16 + 1) * 2 ^ (word 2 / 2 ^ 16 % 32))
    let v := s2.fork x f.cls4.toNat f.fn3.toNat; let u := remoteNew x 0xC0 0 0 dst slot v; let body := slotBody c f.vs2.toNat c.vt vl
    let sent : SlotPacket := ⟨v.hub.me, dst, x, v.hub.nextOp, asidOf w, slot, BitVec.ofNat 64 (old + 1),
      BitVec.ofNat 64 (c.vt.word + vl * 65536), body.1, body.2⟩
    exec (.rsend f) s = .next (pushed (.rsend f) .vector x (if (v.hub.route dst).isSome then
      u.modHub fun h => { h with outSlots := sent :: h.outSlots } else u))

/-- `rrecv` completes where its slot is aligned and its header names the context's type and `vl`: the elements and the scale bytes of the
slot go to the group and to the type's scale register (R402, R404). A poisoned header gives a free value, and another type or `vl` raises
BADHANDLE with code 0x25. -/
def Sys2Proof.Claims.RrecvCompletes : Prop :=
  ∀ (s s1 s2 t : State) (f : Op64) (head : Nat × Bool) (vals scales : List (Nat × Bool)), let c := here s; let x := s.cur
    let a := c.rg (gpr f.vs1); let ew := c.vt.bitsW; let g := c.vt.size; let vl := c.vl; let nb := (vl + 31) / 32
    let ag : Agent := { self s with noWindow := true }
    let s0 := issuing (.rrecv f) .vector f false s
    let rd (n : Nat) (p : Place) (u : State) := u.readBy x p n (s0.entryAccess x (entryOf (.rrecv f) .vector f false s) f.cls4.toNat)
    let info := if head.2 then (Config.freeWord s1.fresh).toNat else head.1
    let begun := if head.2 then { s1 with fresh := s1.fresh + 1 } else s1
    Ready s (.rrecv f) .vector → f.vd.toNat % g = 0 → a.toNat % 64 = 0 → readsAt ag (rd 8) [a + 8] s0 = some ([head], s1) →
    (info % 2 ^ 15 ≠ c.vt.word ∨ info / 2 ^ 16 % 2 ^ 12 ≠ vl → c.trap.tvec ≠ 0 → c.level ≠ .f →
      ∃ t', exec (.rrecv f) s = .next t' ∧ t'.mem = begun.mem ∧ (t'.ctx x).v = c.v ∧ (t'.ctx x).k = c.k ∧
        EntryTraps (.rrecv f) f s (t'.ctx x) { cause := 0x03, info := 0x25 } 0) ∧
    (info % 2 ^ 15 = c.vt.word → info / 2 ^ 16 % 2 ^ 12 = vl →
    readsAt ag (rd (bytesOfElem ew)) ((List.range (g * vl)).map fun e => a + BitVec.ofNat 64 (0x40 + 1024 * (e / vl) + e % vl * ew / 8))
      begun = some (vals, s2) →
    (if c.vt.ks then readsAt ag (rd 1) ((List.range (g * nb)).map fun e => a + BitVec.ofNat 64 (0x40 + 1024 * g + e)) s2 = some (scales, t)
      else t = s2) →
    ∃ c', exec (.rrecv f) s = .next (pushed (.rrecv f) .vector x (t.setCtx x c')) ∧ RowsOnly { t.ctx x with k := c'.k } c' ∧
      Lanes (t.ctx x) c' g vl 0 ew (BitVec.allOnes 2048) false (fun r col => (f.vd.toNat + r, col))
        (loaded ew vl (fun e => e % vl % 2 == 1) ((List.range (g * vl)).zip vals)) (fun _ _ => 0) ∧
      (∀ n, n ≠ c.vt.k.toNat → c'.scale n = c.scale n) ∧ (c.vt.ks = false → c'.scale c.vt.k.toNat = c.scale c.vt.k.toNat) ∧
      (c.vt.ks = true → let wide := 8192 / ew / 32
        ∀ e < 2048, (c'.scale c.vt.k.toNat).toNat / 256 ^ e % 256 = if e / wide < g ∧ e % wide < nb
          then (let v := scales.getD (e / wide * nb + e % wide) (0, false); if v.2 then 255 else v.1)
          else (c.scale c.vt.k.toNat).toNat / 256 ^ e % 256))

/-- `rredst` completes where its descriptor reads well: behind the fork edge of its class and scope it sends the active elements to be
added (R406). -/
def Sys2Proof.Claims.RredstCompletes : Prop :=
  ∀ (s s1 : State) (f : Op64) (w : List Word), let c := here s; let x := s.cur; let ty := c.vt.ty; let g := c.vt.size; let vl := c.vl
    let ag : Agent := { self s with noWindow := true }; let dst := deviceOf w
    let s0 := issuing (.rredst f) .vector f false s
    Ready s (.rredst f) .vector → f.vs2.toNat % g = 0 → (∀ sg k, ty = .int sg k → k = 32 ∨ k = 64) →
    readChan ag (s0.entryAccess x (entryOf (.rredst f) .vector f false s) 15) 1 (c.rg (gpr f.vs1)) s0 = .ok w s1 →
    let v := s1.fork x f.cls4.toNat f.fn3.toNat; let u := remoteNew x 0xC2 f.fn3.toNat f.cls4.toNat dst (w.getD 1 0) v
    let active := (List.range (g * vl)).filter fun e => (effMask c f).getLsbD (e % vl)
    let typ : ReduceType := match ty with | .int _ 32 => .int32 | .int _ _ => .int64 | _ => .fp32
    let elem (e : Nat) : PacketElem := let v := cell c ty.width (f.vs2.toNat + e / vl) (e % vl)
      match ty with
      | .int _ _ => ⟨e, BitVec.ofNat 64 v.1, v.2 != 0, 0⟩
      | _ => let q := packVal (srcValue c c.vt ty (e / vl) (e % vl) v.1); ⟨e, q.1, v.2 != 0, q.2⟩
    let sent : ReducePacket := ⟨v.hub.me, dst, x, v.hub.nextOp, asidOf w, w.getD 1 0, typ, active.map elem⟩
    exec (.rredst f) s = .next (pushed (.rredst f) .vector x (if (v.hub.route dst).isSome then
      u.modHub fun h => { h with outReduces := sent :: h.outReduces } else u))

/-- `rslot` completes where its descriptor is aligned and reads clean, behind every posted operation of the context: it adds 1 to `head` at
home and sends a notice; `rpoll` completes where the descriptor's page is ordinary: it reads `head` with an acquire at package scope,
and an MS or D page raises BADHANDLE with code 0x21. A poisoned `head` raises POISON, a misaligned descriptor MISALIGN (R401, R405). -/
def Sys2Proof.Claims.RslotAndRpollComplete : Prop :=
  ∀ (s s1 s2 : State) (f : Op64) (w : List Word) (p : Place), let c := here s; let x := s.cur; let a := c.rg (gpr f.vs1)
    let dst := deviceOf w
    (a.toNat % 64 = 0 → NoAccess s → w.length = 2 →
      readsAt (self s) (frontReads x) [a, a + 8] (s.settle fun q => q.x == x && decide (q.scope ≠ 7)) =
        some (w.map fun v => (v.toNat, false), s1) →
      place (self s) (.core (coreOf x)) .atomic false (a + 0x10) s1 = .ok p s2 →
      let r := (s2.purgePlace x p).atomDo x ⟨p.home.1, p.home.2, 8, .add, 1, false⟩ (s2.base x + 15)
      (r.2.2.1 = false → let u := remoteNew x 0xC3 0 0 dst (w.getD 1 0 + 0x20) r.1
        let sent : NoticePacket := ⟨r.1.hub.me, dst, x, r.1.hub.nextOp, asidOf w, w.getD 1 0, BitVec.ofNat 64 (r.2.1 + 1)⟩
        EndsIn (.rslot f) f s (if (r.1.hub.route dst).isSome then u.modHub fun h => { h with outNotices := sent :: h.outNotices } else
            u) id) ∧
      (r.2.2.1 = true → Idle s → Traps (.rslot f) s r.1 { cause := 0x0F, addr := a + 0x10 })) ∧
    (a.toNat % 64 = 0 → c.memBlocked 15 false (a + 0x20) 8 = false →
      place (self s) (.core (coreOf x)) .read false (a + 0x20) s = .ok p s1 →
      let plain : Bool := match p with | .window _ _ => true | .phys _ pte => !pteMs pte && !pteD pte
      let r := (s1.acquire x 4).readBy x p 8
      let t := r.1.learnWord x 4 p.word {}
      (plain = true → r.2.2 = false → EndsIn (.rpoll f) f s t fun k => k.wg (gpr f.vd) (BitVec.ofNat 64 r.2.1)) ∧
      (plain = true → r.2.2 = true → Idle s → Traps (.rpoll f) s t { cause := 0x0F, addr := a + 0x20 }) ∧
      (plain = false → Idle s → Traps (.rpoll f) s s1 { cause := 0x03, info := 0x21 })) ∧
    (a.toNat % 64 ≠ 0 → Idle s → Traps (.rslot f) s s { cause := 0x05, addr := a } ∧ Traps (.rpoll f) s s { cause := 0x05, addr := a })

/-- `rfen` completes when every remote operation of the context is answered and none was refused; it raises VIOL for the first refused one
and logs the others; until then it waits (R407). -/
def Sys2Proof.Claims.RfenCompletes : Prop :=
  ∀ s : State, let c := here s; let x := s.cur
    (Idle s → (∀ r ∈ c.remote, r.acked = true) → let u := s.modCtx x fun k => { k with remote := [] }
      match c.remote.filter fun r => r.refused.isSome with
      | [] => exec .rfen s = .next (u.modCtx x fun k => { k with pc := c.pc + 8 })
      | r :: l => ∀ q, r.refused = some q → Traps .rfen s (l.foldl (fun v r => v.logRemote x r) u)
          { cause := 0x08, addr := q.addr, info := BitVec.ofNat 64 (r.major * 256 + q.code.toNat) }) ∧
    (Idle s → (∃ r ∈ c.remote, r.acked = false) → exec .rfen s = .next s)

/-- The fabric instructions complete, and how: `pwb`, `rsend`, `rrecv`, `rredst`, `rslot`, `rpoll` and `rfen` (R373, R401-R407). -/
def Obligations.RemoteInstructions : Prop :=
  Sys2Proof.Claims.PwbCompletes ∧ Sys2Proof.Claims.RsendCompletes ∧ Sys2Proof.Claims.RrecvCompletes ∧
  Sys2Proof.Claims.RredstCompletes ∧ Sys2Proof.Claims.RslotAndRpollComplete ∧ Sys2Proof.Claims.RfenCompletes

/-- `vqdrain` completes at level S, where no chain is under way and no parked entry could start one: parked entries issue while they can,
and the rest stays parked, with the planes' states as they then follow. Entries issue in program order in each queue: while the oldest of
each queue would wait or trap, none does; an entry that is alone issues where it is ready and runs (R231, R291). -/
def Sys2Proof.Claims.VqdrainCompletes : Prop :=
  ∀ s : State, let c := here s; let x := s.cur
    let armed : State := s.modCtx x Ctx.unpark
    let ends (u : State) : Prop := exec .vqdrain s = .next ((u.replan x).modCtx x fun k => { k with pc := c.pc + 8 })
    let still (e : Entry) : Prop := armed.ready x e = true →
      ∀ d, queueDef e.instr = some d → ∃ err w, runEntry d.body x e (armed.without x e) = .error err w
    c.level ≠ .u → Idle s → c.chain = none → c.chainQueue = [] → (∀ e ∈ c.queue, e.queue ≠ .copy) →
    (∃ u, exec .vqdrain s = .next u ∧ (u.ctx x).pc = c.pc + 8 ∧ ∀ e ∈ (u.ctx x).queue, e.parked = true) ∧
    (c.queue = [] → ends s) ∧
    ((∀ e ∈ (armed.ctx x).queue, (∀ o ∈ (armed.ctx x).queue, o.queue = e.queue → e.seq ≤ o.seq) → still e) →
      ends (armed.modCtx x fun k => { k with queue := k.queue.map fun e => { e with parked := true } })) ∧
    ∀ e d t, (armed.ctx x).queue = [e] → queueDef e.instr = some d → armed.ready x e = true →
      runEntry d.body x e (armed.without x e) = .ok () t → (t.ctx x).queue = [] → (t.ctx x).copying = false →
      ends (t.modCtx x fun k => { k with vstart := if c.trappedEntry.isSome then 0 else k.vstart })

/-- `ctxsv` completes at level S where its block is aligned and may be written: behind the spill of the galley it writes the words of the
block of R293 in order, and nothing else of the context changes (R292, R293). The layout of the queue image is the model's own, as the
spec leaves it opaque; that entries whose image passes 4 KiB issue first as under `vqdrain`, and that it waits while too many are left, is
the model's choice (log 33). -/
def Sys2Proof.Claims.CtxsvCompletes : Prop :=
  ∀ (s t : State) (f : Op64), let c := here s; let x := s.cur; let a := c.rg (gpr f.vs1)
    let spilt := s.spillGalley x
    let u := if 4096 < (spilt.queueImage x).bytes.length then spilt.drainParked x else spilt
    let k := u.ctx x
    let bytes := (u.queueImage x).bytes; let image := packWords bytes.length bytes
    let words := u.blockWords x image
    words.take 16 = [BitVec.ofNat 64 (0x4B515342 + 2 ^ 32 + 2 ^ 48 * (8 * image.length)), errataWord u.hub,
      k.trap.tepc, k.trap.tcause, BitVec.ofNat 64 k.vl, BitVec.ofNat 64 k.vt.word, k.vstart.setWidth 64, k.vcsr.word, k.vrem, k.vsc.word,
      BitVec.ofNat 64 k.depth, BitVec.ofNat 64 k.mode.code, k.galbase, k.galptr, k.gallim, k.prows] ∧
    (c.level ≠ .u → Idle s → a.toNat % 64 = 0 → bytes.length ≤ 4096 →
      storesAt (self s) 64 (fun p n v bad u => u.writePlace x p n v bad) ((words.zip ((List.range words.length).map fun i =>
        a + BitVec.ofNat 64 (8 * i))).map fun v => ((v.2, false), v.1.toNat, false)) u = some t →
      exec (.ctxsv f) s = .next (t.modCtx x fun k => { k with pc := c.pc + len f })) ∧
    (c.level ≠ .u → Idle s → a.toNat % 64 = 0 → 4096 < bytes.length → exec (.ctxsv f) s = .next u) ∧
    (c.level ≠ .u → a.toNat % 64 ≠ 0 → Idle s → Traps (.ctxsv f) s s { cause := 0x05, addr := a })

/-- `ctxrs` at level S with an aligned block that reads clean (R292-R294). A block whose header, zero fields or registers are not those of
a block raises BADHANDLE with code 0x1A, one with another errata word 0x1B, one that names a tile or forme that the context does not own 0x06
or 0x07. Any other it restores: the registers, the mask stack, the poison registers, the tokens, the chase entries, the wait at a barrier,
and the parked entries; the words of the block stand at their offsets. That it waits while the core's queues have no room for the entries
is the model's choice (log 109). -/
def Sys2Proof.Claims.CtxrsCompletes : Prop :=
  ∀ (s s1 : State) (f : Op64) (w pm zeros stack image : List Word), let c := here s; let x := s.cur; let a := c.rg (gpr f.vs1)
    let at_ (o n : Nat) : List Word := (List.range n).map fun i => a + BitVec.ofNat 64 (o + 8 * i)
    let reads (l : List Word) (v : List Word) : Prop := readsAt (self s) (frontReads x) l s = some (v.map fun v => (v.toNat, false), s1)
    let word (i : Nat) : Word := w.getD i 0
    let qbytes := (word 0).toNat / 2 ^ 48
    let header : Prop := (word 0).toNat % 2 ^ 48 = 0x4B515342 + 2 ^ 32 ∧ qbytes ≤ 4096
    let valid (ty : VType) : Prop := vtypeOf (word 5).toNat = some ty ∧ (word 4).toNat ≤ ty.vlmax ∧ (word 10).toNat ≤ 16 ∧
      (word 11).toNat < 3 ∧ ∀ v ∈ zeros, v = 0
    let q := imageFrom x c.seq ((unpackWords image).take qbytes)
    let masks := (List.range (word 10).toNat).map fun i => bitsFrom 2048 ((stack.drop (32 * i)).take 32)
    let fails (t : TrapInfo) : Prop := Traps (.ctxrs f) s s1 t
    c.level ≠ .u → Idle s →
    (a.toNat % 64 ≠ 0 → Traps (.ctxrs f) s s { cause := 0x05, addr := a }) ∧
    (a.toNat % 64 = 0 → w.length = 16 → pm.length = 32 → zeros.length = 16 → stack.length = 512 → image.length = (qbytes + 7) / 8 →
      (reads (at_ 0 16) w → ¬ header → fails { cause := 0x03, info := 0x1A }) ∧
      (reads (at_ 0 16 ++ at_ 0x80 32 ++ at_ 0x180 16) (w ++ pm ++ zeros) → header → (∀ ty, ¬ valid ty) → fails { cause := 0x03, info := 0x1A }) ∧
      ∀ ty, reads (at_ 0 16 ++ at_ 0x80 32 ++ at_ 0x180 16 ++ at_ 0x200 512 ++ at_ 0x1200 image.length) (w ++ pm ++ zeros ++ stack ++ image) →
      header → valid ty →
      (word 1 ≠ errataWord s1.hub → fails { cause := 0x03, info := 0x1B }) ∧
      (word 1 = errataWord s1.hub →
        (∀ e ∈ q.entries, ∀ pre rest, q.entries = pre ++ e :: rest →
          (∀ o ∈ pre, (∀ j, (matrixUnits o.instr).1 = some j → owns (s1.core (coreOf x)).tallot j x = true) ∧
            ∀ j, (matrixUnits o.instr).2 = some j → owns (s1.core (coreOf x)).wallot j x = true) →
          (∀ j, (matrixUnits e.instr).1 = some j → owns (s1.core (coreOf x)).tallot j x = false →
            fails { cause := 0x03, info := BitVec.ofNat 64 (0x06 + 256 * j) }) ∧
          ∀ j, (∀ j', (matrixUnits e.instr).1 = some j' → owns (s1.core (coreOf x)).tallot j' x = true) →
            (matrixUnits e.instr).2 = some j → owns (s1.core (coreOf x)).wallot j x = false →
            fails { cause := 0x03, info := BitVec.ofNat 64 (0x07 + 256 * j) }) ∧
        (strangerUnit (s1.core (coreOf x)) x q.entries = none → s1.imageFits x q.entries = false → exec (.ctxrs f) s = .next s1) ∧
        (strangerUnit (s1.core (coreOf x)) x q.entries = none → s1.imageFits x q.entries = true →
          exec (.ctxrs f) s = .next ((((((s1.spillGalley x).restoreChase x q).modCtx x fun k => { k with
            trap := { k.trap with tepc := word 2, tcause := word 3 &&& 0xF0FF }, vl := (word 4).toNat, vt := ty
            vstart := (word 6).setWidth 16, vcsr := k.vcsr.write (word 7), vrem := word 8, vsc := vscOf (word 9), stack := masks.reverse
            mode := modeOf (word 11).toNat, galbase := word 12, galptr := word 13, gallim := word 14, prows := word 15
            pm := bitsFrom 2048 pm, begunS := false, held := q.held, resume := q.resume, shape := q.shape, loopNo := q.loopNo
            inStrip := q.inStrip, queue := q.entries, seq := k.seq + q.entries.length
            tokens := (q.tokens.zip (List.range 6)).foldl (fun t (e : Tokens × Nat) => Tab.put t e.2 e.1) []
            barWaits := q.bars.foldl (fun t (e : Nat × BarWait) => Tab.put t e.1 e.2) (k.barWaits.filter fun w => w.1 % 4 != 0) }).replan
              x).lookTerms (coreOf x)).modCtx x fun k => { k with pc := c.pc + len f }))))

/-- `tlbinv` completes at level S where its asid has 16 bits, its range is aligned to 64 KiB, and no optimiser command has elements left: it
drops the entries of the asid's range from the TLBs of its scope, and of the asid from the walk caches, and no others. Other operands raise
BADHANDLE with code 0x1D (R351). -/
def Sys2Proof.Claims.TlbinvCompletes : Prop :=
  ∀ (s : State) (f : Op64), let c := here s; let x := s.cur; let a := c.rg (gpr f.vs1); let n := c.rg (gpr f.vs2)
    let asid := c.rg (gpr f.vd)
    let scope := f.fn3.toNat
    let good : Bool := decide (asid.toNat < 2 ^ 16 ∧ a.toNat % 2 ^ 16 = 0 ∧ n.toNat % 2 ^ 16 = 0)
    (c.level ≠ .u → good = true → NoAccess s → Acked s scope → (∀ m ∈ s.nmops, m.left = []) →
      ∃ u, exec (.tlbinv f) s = .next u ∧ (u.ctx x).pc = c.pc + len f ∧
        let hi := if n = 0 then 2 ^ 64 else a.toNat + n.toNat
        let stays (e : TlbEntry) : Bool := let z := if e.big then 2 ^ 29 else 2 ^ 16
          e.asid.toNat != asid.toNat || decide (hi ≤ e.page * z ∨ (e.page + 1) * z ≤ a.toNat)
        let core (j : Nat) : Bool := match scope with
          | 0 | 1 => j == coreOf x | 2 => j / 4 == quadOf x | 3 => j / 64 == dieOf x | _ => true
        let quad (j : Nat) : Bool := match scope with | 0 | 1 => false | 2 => j == quadOf x | 3 => j / 16 == dieOf x | _ => true
        let die (j : Nat) : Bool := match scope with | 0 | 1 | 2 => false | 3 => j == dieOf x | _ => true
        (∀ j < 256, (u.core j).tlb = if core j then (s.core j).tlb.filter stays else (s.core j).tlb) ∧
        (∀ j < 64, (u.quad j).tlb = if quad j then (s.quad j).tlb.filter stays else (s.quad j).tlb) ∧
        (∀ j < 4, (u.die j).collTlb = if die j then (s.die j).collTlb.filter stays else (s.die j).collTlb) ∧
        (∀ j < 4, (u.die j).walks = if die j then (s.die j).walks.filter (fun (v : WalkEntry) => v.asid.toNat != asid.toNat) else
            (s.die j).walks) ∧
        u.hub.tlb = if 4 ≤ scope then s.hub.tlb.filter stays else s.hub.tlb) ∧
    (c.level ≠ .u → good = false → Idle s → Traps (.tlbinv f) s s { cause := 0x03, info := 0x1D })

/-- `vqdrain`, `ctxsv`, `ctxrs` and `tlbinv` complete at level S, and how (R291-R294, R351). -/
def Obligations.ContextImages : Prop :=
  Sys2Proof.Claims.VqdrainCompletes ∧ Sys2Proof.Claims.CtxsvCompletes ∧ Sys2Proof.Claims.CtxrsCompletes ∧ Sys2Proof.Claims.TlbinvCompletes

/-! ## Events of the engines -/

/-- The oldest pop of a FIFO that has no token, where more pops than promises are dispatched, is to raise TOKEN_UNDERRUN (R211). -/
def Sys2Proof.Claims.dooms (k : Fifo) (c : Ctx) : Ctx :=
  if 0 ≤ (c.tok k).u then c
  else match (c.queue.filter fun e => decide ((instrTokens e.instr e.queue).pop = some k) && !e.popped).drop (c.tok k).held with
    | [] => c
    | e :: _ => { c with queue := c.queue.map fun o => if o.seq = e.seq then { o with doomed := true } else o }

/-- A chain of a context has taken an entry: it stands at `h`, or gives its place to the next when the entry was its last. The end of
the last chain in flight dooms the pops from the copy engine that no promise is left for (R211, R220). -/
def Sys2Proof.Claims.chainAt (x : CtxNo) (h : Option Chain) (s : State) : State :=
  s.modCtx x fun c => match h with
    | some h => { c with chain := some h }
    | none =>
      let n : Ctx := match c.chainQueue with | [] => { c with chain := none } | g :: t => { c with chain := some g, chainQueue := t }
      if c.chained = true ∧ n.chained = false then dooms .cm (dooms .cv n) else n

/-- A chain error (R225): the chain is over; the context is to take CHAIN, or REGION_ENGINE for code 7, with the code and the number of
the failing entry, and is woken; of a record that has exited it is logged, unless the block that refused the access has logged it. -/
def Sys2Proof.Claims.chainFails (x : CtxNo) (h : Chain) (code : Nat) (addr : Word) (s : State) : State :=
  let u := chainAt x none s
  let info := BitVec.ofNat 64 (code * 2 ^ 24 + (h.at_ - h.head).toNat / 32 % 2 ^ 20)
  if h.exited then (if code = 4 then u else u.logViol (dieOf x * 64) addr x.toNat 4 (if code = 2 then 1 else 2) h.tag)
  else u.modCtx x fun c => { c with
    latch := true, wfeLooks := 0, async := c.async ++ [⟨if code = 7 then 0x0E else 0x15, addr, info⟩] }

/-- The code of a fault that a chain's access meets (R225). -/
def Sys2Proof.Claims.codeOf (t : TrapInfo) : Nat := match t.cause with | 0x06 => 2 | 0x07 => 3 | 0x08 => 4 | 0x05 => 5 | _ => t.info.toNat

/-- Lines that an entry of a chain has read, by address. -/
abbrev Sys2Proof.Claims.Seen := Tab (BitVec 512 × BitVec 8)
/-- How far the accesses of an entry come: to their end, or to the first that is refused, with its code and address. -/
abbrev Sys2Proof.Claims.Moved (α : Type) := Option (Except (Nat × Word × State) α)

/-- A source of `n` bytes: aligned; its line is read once, as the copy engine reads, and every later element of the entry takes its bytes
from that read (R220). -/
def Sys2Proof.Claims.lineAt (ag : Agent) (n : Nat) (va : Word) (seen : Seen) (s : State) : Moved ((BitVec 512 × BitVec 8) × Seen × State) :=
  if va.toNat % n ≠ 0 then some (.error (5, va, s))
  else match Tab.find seen (va.toNat / 64) with
    | some l => some (.ok (l, seen, s))
    | none =>
      match place ag (.core (coreOf ag.x)) .read false va s with
      | .error (.trap t) u => some (.error (codeOf t, t.addr, u))
      | .error .wait _ => none
      | .ok p s1 =>
        let s2 := s1.engineReach (coreOf ag.x) p
        let l := s2.engineLine (coreOf ag.x) p
        some (.ok (l, Tab.put seen (va.toNat / 64) l, s2))

/-- Elements of `n` bytes that a chain moves, in order: each is aligned, read as the copy engine reads, and written as it writes, outside
every region when the chain was issued in FWD (R220, R222, R225, R279). -/
def Sys2Proof.Claims.movesAt (ag : Agent) (h : Chain) (n : Nat) : List (Word × Word) → Seen → State → Moved (Seen × State)
  | [], seen, s => some (.ok (seen, s))
  | (src, dst) :: l, seen, s =>
    match lineAt ag n src seen s with
    | none => none
    | some (.error e) => some (.error e)
    | some (.ok (ln, seen1, s1)) =>
      if dst.toNat % n ≠ 0 then some (.error (5, dst, s1))
      else match place ag (.core (coreOf ag.x)) .write false dst s1 with
        | .error (.trap t) u => some (.error (codeOf t, t.addr, u))
        | .error .wait _ => none
        | .ok q s2 => if h.fwd = true ∧ s2.regionAt h.asid dst ≠ none then some (.error (7, dst, s2)) else
          movesAt ag h n l seen1 (s2.engineWrite ag.x q n (lineGet ln.1 (src.toNat % 64) n) (ln.2.getLsbD (src.toNat % 64 / 8)) h.no)

/-- The rows that a gather moves, in order, each with its index read before it (R222). -/
def Sys2Proof.Claims.rowsAt (ag : Agent) (h : Chain) (size row : Nat) (src dst index : Word) : (count from_ : Nat) → Seen → State →
    Moved (Seen × State)
  | 0, _, seen, s => some (.ok (seen, s))
  | k + 1, q, seen, s =>
    let ia := index + BitVec.ofNat 64 (q * size)
    match lineAt ag size ia seen s with
    | none => none
    | some (.error e) => some (.error e)
    | some (.ok (ln, seen1, s1)) =>
      let ix := lineGet ln.1 (ia.toNat % 64) size
      match movesAt ag h 8 ((List.range (row / 8)).map fun i =>
          (src + BitVec.ofNat 64 (ix * row + 8 * i), dst + BitVec.ofNat 64 (q * row + 8 * i))) seen1 s1 with
      | none => none
      | some (.error e) => some (.error e)
      | some (.ok (seen2, s2)) => rowsAt ag h size row src dst index k (q + 1) seen2 s2

/-- The chase looks at its inputs: an armed term that becomes true is due to fire and stays so until it fires; one that has fired is
low again when its inputs are not all true (R215; that a term which stays true does not fire again is the model's choice, log 34). -/
def Sys2Proof.Claims.TermsLook : Prop :=
  ∀ (s : State) (k : CoreNo) (j : Nat) (tm : Term),
    let bits := tm.word.toNat
    let ands := (List.range 14).filter fun b => (bits / 2 ^ b) % 2 == 1
    let ors := (List.range 14).filter fun b => (bits / 2 ^ (16 + b)) % 2 == 1
    let on (b : Nat) : Prop := if b < 8 then ∃ c, Tab.find (s.core k.toNat).counters b = some c ∧ c.word.getLsbD 25 = true ∧
      c.word.toNat / 2 ^ 8 % 2 ^ 16 ≤ c.count else 0 < ((s.ctx tm.owner).tok (fifoIx (b - 8))).held
    let isTrue : Prop := (∀ b ∈ ands, on b) ∧ (ors = [] ∨ ∃ b ∈ ors, on b)
    let looked (p : TermPhase) : Prop := Tab.find ((s.lookTerms k.toNat).core k.toNat).terms j = some { tm with phase := p }
    Tab.find (s.core k.toNat).terms j = some tm →
      (tm.phase = .low → tm.armed = true → isTrue → looked .due) ∧ (tm.phase = .low → (tm.armed = false ∨ ¬isTrue) → looked .low) ∧
      (tm.phase = .due → looked .due) ∧ (tm.phase = .fired → isTrue → looked .fired) ∧ (tm.phase = .fired → ¬isTrue → looked .low)

/-- A due term fires: it sets the counters of its masks to 0, disarms unless it rearms, and releases its queue; action 4 starts a chain,
behind the fork edge of every class at die scope, in the slot or behind those that wait for it (R215, R217, R218, R220, R258). -/
def Sys2Proof.Claims.TermsFire : Prop :=
  ∀ (s : State) (k : CoreNo) (j : Nat) (tm : Term), let c := s.ctx tm.owner
    let bits := tm.word.toNat
    let used (n : Nat) : Bool := decide (n < 14) && (bits.testBit n || bits.testBit (16 + n))
    let head : Word := 0x00FFFF0000000000#64 + BitVec.ofNat 64 (bits / 2 ^ 40 % 2 ^ 24)
    let begun := s.fork tm.owner 15 3
    let new : Chain :=
      { head := head, at_ := head, obj := 0, chase := true, scope := 3, push := 0, level := tm.level, asid := tm.asid,
        fwd := decide (c.mode = .fwd), tag := c.tag, loops := [], start := c.start, exited := false, no := begun.serial,
        hb := begun.forkClock tm.owner 15 }
    let u := if bits / 2 ^ 32 % 8 = 4 then
        ({ begun with serial := begun.serial + 1 }.begins begun.serial c.tag []).modCtx tm.owner fun c =>
          if c.chain = none then { c with chain := some new } else { c with chainQueue := c.chainQueue ++ [new] }
      else s
    s.arg = .coreIx k j → Tab.find (s.core k.toNat).terms j = some tm → tm.phase = .due →
    exec .termFire s = .next ((u.modCore k.toNat fun q => { q with
      counters := q.counters.map fun e => if used e.1 then (e.1, { e.2 with count := 0 }) else e,
      terms := Tab.put q.terms j { tm with
        armed := tm.word.getLsbD 35, phase := if tm.word.getLsbD 35 then .fired else .low, holdAt := c.seq } }).lookTerms k.toNat)

/-- COPY moves its elements over its dimensions and GATHER its rows; a field out of range ends the chain with code 1, and the first access
that is refused with its code, the elements before it moved (R220-R222, R225). That a gather's rows move in doublewords, each aligned, and
that its count may be 0, is the model's choice (log 111), and so is how the copy engine reads and writes (log 55). -/
def Sys2Proof.Claims.ChainMoves : Prop :=
  ∀ (s s1 : State) (x : CtxNo) (h : Chain) (d0 d1 d2 d3 : Word),
    let n := d0.toNat; let field (hi lo : Nat) := n / 2 ^ lo % 2 ^ (hi + 1 - lo)
    let ag : Agent := { x := x, level := h.level, asid := h.asid, tag := h.tag, engine := true }
    let ends (i : Instr) (r : Moved (Seen × State)) : Prop :=
      (∀ seen t, r = some (.ok (seen, t)) → exec i s = .next (chainAt x (some { h with at_ := h.at_ + 32 }) t)) ∧
      ∀ code addr t, r = some (.error (code, addr, t)) → exec i s = .next (chainFails x h code addr t)
    let offS := h.loops.foldl (fun (a : Word) l => a + BitVec.ofNat 64 l.iter * l.srcAdv) 0
    let offD := h.loops.foldl (fun (a : Word) l => a + BitVec.ofNat 64 l.iter * l.dstAdv) 0
    s.arg = .ctx x → (s.ctx x).chain = some h → chainFetch x h s = .ok [d0, d1, d2, d3] s1 →
    (n % 256 = 1 →
      let good : Prop := field 9 8 < 3 ∧ field 31 16 ≠ 0 ∧ field 47 32 ≠ 0 ∧ field 63 48 ≠ 0 ∧ (field 9 8 < 1 → field 47 32 = 1) ∧
        (field 9 8 < 2 → field 63 48 = 1)
      (¬ good → exec .chainCopy s = .next (chainFails x h 1 h.at_ s1)) ∧
      (good → let z := 2 ^ field 11 10
        let stride (lo : Nat) : Word := BitVec.ofInt 64 (sextNat 16 (d3.toNat / 2 ^ lo)) <<< field 15 12
        let place_ (b : Word) (lo : Nat) (a : Nat × Nat × Nat) : Word :=
          b + BitVec.ofNat 64 a.1 * stride (lo + 16) + BitVec.ofNat 64 a.2.1 * stride lo + BitVec.ofNat 64 (a.2.2 * z)
        let elems := (List.range (field 63 48)).flatMap fun c => (List.range (field 47 32)).flatMap fun b =>
            (List.range (field 31 16)).map fun a => (c, b, a)
        ends .chainCopy (movesAt ag h z (elems.map fun a => (place_ (d1 + offS) 0 a, place_ (d2 + offD) 32 a)) [] s1))) ∧
    (n % 256 = 2 →
      let good : Prop := 2 ≤ field 11 10 ∧ field 15 12 = 0 ∧ field 63 32 ≠ 0 ∧ field 63 32 % 8 = 0
      (¬ good → exec .chainGather s = .next (chainFails x h 1 h.at_ s1)) ∧
      (good → ends .chainGather (rowsAt ag h (2 ^ field 11 10) (field 63 32) (d1 + offS) (d2 + offD) d3 (field 31 16) 0 [] s1)))

/-- The other entries of a chain: LOOP goes back while repetitions are left, IFZ skips entries when its word is 0, TOKEN and PULSE give
what they name, WAITW waits for its word, END completes the object and ends the chain; a field that is not zero, an unknown type, and a
fifth loop end the chain with codes 1 and 6, an address that is misaligned or refused with its code (R211, R221, R223-R225). That TOKEN,
PULSE and the push of END do nothing for a record that has exited (log 53) and that this push finds room in a full FIFO (log 110) is the
model's choice. -/
def Sys2Proof.Claims.ChainSteps : Prop :=
  ∀ (s s1 : State) (x : CtxNo) (h : Chain) (d0 d1 d2 d3 : Word),
    let n := d0.toNat; let field (hi lo : Nat) := n / 2 ^ lo % 2 ^ (hi + 1 - lo)
    let ag : Agent := { x := x, level := h.level, asid := h.asid, tag := h.tag, engine := true }
    let next (i : Instr) (h : Option Chain) (u : State) : Prop := exec i s = .next (chainAt x h u)
    let fails (i : Instr) (code : Nat) (addr : Word) (u : State) : Prop := exec i s = .next (chainFails x h code addr u)
    let after (h : Chain) : Chain := { h with at_ := h.at_ + 32 }
    let clock (u : State) : Clock := joinClock h.hb (u.before.at_ (baseOf h.no + enginePart))
    let reads (i : Instr) (good : Prop) (ok : Nat → Chain → State → Prop) : Prop :=
      (¬ good → fails i 1 h.at_ s1) ∧ (good → d1.toNat % 8 ≠ 0 → fails i 5 d1 s1) ∧
      (good → d1.toNat % 8 = 0 → ∀ t, (∀ p, place ag (.core (coreOf x)) .read false d1 s1 = .ok p t →
          let u := (t.acquire x h.scope).engineReach (coreOf x) p
          ok (u.engineRead (coreOf x) p 8).1 { h with hb := joinClock (metClock (Tab.look [] u.before.words p.word) x h.scope) h.hb } u) ∧
        ∀ tr, place ag (.core (coreOf x)) .read false d1 s1 = .error (.trap tr) t → fails i (codeOf tr) tr.addr t)
    s.arg = .ctx x → (s.ctx x).chain = some h →
    (∀ tr t, chainFetch x h s = .error (.trap tr) t → fails .chainEnd (codeOf tr) tr.addr t) ∧
    (chainFetch x h s = .ok [d0, d1, d2, d3] s1 →
    (n % 256 = 0 ∨ 8 < n % 256 → fails .chainEnd 1 h.at_ s1) ∧
    (n % 256 = 3 →
      let good : Prop := field 31 16 ≠ 0 ∧ field 47 32 ≠ 0 ∧ field 63 48 = 0 ∧ d3 = 0
      let found := h.loops.find? fun l => l.entry == h.at_
      let others := h.loops.filter fun l => l.entry != h.at_
      let l : OpenLoop := found.getD ⟨h.at_, field 31 16, 0, d1, d2⟩
      (¬ good → fails .chainLoop 1 h.at_ s1) ∧ (good → found = none → 4 ≤ h.loops.length → fails .chainLoop 6 h.at_ s1) ∧
      (good → (found ≠ none ∨ h.loops.length < 4) → next .chainLoop (some (if l.left ≤ 1 then { after h with loops := others } else
        { h with loops := others ++ [{ l with left := l.left - 1, iter := l.iter + 1 }], at_ := h.at_ - BitVec.ofNat 64 (32 * field 47 32) })) s1)) ∧
    (n % 256 = 4 → reads .chainIfz (field 63 32 = 0 ∧ d2 = 0 ∧ d3 = 0) fun v h u =>
      next .chainIfz (some (if v = 0 then { h with at_ := h.at_ + BitVec.ofNat 64 (32 * (1 + field 31 16)) } else after h)) u) ∧
    (n % 256 = 5 → let good : Prop := field 63 9 = 0 ∧ d1 = 0 ∧ d2 = 0 ∧ d3 = 0
      let q : Fifo := if d0.getLsbD 8 then .cm else .cv; let tk := (s1.ctx x).tok q
      (¬ good → fails .chainToken 1 h.at_ s1) ∧ (good → h.exited = true → next .chainToken (some (after h)) s1) ∧
      (good → h.exited = false → tk.held < 16 → next .chainToken (some (after h)) (((s1.tokenGiven x q (clock s1)).modCtx x fun c =>
          c.setTok q { u := tk.u + 1, f := tk.f + 1, held := tk.held + 1 }).lookTerms (coreOf x))) ∧
      (good → h.exited = false → 16 ≤ tk.held → exec .chainToken s = .next s)) ∧
    (n % 256 = 6 → let good : Prop := field 63 11 = 0 ∧ d1 = 0 ∧ d2 = 0 ∧ d3 = 0
      let counts (c : Counter) : Bool := c.word.getLsbD 25 && decide (c.word.toNat % 64 = field 10 8 ∧ c.owner = x)
      (¬ good → fails .chainPulse 1 h.at_ s1) ∧ (good → h.exited = true → next .chainPulse (some (after h)) s1) ∧
      (good → h.exited = false → next .chainPulse (some (after h)) ((s1.modCore (coreOf x) fun q =>
        { q with counters := q.counters.map fun e => if counts e.2 then (e.1, { e.2 with count := Nat.min (e.2.count + 1) 65535 }) else e }).lookTerms (coreOf x)))) ∧
    (n % 256 = 7 → reads .chainWaitw (field 63 8 = 0 ∧ d3 = 0) fun v h u =>
      (d2.toNat ≤ v → next .chainWaitw (some (after h)) u) ∧ (v < d2.toNat → exec .chainWaitw s = .next s)) ∧
    (n % 256 = 8 → let good : Prop := field 63 8 = 0 ∧ d2 = 0 ∧ d3 = 0 ∧ (d1 = 0 → h.chase = false)
      let obj := if d1 = 0 then h.obj else d1
      let gives (t : State) (q : Fifo) : State := (t.tokenGiven x q (clock t)).modCtx x fun c =>
        let k := c.tok q; c.setTok q { k with held := k.held + 1 }
      (¬ good → fails .chainEnd 1 h.at_ s1) ∧ (good → obj.toNat % 8 ≠ 0 → fails .chainEnd 5 obj s1) ∧
      (good → obj.toNat % 8 = 0 → ∀ t,
        (∀ tr, place ag (.core (coreOf x)) .atomic false obj s1 = .error (.trap tr) t → fails .chainEnd (codeOf tr) tr.addr t) ∧
        ∀ p, place ag (.core (coreOf x)) .atomic false obj s1 = .ok p t →
          (h.fwd = true → t.regionAt h.asid obj ≠ none → fails .chainEnd 7 obj t) ∧
          ((h.fwd = true → t.regionAt h.asid obj = none) → let u := t.completeObject x (dieOf x) h.scope p h.no h.hb
            next .chainEnd none ((if h.exited then u else match h.push with
              | 1 => gives u .cv | 2 => gives u .cm | _ => u).lookTerms (coreOf x))))))

/-- The chase and the copy chains (R211, R215, R217, R218, R220-R225): the terms look at their inputs and fire, and the entries of a chain
take place or end it with an error. -/
def Obligations.ChaseAndChains : Prop :=
  Sys2Proof.Claims.TermsLook ∧ Sys2Proof.Claims.TermsFire ∧ Sys2Proof.Claims.ChainMoves ∧ Sys2Proof.Claims.ChainSteps

/-- The end of what a record has left behind (R131, R132, R227, R328): an entry of the retirement tracker frees, and a draining context becomes
free, when its posted operations have performed and its chains have ended, with the join that it owes; a join that fails is logged. That a
join which meets a full queue and a full join reserve waits, with nothing of it done, is the model's choice (log 42). -/
def Sys2Proof.Claims.DrainsEnd : Prop :=
  ∀ (s t : State) (k : CoreNo) (j : Nat) (x : CtxNo) (tr : Tracker), let cx := s.ctx x
    let ends (i : Instr) (ag : Agent) (block : Word) (u : State) (freed : State → State) : Prop :=
      (block = 0 → exec i s = .next (freed u)) ∧
      (block ≠ 0 → (joinM ag block u = .ok .done t → exec i s = .next (freed t)) ∧ (joinM ag block u = .ok .full t → exec i s = .next s) ∧
        (joinM ag block u = .ok .zero t → exec i s = .next (freed (t.logJoin ag block 3))) ∧
        ∀ tr, joinM ag block u = .error (.trap tr) t → exec i s = .next (freed (if tr.cause = 0x08 then t else
          t.logJoin ag block (if tr.cause = 0x06 then 1 else if tr.cause = 0x0F then 4 else 2))))
    (s.arg = .coreIx k j → Tab.find (s.core k.toNat).tracker j = some tr → (∀ p ∈ s.posted, p.no ∉ tr.posted) →
      (∀ h, (s.ctx tr.x).chain = some h ∨ h ∈ (s.ctx tr.x).chainQueue → h.start ≠ tr.start) →
      ends .retirementTrackerFree { x := tr.x, level := tr.level, asid := tr.asid, tag := tr.tag, start := some tr.start, engine := true }
        tr.join s fun u => u.modCore k.toNat fun q => { q with tracker := Tab.del q.tracker j }) ∧
    (s.arg = .ctx x → cx.status = .draining → s.outstanding x = false → s.ordinary x = [] → cx.chaining cx.start = false →
      ends .drainingEnd { x := x, level := cx.level, asid := cx.asid, tag := cx.tag, start := some cx.start, engine := true }
        (match cx.rec_ with | some r => r.w2 | none => 0) (s.discard x) fun u => u.modCtx x fun c =>
          { trap := { tvec := c.trap.tvec }, chain := c.chain, chainQueue := c.chainQueue })

/-- What happens to a context from outside its instructions (R127, R226, R271, R287): the word of a `waitc` is read again, a `wfe` is woken,
the galley spills, and a pending trap is delivered, which a synchronous one that is ready goes before. -/
def Sys2Proof.Claims.ContextEvents : Prop :=
  ∀ (s s1 t : State) (x : CtxNo) (f : Op64) (g : GalleyEntry) (l : List GalleyEntry) (a : AsyncTrap) (pl : Place), let cx := s.ctx x
    (s.arg = .ctx x → cx.status = .running → fetchInstr (agentOf x cx) cx.pc s = .ok ⟨.waitc f, 8⟩ s1 →
      let u : State := { s1 with cur := x }; let c := u.ctx x; let at_ := c.rg (gpr f.vs1)
      c.memBlocked 15 false at_ 8 = false → at_.toNat % 8 = 0 → place (self u) (.core (coreOf x)) .read false at_ u = .ok pl t →
      let r := (t.acquire x f.fn3.toNat).readBy x pl 8
      let v := r.1.learnWord x f.fn3.toNat pl.word {}
      r.2.2 = false → exec .waitcRecheck s = .next { (if (c.rg (gpr f.vs2)).toNat ≤ r.2.1 then
        v.modCtx x fun k => { k with pc := c.pc + len f } else v) with cur := s1.cur }) ∧
    (s.arg = .ctx x → cx.status = .running → 0 < cx.wfeLooks →
      exec .wfeTimeout s = .next (s.modCtx x fun c => { c with latch := true, wfeLooks := 0 })) ∧
    (s.arg = .ctx x → cx.galBuf = g :: l →
      exec .galleySpill s = .next ((State.spillOne (agentOf x cx) s g).modCtx x fun c => { c with galBuf := l })) ∧
    (s.arg = .ctx x → cx.status = .running → cx.level = .u → (∀ e ∈ cx.queue, e.coupled = true → e.parked = true) →
      (a ∈ cx.async ∧ (a.cause ≠ 0x11 ∧ cx.async.find? (fun b => b.cause != 0x11) = some a ∨
        cx.async.head? = some a ∧ ∀ b ∈ cx.async, b.cause = 0x11)) →
      ((∀ e ∈ cx.queue, e.parked = false → s.underrun x e = none) →
        exec .trapDelivery s = .next ((s.modCtx x fun c => { c with async := c.async.erase a }).enterTrap x
          { cause := a.cause, addr := a.addr, info := a.info } true false cx.pc)) ∧
      ((∃ e ∈ cx.queue, e.parked = false ∧ s.underrun x e ≠ none) → exec .trapDelivery s = .next s))

/-- What the package does for a context's work (R361, R366, R410-R412): posted operations and the elements and completions of commands
take place, and collectives move on. -/
def Sys2Proof.Claims.OperationsPerform : Prop :=
  ∀ (s t : State) (n e : Nat) (p : Posted) (c : Nmop) (pl : Place) (d : DieNo) (slot : BitVec 6),
    (s.arg = .num n → s.posted.find? (fun q => q.no == n) = some p → p.arrived = false →
      (∀ q ∈ s.posted.takeWhile fun q => q.no != n, q.x = p.x → q.arrived = true ∨ q.unit ≠ p.unit) →
      (p.unit.1 = .unit → exec .postedOperation s = .next { s with
        posted := (s.posted.filter fun q => q.arrived) ++ { p with arrived := true } :: s.posted.filter fun q =>
            !q.arrived && q.no != n }) ∧
      (p.unit.1 ≠ .unit → exec .postedOperation s = .next (s.performPosted p))) ∧
    (s.arg = .num n → s.posted.find? (fun q => q.arrived && decide (q.unit.1 = .unit) && q.unit.2 == n) = some p →
      exec .homeUnitOperation s = .next (s.performPosted p)) ∧
    (s.arg = .element n e → s.nmops.find? (fun q => q.no == n) = some c → e ∈ c.left → let u := s.nmElement c e
      exec .nmopElement s = .next { u with nmops := s.nmops.map fun q => if q.no = n then { q with left := q.left.filter fun i => i != e } else q }) ∧
    (s.arg = .num n → s.nmops.find? (fun q => q.no == n) = some c → c.left = [] →
      place { x := c.x, level := c.level, asid := c.asid, tag := c.tag, engine := true } (.core (coreOf c.x)) .atomic false c.obj
        { s with nmops := s.nmops.filter fun q => q.no != n } = .ok pl t →
      exec .nmopCompletion s = .next (t.completeObject c.x (homeDie (c.bases.getD 0 0)) c.scope pl c.no c.hb)) ∧
    (∀ q, s.arg = .dieSlot d slot → Tab.find (s.die d.toNat).coll slot.toNat = some q → q.failed = false →
      (q.next < collTotal q.words → q.flight.length < 16 → collMove d.toNat slot.toNat q s = .ok true t → exec .collTransfer s = .next t) ∧
      (collTotal q.words ≤ q.next → q.flight = [] →
        place { x := q.x, level := q.level, asid := q.asid, tag := q.tag, engine := true, noWindow := true } (.coll d.toNat) .atomic false q.obj s =
          .ok pl t →
        exec .collTransfer s = .next ((t.modDie d.toNat fun m =>
            { m with coll := Tab.del m.coll slot.toNat }).completeObject q.x d.toNat q.scope pl q.no q.hb)))

/-- What the package does for a context's work (R127, R226, R227, R271, R287, R361, R366, R410-R412): tracker entries free, draining
ends, the word of a `waitc` is read again, a `wfe` is woken, the galley spills, a pending trap is delivered, posted operations and the
elements and completions of commands take place, and collectives move on. -/
def Obligations.WorkOfTheEngines : Prop :=
  Sys2Proof.Claims.DrainsEnd ∧ Sys2Proof.Claims.ContextEvents ∧ Sys2Proof.Claims.OperationsPerform

/-! ## Scheduling -/

/-- Records start, end and move (R48, R71, R289, R313, R324-R338): an idle context takes the record that its die serves and starts it; a
kill ends a record and, the first of a launch, aborts the launch; a victim is signalled, and killed when its grace is over; records
arrive from another die; roots are queued; counts are reported and confirmed; launches complete, those that a take-over has found in the
order of their tags; a standby takes over. That a root which meets a full queue and a full join reserve waits at the hub with nothing done
is the model's choice (log 42). -/
def Obligations.Scheduling : Prop :=
  ∀ (s s1 : State) (x v : CtxNo) (a b d : DieNo) (q : QuadNo) (tag : BitVec 32) (r : Rec) (l : Launch) (g4 : Word) (n m p : Nat) (why : KillWhy)
    (pre post : List Rec) (total : Int), let c := s.ctx x; let k := s.core (coreOf x); let die := s.die (dieOf x)
    let killed (why : KillWhy) : State :=
      let u := ((s.breakBars x).quadCount (quadOf x) c.tag (-1)).logRefused x
      let u := if u.outstanding x then (u.discardKeep x).modCtx x fun c =>
          { c with status := .draining, rec_ := c.rec_.map fun r => { r with w2 := 0 } }
        else (u.discard x).modCtx x fun c => { trap := { tvec := c.trap.tvec }, chain := c.chain, chainQueue := c.chainQueue }
      let (code, cause) : Nat × Nat := match why with
        | .tvecZero c => (1, c.toNat) | .tvecFault c => (2, c.toNat) | .preempt => (3, 0) | .hostAbort => (4, 0) | .dieWithdrawn => (5, 0)
      match Tab.find u.hub.launches c.tag.toNat with
      | none => u
      | some l =>
        let noted : Launch := { l with aborted := true, kwhy := code, kcause := cause, kctx := x.toNat }
        if l.aborted then u else ((u.journal l.die.toNat).modHub fun h =>
            { h with launches := Tab.put h.launches c.tag.toNat noted }).abortLaunch c.tag
    (s.arg = .ctx x → s.hub.boot = .run → c.status = .idle → k.withdrawn = false → k.retired = false → die.withdrawn = false →
      (∀ y : CtxNo, dieOf y = dieOf x → y.toNat < x.toNat → s.pops y = false) → s.popLevel x = some n → s.takeAt x n = some m →
          (die.level n)[m]? = some r →
      let u := (((s.modDie (dieOf x) fun d => d.pop n m).takeStore (quadOf x) r.tag).acquire x r.scope).clearMatrix x
      let cp : Word := BitVec.ofInt 64 (sextNat 56 r.w0.toNat); let y := u.ctx x
      let parts : Tab Part := r.parts.map fun e => match e.2 with
        | .phase p => (e.1, if p < (u.bar e.1).idleAt then .ended else .phase p)
        | .ended => e
      let kept : Ctx := { trap := { tvec := y.trap.tvec }, chain := y.chain, chainQueue := y.chainQueue, parts := parts,
                           rec_ := some ⟨r.w0, r.w2, r.tag, u.serial⟩ }
      let new : Ctx := { kept with status := .running, pc := cp, level := if r.w0.getLsbD 60 then .s else .u, begunS := r.w0.getLsbD 60, asid := r.asid }
      let new := ((new.wg 3 r.w1).wg 5 r.cr).wg 8 r.w3
      let started := { u.setCtx x new with serial := u.serial + 1 }.begins u.serial r.tag r.hb
      readHeader (agentOf x new) cp started = .ok g4 s1 → exec .recordPop s = .next (s1.modCtx x fun c => c.wg 4 g4)) ∧
    (s.arg = .kill x why → c.status = .running → exec .recordKill s = .next (killed why)) ∧
    (s.arg = .ctx x → c.status = .running → c.signalled = true → (∀ t ∈ c.async, t.cause ≠ 0x11) →
      exec .preemptTimeout s = .next (killed .preempt)) ∧
    (s.arg = .die d → (s.die d.toNat).takeover = false → (s.die d.toNat).controllers ≠ 0 → (s.die d.toNat).tested = false →
      ((s.die d.toNat).overdue.findSome? fun r => (s.victim d.toNat r.1).map fun v => (r, v)) = some ((p, n), v) →
      (s.ctx v).status = .running → (s.ctx v).signalled = false →
      let fresh (d : Die) : Die := { d with queues := Tab.put d.queues p ((d.level p).modify n fun r => { r with pops := 0 }) }
      let sent : AsyncTrap := ⟨0x11, 0, BitVec.ofNat 64 (p % 16)⟩
      exec .preemptSignal s = .next (((s.journal d.toNat).modDie d.toNat fresh).modCtx v fun c =>
        { c with latch := true, wfeLooks := 0, signalled := true, async := c.async ++ [sent] })) ∧
    (s.arg = .die d → (s.die d.toNat).takeover = false → (s.die d.toNat).controllers ≠ 0 → (s.die d.toNat).tested = false →
      (∀ r ∈ (s.die d.toNat).overdue, s.victim d.toNat r.1 = none) →
      exec .preemptSignal s = .next (s.modDie d.toNat fun e => { e with tested := true })) ∧
    (s.arg = .dies a b → (s.die a.toNat).transit = pre ++ r :: post → recDie a.toNat r.w0 = b.toNat →
        (∀ o ∈ pre, recDie a.toNat o.w0 ≠ b.toNat) →
      exec .recordTransitArrival s = .next ((s.modDie a.toNat fun d => { d with transit := pre ++ post }).modDie b.toNat fun d =>
        { d with queues := Tab.put d.queues (recPrio r.w0) (d.level (recPrio r.w0) ++ [r]) })) ∧
    (s.arg = .tag tag → s.launch tag = some l → l.rooted = false → l.aborted = false → (s.die l.die.toNat).takeover = false →
      (s.die l.die.toNat).withdrawn = false → l.prio < 12 → (∀ t ∈ l.deps, s.launch t = none) →
      let u := (s.acquireAll.journal l.die.toNat).drainReserve l.die.toNat l.prio
      let w0 := (l.root &&& 0x00FFFFFFFFFFFFFF#64) ||| (BitVec.ofNat 64 l.prio <<< 56)
      let root : Rec := { w0 := w0, w1 := l.frame, w2 := 0, w3 := l.arg, tag := l.tag, asid := l.asid, cr := l.entryVa, scope := 4, waited := 0,
                          pops := 0, hb := joinAll (l.hb :: l.deps.map fun t => Tab.look [] u.before.done t.toNat) }
      let rooted (w : State) := w.modLaunch tag fun l => { l with rooted := true, total := l.total + 1, asked := false, confirmed := [] }
      (u.queueFull l.die.toNat l.prio = false → exec .rootQueue s = .next (rooted (u.modDie l.die.toNat fun d =>
        { d with queues := Tab.put d.queues l.prio (d.level l.prio ++ [root]) }))) ∧
      (u.queueFull l.die.toNat l.prio = true → (u.die l.die.toNat).reserve.length < 1024 → exec .rootQueue s = .next (rooted
        { u.modDie l.die.toNat fun d => { d with reserve := d.reserve ++ [{ root with no := u.serial }] } with serial := u.serial + 1 })) ∧
      (u.queueFull l.die.toNat l.prio = true → 1024 ≤ (u.die l.die.toNat).reserve.length → exec .rootQueue s = .next s)) ∧
    (s.arg = .count (.quad q) tag → Tab.find (s.quad q.toNat).counts tag.toNat = some total → s.presentQuad q.toNat tag = false → tag ≠ 0 →
      exec .counterReport s = .next ((s.modQuad q.toNat fun e => { e with counts := Tab.del e.counts tag.toNat }).modDie (q.toNat / 16)
        fun e => { e with counts := Tab.put e.counts tag.toNat (Tab.look 0 e.counts tag.toNat + total) })) ∧
    (s.arg = .count (.die d) tag → Tab.find (s.die d.toNat).counts tag.toNat = some total → s.presentDie d.toNat tag = false →
      exec .counterReport s = .next ((s.modDie d.toNat fun e => { e with counts := Tab.del e.counts tag.toNat }).modLaunch tag fun l =>
        { l with total := l.total + total, asked := false, confirmed := [] })) ∧
    (s.arg = .dieTag d tag → s.launch tag = some l → l.total = 0 → (l.rooted = true ∨ l.aborted = true) → s.dieClear d.toNat tag = true →
      d.toNat ∉ l.confirmed → exec .dieConfirm s = .next (s.modLaunch tag fun l =>
          { l with asked := true, confirmed := d.toNat :: l.confirmed })) ∧
    (s.arg = .tag tag → s.launch tag = some l → l.total = 0 → (l.rooted = true ∨ l.aborted = true) → (∀ d < 4, d ∈ l.confirmed) →
      s.quiet l.tag = true → (∀ e ∈ s.dies, e.2.takeover = false) →
      (tag.toNat ∈ s.hub.found → (∃ n ∈ s.hub.found, n < tag.toNat) → exec .launchComplete s = .next s) ∧
      ((tag.toNat ∈ s.hub.found → ∀ n ∈ s.hub.found, tag.toNat ≤ n) →
      let u := (((((s.journal l.die.toNat).releaseAll tag).finishes tag).freeStores tag).freeBars tag).modHub fun h => { h with
        found := h.found.filter fun n => n != tag.toNat,
        vlogs := h.vlogs.map fun v => (v.1, { v.2 with entries := v.2.entries.filter fun e => e.tag != tag }),
        launches := Tab.del h.launches tag.toNat }
      let status : Word := BitVec.ofNat 64 (l.nviol * 2 ^ 48 + l.kctx % 1024 * 2 ^ 32 + l.kcause % 256 * 2 ^ 24 + l.kwhy * 2 ^ 16 +
        (if l.dab then 256 else 0) + (if l.aborted then 3 else 0))
      exec .launchComplete s = .next ((((u.sendKept 6 l.queue (tag.setWidth 64) status 0 []).entryDone l.queue l.entry).syncHandles).admitAll))) ∧
    (s.arg = .die d → (s.die d.toNat).takeover = true → ∃ found : List Nat,
      (∀ n, n ∈ found ↔ ∃ m, (n, m) ∈ s.hub.launches ∧ m.total = 0 ∧ (m.rooted = true ∨ m.aborted = true) ∧ (∀ d < 4, d ∈ m.confirmed) ∧
        s.quiet m.tag = true) ∧
      exec .controllerTakeover s = .next ((((s.modDie d.toNat fun e => { e with takeover := false }).modHub fun h =>
        { h with found := found }).journal d.toNat).admitAll)) ∧
    (s.arg = .tag tag → s.launch tag = some l → l.aborted = false →
      (∀ e ∈ s.ctxs, e.2.status = .running → e.2.tag ≠ tag) →
      exec .hostAbort s = .next (((s.journal l.die.toNat).modLaunch tag fun l =>
          { l with aborted := true, kwhy := 4, kcause := 0, kctx := 0 }).abortLaunch tag)) ∧
    (∀ y z, s.arg = .tag tag → s.launch tag = some l → l.aborted = false →
      s.ctxs.find? (fun e => decide (e.2.status = .running) && e.2.tag == tag) = some (y, z) →
      exec .hostAbort s = .next (s.kill (BitVec.ofNat 10 y) .hostAbort))

/-! ## The host -/

/-- A frame of the host arrives in RUN on a queue that exists, with fields that the rules describe (R415). -/
structure Sys2Proof.Claims.Frames (s : State) (f : Frame) (typ : Nat) : Prop where
  arg : s.arg = .frame f
  run : s.hub.boot = .run
  queue : f.queue.toNat < 256
  typ : f.typ.toNat = typ
  ok : frameOk f = true
  ether : f.ether = s.hub.etherType

/-- Frames of the host are performed once, in the order of their queue's sequence numbers: one ahead of its turn is discarded, an earlier
one is acknowledged as before; a queue that is not set up refuses with status 2, one that does not take the type with 3. A launch writes
its descriptor to the ring and is admitted, a kick admits up to its tail, a write and a read access memory under the queue's asid, an
acknowledgement ends retransmission, which after 64 times gives the host up (R415-R418). That a launch or a kick is journaled in every die
(log 96), and that what has arrived is admitted in the order of arrival (log 61), is the model's choice. -/
def Obligations.HostFrames : Prop :=
  ∀ (s s1 : State) (f : Frame) (bs : List Byte) (n : Nat) (un : Unacked), let h := f.queue.toNat; let q := s.hostQ h
    let t := s.modHostQ h fun q => { q with seqIn := q.seqIn + 1 }
    let frames := [(Instr.launch, 1), (.kick, 2), (.hostWrite, 3), (.hostRead, 4)]
    let setUp : Prop := f.seq = q.seqIn ∧ 1 ≤ h ∧ (t.hostQ h).setUp = true
    let acked (u : State) (status : Nat) : State := u.modHub fun k =>
        { k with sent := { deviceFrame 7 h 0 0 (f.seq.setWidth 64) status [] with ether := k.etherType } :: k.sent }
    let check (acc : Acc) (va : Word) (n : Nat) := hubCheck q.asid .s acc va n
    let arrive (u : State) (n : Nat) : State := ([0, 1, 2, 3].foldl State.journal ((u.modHostQ h fun q =>
        { q with tail := q.tail + n }).modHub
      fun k => { k with arrivals := k.arrivals ++ List.replicate n h })).admitAll
    (∀ i typ, (i, typ) ∈ frames → Frames s f typ →
      (f.seq ≠ q.seqIn → 2 ^ 31 ≤ (q.seqIn - f.seq).toNat → exec i s = .next s) ∧
      (f.seq ≠ q.seqIn → (q.seqIn - f.seq).toNat < 2 ^ 31 → exec i s = .next (s.reack h f.seq)) ∧
      (f.seq = q.seqIn → h = 0 → exec i s = .next (acked t 3)) ∧
      (f.seq = q.seqIn → 1 ≤ h → (t.hostQ h).setUp = false → exec i s = .next (acked t 2))) ∧
    (Frames s f 1 → setUp → 64 ≤ f.payload.length → f.payload.length ≤ 256 → q.rbase ≠ 0 → q.tail - q.free ≠ 2 ^ q.rlog →
      (do check .write (q.entryVa q.tail) 256
          hubWrite q.asid .s false h 33 (q.entryVa q.tail) (f.payload ++ List.replicate (256 - f.payload.length) 0) : M Unit) t = .ok () s1 →
      exec .launch s = .next (acked (arrive s1 1) 0)) ∧
    (Frames s f 2 → setUp → q.tail ≤ f.aux.toNat → f.aux.toNat ≤ q.free + 2 ^ q.rlog → (q.rbase ≠ 0 ∨ f.aux.toNat = q.tail) →
      (each (List.range (f.aux.toNat - q.tail)) fun i => check .read (q.entryVa (q.tail + i)) 256) t = .ok () s1 →
      exec .kick s = .next (acked (arrive s1 (f.aux.toNat - q.tail)) 0)) ∧
    (Frames s f 3 → setUp → (do check .write f.addr f.payload.length
                                hubWrite q.asid .s false h (f.payload.length + 1) f.addr f.payload : M Unit) t = .ok () s1 →
      exec .hostWrite s = .next (acked s1 0)) ∧
    (Frames s f 4 → setUp → (do check .read f.addr f.len.toNat
                                hubRead q.asid .s (f.len.toNat + 1) f.addr f.len.toNat : M (List Byte)) t = .ok bs s1 →
      exec .hostRead s = .next (acked (s1.sendKept 5 h f.addr 0 0 bs) 0)) ∧
    (s.arg = .frame f → f.typ = 7 → s.hub.boot ≠ .off → f.ether = s.hub.etherType → exec .acknowledgement s = .next (s.modHub fun k => { k with
      unacked := k.unacked.filter fun u => !(u.frame.queue == f.queue && u.frame.seq.setWidth 64 == f.aux) })) ∧
    (s.arg = .num n → s.hub.unacked[n]? = some un →
      (un.sent < 64 → exec .frameRetransmit s = .next (s.modHub fun k => { k with
        sent := { un.frame with ether := k.etherType } :: k.sent, unacked := k.unacked.modify n fun v => { v with sent := v.sent + 1 } })) ∧
      (64 ≤ un.sent → exec .frameRetransmit s = .next (s.modHub fun k => { k with unacked := k.unacked.eraseIdx n, hostLost := true })))

/-- Boot and management (R299, R300, R382-R389, R398, R409): image bytes are gathered in WAIT until the image is whole, its checks return
the hub to WAIT with the status of the first that fails, or load it; attestations, signed under the key of the boot report with a randomness
that is a free value, and snapshots are answered; and each management request takes effect when its operand is in range, or is refused
without effect. That an image frame in RUN is refused with status 2 (log 67), and a retest of a core that is not withdrawn (log 68), is the
model's choice. -/
def Obligations.BootAndManagement : Prop :=
  ∀ (s : State) (f : Frame) (seq : BitVec 32) (d : DieNo) (q : QuadNo) (k : CoreNo) (w : Word) (n lg dx dy dz : Nat) (pin : Bool) (pb : BitVec 6)
    (asid thr : BitVec 16) (me : Coord3) (port : PortNo) (rate : BitVec 3), let b := s.hub.boot
    let t := s.modHostQ 0 fun q => { q with seqIn := q.seqIn + 1 }
    let acked (u : State) (z : BitVec 32) (status : Nat) : State :=
      u.modHub fun k => { k with sent := { deviceFrame 7 0 0 0 (z.setWidth 64) status [] with ether := k.etherType } :: k.sent }
    let inTurn : Prop := s.arg = .frame f ∧ f.queue = 0 ∧ f.seq = (s.hostQ 0).seqIn ∧ frameOk f = true ∧ f.ether = s.hub.etherType
    let got := (f.payload.zip (List.range f.payload.length)).foldl (fun m b => Tab.put m (f.addr.toNat + b.2) b.1) s.hub.image
    let u := t.modHub fun h => { h with image := got }
    (b = .off → exec .bootRom s = .next (s.modHub fun h => { h with
      boot := .rom, persist := { h.persist with cycles := Nat.min (h.persist.cycles + 1) (2 ^ 32 - 1) } })) ∧
    (b = .rom → exec .bootRom s = .next (s.modHub fun h => { h with boot := .wait, lanes := 1 })) ∧
    (b = .wait → exec .bootStatus s = .next (s.modHub fun h => { h with sent := { deviceFrame 9 0 0 0 0 h.imageStatus [] with ether := h.etherType } :: h.sent })) ∧
    (b = .wait → inTurn → f.typ = 8 → exec .imageFrame s = .next (acked (if u.hub.imageWhole then u.modHub fun h =>
        { h with boot := .verify }
      else u) f.seq 0)) ∧
    (b = .run → inTurn → f.typ = 8 → exec .imageFrame s = .next (acked t f.seq 2)) ∧
    (b = .verify → exec .verifyImage s = .next (if s.hub.verify = 0 then s.load else s.modHub fun h =>
      { h with boot := .wait, imageStatus := s.hub.verify, image := [] })) ∧
    (b = .run → inTurn → f.typ = 12 → f.payload.length = 32 →
      let signed := f.payload ++ leBytes 32 s.hub.measurement ++ leBytes 8 (s.hub.errataGen * 2 ^ 56 + s.hub.errataMask.toNat) ++
        leBytes 2 s.hub.svn ++ leBytes 8 s.hub.persist.word
      let random := (List.range 4).flatMap fun i => leBytes 8 (Config.freeWord (t.fresh + i)).toNat
      exec .attestation s = .next (acked { t.sendPlain (deviceFrame 12 0 f.seq 0 0 0 (signed ++ slhSign identitySecret random signed)) with
        fresh := t.fresh + 4 } f.seq 0)) ∧
    (b = .run → inTurn → f.typ = 13 → exec .snapshotFrame s = .next (acked t.snapshot f.seq 0)) ∧
    (b = .run → seq = (s.hostQ 0).seqIn →
      let tells (u : State) (status : Nat) (bs : List Byte) : State := acked (u.sendKept 11 0 0 (seq.setWidth 64) status bs) seq 0
      let serves (i : Instr) (r : Request) (good : Prop) (u : State) (bs : List Byte) : Prop := s.arg = .request seq r →
        (good → exec i s = .next (tells u 0 bs)) ∧ (¬ good → exec i s = .next (tells t 1 []))
      let key := 5 * 1024 * 64 + n
      let cap := w.toNat % 1024
      serves .dvfs (.dvfs d w) (w.toNat / 2 ^ 16 % 16 ≤ 8 ∧ (cap = 0 ∨ 100 ≤ cap ∧ cap ≤ 900))
        (t.modDie d.toNat fun e => { e with dvfs := ⟨w.getLsbD 31, w.extractLsb' 16 4, w.extractLsb' 0 10⟩ }) [] ∧
      serves .powerLimit (.powerLimit n) (1500 ≤ n ∧ n ≤ 3600) (t.modHub fun h => { h with powerLimit := n }) [] ∧
      serves .quadBoundary (.quadBoundary q pin pb) True
        (t.modQuad q.toNat fun e => { e with cfg := { e.cfg with pin := pin, pbnd := pb }, moving := none }) [] ∧
      serves .preEmptionMask (.preEmptionMask d w) (w.toNat < 4096) (t.modDie d.toNat fun e => { e with noVictims := w.setWidth 12 }) [] ∧
      serves .drainShare (.drainShare n) (1 ≤ n ∧ n ≤ 8) (t.modHub fun h => { h with drainShare := n }) [] ∧
      serves .confirmVersion .confirmVersion True (t.modHub fun h => { h with minSvn := Nat.max h.minSvn h.svn }) [] ∧
      serves .retest (.retest k) ((t.core k.toNat).withdrawn = true) (t.modCore k.toNat fun c => { c with retired := false }) [] ∧
      serves .snapshotRequest .snapshot True t.snapshot t.snapshot.hub.snap.bytes ∧
      serves .logsRequest .logs True (t.modHub fun h => { h with vlogs := [] }) (t.hub.vlogs.flatMap fun (v : Nat × VLog) =>
        leBytes 2 v.1 ++ leBytes 2 v.2.lost ++ leBytes 1 v.2.entries.length ++ v.2.entries.flatMap LogEntry.bytes) ∧
      serves .queueSetup (.queueSetup n asid w lg)
        (n ≠ 0 ∧ n < 256 ∧ w.toNat % 4096 = 0 ∧ lg ≤ 12 ∧ ∀ l ∈ t.hub.launches, l.2.queue ≠ n)
        ((t.modHostQ n fun q => { q with asid := asid, rbase := w, rlog := lg, setUp := true, tail := 0, admitted := 0, free := 0, done := [] }).modHub
          fun h => { h with arrivals := h.arrivals.filter fun k => k != n }) [] ∧
      serves .podJoin (.podJoin dx dy dz me) (1 ≤ dx ∧ dx ≤ 64 ∧ 1 ≤ dy ∧ dy ≤ 64 ∧ 1 ≤ dz ∧ dz ≤ 64 ∧ me.x.toNat < dx ∧ me.y.toNat < dy ∧
        me.z.toNat < dz ∧ t.hub.launches = []) (t.modHub fun h => { h with dims := (dx, dy, dz), me := me }) [] ∧
      serves .linkPin (.linkPin port thr pin rate) True (t.modPort (portIx port) fun e =>
        { e with thr := thr, pin := pin, prate := rate, cur := if pin then Nat.min rate.toNat 4 else e.cur }) [] ∧
      serves .podBarrierReset (.podBarrierReset n) (n < 16 ∧ (t.bar key).state = .broken)
        ((t.setBar key { t.bar key with state := .idle, n := 0, a := 0, drops := 0, devs := [] }).podSend key .reset) [])

/-! ## Firmware, the boundary, power and errors -/

/-- Firmware's writes and the boundary (R100, R101, R231, R232, R298, R299, R317-R319, R322, R329, R340, R344, R349, R398): a new allotment
empties the units whose owner changes, once no matrix entry names one; a `vcsr` write keeps frm at 6 and 7; control registers take their
fields; a retired bank takes the last way of its quad cache; an interval decides at most one move by what it counted and clears the counts,
and a move goes one bank. That firmware's writes arrive as events of their own (log 74) and that the verdict on a withdrawn core is bit 0 of
such a write (log 68) is the model's choice. -/
def Obligations.FirmwareAndBoundary : Prop :=
  ∀ (s : State) (k : CoreNo) (x : CtxNo) (q : QuadNo) (p : PortNo) (d : DieNo) (v : Word) (asid : BitVec 16) (up : Bool),
    let core := s.core k.toNat; let w := v &&& 0xBBBBBBBB#64; let e := s.quad q.toNat
    let mine (i : Instr) : Option (Option Nat × Option Nat) := match i with
      | .mma f | .mmat f => some (some f.vd.toNat, some f.vs2.toNat)
      | .wld f | .wswap f => some (none, some f.vd.toNat)
      | .mzero f | .tld f => some (some f.vd.toNat, none)
      | .tmv f | .tcol f => some (some f.vs1.toNat, none)
      | _ => none
    let changes (a : Word) (j : Nat) : Prop := a.getLsbD (4 * j + 3) ≠ w.getLsbD (4 * j + 3) ∨
        a.getLsbD (4 * j + 1) ≠ w.getLsbD (4 * j + 1) ∨
      a.getLsbD (4 * j) ≠ w.getLsbD (4 * j)
    let names (tile : Bool) (j : Nat) : Prop := ∃ y : CtxNo, coreOf y = k.toNat ∧ ∃ o ∈ (s.ctx y).queue, ∃ u, mine o.instr = some u ∧
      (if tile then u.1 else u.2) = some j
    (s.arg = .coreVal k v → (∀ j < 8, changes core.tallot j → ¬ names true j) → ∃ tl,
      exec .tallotWrite s = .next (s.modCore k.toNat fun c => { c with tallot := w, tiles := tl }) ∧
      ∀ j < 8, (changes core.tallot j → Tab.look [] tl j = []) ∧ (¬ changes core.tallot j → Tab.look [] tl j = Tab.look [] core.tiles j)) ∧
    (s.arg = .coreVal k v → (∀ j < 8, changes core.wallot j → ¬ names false j) → ∃ fl,
      exec .wallotWrite s = .next (s.modCore k.toNat fun c => { c with wallot := w, formes := fl }) ∧
      ∀ j < 8, (changes core.wallot j → Tab.look {} fl j = {}) ∧ (¬ changes core.wallot j → Tab.look {} fl j = Tab.look {} core.formes j)) ∧
    (s.arg = .ctxVal x v → (∀ o ∈ (s.ctx x).queue, o.parked = true ∨ o.queue = .copy) →
      exec .vcsrWrite s = .next (s.modCtx x fun c =>
          { c with vcsr := ⟨v.extractLsb' 18 7, v.extractLsb' 6 9, v.getLsbD 5, v.extractLsb' 3 2,
        if 6 ≤ v.toNat % 8 then c.vcsr.frm else v.extractLsb' 0 3⟩ })) ∧
    (let writes (r : CtlReg) (t : State) : Prop := s.arg = .ctl r v → exec .controlSpaceWrite s = .next t
     let root := v.toNat / 2 ^ 16 % 2 ^ 36 * 2 ^ 16
     let port := Tab.look {} s.hub.ports (portIx p)
     let set_ : Port := { port with thr := v.extractLsb' 48 16, pin := v.getLsbD 0, prate := v.extractLsb' 2 3 }
     let pinned : Port := { set_ with cur := if set_.pin then Nat.min set_.prate.toNat 4 else set_.cur }
     writes (.qcfg q) (s.modQuad q.toNat fun e => { e with cfg := ⟨v.extractLsb' 48 16, v.getLsbD 0, v.extractLsb' 8 6⟩, moving := none }) ∧
     writes (.lnkcfg p) (s.modHub fun h => { h with ports := Tab.put h.ports (portIx p) pinned }) ∧
     writes (.root0 d asid) (s.modDie d.toNat fun e => { e with root0 := Tab.put e.root0 asid.toNat root }) ∧
     writes (.root1 d asid) (s.modDie d.toNat fun e => { e with root1 := Tab.put e.root1 asid.toNat root }) ∧
     writes (.asid x) (s.modCtx x fun c => { c with asid := v.setWidth 16 }) ∧
     (∀ prio : BitVec 4, prio.toNat < 12 → (∃ n, 12 ≤ n ∧ n ≤ 20 ∧ v.toNat = 2 ^ n) →
       writes (.ring d prio) (s.modDie d.toNat fun e =>
         { e with rings := Tab.put e.rings prio.toNat { Tab.look ⟨0, Config.queueRing⟩ e.rings prio.toNat with size := v.toNat } })) ∧
     (∀ prio : BitVec 4, prio.toNat < 12 → writes (.ringBase d prio) (s.modDie d.toNat fun e =>
         { e with rings := Tab.put e.rings prio.toNat { Tab.look ⟨0, Config.queueRing⟩ e.rings prio.toNat with base := v } })) ∧
     writes .rearm (s.modHub fun h => { h with snap := { h.snap with armed := true } }) ∧
     writes .etherType (s.modHub fun h => { h with etherType := v.setWidth 16 }) ∧
     writes (.firstMismatch k) (s.modCore k.toNat fun c => { c with firstMismatch := v.getLsbD 0 }) ∧
     (core.withdrawn = true → writes (.verdict k) (s.modCore k.toNat fun c => { c with withdrawn := false, retired := !v.getLsbD 0 })) ∧
     (v.toNat % 32 ∈ e.banks → writes (.retireBank q) s) ∧
     (v.toNat % 32 ∉ e.banks → writes (.retireBank q) (((e.cache.filter fun l => decide (31 - e.banks.length ≤ l.2.way)).foldl
       (fun t l => t.dropQuad none q.toNat l.1) s).modQuad q.toNat fun e => { e with banks := addMark (v.toNat % 32) e.banks }))) ∧
    (s.arg = .quad q → e.cfg.pin = false →
      let gain : Int := (e.sPlus : Int) - e.cMinus; let loss : Int := (e.cPlus : Int) - e.sMinus; let thr : Int := e.cfg.thr.toNat
      let move := if e.bound < e.dmax ∧ thr < gain ∧ loss ≤ gain then some true else if e.dmin < e.bound ∧ thr < loss then
          some false else none
      exec .boundaryInterval s = .next (s.modQuad q.toNat fun e =>
          { e with moving := move, sPlus := 0, sMinus := 0, cPlus := 0, cMinus := 0 })) ∧
    (s.arg = .move q up → (let goal := Nat.max e.dmin (Nat.min (Nat.min e.cfg.pbnd.toNat 32) e.dmax)
        if e.cfg.pin = true then (if up then e.bound < goal else goal < e.bound) else e.moving = some up) →
      (if up then e.bound < e.dmax else e.dmin < e.bound) → let t := s.modQuad q.toNat fun e => { e with moving := none }
      exec .boundaryMove s = .next (if up then t.moveUp q.toNat else t.moveDown q.toNat) ∧
      ((if up then t.moveUp q.toNat else t.moveDown q.toNat).quad q.toNat).bound = if up then e.bound + 1 else e.bound - 1)

/-- Power, temperature and errors (R295, R322, R338, R359, R371-R379, R387, R388): the buffer accepts writes line by line and drains; a loss
of power leaves durable memory, each line at an entry of its history that a free value chooses, and the lines that the buffer held as the
hold-up drain leaves them, by free values again; the governor takes the lowest step; a die
at 105 °C slows, and at 115 °C the package powers down in order; an uncorrectable error marks what holds it. -/
def Obligations.PowerAndErrors : Prop :=
  ∀ (s : State) (d a b : DieNo) (k : CoreNo) (q : QuadNo) (x : CtxNo) (row lane : BitVec 8) (tile : BitVec 3) (tr tc : BitVec 7) (r : Reg)
    (n g temp : Nat) (w : DurableWrite),
    let die := s.die d.toNat; let t := s.hub.history.foldl (fun t h => t.recoverLine h.1 h.2) s; let held := t.holdUp
    (s.arg = .num n → s.hub.waiting[n]? = some w → (∀ v ∈ s.hub.waiting.take n, v.line ≠ w.line) →
      (s.hub.buffer.length < 131072 ∨ w.line ∈ s.hub.buffer) → exec .persistAccept s = .next (s.acceptOne w (s.hub.waiting.eraseIdx n))) ∧
    (s.arg = .num n → exec .persistDrain s = .next (s.modHub fun h => { h with buffer := h.buffer.filter fun l => l != n })) ∧
    (s.hub.boot ≠ .off → ∃ u, exec .powerLoss s = .next u ∧ u.hub.boot = .off ∧ u.ctxs = [] ∧ u.dies = [] ∧ u.hub.waiting = [] ∧
      u.hub.persist.loss = true ∧ u.hub.persist.drain = held.2.1 ∧ u.hub.persist.bad = held.2.2 ∧
      (∀ c, c ∈ u.mem ↔ c ∈ held.1.mem ∧ isDurable c.1 = true) ∧ (t.hub.buffer = [] → held.1.mem = t.mem) ∧ ∀ j, (u.core j).l1 = [] ∧
          (u.quad j).cache = []) ∧
    (s.arg = .dieTemp d temp → 115 ≤ temp → s.hub.boot ≠ .off → ∃ u, exec .thermalShutdown s = .next u ∧ u.hub.boot = .off ∧ u.ctxs = [] ∧
      u.hub.persist.loss = false ∧ u.hub.waiting = [] ∧ ∀ c, c ∈ u.mem ↔ c ∈ s.orderlyFlush.mem ∧ isDurable c.1 = true) ∧
    (s.arg = .die d → ∃ u, exec .governorStep s = .next u ∧ (u.die d.toNat).clock ≤ die.thermal ∧ (u.die d.toNat).clock ≤ 8 ∧
      (die.dvfs.ex = true → (u.die d.toNat).clock ≤ die.dvfs.step.toNat) ∧ ∀ j, j ≠ d.toNat → u.die j = s.die j) ∧
    (s.arg = .dieTemp d temp → exec .thermalThrottle s = .next (s.modDie d.toNat fun e => if 105 ≤ temp then
        { e with temp := temp, thermal := Nat.min e.thermal e.clock - 1, clock := Nat.min e.thermal e.clock - 1 }
      else { e with temp := temp, thermal := 8 })) ∧
    (let errs (i : ErrSite) (t : State) : Prop := s.arg = .site i → exec .uncorrectableError s = .next t
     let hit (t : Tab Line) : Tab Line := t.map fun l => if l.1 = g / 8 then
         (l.1, { l.2 with pois := l.2.pois ||| (1#8 <<< (g % 8)) }) else l
     (s.hub.boot ≠ .off → errs (.memory g) { s with marks := addMark g s.marks }) ∧
     (s.hub.boot = .off → isDurable (8 * g) = true → errs (.memory g) { s with
       marks := addMark g s.marks, hub := { s.hub with persist := { s.hub.persist with bad := true } } }) ∧
     errs (.l2 g) { s with l2 := hit s.l2 } ∧
     errs (.code k g) (s.modCore k.toNat fun c => { c with icache := hit c.icache }) ∧
     errs (.staging d g) (s.modDie d.toNat fun e => { e with staging := addMark g e.staging }) ∧
     errs (.tile k tile tr tc) (s.modCore k.toNat fun c => c.setTileRow tile.toNat tr.toNat
       { c.tileRow tile.toNat tr.toNat with pois := (c.tileRow tile.toNat tr.toNat).pois ||| (1#128 <<< tc.toNat) }) ∧
     errs (.l1 k g) (s.modCore k.toNat fun c => { c with l1 := hit c.l1 }) ∧
     errs (.quadCache q g) (s.modQuad q.toNat fun e => { e with
       cache := (hit e.cache).map fun l => if l.1 = g / 8 then (l.1, { l.2 with err := l.2.err ||| (1#8 <<< (g % 8)) }) else l }) ∧
     errs (.quadStore q g) (s.modQuad q.toNat fun e => { e with storeMarks := addMark g e.storeMarks }) ∧
     errs (.row x row lane) (s.modCtx x fun c => c.setRow row.toNat
       ⟨(c.row row.toNat).bits, (c.row row.toNat).pois ||| (255#2048 <<< (8 * lane.toNat))⟩) ∧
     (r ≠ 0 → errs (.scalar x r) (s.modCtx x fun c => { c with gp := addMark r.toNat c.gp })) ∧
     (die.controllers = 2 → errs (.controller d) (s.modDie d.toNat fun e => { e with controllers := 1, takeover := true })) ∧
     (die.controllers = 1 → errs (.controller d) ((s.modDie d.toNat fun e =>
         { e with controllers := 0, takeover := false }).withdrawDie d.toNat))) ∧
    (s.arg = .dies a b → a ≠ b → exec .dieLinkFailure s = .next ((s.modDie a.toNat fun e =>
        { e with linkDown := addMark b.toNat e.linkDown }).modDie
      b.toNat fun e => { e with linkDown := addMark a.toNat e.linkDown })) ∧
    (s.arg = .die d → exec .hubLinkFailure s = .next ((s.modDie d.toNat fun e => { e with hubUp := false }).withdrawDie d.toNat))

/-! ## The torus -/

/-- Nothing older of a context is on its way from this device to itself: its operations perform in the order of their issue (R408). -/
def Sys2Proof.Claims.First (h : Hub) (x : CtxNo) (op : Nat) : Prop :=
  (∀ q ∈ h.outSlots, q.src = h.me → q.dst = h.me → q.ctx = x → op ≤ q.op) ∧
  (∀ q ∈ h.outReduces, q.src = h.me → q.dst = h.me → q.ctx = x → op ≤ q.op) ∧
  ∀ q ∈ h.outNotices, q.src = h.me → q.dst = h.me → q.ctx = x → op ≤ q.op

/-- Packets for this device (R403, R405-R408, R412, R413): what another device sends, or this one to itself in its turn, takes effect whole
at its place, or is refused with nothing written, and is answered. -/
def Sys2Proof.Claims.PacketsLand : Prop :=
  ∀ (s t : State) (sp : SlotPacket) (rp : ReducePacket) (np : NoticePacket) (cp : CollPacket) (wide : Bool) (pl : Place), let h := s.hub
    let own (src : Coord3) (drop : Hub → Hub) : State := if src = h.me then s.modHub drop else s
    let refused (tr : TrapInfo) (addr : Word) : Option Refused := some ⟨0x01, if tr.addr = 0 then addr else tr.addr⟩
    (∀ (u : State) (src : Coord3) (n : Nat) (no : Option Refused), u.reply src n no wide =
      if src = u.hub.me then u.answerOp n no wide else u.modHub fun h => { h with outAcks := (src, n, no, wide) :: h.outAcks }) ∧
    (h.boot = .run → s.arg = .slotPkt sp → sp.dst = h.me → let s0 := own sp.src fun h => { h with outSlots := h.outSlots.erase sp }
      (sp.src = h.me → (sp ∉ h.outSlots ∨ ¬ First h sp.ctx sp.op) → exec .slotWrite s = .next s) ∧
      (sp.src ≠ h.me ∨ sp ∈ h.outSlots ∧ First h sp.ctx sp.op →
        (slotEffect sp s0 = .ok (none, false) t → exec .slotWrite s = .next (t.reply sp.src sp.op none false)) ∧
        (∀ tr u, slotEffect sp s0 = .error (.trap tr) u →
          exec .slotWrite s = .next (s0.reply sp.src sp.op (refused tr sp.slot) false)))) ∧
    (h.boot = .run → s.arg = .reducePkt rp → rp.dst = h.me → let s0 := own rp.src fun h => { h with outReduces := h.outReduces.erase rp }
      (rp.src = h.me → (rp ∉ h.outReduces ∨ ¬ First h rp.ctx rp.op) → exec .remoteReduce s = .next s) ∧
      (rp.src ≠ h.me ∨ rp ∈ h.outReduces ∧ First h rp.ctx rp.op →
        (reduceEffect rp.asid rp.ty rp.base rp.elems s0 = .ok (none, wide) t → exec .remoteReduce s = .next (t.reply rp.src rp.op none false)) ∧
        (∀ tr u, reduceEffect rp.asid rp.ty rp.base rp.elems s0 = .error (.trap tr) u →
          exec .remoteReduce s = .next (s0.reply rp.src rp.op (refused tr rp.base) false)))) ∧
    (h.boot = .run → s.arg = .noticePkt np → np.dst = h.me → let s0 := own np.src fun h => { h with outNotices := h.outNotices.erase np }
      (np.src = h.me → (np ∉ h.outNotices ∨ ¬ First h np.ctx np.op) → exec .slotReleaseNotice s = .next s) ∧
      (np.src ≠ h.me ∨ np ∈ h.outNotices ∧ First h np.ctx np.op →
        (hubPlace np.asid .u .atomic (np.sdesc + 0x20) s0 = .ok pl t → ∀ pa pte, pl = .phys pa pte → let old := t.pageRead pte pa 8
          (old.2 = false → exec .slotReleaseNotice s =
            .next (((t.hubPut pl 8 (Nat.max old.1 np.head.toNat) false).wakeAll pl).reply np.src np.op none false)) ∧
          (old.2 = true → exec .slotReleaseNotice s = .next (s0.reply np.src np.op (some ⟨0x03, np.sdesc + 0x20⟩) false))) ∧
        (∀ tr u, hubPlace np.asid .u .atomic (np.sdesc + 0x20) s0 = .error (.trap tr) u →
          exec .slotReleaseNotice s = .next (s0.reply np.src np.op (refused tr np.sdesc) false)))) ∧
    (h.boot = .run → s.arg = .collPkt cp → cp.dst = h.me → let s0 := own cp.src fun h => { h with outColls := h.outColls.erase cp }
      let first : Prop := ∀ o ∈ h.outColls, o.src = cp.src → o.dst = cp.dst → o.die = cp.die → o.slot = cp.slot → cp.op ≤ o.op
      (cp.src = h.me → (cp ∉ h.outColls ∨ ¬ first) → exec .collTransferAtPeer s = .next s) ∧
      (cp.src ≠ h.me ∨ cp ∈ h.outColls ∧ first →
        (collEffect cp s0 = .ok (none, wide) t → exec .collTransferAtPeer s = .next (t.reply cp.src cp.op none wide)) ∧
        (∀ tr u, collEffect cp s0 = .error (.trap tr) u →
          exec .collTransferAtPeer s = .next (s0.reply cp.src cp.op (refused tr cp.base) false))))

/-- Answers to this device's operations (R407, R412, R414): that of a context's operation is noted there, and logged when a draining record
is refused; that of a collective's transfer takes it out of flight, sets WOVF where it says so, and a refusal ends the collective with code 9;
one that nothing waits for is dropped. -/
def Sys2Proof.Claims.AnswersArrive : Prop :=
  ∀ (s : State) (n : Nat) (no : Option Refused) (wide : Bool), s.arg = .answer n no wide →
    let waits (c : Ctx) : Prop := ∃ r ∈ c.remote, r.op = n ∧ r.acked = false
    (∀ (y : CtxNo) (o : Remote), o ∈ (s.ctx y).remote → o.op = n → o.acked = false → (∀ e ∈ s.ctxs, waits e.2 → e.1 = y.toNat) →
      let u := s.modCtx y fun c => { c with remote := c.remote.map fun r =>
        if r.op = n ∧ r.acked = false then { r with refused := no, acked := true } else r }
      ((s.ctx y).status ≠ .draining ∨ no = none → exec .remoteAcknowledgement s = .next u) ∧
      ((s.ctx y).status = .draining → no ≠ none → (∀ r ∈ (s.ctx y).remote, r.op = n → r = o) →
        exec .remoteAcknowledgement s = .next (u.logRemote y { o with refused := no, acked := true }))) ∧
    ((∀ e ∈ s.ctxs, ¬ waits e.2) →
      ((∀ e ∈ s.dies, ∀ c ∈ e.2.coll, Tab.find c.2.flight n = none) → exec .remoteAcknowledgement s = .next s) ∧
      ∀ (d : DieNo) (slot k : Nat) (q : Coll), (slot, q) ∈ (s.die d.toNat).coll → Tab.find q.flight n = some k →
        (∀ e ∈ s.dies, ∀ c ∈ e.2.coll, Tab.find c.2.flight n ≠ none → e.1 = d.toNat ∧ c = (slot, q)) →
        let held (f : Bool) (u : State) := u.modDie d.toNat fun e =>
          { e with coll := Tab.put e.coll slot { q with flight := Tab.del q.flight n, failed := f } }
        let runs : Prop := (s.ctx q.x).status = .running ∧ ∃ r, (s.ctx q.x).rec_ = some r ∧ r.start = q.start
        let told : State := held q.failed s
        (no = none → (wide = false ∨ ¬ runs → exec .remoteAcknowledgement s = .next told) ∧
          (wide = true → runs → exec .remoteAcknowledgement s = .next (told.modCtx q.x fun c => { c with vcsr := c.vcsr.raise fWOVF }))) ∧
        (∀ r, no = some r → wide = false → q.failed = false → (runs → exec .remoteAcknowledgement s = .next ((held true told).modCtx q.x fun c =>
            { c with latch := true, wfeLooks := 0, async := c.async ++ [⟨0x15, r.addr, BitVec.ofNat 64 (9 * 2 ^ 24 + k % 2 ^ 20)⟩] })) ∧
          (¬ runs → exec .remoteAcknowledgement s = .next ((held true told).logViol (d.toNat * 64) r.addr q.x.toNat 4 2 q.tag))))

/-- Links, devices and pod barriers (R396-R399, R409): a port steps within its rates unless it is pinned; a broken link or device is
remembered, operations that can no longer be delivered are refused, and a failed device breaks the pod barriers that count it, once for each
participant; what another hub reports about a pod barrier takes effect on this hub's copy. -/
def Sys2Proof.Claims.TorusEvents : Prop :=
  ∀ (s : State) (p : PortNo) (dev : Coord3) (id : BitVec 4) (m : PodMessage) (n : Nat), let h := s.hub
    let port (f : Port → Port) : State := s.modHub fun h =>
        { h with ports := Tab.put h.ports (portIx p) (f (Tab.look {} h.ports (portIx p))) }
    let broken (dev : Coord3) (p : PortNo) : State :=
      let u := s.modHub fun h => { h with downLinks := if h.downLinks.contains (dev, p) then h.downLinks else (dev, p) :: h.downLinks }
      let v := if dev = h.me then u.modHub fun h =>
          { h with ports := Tab.put h.ports (portIx p) { Tab.look {} h.ports (portIx p) with st := 0 } } else u
      v.loseOps h
    let bar (i : Nat) := s.bar (5 * 65536 + i); let counts (i : Nat) := (bar i).devs.find? fun d => d.dev == dev
    (∀ (g : Hub) (dst : Coord3) (addr : Word), s.unanswered = [n] → h.target n = some (dst, addr) →
      (h.route dst = none → s.loseOps g = s.answerOp n (some ⟨0x02, addr⟩) false) ∧
      (h.route dst ≠ none → g.rerouted h dst = false → s.loseOps g = s)) ∧
    (s.arg = .port p → exec .flitReplay s = .next (port fun e => { e with replays := e.replays + 1 })) ∧
    (s.arg = .port p → let e := Tab.look {} h.ports (portIx p)
      ((e.pin = true ∨ e.st ≠ 2) → exec .linkStepDown s = .next s) ∧
      (e.pin = false → e.st = 2 → e.cur < 4 → exec .linkStepDown s = .next (port fun e => { e with cur := e.cur + 1 })) ∧
      (e.pin = false → e.st = 2 → 4 ≤ e.cur → exec .linkStepDown s = .next (broken h.me p))) ∧
    (s.arg = .port p → exec .linkStepUp s = .next (port fun e => if e.pin = true ∨ e.st ≠ 2 then e else { e with cur := e.cur - 1 })) ∧
    (s.arg = .link dev p → exec .linkDown s = .next (broken dev p)) ∧
    (s.arg = .device dev → dev ∉ h.failed → (∀ i < 16, counts i = none) →
      exec .deviceFailure s = .next ((s.modHub fun h => { h with failed := dev :: h.failed }).loseOps h)) ∧
    (s.arg = .device dev → dev ∉ h.failed → ∃ u, exec .deviceFailure s = .next u ∧ dev ∈ u.hub.failed ∧
      ∀ i < 16, ∀ part, counts i = some part → 0 < part.most → (bar i).state = .open_ →
        (u.bar (5 * 65536 + i)).state = .broken ∧ (u.bar (5 * 65536 + i)).n = (bar i).n - (bar i).drops - part.most) ∧
    (s.arg = .pod dev id m → let key := 5 * 65536 + id.toNat; let b := s.bar key
      let left : List PodPart := let p := ((b.devs.find? fun d => d.dev == dev).getD ⟨dev, 0, 0⟩)
        { p with now := p.now - 1, most := p.most - 1 } :: b.devs.filter fun d => d.dev != dev
      (m = .broken → exec .podBarrierArrival s = .next ({ s with bars := Tab.put s.bars key { b with devs := left } }.breakBar key)) ∧
      (m = .leave → b.state = .open_ → ∃ u, exec .podBarrierArrival s = .next u ∧
          u.bar key = { b with drops := b.drops + 1, devs := left }) ∧
      (m = .leave → b.state = .broken → ∃ u, exec .podBarrierArrival s = .next u ∧ u.bar key = { b with n := b.n - 1, devs := left }) ∧
      (m = .reset → b.state = .broken → ∃ u, exec .podBarrierArrival s = .next u ∧
        u.bar key = { b with state := .idle, n := 0, a := 0, drops := 0, devs := [] }) ∧
      (∀ asid k drop, m = .arrival asid k drop → b.state = .open_ → b.a + 1 < b.n → ∃ u, exec .podBarrierArrival s = .next u ∧
        (u.bar key).a = b.a + 1 ∧ (u.bar key).drops = b.drops + (if drop then 1 else 0) ∧ (u.bar key).phase = b.phase) ∧
      (∀ asid k drop, m = .arrival asid k drop → b.state = .open_ → b.n ≤ b.a + 1 → ∃ u, exec .podBarrierArrival s = .next u ∧
        let n := b.n - (b.drops + if drop then 1 else 0)
        (u.bar key).a = 0 ∧ (u.bar key).phase = b.phase + 1 ∧ (u.bar key).n = n ∧ (u.bar key).state = if n = 0 then .idle else .open_) ∧
      (∀ asid k drop, m = .arrival asid k drop → b.state = .idle → 1 < k → ∃ u, exec .podBarrierArrival s = .next u ∧
        (u.bar key).n = k ∧ (u.bar key).a = 1 ∧ (u.bar key).state = .open_ ∧ (u.bar key).phase = b.phase))

/-- Links, devices, packets and answers (R396-R399, R403-R409, R412-R414). -/
def Obligations.TorusAndPackets : Prop :=
  Sys2Proof.Claims.TorusEvents ∧ Sys2Proof.Claims.PacketsLand ∧ Sys2Proof.Claims.AnswersArrive
end

