-- ==== Sys2Proof/Laws/State.lean ====
section
/-! SUPPORT. What each accessor of the state reads after each update: tables, then the parts of the state, then the fields of a
context. -/

namespace Sys2Proof

/-! ## Tables -/

@[simp] theorem Tab.look_put_self {α : Type} (d a : α) (n : Nat) : ∀ t : Tab α, Tab.look d (Tab.put t n a) n = a
  | [] => by simp [Tab.put, Tab.look]
  | (k, b) :: t => by
    unfold Tab.put
    split
    · simp [Tab.look]
    · split
      · simp [Tab.look]
      · rename_i h _
        simp [Tab.look, h, Tab.look_put_self d a n t]

theorem Tab.look_put_ne {α : Type} (d a : α) {n m : Nat} (h : n ≠ m) : ∀ t : Tab α, Tab.look d (Tab.put t n a) m = Tab.look d t m
  | [] => by simp [Tab.put, Tab.look, h]
  | (k, b) :: t => by
    unfold Tab.put
    split
    · rename_i hk
      subst hk
      simp [Tab.look, h]
    · split
      · simp [Tab.look, h]
      · simp [Tab.look, Tab.look_put_ne d a h t]

@[simp] theorem Tab.find_put_self {α : Type} (a : α) (n : Nat) : ∀ t : Tab α, Tab.find (Tab.put t n a) n = some a
  | [] => by simp [Tab.put, Tab.find]
  | (k, b) :: t => by
    unfold Tab.put
    split
    · simp [Tab.find]
    · split
      · simp [Tab.find]
      · rename_i h _
        simp [Tab.find, h, Tab.find_put_self a n t]

theorem Tab.find_put_ne {α : Type} (a : α) {n m : Nat} (h : n ≠ m) : ∀ t : Tab α, Tab.find (Tab.put t n a) m = Tab.find t m
  | [] => by simp [Tab.put, Tab.find, h]
  | (k, b) :: t => by
    unfold Tab.put
    split
    · rename_i hk
      subst hk
      simp [Tab.find, h]
    · split
      · simp [Tab.find, h]
      · simp [Tab.find, Tab.find_put_ne a h t]

/-- The last of two writes of one entry is the one that stays. -/
@[simp] theorem Tab.put_put {α : Type} (a b : α) (n : Nat) : ∀ t : Tab α, Tab.put (Tab.put t n a) n b = Tab.put t n b
  | [] => by simp [Tab.put]
  | (k, c) :: t => by
    by_cases hk : k = n
    · simp [Tab.put, hk]
    · by_cases hn : n < k
      · simp [Tab.put, hk, hn]
      · simp [Tab.put, hk, hn, Tab.put_put a b n t]

theorem Tab.find_del_self {α : Type} (n : Nat) : ∀ t : Tab α, Tab.find (Tab.del t n) n = none
  | [] => rfl
  | (k, b) :: t => by
    unfold Tab.del
    split
    · exact Tab.find_del_self n t
    · rename_i h
      simp [Tab.find, h, Tab.find_del_self n t]

theorem Tab.look_del_ne {α : Type} (d : α) {n m : Nat} (h : n ≠ m) : ∀ t : Tab α, Tab.look d (Tab.del t n) m = Tab.look d t m
  | [] => rfl
  | (k, b) :: t => by
    unfold Tab.del
    split
    · rename_i hk
      subst hk
      simp [Tab.look, h, Tab.look_del_ne d h t]
    · simp [Tab.look, Tab.look_del_ne d h t]

theorem Tab.look_eq_find {α : Type} (d : α) (n : Nat) : ∀ t : Tab α, Tab.look d t n = (Tab.find t n).getD d
  | [] => rfl
  | (k, b) :: t => by
    unfold Tab.look Tab.find
    split
    · rfl
    · exact Tab.look_eq_find d n t

namespace Machine

/-! ## Parts of the state -/

@[simp] theorem State.setCtx_cores (s : State) (x : CtxNo) (c : Ctx) : (s.setCtx x c).cores = s.cores := rfl
@[simp] theorem State.setCtx_quads (s : State) (x : CtxNo) (c : Ctx) : (s.setCtx x c).quads = s.quads := rfl
@[simp] theorem State.setCtx_dies (s : State) (x : CtxNo) (c : Ctx) : (s.setCtx x c).dies = s.dies := rfl
@[simp] theorem State.setCtx_mem (s : State) (x : CtxNo) (c : Ctx) : (s.setCtx x c).mem = s.mem := rfl
@[simp] theorem State.setCtx_l2 (s : State) (x : CtxNo) (c : Ctx) : (s.setCtx x c).l2 = s.l2 := rfl
@[simp] theorem State.setCtx_marks (s : State) (x : CtxNo) (c : Ctx) : (s.setCtx x c).marks = s.marks := rfl
@[simp] theorem State.setCtx_regions (s : State) (x : CtxNo) (c : Ctx) : (s.setCtx x c).regions = s.regions := rfl
@[simp] theorem State.setCtx_bars (s : State) (x : CtxNo) (c : Ctx) : (s.setCtx x c).bars = s.bars := rfl
@[simp] theorem State.setCtx_posted (s : State) (x : CtxNo) (c : Ctx) : (s.setCtx x c).posted = s.posted := rfl
@[simp] theorem State.setCtx_nmops (s : State) (x : CtxNo) (c : Ctx) : (s.setCtx x c).nmops = s.nmops := rfl
@[simp] theorem State.setCtx_hub (s : State) (x : CtxNo) (c : Ctx) : (s.setCtx x c).hub = s.hub := rfl
@[simp] theorem State.setCtx_cur (s : State) (x : CtxNo) (c : Ctx) : (s.setCtx x c).cur = s.cur := rfl
@[simp] theorem State.setCtx_agenda (s : State) (x : CtxNo) (c : Ctx) : (s.setCtx x c).agenda = s.agenda := rfl
@[simp] theorem State.setCtx_yours (s : State) (x : CtxNo) (c : Ctx) : (s.setCtx x c).yours = s.yours := rfl
@[simp] theorem State.setCtx_arg (s : State) (x : CtxNo) (c : Ctx) : (s.setCtx x c).arg = s.arg := rfl
@[simp] theorem State.setCtx_before (s : State) (x : CtxNo) (c : Ctx) : (s.setCtx x c).before = s.before := rfl
@[simp] theorem State.setCtx_serial (s : State) (x : CtxNo) (c : Ctx) : (s.setCtx x c).serial = s.serial := rfl
@[simp] theorem State.setCtx_upset (s : State) (x : CtxNo) (c : Ctx) : (s.setCtx x c).upset = s.upset := rfl
@[simp] theorem State.setCtx_fresh (s : State) (x : CtxNo) (c : Ctx) : (s.setCtx x c).fresh = s.fresh := rfl
@[simp] theorem State.setCtx_core (s : State) (x : CtxNo) (c : Ctx) (m : Nat) : (s.setCtx x c).core m = s.core m := rfl
@[simp] theorem State.setCtx_quad (s : State) (x : CtxNo) (c : Ctx) (m : Nat) : (s.setCtx x c).quad m = s.quad m := rfl
@[simp] theorem State.setCtx_die (s : State) (x : CtxNo) (c : Ctx) (m : Nat) : (s.setCtx x c).die m = s.die m := rfl
@[simp] theorem State.modCtx_cores (s : State) (x : CtxNo) (f : Ctx → Ctx) : (s.modCtx x f).cores = s.cores := rfl
@[simp] theorem State.modCtx_quads (s : State) (x : CtxNo) (f : Ctx → Ctx) : (s.modCtx x f).quads = s.quads := rfl
@[simp] theorem State.modCtx_dies (s : State) (x : CtxNo) (f : Ctx → Ctx) : (s.modCtx x f).dies = s.dies := rfl
@[simp] theorem State.modCtx_mem (s : State) (x : CtxNo) (f : Ctx → Ctx) : (s.modCtx x f).mem = s.mem := rfl
@[simp] theorem State.modCtx_l2 (s : State) (x : CtxNo) (f : Ctx → Ctx) : (s.modCtx x f).l2 = s.l2 := rfl
@[simp] theorem State.modCtx_marks (s : State) (x : CtxNo) (f : Ctx → Ctx) : (s.modCtx x f).marks = s.marks := rfl
@[simp] theorem State.modCtx_regions (s : State) (x : CtxNo) (f : Ctx → Ctx) : (s.modCtx x f).regions = s.regions := rfl
@[simp] theorem State.modCtx_bars (s : State) (x : CtxNo) (f : Ctx → Ctx) : (s.modCtx x f).bars = s.bars := rfl
@[simp] theorem State.modCtx_posted (s : State) (x : CtxNo) (f : Ctx → Ctx) : (s.modCtx x f).posted = s.posted := rfl
@[simp] theorem State.modCtx_nmops (s : State) (x : CtxNo) (f : Ctx → Ctx) : (s.modCtx x f).nmops = s.nmops := rfl
@[simp] theorem State.modCtx_hub (s : State) (x : CtxNo) (f : Ctx → Ctx) : (s.modCtx x f).hub = s.hub := rfl
@[simp] theorem State.modCtx_cur (s : State) (x : CtxNo) (f : Ctx → Ctx) : (s.modCtx x f).cur = s.cur := rfl
@[simp] theorem State.modCtx_agenda (s : State) (x : CtxNo) (f : Ctx → Ctx) : (s.modCtx x f).agenda = s.agenda := rfl
@[simp] theorem State.modCtx_yours (s : State) (x : CtxNo) (f : Ctx → Ctx) : (s.modCtx x f).yours = s.yours := rfl
@[simp] theorem State.modCtx_arg (s : State) (x : CtxNo) (f : Ctx → Ctx) : (s.modCtx x f).arg = s.arg := rfl
@[simp] theorem State.modCtx_before (s : State) (x : CtxNo) (f : Ctx → Ctx) : (s.modCtx x f).before = s.before := rfl
@[simp] theorem State.modCtx_serial (s : State) (x : CtxNo) (f : Ctx → Ctx) : (s.modCtx x f).serial = s.serial := rfl
@[simp] theorem State.modCtx_upset (s : State) (x : CtxNo) (f : Ctx → Ctx) : (s.modCtx x f).upset = s.upset := rfl
@[simp] theorem State.modCtx_fresh (s : State) (x : CtxNo) (f : Ctx → Ctx) : (s.modCtx x f).fresh = s.fresh := rfl
@[simp] theorem State.modCtx_core (s : State) (x : CtxNo) (f : Ctx → Ctx) (m : Nat) : (s.modCtx x f).core m = s.core m := rfl
@[simp] theorem State.modCtx_quad (s : State) (x : CtxNo) (f : Ctx → Ctx) (m : Nat) : (s.modCtx x f).quad m = s.quad m := rfl
@[simp] theorem State.modCtx_die (s : State) (x : CtxNo) (f : Ctx → Ctx) (m : Nat) : (s.modCtx x f).die m = s.die m := rfl
@[simp] theorem State.modCore_ctxs (s : State) (n : Nat) (f : Core → Core) : (s.modCore n f).ctxs = s.ctxs := rfl
@[simp] theorem State.modCore_quads (s : State) (n : Nat) (f : Core → Core) : (s.modCore n f).quads = s.quads := rfl
@[simp] theorem State.modCore_dies (s : State) (n : Nat) (f : Core → Core) : (s.modCore n f).dies = s.dies := rfl
@[simp] theorem State.modCore_mem (s : State) (n : Nat) (f : Core → Core) : (s.modCore n f).mem = s.mem := rfl
@[simp] theorem State.modCore_l2 (s : State) (n : Nat) (f : Core → Core) : (s.modCore n f).l2 = s.l2 := rfl
@[simp] theorem State.modCore_marks (s : State) (n : Nat) (f : Core → Core) : (s.modCore n f).marks = s.marks := rfl
@[simp] theorem State.modCore_regions (s : State) (n : Nat) (f : Core → Core) : (s.modCore n f).regions = s.regions := rfl
@[simp] theorem State.modCore_bars (s : State) (n : Nat) (f : Core → Core) : (s.modCore n f).bars = s.bars := rfl
@[simp] theorem State.modCore_posted (s : State) (n : Nat) (f : Core → Core) : (s.modCore n f).posted = s.posted := rfl
@[simp] theorem State.modCore_nmops (s : State) (n : Nat) (f : Core → Core) : (s.modCore n f).nmops = s.nmops := rfl
@[simp] theorem State.modCore_hub (s : State) (n : Nat) (f : Core → Core) : (s.modCore n f).hub = s.hub := rfl
@[simp] theorem State.modCore_cur (s : State) (n : Nat) (f : Core → Core) : (s.modCore n f).cur = s.cur := rfl
@[simp] theorem State.modCore_agenda (s : State) (n : Nat) (f : Core → Core) : (s.modCore n f).agenda = s.agenda := rfl
@[simp] theorem State.modCore_yours (s : State) (n : Nat) (f : Core → Core) : (s.modCore n f).yours = s.yours := rfl
@[simp] theorem State.modCore_arg (s : State) (n : Nat) (f : Core → Core) : (s.modCore n f).arg = s.arg := rfl
@[simp] theorem State.modCore_before (s : State) (n : Nat) (f : Core → Core) : (s.modCore n f).before = s.before := rfl
@[simp] theorem State.modCore_serial (s : State) (n : Nat) (f : Core → Core) : (s.modCore n f).serial = s.serial := rfl
@[simp] theorem State.modCore_upset (s : State) (n : Nat) (f : Core → Core) : (s.modCore n f).upset = s.upset := rfl
@[simp] theorem State.modCore_fresh (s : State) (n : Nat) (f : Core → Core) : (s.modCore n f).fresh = s.fresh := rfl
@[simp] theorem State.modCore_ctx (s : State) (n : Nat) (f : Core → Core) (y : CtxNo) : (s.modCore n f).ctx y = s.ctx y := rfl
@[simp] theorem State.modCore_quad (s : State) (n : Nat) (f : Core → Core) (m : Nat) : (s.modCore n f).quad m = s.quad m := rfl
@[simp] theorem State.modCore_die (s : State) (n : Nat) (f : Core → Core) (m : Nat) : (s.modCore n f).die m = s.die m := rfl
@[simp] theorem State.modQuad_ctxs (s : State) (n : Nat) (f : Quad → Quad) : (s.modQuad n f).ctxs = s.ctxs := rfl
@[simp] theorem State.modQuad_cores (s : State) (n : Nat) (f : Quad → Quad) : (s.modQuad n f).cores = s.cores := rfl
@[simp] theorem State.modQuad_dies (s : State) (n : Nat) (f : Quad → Quad) : (s.modQuad n f).dies = s.dies := rfl
@[simp] theorem State.modQuad_mem (s : State) (n : Nat) (f : Quad → Quad) : (s.modQuad n f).mem = s.mem := rfl
@[simp] theorem State.modQuad_l2 (s : State) (n : Nat) (f : Quad → Quad) : (s.modQuad n f).l2 = s.l2 := rfl
@[simp] theorem State.modQuad_marks (s : State) (n : Nat) (f : Quad → Quad) : (s.modQuad n f).marks = s.marks := rfl
@[simp] theorem State.modQuad_regions (s : State) (n : Nat) (f : Quad → Quad) : (s.modQuad n f).regions = s.regions := rfl
@[simp] theorem State.modQuad_bars (s : State) (n : Nat) (f : Quad → Quad) : (s.modQuad n f).bars = s.bars := rfl
@[simp] theorem State.modQuad_posted (s : State) (n : Nat) (f : Quad → Quad) : (s.modQuad n f).posted = s.posted := rfl
@[simp] theorem State.modQuad_nmops (s : State) (n : Nat) (f : Quad → Quad) : (s.modQuad n f).nmops = s.nmops := rfl
@[simp] theorem State.modQuad_hub (s : State) (n : Nat) (f : Quad → Quad) : (s.modQuad n f).hub = s.hub := rfl
@[simp] theorem State.modQuad_cur (s : State) (n : Nat) (f : Quad → Quad) : (s.modQuad n f).cur = s.cur := rfl
@[simp] theorem State.modQuad_agenda (s : State) (n : Nat) (f : Quad → Quad) : (s.modQuad n f).agenda = s.agenda := rfl
@[simp] theorem State.modQuad_yours (s : State) (n : Nat) (f : Quad → Quad) : (s.modQuad n f).yours = s.yours := rfl
@[simp] theorem State.modQuad_arg (s : State) (n : Nat) (f : Quad → Quad) : (s.modQuad n f).arg = s.arg := rfl
@[simp] theorem State.modQuad_before (s : State) (n : Nat) (f : Quad → Quad) : (s.modQuad n f).before = s.before := rfl
@[simp] theorem State.modQuad_serial (s : State) (n : Nat) (f : Quad → Quad) : (s.modQuad n f).serial = s.serial := rfl
@[simp] theorem State.modQuad_upset (s : State) (n : Nat) (f : Quad → Quad) : (s.modQuad n f).upset = s.upset := rfl
@[simp] theorem State.modQuad_fresh (s : State) (n : Nat) (f : Quad → Quad) : (s.modQuad n f).fresh = s.fresh := rfl
@[simp] theorem State.modQuad_ctx (s : State) (n : Nat) (f : Quad → Quad) (y : CtxNo) : (s.modQuad n f).ctx y = s.ctx y := rfl
@[simp] theorem State.modQuad_core (s : State) (n : Nat) (f : Quad → Quad) (m : Nat) : (s.modQuad n f).core m = s.core m := rfl
@[simp] theorem State.modQuad_die (s : State) (n : Nat) (f : Quad → Quad) (m : Nat) : (s.modQuad n f).die m = s.die m := rfl
@[simp] theorem State.modDie_ctxs (s : State) (n : Nat) (f : Die → Die) : (s.modDie n f).ctxs = s.ctxs := rfl
@[simp] theorem State.modDie_cores (s : State) (n : Nat) (f : Die → Die) : (s.modDie n f).cores = s.cores := rfl
@[simp] theorem State.modDie_quads (s : State) (n : Nat) (f : Die → Die) : (s.modDie n f).quads = s.quads := rfl
@[simp] theorem State.modDie_mem (s : State) (n : Nat) (f : Die → Die) : (s.modDie n f).mem = s.mem := rfl
@[simp] theorem State.modDie_l2 (s : State) (n : Nat) (f : Die → Die) : (s.modDie n f).l2 = s.l2 := rfl
@[simp] theorem State.modDie_marks (s : State) (n : Nat) (f : Die → Die) : (s.modDie n f).marks = s.marks := rfl
@[simp] theorem State.modDie_regions (s : State) (n : Nat) (f : Die → Die) : (s.modDie n f).regions = s.regions := rfl
@[simp] theorem State.modDie_bars (s : State) (n : Nat) (f : Die → Die) : (s.modDie n f).bars = s.bars := rfl
@[simp] theorem State.modDie_posted (s : State) (n : Nat) (f : Die → Die) : (s.modDie n f).posted = s.posted := rfl
@[simp] theorem State.modDie_nmops (s : State) (n : Nat) (f : Die → Die) : (s.modDie n f).nmops = s.nmops := rfl
@[simp] theorem State.modDie_hub (s : State) (n : Nat) (f : Die → Die) : (s.modDie n f).hub = s.hub := rfl
@[simp] theorem State.modDie_cur (s : State) (n : Nat) (f : Die → Die) : (s.modDie n f).cur = s.cur := rfl
@[simp] theorem State.modDie_agenda (s : State) (n : Nat) (f : Die → Die) : (s.modDie n f).agenda = s.agenda := rfl
@[simp] theorem State.modDie_yours (s : State) (n : Nat) (f : Die → Die) : (s.modDie n f).yours = s.yours := rfl
@[simp] theorem State.modDie_arg (s : State) (n : Nat) (f : Die → Die) : (s.modDie n f).arg = s.arg := rfl
@[simp] theorem State.modDie_before (s : State) (n : Nat) (f : Die → Die) : (s.modDie n f).before = s.before := rfl
@[simp] theorem State.modDie_serial (s : State) (n : Nat) (f : Die → Die) : (s.modDie n f).serial = s.serial := rfl
@[simp] theorem State.modDie_upset (s : State) (n : Nat) (f : Die → Die) : (s.modDie n f).upset = s.upset := rfl
@[simp] theorem State.modDie_fresh (s : State) (n : Nat) (f : Die → Die) : (s.modDie n f).fresh = s.fresh := rfl
@[simp] theorem State.modDie_ctx (s : State) (n : Nat) (f : Die → Die) (y : CtxNo) : (s.modDie n f).ctx y = s.ctx y := rfl
@[simp] theorem State.modDie_core (s : State) (n : Nat) (f : Die → Die) (m : Nat) : (s.modDie n f).core m = s.core m := rfl
@[simp] theorem State.modDie_quad (s : State) (n : Nat) (f : Die → Die) (m : Nat) : (s.modDie n f).quad m = s.quad m := rfl
@[simp] theorem State.modHub_ctxs (s : State) (f : Hub → Hub) : (s.modHub f).ctxs = s.ctxs := rfl
@[simp] theorem State.modHub_cores (s : State) (f : Hub → Hub) : (s.modHub f).cores = s.cores := rfl
@[simp] theorem State.modHub_quads (s : State) (f : Hub → Hub) : (s.modHub f).quads = s.quads := rfl
@[simp] theorem State.modHub_dies (s : State) (f : Hub → Hub) : (s.modHub f).dies = s.dies := rfl
@[simp] theorem State.modHub_mem (s : State) (f : Hub → Hub) : (s.modHub f).mem = s.mem := rfl
@[simp] theorem State.modHub_l2 (s : State) (f : Hub → Hub) : (s.modHub f).l2 = s.l2 := rfl
@[simp] theorem State.modHub_marks (s : State) (f : Hub → Hub) : (s.modHub f).marks = s.marks := rfl
@[simp] theorem State.modHub_regions (s : State) (f : Hub → Hub) : (s.modHub f).regions = s.regions := rfl
@[simp] theorem State.modHub_bars (s : State) (f : Hub → Hub) : (s.modHub f).bars = s.bars := rfl
@[simp] theorem State.modHub_posted (s : State) (f : Hub → Hub) : (s.modHub f).posted = s.posted := rfl
@[simp] theorem State.modHub_nmops (s : State) (f : Hub → Hub) : (s.modHub f).nmops = s.nmops := rfl
@[simp] theorem State.modHub_cur (s : State) (f : Hub → Hub) : (s.modHub f).cur = s.cur := rfl
@[simp] theorem State.modHub_agenda (s : State) (f : Hub → Hub) : (s.modHub f).agenda = s.agenda := rfl
@[simp] theorem State.modHub_yours (s : State) (f : Hub → Hub) : (s.modHub f).yours = s.yours := rfl
@[simp] theorem State.modHub_arg (s : State) (f : Hub → Hub) : (s.modHub f).arg = s.arg := rfl
@[simp] theorem State.modHub_before (s : State) (f : Hub → Hub) : (s.modHub f).before = s.before := rfl
@[simp] theorem State.modHub_serial (s : State) (f : Hub → Hub) : (s.modHub f).serial = s.serial := rfl
@[simp] theorem State.modHub_upset (s : State) (f : Hub → Hub) : (s.modHub f).upset = s.upset := rfl
@[simp] theorem State.modHub_fresh (s : State) (f : Hub → Hub) : (s.modHub f).fresh = s.fresh := rfl
@[simp] theorem State.modHub_ctx (s : State) (f : Hub → Hub) (y : CtxNo) : (s.modHub f).ctx y = s.ctx y := rfl
@[simp] theorem State.modHub_core (s : State) (f : Hub → Hub) (m : Nat) : (s.modHub f).core m = s.core m := rfl
@[simp] theorem State.modHub_quad (s : State) (f : Hub → Hub) (m : Nat) : (s.modHub f).quad m = s.quad m := rfl
@[simp] theorem State.modHub_die (s : State) (f : Hub → Hub) (m : Nat) : (s.modHub f).die m = s.die m := rfl
@[simp] theorem State.modBefore_ctxs (s : State) (f : Before → Before) : (s.modBefore f).ctxs = s.ctxs := by unfold State.modBefore; split <;> rfl
@[simp] theorem State.modBefore_cores (s : State) (f : Before → Before) : (s.modBefore f).cores = s.cores := by unfold State.modBefore; split <;> rfl
@[simp] theorem State.modBefore_quads (s : State) (f : Before → Before) : (s.modBefore f).quads = s.quads := by unfold State.modBefore; split <;> rfl
@[simp] theorem State.modBefore_dies (s : State) (f : Before → Before) : (s.modBefore f).dies = s.dies := by unfold State.modBefore; split <;> rfl
@[simp] theorem State.modBefore_mem (s : State) (f : Before → Before) : (s.modBefore f).mem = s.mem := by unfold State.modBefore; split <;> rfl
@[simp] theorem State.modBefore_l2 (s : State) (f : Before → Before) : (s.modBefore f).l2 = s.l2 := by unfold State.modBefore; split <;> rfl
@[simp] theorem State.modBefore_marks (s : State) (f : Before → Before) : (s.modBefore f).marks = s.marks := by unfold State.modBefore; split <;> rfl
@[simp] theorem State.modBefore_regions (s : State) (f : Before → Before) : (s.modBefore f).regions = s.regions := by unfold State.modBefore; split <;> rfl
@[simp] theorem State.modBefore_bars (s : State) (f : Before → Before) : (s.modBefore f).bars = s.bars := by unfold State.modBefore; split <;> rfl
@[simp] theorem State.modBefore_posted (s : State) (f : Before → Before) : (s.modBefore f).posted = s.posted := by unfold State.modBefore; split <;> rfl
@[simp] theorem State.modBefore_nmops (s : State) (f : Before → Before) : (s.modBefore f).nmops = s.nmops := by unfold State.modBefore; split <;> rfl
@[simp] theorem State.modBefore_hub (s : State) (f : Before → Before) : (s.modBefore f).hub = s.hub := by unfold State.modBefore; split <;> rfl
@[simp] theorem State.modBefore_cur (s : State) (f : Before → Before) : (s.modBefore f).cur = s.cur := by unfold State.modBefore; split <;> rfl
@[simp] theorem State.modBefore_agenda (s : State) (f : Before → Before) : (s.modBefore f).agenda = s.agenda := by unfold State.modBefore; split <;> rfl
@[simp] theorem State.modBefore_yours (s : State) (f : Before → Before) : (s.modBefore f).yours = s.yours := by unfold State.modBefore; split <;> rfl
@[simp] theorem State.modBefore_arg (s : State) (f : Before → Before) : (s.modBefore f).arg = s.arg := by unfold State.modBefore; split <;> rfl
@[simp] theorem State.modBefore_serial (s : State) (f : Before → Before) : (s.modBefore f).serial = s.serial := by unfold State.modBefore; split <;> rfl
@[simp] theorem State.modBefore_upset (s : State) (f : Before → Before) : (s.modBefore f).upset = s.upset := by unfold State.modBefore; split <;> rfl
@[simp] theorem State.modBefore_fresh (s : State) (f : Before → Before) : (s.modBefore f).fresh = s.fresh := by unfold State.modBefore; split <;> rfl
@[simp] theorem State.modBefore_ctx (s : State) (f : Before → Before) (y : CtxNo) : (s.modBefore f).ctx y = s.ctx y := by unfold State.modBefore; split <;> rfl
@[simp] theorem State.modBefore_core (s : State) (f : Before → Before) (m : Nat) : (s.modBefore f).core m = s.core m := by unfold State.modBefore; split <;> rfl
@[simp] theorem State.modBefore_quad (s : State) (f : Before → Before) (m : Nat) : (s.modBefore f).quad m = s.quad m := by unfold State.modBefore; split <;> rfl
@[simp] theorem State.modBefore_die (s : State) (f : Before → Before) (m : Nat) : (s.modBefore f).die m = s.die m := by unfold State.modBefore; split <;> rfl
@[simp] theorem State.modHub_hub (s : State) (f : Hub → Hub) : (s.modHub f).hub = f s.hub := rfl

@[simp] theorem State.setCtx_ctx_self (s : State) (x : CtxNo) (c : Ctx) : (s.setCtx x c).ctx x = c := by
  simp [State.setCtx, State.ctx]
@[simp] theorem State.modCtx_ctx_self (s : State) (x : CtxNo) (f : Ctx → Ctx) : (s.modCtx x f).ctx x = f (s.ctx x) := by
  simp [State.modCtx]
theorem ctxNo_ne {x y : CtxNo} (h : y ≠ x) : x.toNat ≠ y.toNat := fun e => h (BitVec.eq_of_toNat_eq e.symm)
theorem State.setCtx_ctx_ne (s : State) {x y : CtxNo} (h : y ≠ x) (c : Ctx) : (s.setCtx x c).ctx y = s.ctx y := by
  simp [State.setCtx, State.ctx, Tab.look_put_ne _ _ (ctxNo_ne h)]
theorem State.modCtx_ctx_ne (s : State) {x y : CtxNo} (h : y ≠ x) (f : Ctx → Ctx) : (s.modCtx x f).ctx y = s.ctx y :=
  s.setCtx_ctx_ne h _
@[simp] theorem State.modCore_core_self (s : State) (n : Nat) (f : Core → Core) : (s.modCore n f).core n = f (s.core n) := by
  simp [State.modCore, State.core]
theorem State.modCore_core_ne (s : State) {n m : Nat} (h : m ≠ n) (f : Core → Core) : (s.modCore n f).core m = s.core m := by
  simp [State.modCore, State.core, Tab.look_put_ne _ _ (Ne.symm h)]
@[simp] theorem State.modQuad_quad_self (s : State) (n : Nat) (f : Quad → Quad) : (s.modQuad n f).quad n = f (s.quad n) := by
  simp [State.modQuad, State.quad]
theorem State.modQuad_quad_ne (s : State) {n m : Nat} (h : m ≠ n) (f : Quad → Quad) : (s.modQuad n f).quad m = s.quad m := by
  simp [State.modQuad, State.quad, Tab.look_put_ne _ _ (Ne.symm h)]
@[simp] theorem State.modDie_die_self (s : State) (n : Nat) (f : Die → Die) : (s.modDie n f).die n = f (s.die n) := by
  simp [State.modDie, State.die]
theorem State.modDie_die_ne (s : State) {n m : Nat} (h : m ≠ n) (f : Die → Die) : (s.modDie n f).die m = s.die m := by
  simp [State.modDie, State.die, Tab.look_put_ne _ _ (Ne.symm h)]

/-- Two changes of one context are one change. -/
@[simp] theorem State.modCtx_modCtx (s : State) (x : CtxNo) (f g : Ctx → Ctx) :
    (s.modCtx x f).modCtx x g = s.modCtx x fun c => g (f c) := by
  simp [State.modCtx, State.setCtx, State.ctx]
@[simp] theorem State.modCore_modCore (s : State) (n : Nat) (f g : Core → Core) :
    (s.modCore n f).modCore n g = s.modCore n fun c => g (f c) := by
  simp [State.modCore, State.core]

/-! ## Fields of a context -/

@[simp] theorem Ctx.wg_status (c : Ctx) (r : Reg) (w : Word) : (c.wg r w).status = c.status := by unfold Ctx.wg; split <;> rfl
@[simp] theorem Ctx.wg_pc (c : Ctx) (r : Reg) (w : Word) : (c.wg r w).pc = c.pc := by unfold Ctx.wg; split <;> rfl
@[simp] theorem Ctx.wg_v (c : Ctx) (r : Reg) (w : Word) : (c.wg r w).v = c.v := by unfold Ctx.wg; split <;> rfl
@[simp] theorem Ctx.wg_m (c : Ctx) (r : Reg) (w : Word) : (c.wg r w).m = c.m := by unfold Ctx.wg; split <;> rfl
@[simp] theorem Ctx.wg_k (c : Ctx) (r : Reg) (w : Word) : (c.wg r w).k = c.k := by unfold Ctx.wg; split <;> rfl
@[simp] theorem Ctx.wg_stack (c : Ctx) (r : Reg) (w : Word) : (c.wg r w).stack = c.stack := by unfold Ctx.wg; split <;> rfl
@[simp] theorem Ctx.wg_vl (c : Ctx) (r : Reg) (w : Word) : (c.wg r w).vl = c.vl := by unfold Ctx.wg; split <;> rfl
@[simp] theorem Ctx.wg_vt (c : Ctx) (r : Reg) (w : Word) : (c.wg r w).vt = c.vt := by unfold Ctx.wg; split <;> rfl
@[simp] theorem Ctx.wg_vstart (c : Ctx) (r : Reg) (w : Word) : (c.wg r w).vstart = c.vstart := by unfold Ctx.wg; split <;> rfl
@[simp] theorem Ctx.wg_vrem (c : Ctx) (r : Reg) (w : Word) : (c.wg r w).vrem = c.vrem := by unfold Ctx.wg; split <;> rfl
@[simp] theorem Ctx.wg_vsc (c : Ctx) (r : Reg) (w : Word) : (c.wg r w).vsc = c.vsc := by unfold Ctx.wg; split <;> rfl
@[simp] theorem Ctx.wg_loopNo (c : Ctx) (r : Reg) (w : Word) : (c.wg r w).loopNo = c.loopNo := by unfold Ctx.wg; split <;> rfl
@[simp] theorem Ctx.wg_inStrip (c : Ctx) (r : Reg) (w : Word) : (c.wg r w).inStrip = c.inStrip := by unfold Ctx.wg; split <;> rfl
@[simp] theorem Ctx.wg_vcsr (c : Ctx) (r : Reg) (w : Word) : (c.wg r w).vcsr = c.vcsr := by unfold Ctx.wg; split <;> rfl
@[simp] theorem Ctx.wg_pm (c : Ctx) (r : Reg) (w : Word) : (c.wg r w).pm = c.pm := by unfold Ctx.wg; split <;> rfl
@[simp] theorem Ctx.wg_prows (c : Ctx) (r : Reg) (w : Word) : (c.wg r w).prows = c.prows := by unfold Ctx.wg; split <;> rfl
@[simp] theorem Ctx.wg_mode (c : Ctx) (r : Reg) (w : Word) : (c.wg r w).mode = c.mode := by unfold Ctx.wg; split <;> rfl
@[simp] theorem Ctx.wg_galbase (c : Ctx) (r : Reg) (w : Word) : (c.wg r w).galbase = c.galbase := by unfold Ctx.wg; split <;> rfl
@[simp] theorem Ctx.wg_galptr (c : Ctx) (r : Reg) (w : Word) : (c.wg r w).galptr = c.galptr := by unfold Ctx.wg; split <;> rfl
@[simp] theorem Ctx.wg_gallim (c : Ctx) (r : Reg) (w : Word) : (c.wg r w).gallim = c.gallim := by unfold Ctx.wg; split <;> rfl
@[simp] theorem Ctx.wg_galBuf (c : Ctx) (r : Reg) (w : Word) : (c.wg r w).galBuf = c.galBuf := by unfold Ctx.wg; split <;> rfl
@[simp] theorem Ctx.wg_level (c : Ctx) (r : Reg) (w : Word) : (c.wg r w).level = c.level := by unfold Ctx.wg; split <;> rfl
@[simp] theorem Ctx.wg_trap (c : Ctx) (r : Reg) (w : Word) : (c.wg r w).trap = c.trap := by unfold Ctx.wg; split <;> rfl
@[simp] theorem Ctx.wg_held (c : Ctx) (r : Reg) (w : Word) : (c.wg r w).held = c.held := by unfold Ctx.wg; split <;> rfl
@[simp] theorem Ctx.wg_resume (c : Ctx) (r : Reg) (w : Word) : (c.wg r w).resume = c.resume := by unfold Ctx.wg; split <;> rfl
@[simp] theorem Ctx.wg_begunS (c : Ctx) (r : Reg) (w : Word) : (c.wg r w).begunS = c.begunS := by unfold Ctx.wg; split <;> rfl
@[simp] theorem Ctx.wg_entering (c : Ctx) (r : Reg) (w : Word) : (c.wg r w).entering = c.entering := by unfold Ctx.wg; split <;> rfl
@[simp] theorem Ctx.wg_asid (c : Ctx) (r : Reg) (w : Word) : (c.wg r w).asid = c.asid := by unfold Ctx.wg; split <;> rfl
@[simp] theorem Ctx.wg_queue (c : Ctx) (r : Reg) (w : Word) : (c.wg r w).queue = c.queue := by unfold Ctx.wg; split <;> rfl
@[simp] theorem Ctx.wg_seq (c : Ctx) (r : Reg) (w : Word) : (c.wg r w).seq = c.seq := by unfold Ctx.wg; split <;> rfl
@[simp] theorem Ctx.wg_tokens (c : Ctx) (r : Reg) (w : Word) : (c.wg r w).tokens = c.tokens := by unfold Ctx.wg; split <;> rfl
@[simp] theorem Ctx.wg_shape (c : Ctx) (r : Reg) (w : Word) : (c.wg r w).shape = c.shape := by unfold Ctx.wg; split <;> rfl
@[simp] theorem Ctx.wg_latch (c : Ctx) (r : Reg) (w : Word) : (c.wg r w).latch = c.latch := by unfold Ctx.wg; split <;> rfl
@[simp] theorem Ctx.wg_ldaLine (c : Ctx) (r : Reg) (w : Word) : (c.wg r w).ldaLine = c.ldaLine := by unfold Ctx.wg; split <;> rfl
@[simp] theorem Ctx.wg_wfeLooks (c : Ctx) (r : Reg) (w : Word) : (c.wg r w).wfeLooks = c.wfeLooks := by unfold Ctx.wg; split <;> rfl
@[simp] theorem Ctx.wg_chain (c : Ctx) (r : Reg) (w : Word) : (c.wg r w).chain = c.chain := by unfold Ctx.wg; split <;> rfl
@[simp] theorem Ctx.wg_chainQueue (c : Ctx) (r : Reg) (w : Word) : (c.wg r w).chainQueue = c.chainQueue := by unfold Ctx.wg; split <;> rfl
@[simp] theorem Ctx.wg_parts (c : Ctx) (r : Reg) (w : Word) : (c.wg r w).parts = c.parts := by unfold Ctx.wg; split <;> rfl
@[simp] theorem Ctx.wg_barWaits (c : Ctx) (r : Reg) (w : Word) : (c.wg r w).barWaits = c.barWaits := by unfold Ctx.wg; split <;> rfl
@[simp] theorem Ctx.wg_async (c : Ctx) (r : Reg) (w : Word) : (c.wg r w).async = c.async := by unfold Ctx.wg; split <;> rfl
@[simp] theorem Ctx.wg_rec_ (c : Ctx) (r : Reg) (w : Word) : (c.wg r w).rec_ = c.rec_ := by unfold Ctx.wg; split <;> rfl
@[simp] theorem Ctx.wg_signalled (c : Ctx) (r : Reg) (w : Word) : (c.wg r w).signalled = c.signalled := by unfold Ctx.wg; split <;> rfl
@[simp] theorem Ctx.wg_remote (c : Ctx) (r : Reg) (w : Word) : (c.wg r w).remote = c.remote := by unfold Ctx.wg; split <;> rfl
@[simp] theorem Ctx.setRow_status (c : Ctx) (n : Nat) (w : Row) : (c.setRow n w).status = c.status := rfl
@[simp] theorem Ctx.setRow_pc (c : Ctx) (n : Nat) (w : Row) : (c.setRow n w).pc = c.pc := rfl
@[simp] theorem Ctx.setRow_g (c : Ctx) (n : Nat) (w : Row) : (c.setRow n w).g = c.g := rfl
@[simp] theorem Ctx.setRow_gp (c : Ctx) (n : Nat) (w : Row) : (c.setRow n w).gp = c.gp := rfl
@[simp] theorem Ctx.setRow_m (c : Ctx) (n : Nat) (w : Row) : (c.setRow n w).m = c.m := rfl
@[simp] theorem Ctx.setRow_k (c : Ctx) (n : Nat) (w : Row) : (c.setRow n w).k = c.k := rfl
@[simp] theorem Ctx.setRow_stack (c : Ctx) (n : Nat) (w : Row) : (c.setRow n w).stack = c.stack := rfl
@[simp] theorem Ctx.setRow_vl (c : Ctx) (n : Nat) (w : Row) : (c.setRow n w).vl = c.vl := rfl
@[simp] theorem Ctx.setRow_vt (c : Ctx) (n : Nat) (w : Row) : (c.setRow n w).vt = c.vt := rfl
@[simp] theorem Ctx.setRow_vstart (c : Ctx) (n : Nat) (w : Row) : (c.setRow n w).vstart = c.vstart := rfl
@[simp] theorem Ctx.setRow_vrem (c : Ctx) (n : Nat) (w : Row) : (c.setRow n w).vrem = c.vrem := rfl
@[simp] theorem Ctx.setRow_vsc (c : Ctx) (n : Nat) (w : Row) : (c.setRow n w).vsc = c.vsc := rfl
@[simp] theorem Ctx.setRow_loopNo (c : Ctx) (n : Nat) (w : Row) : (c.setRow n w).loopNo = c.loopNo := rfl
@[simp] theorem Ctx.setRow_inStrip (c : Ctx) (n : Nat) (w : Row) : (c.setRow n w).inStrip = c.inStrip := rfl
@[simp] theorem Ctx.setRow_vcsr (c : Ctx) (n : Nat) (w : Row) : (c.setRow n w).vcsr = c.vcsr := rfl
@[simp] theorem Ctx.setRow_pm (c : Ctx) (n : Nat) (w : Row) : (c.setRow n w).pm = c.pm := rfl
@[simp] theorem Ctx.setRow_prows (c : Ctx) (n : Nat) (w : Row) : (c.setRow n w).prows = c.prows := rfl
@[simp] theorem Ctx.setRow_mode (c : Ctx) (n : Nat) (w : Row) : (c.setRow n w).mode = c.mode := rfl
@[simp] theorem Ctx.setRow_galbase (c : Ctx) (n : Nat) (w : Row) : (c.setRow n w).galbase = c.galbase := rfl
@[simp] theorem Ctx.setRow_galptr (c : Ctx) (n : Nat) (w : Row) : (c.setRow n w).galptr = c.galptr := rfl
@[simp] theorem Ctx.setRow_gallim (c : Ctx) (n : Nat) (w : Row) : (c.setRow n w).gallim = c.gallim := rfl
@[simp] theorem Ctx.setRow_galBuf (c : Ctx) (n : Nat) (w : Row) : (c.setRow n w).galBuf = c.galBuf := rfl
@[simp] theorem Ctx.setRow_level (c : Ctx) (n : Nat) (w : Row) : (c.setRow n w).level = c.level := rfl
@[simp] theorem Ctx.setRow_trap (c : Ctx) (n : Nat) (w : Row) : (c.setRow n w).trap = c.trap := rfl
@[simp] theorem Ctx.setRow_held (c : Ctx) (n : Nat) (w : Row) : (c.setRow n w).held = c.held := rfl
@[simp] theorem Ctx.setRow_resume (c : Ctx) (n : Nat) (w : Row) : (c.setRow n w).resume = c.resume := rfl
@[simp] theorem Ctx.setRow_begunS (c : Ctx) (n : Nat) (w : Row) : (c.setRow n w).begunS = c.begunS := rfl
@[simp] theorem Ctx.setRow_entering (c : Ctx) (n : Nat) (w : Row) : (c.setRow n w).entering = c.entering := rfl
@[simp] theorem Ctx.setRow_asid (c : Ctx) (n : Nat) (w : Row) : (c.setRow n w).asid = c.asid := rfl
@[simp] theorem Ctx.setRow_queue (c : Ctx) (n : Nat) (w : Row) : (c.setRow n w).queue = c.queue := rfl
@[simp] theorem Ctx.setRow_seq (c : Ctx) (n : Nat) (w : Row) : (c.setRow n w).seq = c.seq := rfl
@[simp] theorem Ctx.setRow_tokens (c : Ctx) (n : Nat) (w : Row) : (c.setRow n w).tokens = c.tokens := rfl
@[simp] theorem Ctx.setRow_shape (c : Ctx) (n : Nat) (w : Row) : (c.setRow n w).shape = c.shape := rfl
@[simp] theorem Ctx.setRow_latch (c : Ctx) (n : Nat) (w : Row) : (c.setRow n w).latch = c.latch := rfl
@[simp] theorem Ctx.setRow_ldaLine (c : Ctx) (n : Nat) (w : Row) : (c.setRow n w).ldaLine = c.ldaLine := rfl
@[simp] theorem Ctx.setRow_wfeLooks (c : Ctx) (n : Nat) (w : Row) : (c.setRow n w).wfeLooks = c.wfeLooks := rfl
@[simp] theorem Ctx.setRow_chain (c : Ctx) (n : Nat) (w : Row) : (c.setRow n w).chain = c.chain := rfl
@[simp] theorem Ctx.setRow_chainQueue (c : Ctx) (n : Nat) (w : Row) : (c.setRow n w).chainQueue = c.chainQueue := rfl
@[simp] theorem Ctx.setRow_parts (c : Ctx) (n : Nat) (w : Row) : (c.setRow n w).parts = c.parts := rfl
@[simp] theorem Ctx.setRow_barWaits (c : Ctx) (n : Nat) (w : Row) : (c.setRow n w).barWaits = c.barWaits := rfl
@[simp] theorem Ctx.setRow_async (c : Ctx) (n : Nat) (w : Row) : (c.setRow n w).async = c.async := rfl
@[simp] theorem Ctx.setRow_rec_ (c : Ctx) (n : Nat) (w : Row) : (c.setRow n w).rec_ = c.rec_ := rfl
@[simp] theorem Ctx.setRow_signalled (c : Ctx) (n : Nat) (w : Row) : (c.setRow n w).signalled = c.signalled := rfl
@[simp] theorem Ctx.setRow_remote (c : Ctx) (n : Nat) (w : Row) : (c.setRow n w).remote = c.remote := rfl
@[simp] theorem Ctx.setMask_status (c : Ctx) (n : Nat) (w : BitVec 2048) : (c.setMask n w).status = c.status := rfl
@[simp] theorem Ctx.setMask_pc (c : Ctx) (n : Nat) (w : BitVec 2048) : (c.setMask n w).pc = c.pc := rfl
@[simp] theorem Ctx.setMask_g (c : Ctx) (n : Nat) (w : BitVec 2048) : (c.setMask n w).g = c.g := rfl
@[simp] theorem Ctx.setMask_gp (c : Ctx) (n : Nat) (w : BitVec 2048) : (c.setMask n w).gp = c.gp := rfl
@[simp] theorem Ctx.setMask_v (c : Ctx) (n : Nat) (w : BitVec 2048) : (c.setMask n w).v = c.v := rfl
@[simp] theorem Ctx.setMask_k (c : Ctx) (n : Nat) (w : BitVec 2048) : (c.setMask n w).k = c.k := rfl
@[simp] theorem Ctx.setMask_stack (c : Ctx) (n : Nat) (w : BitVec 2048) : (c.setMask n w).stack = c.stack := rfl
@[simp] theorem Ctx.setMask_vl (c : Ctx) (n : Nat) (w : BitVec 2048) : (c.setMask n w).vl = c.vl := rfl
@[simp] theorem Ctx.setMask_vt (c : Ctx) (n : Nat) (w : BitVec 2048) : (c.setMask n w).vt = c.vt := rfl
@[simp] theorem Ctx.setMask_vstart (c : Ctx) (n : Nat) (w : BitVec 2048) : (c.setMask n w).vstart = c.vstart := rfl
@[simp] theorem Ctx.setMask_vrem (c : Ctx) (n : Nat) (w : BitVec 2048) : (c.setMask n w).vrem = c.vrem := rfl
@[simp] theorem Ctx.setMask_vsc (c : Ctx) (n : Nat) (w : BitVec 2048) : (c.setMask n w).vsc = c.vsc := rfl
@[simp] theorem Ctx.setMask_loopNo (c : Ctx) (n : Nat) (w : BitVec 2048) : (c.setMask n w).loopNo = c.loopNo := rfl
@[simp] theorem Ctx.setMask_inStrip (c : Ctx) (n : Nat) (w : BitVec 2048) : (c.setMask n w).inStrip = c.inStrip := rfl
@[simp] theorem Ctx.setMask_vcsr (c : Ctx) (n : Nat) (w : BitVec 2048) : (c.setMask n w).vcsr = c.vcsr := rfl
@[simp] theorem Ctx.setMask_pm (c : Ctx) (n : Nat) (w : BitVec 2048) : (c.setMask n w).pm = c.pm := rfl
@[simp] theorem Ctx.setMask_prows (c : Ctx) (n : Nat) (w : BitVec 2048) : (c.setMask n w).prows = c.prows := rfl
@[simp] theorem Ctx.setMask_mode (c : Ctx) (n : Nat) (w : BitVec 2048) : (c.setMask n w).mode = c.mode := rfl
@[simp] theorem Ctx.setMask_galbase (c : Ctx) (n : Nat) (w : BitVec 2048) : (c.setMask n w).galbase = c.galbase := rfl
@[simp] theorem Ctx.setMask_galptr (c : Ctx) (n : Nat) (w : BitVec 2048) : (c.setMask n w).galptr = c.galptr := rfl
@[simp] theorem Ctx.setMask_gallim (c : Ctx) (n : Nat) (w : BitVec 2048) : (c.setMask n w).gallim = c.gallim := rfl
@[simp] theorem Ctx.setMask_galBuf (c : Ctx) (n : Nat) (w : BitVec 2048) : (c.setMask n w).galBuf = c.galBuf := rfl
@[simp] theorem Ctx.setMask_level (c : Ctx) (n : Nat) (w : BitVec 2048) : (c.setMask n w).level = c.level := rfl
@[simp] theorem Ctx.setMask_trap (c : Ctx) (n : Nat) (w : BitVec 2048) : (c.setMask n w).trap = c.trap := rfl
@[simp] theorem Ctx.setMask_held (c : Ctx) (n : Nat) (w : BitVec 2048) : (c.setMask n w).held = c.held := rfl
@[simp] theorem Ctx.setMask_resume (c : Ctx) (n : Nat) (w : BitVec 2048) : (c.setMask n w).resume = c.resume := rfl
@[simp] theorem Ctx.setMask_begunS (c : Ctx) (n : Nat) (w : BitVec 2048) : (c.setMask n w).begunS = c.begunS := rfl
@[simp] theorem Ctx.setMask_entering (c : Ctx) (n : Nat) (w : BitVec 2048) : (c.setMask n w).entering = c.entering := rfl
@[simp] theorem Ctx.setMask_asid (c : Ctx) (n : Nat) (w : BitVec 2048) : (c.setMask n w).asid = c.asid := rfl
@[simp] theorem Ctx.setMask_queue (c : Ctx) (n : Nat) (w : BitVec 2048) : (c.setMask n w).queue = c.queue := rfl
@[simp] theorem Ctx.setMask_seq (c : Ctx) (n : Nat) (w : BitVec 2048) : (c.setMask n w).seq = c.seq := rfl
@[simp] theorem Ctx.setMask_tokens (c : Ctx) (n : Nat) (w : BitVec 2048) : (c.setMask n w).tokens = c.tokens := rfl
@[simp] theorem Ctx.setMask_shape (c : Ctx) (n : Nat) (w : BitVec 2048) : (c.setMask n w).shape = c.shape := rfl
@[simp] theorem Ctx.setMask_latch (c : Ctx) (n : Nat) (w : BitVec 2048) : (c.setMask n w).latch = c.latch := rfl
@[simp] theorem Ctx.setMask_ldaLine (c : Ctx) (n : Nat) (w : BitVec 2048) : (c.setMask n w).ldaLine = c.ldaLine := rfl
@[simp] theorem Ctx.setMask_wfeLooks (c : Ctx) (n : Nat) (w : BitVec 2048) : (c.setMask n w).wfeLooks = c.wfeLooks := rfl
@[simp] theorem Ctx.setMask_chain (c : Ctx) (n : Nat) (w : BitVec 2048) : (c.setMask n w).chain = c.chain := rfl
@[simp] theorem Ctx.setMask_chainQueue (c : Ctx) (n : Nat) (w : BitVec 2048) : (c.setMask n w).chainQueue = c.chainQueue := rfl
@[simp] theorem Ctx.setMask_parts (c : Ctx) (n : Nat) (w : BitVec 2048) : (c.setMask n w).parts = c.parts := rfl
@[simp] theorem Ctx.setMask_barWaits (c : Ctx) (n : Nat) (w : BitVec 2048) : (c.setMask n w).barWaits = c.barWaits := rfl
@[simp] theorem Ctx.setMask_async (c : Ctx) (n : Nat) (w : BitVec 2048) : (c.setMask n w).async = c.async := rfl
@[simp] theorem Ctx.setMask_rec_ (c : Ctx) (n : Nat) (w : BitVec 2048) : (c.setMask n w).rec_ = c.rec_ := rfl
@[simp] theorem Ctx.setMask_signalled (c : Ctx) (n : Nat) (w : BitVec 2048) : (c.setMask n w).signalled = c.signalled := rfl
@[simp] theorem Ctx.setMask_remote (c : Ctx) (n : Nat) (w : BitVec 2048) : (c.setMask n w).remote = c.remote := rfl
@[simp] theorem Ctx.setScale_status (c : Ctx) (n : Nat) (w : BitVec 16384) : (c.setScale n w).status = c.status := rfl
@[simp] theorem Ctx.setScale_pc (c : Ctx) (n : Nat) (w : BitVec 16384) : (c.setScale n w).pc = c.pc := rfl
@[simp] theorem Ctx.setScale_g (c : Ctx) (n : Nat) (w : BitVec 16384) : (c.setScale n w).g = c.g := rfl
@[simp] theorem Ctx.setScale_gp (c : Ctx) (n : Nat) (w : BitVec 16384) : (c.setScale n w).gp = c.gp := rfl
@[simp] theorem Ctx.setScale_v (c : Ctx) (n : Nat) (w : BitVec 16384) : (c.setScale n w).v = c.v := rfl
@[simp] theorem Ctx.setScale_m (c : Ctx) (n : Nat) (w : BitVec 16384) : (c.setScale n w).m = c.m := rfl
@[simp] theorem Ctx.setScale_stack (c : Ctx) (n : Nat) (w : BitVec 16384) : (c.setScale n w).stack = c.stack := rfl
@[simp] theorem Ctx.setScale_vl (c : Ctx) (n : Nat) (w : BitVec 16384) : (c.setScale n w).vl = c.vl := rfl
@[simp] theorem Ctx.setScale_vt (c : Ctx) (n : Nat) (w : BitVec 16384) : (c.setScale n w).vt = c.vt := rfl
@[simp] theorem Ctx.setScale_vstart (c : Ctx) (n : Nat) (w : BitVec 16384) : (c.setScale n w).vstart = c.vstart := rfl
@[simp] theorem Ctx.setScale_vrem (c : Ctx) (n : Nat) (w : BitVec 16384) : (c.setScale n w).vrem = c.vrem := rfl
@[simp] theorem Ctx.setScale_vsc (c : Ctx) (n : Nat) (w : BitVec 16384) : (c.setScale n w).vsc = c.vsc := rfl
@[simp] theorem Ctx.setScale_loopNo (c : Ctx) (n : Nat) (w : BitVec 16384) : (c.setScale n w).loopNo = c.loopNo := rfl
@[simp] theorem Ctx.setScale_inStrip (c : Ctx) (n : Nat) (w : BitVec 16384) : (c.setScale n w).inStrip = c.inStrip := rfl
@[simp] theorem Ctx.setScale_vcsr (c : Ctx) (n : Nat) (w : BitVec 16384) : (c.setScale n w).vcsr = c.vcsr := rfl
@[simp] theorem Ctx.setScale_pm (c : Ctx) (n : Nat) (w : BitVec 16384) : (c.setScale n w).pm = c.pm := rfl
@[simp] theorem Ctx.setScale_prows (c : Ctx) (n : Nat) (w : BitVec 16384) : (c.setScale n w).prows = c.prows := rfl
@[simp] theorem Ctx.setScale_mode (c : Ctx) (n : Nat) (w : BitVec 16384) : (c.setScale n w).mode = c.mode := rfl
@[simp] theorem Ctx.setScale_galbase (c : Ctx) (n : Nat) (w : BitVec 16384) : (c.setScale n w).galbase = c.galbase := rfl
@[simp] theorem Ctx.setScale_galptr (c : Ctx) (n : Nat) (w : BitVec 16384) : (c.setScale n w).galptr = c.galptr := rfl
@[simp] theorem Ctx.setScale_gallim (c : Ctx) (n : Nat) (w : BitVec 16384) : (c.setScale n w).gallim = c.gallim := rfl
@[simp] theorem Ctx.setScale_galBuf (c : Ctx) (n : Nat) (w : BitVec 16384) : (c.setScale n w).galBuf = c.galBuf := rfl
@[simp] theorem Ctx.setScale_level (c : Ctx) (n : Nat) (w : BitVec 16384) : (c.setScale n w).level = c.level := rfl
@[simp] theorem Ctx.setScale_trap (c : Ctx) (n : Nat) (w : BitVec 16384) : (c.setScale n w).trap = c.trap := rfl
@[simp] theorem Ctx.setScale_held (c : Ctx) (n : Nat) (w : BitVec 16384) : (c.setScale n w).held = c.held := rfl
@[simp] theorem Ctx.setScale_resume (c : Ctx) (n : Nat) (w : BitVec 16384) : (c.setScale n w).resume = c.resume := rfl
@[simp] theorem Ctx.setScale_begunS (c : Ctx) (n : Nat) (w : BitVec 16384) : (c.setScale n w).begunS = c.begunS := rfl
@[simp] theorem Ctx.setScale_entering (c : Ctx) (n : Nat) (w : BitVec 16384) : (c.setScale n w).entering = c.entering := rfl
@[simp] theorem Ctx.setScale_asid (c : Ctx) (n : Nat) (w : BitVec 16384) : (c.setScale n w).asid = c.asid := rfl
@[simp] theorem Ctx.setScale_queue (c : Ctx) (n : Nat) (w : BitVec 16384) : (c.setScale n w).queue = c.queue := rfl
@[simp] theorem Ctx.setScale_seq (c : Ctx) (n : Nat) (w : BitVec 16384) : (c.setScale n w).seq = c.seq := rfl
@[simp] theorem Ctx.setScale_tokens (c : Ctx) (n : Nat) (w : BitVec 16384) : (c.setScale n w).tokens = c.tokens := rfl
@[simp] theorem Ctx.setScale_shape (c : Ctx) (n : Nat) (w : BitVec 16384) : (c.setScale n w).shape = c.shape := rfl
@[simp] theorem Ctx.setScale_latch (c : Ctx) (n : Nat) (w : BitVec 16384) : (c.setScale n w).latch = c.latch := rfl
@[simp] theorem Ctx.setScale_ldaLine (c : Ctx) (n : Nat) (w : BitVec 16384) : (c.setScale n w).ldaLine = c.ldaLine := rfl
@[simp] theorem Ctx.setScale_wfeLooks (c : Ctx) (n : Nat) (w : BitVec 16384) : (c.setScale n w).wfeLooks = c.wfeLooks := rfl
@[simp] theorem Ctx.setScale_chain (c : Ctx) (n : Nat) (w : BitVec 16384) : (c.setScale n w).chain = c.chain := rfl
@[simp] theorem Ctx.setScale_chainQueue (c : Ctx) (n : Nat) (w : BitVec 16384) : (c.setScale n w).chainQueue = c.chainQueue := rfl
@[simp] theorem Ctx.setScale_parts (c : Ctx) (n : Nat) (w : BitVec 16384) : (c.setScale n w).parts = c.parts := rfl
@[simp] theorem Ctx.setScale_barWaits (c : Ctx) (n : Nat) (w : BitVec 16384) : (c.setScale n w).barWaits = c.barWaits := rfl
@[simp] theorem Ctx.setScale_async (c : Ctx) (n : Nat) (w : BitVec 16384) : (c.setScale n w).async = c.async := rfl
@[simp] theorem Ctx.setScale_rec_ (c : Ctx) (n : Nat) (w : BitVec 16384) : (c.setScale n w).rec_ = c.rec_ := rfl
@[simp] theorem Ctx.setScale_signalled (c : Ctx) (n : Nat) (w : BitVec 16384) : (c.setScale n w).signalled = c.signalled := rfl
@[simp] theorem Ctx.setScale_remote (c : Ctx) (n : Nat) (w : BitVec 16384) : (c.setScale n w).remote = c.remote := rfl

/-! ## Registers -/

/-- g0 reads 0 (R29). -/
@[simp] theorem Ctx.rg_zero (c : Ctx) : c.rg 0 = 0 := by simp [Ctx.rg]
/-- A write to g0 is discarded (R29). -/
@[simp] theorem Ctx.wg_zero (c : Ctx) (w : Word) : c.wg 0 w = c := by simp [Ctx.wg]
theorem Ctx.wg_rg_self (c : Ctx) {r : Reg} (h : r ≠ 0) (w : Word) : (c.wg r w).rg r = w := by
  unfold Ctx.wg Ctx.rg
  rw [if_neg h, if_neg h]
  exact Tab.look_put_self _ _ _ _
theorem Ctx.wg_rg_ne (c : Ctx) {r q : Reg} (h : q ≠ r) (w : Word) : (c.wg r w).rg q = c.rg q := by
  have hn : r.toNat ≠ q.toNat := fun e => h (BitVec.eq_of_toNat_eq e.symm)
  unfold Ctx.wg Ctx.rg
  by_cases hr : r = 0
  · rw [if_pos hr]
  · by_cases hq : q = 0
    · rw [if_pos hq, if_pos hq]
    · rw [if_neg hq, if_neg hq, if_neg hr]
      exact Tab.look_put_ne _ _ hn _
@[simp] theorem Ctx.setRow_row_self (c : Ctx) (n : Nat) (w : Row) : (c.setRow n w).row n = w := by simp [Ctx.setRow, Ctx.row]
theorem Ctx.setRow_row_ne (c : Ctx) {n m : Nat} (h : m ≠ n) (w : Row) : (c.setRow n w).row m = c.row m := by
  simp [Ctx.setRow, Ctx.row, Tab.look_put_ne _ _ (Ne.symm h)]
@[simp] theorem Ctx.setMask_mask_self (c : Ctx) (n : Nat) (w : BitVec 2048) : (c.setMask n w).mask n = w := by
  simp [Ctx.setMask, Ctx.mask]
theorem Ctx.setMask_mask_ne (c : Ctx) {n m : Nat} (h : m ≠ n) (w : BitVec 2048) : (c.setMask n w).mask m = c.mask m := by
  simp [Ctx.setMask, Ctx.mask, Tab.look_put_ne _ _ (Ne.symm h)]
@[simp] theorem Ctx.setRow_rg (c : Ctx) (n : Nat) (w : Row) (r : Reg) : (c.setRow n w).rg r = c.rg r := rfl
@[simp] theorem Ctx.setMask_rg (c : Ctx) (n : Nat) (w : BitVec 2048) (r : Reg) : (c.setMask n w).rg r = c.rg r := rfl
@[simp] theorem Ctx.setScale_rg (c : Ctx) (n : Nat) (w : BitVec 16384) (r : Reg) : (c.setScale n w).rg r = c.rg r := rfl
@[simp] theorem Ctx.wg_row (c : Ctx) (r : Reg) (w : Word) (n : Nat) : (c.wg r w).row n = c.row n := by simp [Ctx.row]
@[simp] theorem Ctx.wg_mask (c : Ctx) (r : Reg) (w : Word) (n : Nat) : (c.wg r w).mask n = c.mask n := by simp [Ctx.mask]
@[simp] theorem Ctx.wg_tag (c : Ctx) (r : Reg) (w : Word) : (c.wg r w).tag = c.tag := by simp [Ctx.tag]
@[simp] theorem Ctx.wg_top (c : Ctx) (r : Reg) (w : Word) : (c.wg r w).top = c.top := by simp [Ctx.top]

end Machine
end Sys2Proof
end

