-- ==== Sys2Proof/Laws/Computation.lean ====
section
/-! SUPPORT. What the computations of the machine answer, construct by construct, and what the two shared ways to run an
instruction, `front` and `dispatch`, answer. -/

namespace Sys2Proof.Machine

/-! ## Constructs -/

@[simp] theorem pure_apply {α : Type} (a : α) (s : State) : (pure a : M α) s = .ok a s := rfl

theorem bind_apply {α β : Type} (m : M α) (f : α → M β) (s : State) :
    (m >>= f) s = match m s with | .ok a t => f a t | .error e t => .error e t := by
  show EStateM.bind m f s = _
  unfold EStateM.bind
  cases m s <;> rfl

theorem bind_ok {α β : Type} {m : M α} {s t : State} {a : α} (f : α → M β) (h : m s = .ok a t) : (m >>= f) s = f a t := by
  rw [bind_apply, h]

theorem bind_error {α β : Type} {m : M α} {s t : State} {e : Stop} (f : α → M β) (h : m s = .error e t) :
    (m >>= f) s = .error e t := by
  rw [bind_apply, h]

/-- What a sequence answered, its parts answered. -/
theorem of_bind_ok {α β : Type} {m : M α} {f : α → M β} {s u : State} {b : β} (h : (m >>= f) s = .ok b u) :
    ∃ a t, m s = .ok a t ∧ f a t = .ok b u := by
  rw [bind_apply] at h
  cases hm : m s with
  | ok a t => exact ⟨a, t, rfl, by simpa [hm] using h⟩
  | error e t => simp [hm] at h

@[simp] theorem raise_apply {α : Type} (t : TrapInfo) (s : State) : (raise t : M α) s = .error (.trap t) s := rfl
@[simp] theorem stall_apply {α : Type} (s : State) : (stall : M α) s = .error .wait s := rfl
@[simp] theorem get_apply (s : State) : (get : M State) s = .ok s s := rfl
@[simp] theorem set_apply (s t : State) : (set t : M PUnit) s = .ok () t := rfl
@[simp] theorem upd_apply (f : State → State) (s : State) : upd f s = .ok () (f s) := rfl
@[simp] theorem updCtx_apply (x : CtxNo) (f : Ctx → Ctx) (s : State) : updCtx x f s = .ok () (s.modCtx x f) := rfl
@[simp] theorem ctxM_apply (x : CtxNo) (s : State) : ctxM x s = .ok (s.ctx x) s := rfl
@[simp] theorem draw_apply (s : State) : draw s = .ok (Config.freeWord s.fresh) { s with fresh := s.fresh + 1 } := rfl
@[simp] theorem serialM_apply (s : State) : serialM s = .ok s.serial { s with serial := s.serial + 1 } := rfl

/-- A condition that does not hold stops nothing. -/
theorem when_false {p : Prop} [Decidable p] (h : ¬p) (m : M Unit) (s : State) :
    (if p then m else pure () : M Unit) s = .ok () s := by
  rw [if_neg h]; rfl

@[simp] theorem each_nil {α : Type} (f : α → M Unit) (s : State) : each [] f s = .ok () s := rfl
theorem each_cons {α : Type} (a : α) (l : List α) (f : α → M Unit) (s : State) :
    each (a :: l) f s = match f a s with | .ok _ t => each l f t | .error e t => .error e t := by
  show (f a >>= fun _ => each l f) s = _
  rw [bind_apply]
  cases f a s <;> rfl

/-- A loop whose every turn answers, from every state of an invariant to one of it, answers in a state of the invariant. -/
theorem each_ok {α : Type} (P : State → Prop) (f : α → M Unit) : ∀ (l : List α) (s : State), P s →
    (∀ a ∈ l, ∀ u, P u → ∃ t, f a u = .ok () t ∧ P t) → ∃ t, each l f s = .ok () t ∧ P t
  | [], s, hp, _ => ⟨s, rfl, hp⟩
  | a :: l, s, hp, h => by
    obtain ⟨t, ht, hpt⟩ := h a (by simp) s hp
    obtain ⟨u, hu, hpu⟩ := each_ok P f l t hpt fun b hb v hv => h b (by simp [hb]) v hv
    exact ⟨u, by rw [each_cons, ht]; exact hu, hpu⟩

/-- A loop over two lists is the loop over one after the other. -/
theorem each_append {α : Type} (f : α → M Unit) : ∀ (k l : List α) (s : State),
    each (k ++ l) f s = match each k f s with | .ok _ t => each l f t | .error e t => .error e t
  | [], _, _ => rfl
  | a :: k, l, s => by
    simp only [List.cons_append, each_cons]
    cases f a s with
    | ok _ t => exact each_append f k l t
    | error e t => rfl

/-! ## `front` -/

/-- What `front` does when its body answers. -/
theorem front_ok {body : CtxNo → Ctx → M Word} {s t : State} {pc : Word} (h : body s.cur (s.ctx s.cur) s = .ok pc t) :
    front body s = .next (t.modCtx s.cur fun c => { c with pc := pc }) := by
  unfold front; dsimp only; rw [h]

/-- What `front` does when its body traps. -/
theorem front_trap {body : CtxNo → Ctx → M Word} {s t : State} {i : TrapInfo}
    (h : body s.cur (s.ctx s.cur) s = .error (.trap i) t) (hb : s.trapWaits s.cur i = false) :
    front body s = .next (t.enterTrap s.cur i false false (s.ctx s.cur).pc) := by
  unfold front; dsimp only; rw [h]; simp [hb]

/-- What `front` does when its body waits. -/
theorem front_wait {body : CtxNo → Ctx → M Word} {s t : State} (h : body s.cur (s.ctx s.cur) s = .error .wait t) :
    front body s = .next t := by
  unfold front; dsimp only; rw [h]

/-- Everything that `front` can answer. -/
theorem front_cases (body : CtxNo → Ctx → M Word) (s : State) :
    (∃ pc t, body s.cur (s.ctx s.cur) s = .ok pc t ∧ front body s = .next (t.modCtx s.cur fun c => { c with pc := pc })) ∨
    (∃ t, body s.cur (s.ctx s.cur) s = .error .wait t ∧ front body s = .next t) ∨
    (∃ i t, body s.cur (s.ctx s.cur) s = .error (.trap i) t ∧
      front body s = .next (if s.trapWaits s.cur i then s else t.enterTrap s.cur i false false (s.ctx s.cur).pc)) := by
  cases h : body s.cur (s.ctx s.cur) s with
  | ok pc t => exact .inl ⟨pc, t, rfl, front_ok h⟩
  | error e t =>
    cases e with
    | wait => exact .inr (.inl ⟨t, rfl, front_wait h⟩)
    | trap i =>
      refine .inr (.inr ⟨i, t, rfl, ?_⟩)
      unfold front; dsimp only; rw [h]; dsimp only; split <;> rfl

/-- `front` never stops the machine. -/
theorem front_next (body : CtxNo → Ctx → M Word) (s : State) : ∃ t, front body s = .next t := by
  rcases front_cases body s with ⟨_, _, _, h⟩ | ⟨_, _, h⟩ | ⟨_, _, _, h⟩ <;> exact ⟨_, h⟩

/-- A 32-bit instruction that writes one register. -/
theorem setReg_eq (d : Reg) (f : Ctx → Word) (s : State) :
    setReg d f s = .next (s.modCtx s.cur fun c => { c.wg d (f c) with pc := c.pc + 4 }) := by
  unfold setReg
  rw [front_ok (t := s.modCtx s.cur fun c => c.wg d (f c)) (pc := (s.ctx s.cur).after 4) rfl]
  simp only [State.modCtx, State.setCtx, State.ctx, Tab.look_put_self, Tab.put_put]
  rfl

/-! ## `dispatch` -/

/-- An instruction of a queue whose checks pass issues at once when it is ready. -/
theorem dispatch_issue {q : QueueNo} {i : Instr} {f : Op64} {v : Bool} {check : CtxNo → Ctx → M Unit}
    {keeps : CtxNo → State → State} {body : Body} {s s0 s1 t : State} {e : Entry}
    (hpre : (do check s.cur (s.ctx s.cur); waitTop s.cur i; tokenDispatch s.cur (s.ctx s.cur) (instrTokens i q); queuePlace s.cur q : M Unit) s = .ok () s0)
    (he : e = s0.known s.cur ((s.ctx s.cur).entry q i f (if v then (s.ctx s.cur).startAt else 0)))
    (hs : s1 = (keeps s.cur s0).modCtx s.cur fun c => { c with
      pc := c.after (opBytes f), seq := c.seq + 1, vstart := if v = true ∧ c.level = .u then 0 else c.vstart })
    (hr : s1.ready s.cur e = true) (ht : issueEntry body s.cur e s1 = some t) :
    dispatch q i f v check keeps body s = .next t := by
  subst he
  unfold dispatch
  dsimp only
  split
  · rename_i h; rw [hpre] at h; cases h
  · rename_i h; rw [hpre] at h; cases h
  · rename_i u h
    rw [hpre] at h
    cases h
    subst hs
    rw [if_pos hr, ht]
    rfl

/-- `dispatch` never stops the machine. -/
theorem dispatch_next (q : QueueNo) (i : Instr) (f : Op64) (v : Bool) (check : CtxNo → Ctx → M Unit)
    (keeps : CtxNo → State → State) (body : Body) (s : State) : ∃ t, dispatch q i f v check keeps body s = .next t := by
  unfold dispatch
  dsimp only
  split
  · exact ⟨_, rfl⟩
  · split <;> exact ⟨_, rfl⟩
  · exact ⟨_, rfl⟩

/-- An entry whose pop, body and push answer has run. -/
theorem issueEntry_ok {body : Body} {x : CtxNo} {e : Entry} {s t : State} (h : runEntry body x e s = .ok () t) :
    issueEntry body x e s = some (t.feedForks x e) := by
  unfold issueEntry; rw [h]

/-- Everything that an entry's issue can come to. -/
theorem issueEntry_cases (body : Body) (x : CtxNo) (e : Entry) (s : State) :
    (∃ t, runEntry body x e s = .ok () t ∧ issueEntry body x e s = some (t.feedForks x e)) ∨
    issueEntry body x e s = none ∨
    (∃ i t, runEntry body x e s = .error (.trap i) t ∧ issueEntry body x e s = some (t.entryTrap x e i)) := by
  unfold issueEntry
  cases h : runEntry body x e s with
  | ok a t => exact .inl ⟨t, rfl, rfl⟩
  | error st t =>
    cases st with
    | wait => exact .inr (.inl rfl)
    | trap i =>
      dsimp only
      split
      · exact .inr (.inl rfl)
      · exact .inr (.inr ⟨i, t, rfl, rfl⟩)

end Sys2Proof.Machine
end

