-- ==== Sys2Proof/Laws/Issue.lean ====
section
/-! SUPPORT. An instruction of a queue that nothing keeps from issuing: what its dispatch and its issue come to. -/

namespace Sys2Proof.Claims

open Sys2Proof.Machine

/-! ## Tokens -/

/-- The puts of a pop and of a push commute with a later put of the pop. -/
theorem put_put_comm {α : Type} (a a' b : α) {n m : Nat} (h : n ≠ m) : ∀ t : Tab α,
    Tab.put (Tab.put (Tab.put t n a) m b) n a' = Tab.put (Tab.put t n a') m b
  | [] => by
    by_cases h1 : m < n
    · have : ¬ n < m := by omega
      have hmn : m ≠ n := fun e => h e.symm
      simp [Tab.put, h, h1, hmn, this]
    · have : n < m := by omega
      simp [Tab.put, h, h1]
  | (k, c) :: t => by
    have hmn : m ≠ n := fun e => h e.symm
    have ih := put_put_comm a a' b h t
    by_cases hk : k = n
    · subst hk
      by_cases h1 : m < k
      · simp [Tab.put, h, h1, hmn, show ¬ k < m by omega]
      · simp [Tab.put, h, h1]
    · by_cases hn : n < k
      · by_cases h1 : m < n
        · simp [Tab.put, h, hmn, hk, hn, h1, show ¬ n < m by omega]
        · simp [Tab.put, h, hk, hn, h1]
      · by_cases hm : k = m
        · subst hm
          simp [Tab.put, hk, hn]
        · by_cases h1 : m < k
          · simp [Tab.put, hk, hn, hm, h1, hmn, show ¬ n < m by omega]
          · simp [Tab.put, hk, hn, hm, h1, ih]

theorem Fifo.ix_ne {k l : Fifo} (h : k ≠ l) : k.ix ≠ l.ix := by
  cases k <;> cases l <;> first | exact absurd rfl h | decide

theorem tok_setTok_self (c : Ctx) (k : Fifo) (t : Tokens) : (c.setTok k t).tok k = t := by
  simp [Ctx.tok, Ctx.setTok]
theorem tok_setTok_ne (c : Ctx) {k l : Fifo} (h : k ≠ l) (t : Tokens) : (c.setTok k t).tok l = c.tok l := by
  simp [Ctx.tok, Ctx.setTok, Tab.look_put_ne _ _ (Fifo.ix_ne h)]
theorem setTok_setTok (c : Ctx) (k : Fifo) (t u : Tokens) : (c.setTok k t).setTok k u = c.setTok k u := by
  simp [Ctx.setTok]
theorem setTok_comm (c : Ctx) {k l : Fifo} (h : k ≠ l) (t t' u : Tokens) :
    ((c.setTok k t).setTok l u).setTok k t' = (c.setTok k t').setTok l u := by
  simp [Ctx.setTok, put_put_comm _ _ _ (Fifo.ix_ne h)]

theorem opTokens_ne (f : Op64) (q : QueueNo) {k l : Fifo} (h : (opTokens f q).pop = some k) (h' : (opTokens f q).push = some l) :
    k ≠ l := by
  intro e
  subst e
  unfold opTokens at h h'
  dsimp only at h h'
  generalize f.tkpop.toNat = a at h
  generalize f.tkpush.toNat = b at h'
  unfold fifoOf at h h'
  revert h h'
  cases q <;> (split <;> first | (intro h; cases h; split <;> simp_all) | simp_all)

/-- The shapes of an instruction's tokens. -/
theorem instrTokens_cases (i : Instr) (q : QueueNo) :
    (instrTokens i q).pop = none ∨ (instrTokens i q).push = none ∨ ∃ f, instrTokens i q = opTokens f q := by
  unfold instrTokens
  split
  · exact .inr (.inl rfl)
  · exact .inl rfl
  · exact .inl rfl
  · split
    · exact .inr (.inr ⟨_, rfl⟩)
    · exact .inl rfl

/-- The FIFO that an instruction pops is not the one that it pushes. -/
theorem instrTokens_ne {i : Instr} {q : QueueNo} {k l : Fifo} (h : (instrTokens i q).pop = some k)
    (h' : (instrTokens i q).push = some l) : k ≠ l := by
  rcases instrTokens_cases i q with hn | hn | ⟨f, hf⟩
  · rw [hn] at h; cases h
  · rw [hn] at h'; cases h'
  · rw [hf] at h h'
    exact opTokens_ne f q h h'

/-- The pushes and pops of a context's tokens change its tokens alone. -/
theorem tokensOwed_fields (u : TokenUse) (c : Ctx) : tokensOwed u c = { c with tokens := (tokensOwed u c).tokens } := by
  unfold tokensOwed popTok oweTok Ctx.setTok
  cases u.pop <;> cases u.push <;> rfl
/-! ## Dispatch and issue -/

/-- The state after a context's tokens have been promised at dispatch. -/
def promised (u : TokenUse) (c : Ctx) : Ctx :=
  let c1 := match u.pop with | none => c | some k => let t := c.tok k; c.setTok k { t with u := t.u - 1 }
  match u.push with | none => c1 | some k => let t := c1.tok k; c1.setTok k { t with u := t.u + 1, f := t.f + 1 }

theorem promised_fields (u : TokenUse) (c : Ctx) : promised u c = { c with tokens := (promised u c).tokens } := by
  unfold promised Ctx.setTok
  cases u.pop <;> cases u.push <;> rfl

@[simp] theorem setCtx_setCtx (s : State) (x : CtxNo) (c d : Ctx) : (s.setCtx x c).setCtx x d = s.setCtx x d := by
  simp [State.setCtx, Tab.put_put]
@[simp] theorem setCtx_cur (s : State) (x : CtxNo) (c : Ctx) : (s.setCtx x c).cur = s.cur := rfl

@[simp] theorem ctx_setCtx (s : State) (x : CtxNo) (c : Ctx) : (s.setCtx x c).ctx x = c := by simp [State.ctx, State.setCtx]
@[simp] theorem setCtx_core (s : State) (x : CtxNo) (c : Ctx) (k : Nat) : (s.setCtx x c).core k = s.core k := rfl

/-- The promises of a dispatch that passes its token checks. -/
theorem tokenDispatch_ready {s : State} {i : Instr} {q : QueueNo} (hr : Ready s i q) :
    ∃ s', tokenDispatch s.cur (here s) (instrTokens i q) s = .ok () s' ∧
      (s' = s ∨ ∃ c, s' = s.setCtx s.cur c) ∧ s'.ctx s.cur = promised (instrTokens i q) (here s) := by
  have hpop := hr.pop
  have hpush := hr.push
  unfold tokenDispatch promised
  cases hp : (instrTokens i q).pop with
  | none =>
    cases hq : (instrTokens i q).push with
    | none => exact ⟨s, rfl, .inl rfl, rfl⟩
    | some l =>
      obtain ⟨h1, h2⟩ := hpush l hq
      refine ⟨s.setCtx s.cur (let t := (here s).tok l; (here s).setTok l { t with u := t.u + 1, f := t.f + 1 }), ?_,
        .inr ⟨_, rfl⟩, by simp⟩
      simp only [if_neg h1, if_neg h2]
      rfl
  | some k =>
    obtain ⟨h0, h3⟩ := hpop k hp
    have hk : ¬ (((here s).tok k).u ≤ 0 ∧ ¬ ((k = .cv ∨ k = .cm) ∧ (here s).chained = true)) := by
      rcases h3 with h3 | h3
      · omega
      · exact fun h => h.2 h3
    cases hq : (instrTokens i q).push with
    | none =>
      refine ⟨s.setCtx s.cur (let t := (here s).tok k; (here s).setTok k { t with u := t.u - 1 }), ?_, .inr ⟨_, rfl⟩, by simp⟩
      simp only [bind_apply, pure_apply, if_neg hk, updCtx_apply]
      rfl
    | some l =>
      obtain ⟨h1, h2⟩ := hpush l hq
      have hne : k ≠ l := instrTokens_ne hp hq
      refine ⟨s.setCtx s.cur (let c1 := (let t := (here s).tok k; (here s).setTok k { t with u := t.u - 1 })
        let t := c1.tok l; c1.setTok l { t with u := t.u + 1, f := t.f + 1 }), ?_, .inr ⟨_, rfl⟩, by simp⟩
      simp only [bind_apply, if_neg hk, if_neg h1, if_neg h2, updCtx_apply, State.modCtx, ctx_setCtx, setCtx_setCtx]

theorem ctx_setCtx_ne (s : State) {x y : CtxNo} (h : y ≠ x) (c : Ctx) : (s.setCtx x c).ctx y = s.ctx y :=
  Tab.look_put_ne _ _ (fun e => h (BitVec.eq_of_toNat_eq e.symm)) _

/-- The room of a queue depends on the queues alone. -/
theorem shareFull_setCtx (s : State) (x : CtxNo) (q : QueueNo) {c : Ctx} (h : c.queue = (s.ctx x).queue) :
    (s.setCtx x c).shareFull x q = s.shareFull x q := by
  have hq : c.inQueue = (s.ctx x).inQueue := by unfold Ctx.inQueue; rw [h]
  have hf : ∀ (l : List CtxNo) (n : Nat), (∀ y ∈ l, y ≠ x) →
      l.foldl (fun n y => n + Nat.max (((s.setCtx x c).ctx y).inQueue q) (queueReserve q)) n =
      l.foldl (fun n y => n + Nat.max ((s.ctx y).inQueue q) (queueReserve q)) n := by
    intro l
    induction l with
    | nil => intro n _; rfl
    | cons y t ih =>
      intro n hy
      simp only [List.foldl_cons, ctx_setCtx_ne s (hy y (by simp)) c]
      exact ih _ fun z hz => hy z (by simp [hz])
  unfold State.shareFull
  dsimp only
  rw [hf _ 0 (by simp), ctx_setCtx, hq]

/-- A place in the queue is free. -/
theorem queuePlace_ready {s : State} {x : CtxNo} {q : QueueNo} (h : s.shareFull x q = false) : queuePlace x q s = .ok () s := by
  unfold queuePlace
  rw [bind_apply]
  show (if s.shareFull x q then _ else pure () : M Unit) s = _
  rw [h]
  rfl

/-- Nothing waits for entries of which there is none. -/
theorem waitOn_none {s : State} {x : CtxNo} {waits : Entry → Bool} (h : (s.ctx x).queue.any waits = false) :
    waitOn x waits s = .ok () s := by
  unfold waitOn
  simp only [bind_apply, get_apply, h]
  rfl

/-- An instruction whose older entries are parked does not wait for the mask stack. -/
theorem waitTop_ready {s : State} {x : CtxNo} (i : Instr) (h : ∀ e ∈ (s.ctx x).queue, e.parked = true) : waitTop x i s = .ok () s := by
  unfold waitTop
  split
  · exact waitOn_none (List.any_eq_false.mpr fun e he => by simp [h e he])
  · rfl

/-! ## The chase -/

/-- The chase has nothing to note: the context owns no armed term, and no term of another would change. -/
structure Quiet (s : State) (x : CtxNo) : Prop where
  free : ∀ t ∈ (s.core (coreOf x)).terms, t.2.owner = x → t.2.armed = false ∧ t.2.phase = .low
  quiet : ∀ t ∈ (s.core (coreOf x)).terms, t.2.owner ≠ x → t.2.look (s.termTrue (coreOf x) t.2) = t.2

theorem Ready.quiet_ {s : State} {i : Instr} {q : QueueNo} (h : Ready s i q) : Quiet s s.cur := ⟨h.free, h.quiet⟩

theorem Term.look_low {t : Term} (h : t.armed = false ∧ t.phase = .low) (now : Bool) : t.look now = t := by
  unfold Term.look
  rw [h.2, h.1]
  simp

/-- Nothing is noted in a quiet state. -/
theorem lookTerms_quiet {s : State} {x : CtxNo} (h : Quiet s x) : s.lookTerms (coreOf x) = s := by
  unfold State.lookTerms
  dsimp only
  rw [if_pos]
  refine (List.map_congr_left (g := id) fun t ht => ?_).trans (List.map_id _)
  by_cases ho : t.2.owner = x
  · rw [Term.look_low (h.free t ht ho)]; rfl
  · rw [h.quiet t ht ho]; rfl

/-- A term's inputs are its core's counters and its owner's tokens. -/
theorem termTrue_congr {s s' : State} {k : Nat} {t : Term} (hk : (s'.core k).counters = (s.core k).counters)
    (hc : s'.ctx t.owner = s.ctx t.owner) : s'.termTrue k t = s.termTrue k t := by
  have h : s'.termInput k t.owner = s.termInput k t.owner := by
    funext b
    unfold State.termInput
    rw [hk, hc]
  unfold State.termTrue
  rw [h]

/-- A state that agrees on the core's chase and on the other contexts is quiet too. -/
theorem Quiet.congr {s s' : State} {x : CtxNo} (h : Quiet s x) (ht : (s'.core (coreOf x)).terms = (s.core (coreOf x)).terms)
    (hk : (s'.core (coreOf x)).counters = (s.core (coreOf x)).counters) (hc : ∀ y, y ≠ x → s'.ctx y = s.ctx y) : Quiet s' x := by
  refine ⟨by rw [ht]; exact h.free, fun t hm ho => ?_⟩
  rw [ht] at hm
  rw [termTrue_congr hk (hc _ ho)]
  exact h.quiet t hm ho

theorem Quiet.setCtx {s : State} {x : CtxNo} (h : Quiet s x) (c : Ctx) : Quiet (s.setCtx x c) x :=
  h.congr rfl rfl fun _ hy => ctx_setCtx_ne s hy c

theorem promised_owed (u : TokenUse) (c : Ctx) (h : ∀ k l, u.pop = some k → u.push = some l → k ≠ l) :
    (match u.pop with
      | none => promised u c
      | some k => let t := (promised u c).tok k; (promised u c).setTok k { t with f := t.f - 1, held := t.held - 1 }) =
    tokensOwed u c := by
  unfold promised tokensOwed popTok oweTok
  cases hp : u.pop with
  | none => cases u.push <;> rfl
  | some k =>
    cases hq : u.push with
    | none => simp [tok_setTok_self, setTok_setTok]
    | some l =>
      have hne := h k l hp hq
      simp only [tok_setTok_ne _ hne, tok_setTok_ne _ hne.symm, tok_setTok_self, setTok_comm _ hne]

theorem tokenTaken_setCtx (s : State) (x : CtxNo) (q : QueueNo) (k : Fifo) (c d : Ctx) (h : d.start = c.start) :
    (s.setCtx x c).tokenTaken x q k = { (s.setCtx x c) with before := ((s.setCtx x d).tokenTaken x q k).before } := by
  have hb : (s.setCtx x c).base x = (s.setCtx x d).base x := by simp [State.base, h]
  unfold State.tokenTaken State.modBefore
  rw [hb]
  by_cases h0 : s.before.stamp = 0
  · rw [if_pos (show (s.setCtx x c).before.stamp = 0 from h0), if_pos (show (s.setCtx x d).before.stamp = 0 from h0)]; rfl
  · rw [if_neg (show ¬(s.setCtx x c).before.stamp = 0 from h0), if_neg (show ¬(s.setCtx x d).before.stamp = 0 from h0)]; rfl

theorem Quiet.tokenTaken {s : State} {x : CtxNo} (h : Quiet s x) (q : QueueNo) (k : Fifo) : Quiet (s.tokenTaken x q k) x :=
  h.congr (by simp [State.tokenTaken]) (by simp [State.tokenTaken]) fun _ _ => by simp [State.tokenTaken]

/-- What an entry's pop makes of a state. -/
def takes (u : TokenUse) (x : CtxNo) (q : QueueNo) (s : State) : State :=
  match u.pop with
  | none => s
  | some k => (s.modCtx x fun c => let t := c.tok k; c.setTok k { t with f := t.f - 1, held := t.held - 1 }).tokenTaken x q k

/-- The pop of an entry that has not popped before. -/
theorem takeToken_eq {s : State} {x : CtxNo} {e : Entry} (he : e.popped = false) (hn : Quiet s x) :
    takeToken x e s = .ok () (takes (instrTokens e.instr e.queue) x e.queue s) := by
  unfold takeToken takes
  cases (instrTokens e.instr e.queue).pop with
  | none => rfl
  | some k =>
    simp only [he, Bool.false_eq_true, if_false, bind_apply, updCtx_apply, upd_apply, State.modCtx,
      lookTerms_quiet ((hn.setCtx _).tokenTaken _ _)]

/-- The checking hardware counts an instruction and reports nothing. -/
theorem proofCheck_sound {s : State} {e : Entry} (h : s.upset = none) : proofCheck s.cur e s = .ok () (counted e.instr s) := by
  unfold proofCheck counted laneChecked colChecked
  simp only [bind_apply, get_apply, h]
  cases parts64 e.instr with
  | none => rfl
  | some p =>
    obtain ⟨major, f⟩ := p
    dsimp only
    by_cases h1 : 0x08 ≤ major ∧ major ≤ 0x54 ∨ major = 0x7B ∧ f.fn4 = 0
    · rw [if_pos h1, if_pos (decide_eq_true h1)]; rfl
    · rw [if_neg h1, if_neg (fun e => h1 (of_decide_eq_true e))]
      by_cases h2 : major = 0x93 ∨ major = 0x94
      · rw [if_pos h2, if_pos (decide_eq_true h2)]; rfl
      · rw [if_neg h2, if_neg (fun e => h2 (of_decide_eq_true e))]; rfl

/-- The push of an entry that retires. -/
theorem giveToken_eq {s : State} {x : CtxNo} {e : Entry} (he : ∀ f, e.instr ≠ .cpy f) :
    giveToken x e s = .ok () (pushed e.instr e.queue x s) := by
  unfold giveToken pushed
  cases hi : e.instr
  case cpy f => exact absurd hi (he f)
  all_goals
    dsimp only
    generalize (instrTokens _ e.queue).push = w
    cases w with
    | none => rfl
    | some l => by_cases hq : e.queue = .vector <;> simp [hq, bind_apply]

theorem promised_tok_pop {u : TokenUse} {c : Ctx} {k : Fifo} (hk : u.pop = some k) (h : ∀ l, u.push = some l → k ≠ l) :
    ((promised u c).tok k).held = (c.tok k).held := by
  unfold promised
  rw [hk]
  cases hq : u.push with
  | none => simp [tok_setTok_self]
  | some l =>
    have hne := h l hq
    simp [tok_setTok_ne _ hne.symm, tok_setTok_self]

theorem tok_past (f : Op64) (v : Bool) (c : Ctx) (k : Fifo) : (past f v c).tok k = c.tok k := rfl
theorem past_setTok (f : Op64) (v : Bool) (c : Ctx) (k : Fifo) (t : Tokens) : (past f v c).setTok k t = past f v (c.setTok k t) := rfl
theorem past_queue (f : Op64) (v : Bool) (c : Ctx) : (past f v c).queue = c.queue := rfl

/-- An entry that finds every other parked, its token pushed and no hold may issue. -/
theorem ready_of {s : State} {x : CtxNo} {e : Entry} (hq : ∀ o ∈ (s.ctx x).queue, o.parked = true)
    (ht : ∀ t ∈ (s.core (coreOf x)).terms, t.2.owner = x → t.2.armed = false ∧ t.2.phase = .low)
    (hk : ∀ k, (instrTokens e.instr e.queue).pop = some k → 0 < ((s.ctx x).tok k).held) : s.ready x e = true := by
  have h1 : ((s.ctx x).queue.any (blocks e)) = false := by
    rw [List.any_eq_false]
    intro o ho
    simp [blocks, hq o ho]
  have h2 : State.heldEntry s x e = false := by
    unfold State.heldEntry
    rw [List.any_eq_false]
    intro t h
    by_cases ho : t.2.owner = x
    · simp [(ht t h ho).1]
    · simp [ho]
  have h3 : tokenReady (s.ctx x) e = true := by
    unfold tokenReady
    cases hp : (instrTokens e.instr e.queue).pop with
    | none => rfl
    | some k => simp [hk k hp]
  unfold State.ready
  simp [h1, h2, h3]

/-- An entry that retires at its issue. -/
theorem runEntry_ready {body : Body} {x : CtxNo} {e : Entry} {s s2 : State} (hx : s.cur = x) (hp : e.popped = false)
    (hu : s.upset = none) (hcpy : ∀ f, e.instr ≠ .cpy f) (hn : Quiet s x)
    (hb : body x e (counted e.instr (takes (instrTokens e.instr e.queue) x e.queue s)) = .ok () s2) :
    runEntry body x e s = .ok () (pushed e.instr e.queue x s2) := by
  subst hx
  unfold runEntry
  rw [bind_ok _ (takeToken_eq hp hn)]
  have hc : (takes (instrTokens e.instr e.queue) s.cur e.queue s).cur = s.cur := by
    unfold takes; split <;> simp [State.tokenTaken]
  have hu1 : (takes (instrTokens e.instr e.queue) s.cur e.queue s).upset = none := by
    unfold takes; split <;> simp [State.tokenTaken, hu]
  generalize takes (instrTokens e.instr e.queue) s.cur e.queue s = s1 at hb hc hu1
  rw [← hc] at hb ⊢
  rw [bind_ok _ (proofCheck_sound hu1), bind_ok _ hb]
  exact giveToken_eq hcpy

/-- What an instruction knows at its dispatch does not depend on the rest of its context. -/
theorem known_congr {s s' : State} {x : CtxNo} (h : s'.before = s.before) (hs : (s'.ctx x).start = (s.ctx x).start) (e : Entry) :
    s'.known x e = s.known x e := by
  unfold State.known State.forkClock State.base
  rw [h, hs]

/-- An instruction that makes no access of the vector queue stands before no engine operation. -/
theorem feedForks_none {e : Entry} (h : vectorAccess e.instr = none) (s : State) (x : CtxNo) : s.feedForks x e = s := by
  unfold State.feedForks
  rw [h]
/-- An access of which every other entry is older changes none of them. -/
theorem feedForks_older {s : State} {x : CtxNo} {e : Entry} (h : ∀ y ∈ (s.ctx x).queue, y.seq ≤ e.seq) : s.feedForks x e = s := by
  unfold State.feedForks
  split
  · rw [if_pos (.inr (List.any_eq_false.mpr fun y hy => by simp [Nat.not_lt.mpr (h y hy)]))]
  · rfl

/-- An instruction of a queue that nothing keeps from issuing: it comes to what its body makes of the context after the dispatch
and the pop, and then it pushes. `z` and `c1` are what the front end keeps of it. -/
theorem dispatch_ready {q : QueueNo} {i : Instr} {f : Op64} {v : Bool} {check : CtxNo → Ctx → M Unit}
    {keeps : CtxNo → State → State} {body : Body} {s z s2 : State} {c1 : Ctx}
    (hr : Ready s i q) (hcpy : ∀ f, i ≠ .cpy f) (hc : check s.cur (here s) s = .ok () s)
    (hk : ∀ s' F, (s' = s ∨ ∃ c, s' = s.setCtx s.cur c) → s'.ctx s.cur = promised (instrTokens i q) (here s) →
      (keeps s.cur s').modCtx s.cur F = z.setCtx s.cur (F (promised (instrTokens i q) c1)))
    (hq : c1.queue = (here s).queue) (ht : c1.tokens = (here s).tokens)
    (hz : z.upset = s.upset) (hzq : Quiet z s.cur) (hzc : z.cur = s.cur)
    (hf : (pushed i q s.cur s2).feedForks s.cur (entryOf i q f v s) = pushed i q s.cur s2)
    (hb : body s.cur (entryOf i q f v s)
      (counted i (tookToken i q (z.setCtx s.cur (past f v (tokensOwed (instrTokens i q) c1))))) = .ok () s2) :
    dispatch q i f v check keeps body s = .next (pushed i q s.cur s2) := by
  obtain ⟨s', h1, h2, h3⟩ := tokenDispatch_ready hr
  have hpre : (do check s.cur (here s); waitTop s.cur i; tokenDispatch s.cur (here s) (instrTokens i q); queuePlace s.cur q : M Unit) s = .ok () s' := by
    rw [bind_ok _ hc, bind_ok _ (waitTop_ready i fun e he => (hr.idle e he).1), bind_ok _ h1]
    apply queuePlace_ready
    rcases h2 with h2 | ⟨c, h2⟩
    · rw [h2]; exact hr.room
    · rw [h2, ctx_setCtx] at h3
      rw [h2, shareFull_setCtx s s.cur q (by rw [h3, promised_fields])]
      exact hr.room
  have htok : ∀ k, c1.tok k = (here s).tok k := fun k => by unfold Ctx.tok; rw [ht]
  have hF := hk s' (fun c => { c with
      pc := c.after (opBytes f), seq := c.seq + 1, vstart := if v = true ∧ c.level = .u then 0 else c.vstart }) h2 h3
  have hpast : z.setCtx s.cur (past f v (promised (instrTokens i q) c1)) = (keeps s.cur s').modCtx s.cur fun c => { c with
      pc := c.after (opBytes f), seq := c.seq + 1, vstart := if v = true ∧ c.level = .u then 0 else c.vstart } := hF.symm
  have hent : entryOf i q f v s = s'.known s.cur ((here s).entry q i f (if v then (here s).startAt else 0)) := by
    refine (known_congr ?_ ?_ _).symm
    · rcases h2 with h2 | ⟨c, h2⟩ <;> rw [h2] <;> rfl
    · rw [h3, promised_fields]; rfl
  have hei : (entryOf i q f v s).instr = i ∧ (entryOf i q f v s).queue = q ∧ (entryOf i q f v s).popped = false := by
    unfold entryOf State.known; split <;> exact ⟨rfl, rfl, rfl⟩
  refine dispatch_issue hpre hent hpast ?_ ?_
  · apply ready_of
    · rw [ctx_setCtx, past_queue, promised_fields]
      dsimp only
      rw [hq]
      exact fun o ho => (hr.idle o ho).1
    · exact hzq.free
    · intro k hp
      rw [hei.1, hei.2.1] at hp
      rw [ctx_setCtx, tok_past, promised_tok_pop hp fun l hl => instrTokens_ne hp hl, htok]
      exact (hr.pop k hp).1
  · rw [← hf]
    apply issueEntry_ok
    have hrun := runEntry_ready (body := body) (x := s.cur) (e := entryOf i q f v s)
      (s := z.setCtx s.cur (past f v (promised (instrTokens i q) c1))) (s2 := s2) (by simp [hzc]) hei.2.2
      (by simp [hz, hr.sound, State.setCtx]) (by rw [hei.1]; exact hcpy) (hzq.setCtx _) ?_
    · rw [hrun, hei.1, hei.2.1]
    have hpop : takes (instrTokens i q) s.cur q (z.setCtx s.cur (past f v (promised (instrTokens i q) c1))) =
        tookToken i q (z.setCtx s.cur (past f v (tokensOwed (instrTokens i q) c1))) := by
      rw [← promised_owed (instrTokens i q) c1 fun k l h h' => instrTokens_ne h h']
      unfold takes tookToken
      cases (instrTokens i q).pop with
      | none => rfl
      | some k =>
        simp only [State.modCtx, ctx_setCtx, setCtx_setCtx, past_setTok, tok_past, setCtx_cur, hzc]
    rw [hei.1, hei.2.1, hpop]
    exact hb

theorem counted_setCtx (i : Instr) (s : State) (c : Ctx) :
    counted i (s.setCtx s.cur c) = (counted i s).setCtx s.cur c := by
  unfold counted
  split
  · rfl
  · split <;> rfl
theorem counted_cur (i : Instr) (s : State) : (counted i s).cur = s.cur := by
  unfold counted
  split
  · rfl
  · split <;> rfl

theorem counted_quiet {i : Instr} {s : State} {x : CtxNo} (h : Quiet s x) : Quiet (counted i s) x := by
  refine h.congr ?_ ?_ ?_ <;> unfold counted
  · split
    · by_cases hx : coreOf s.cur = coreOf x
      · rw [hx]; simp [State.modCore, State.core]
      · simp [State.modCore, State.core, Tab.look_put_ne _ _ hx]
    · split
      · by_cases hx : coreOf s.cur = coreOf x
        · rw [hx]; simp [State.modCore, State.core]
        · simp [State.modCore, State.core, Tab.look_put_ne _ _ hx]
      · rfl
  · split
    · by_cases hx : coreOf s.cur = coreOf x
      · rw [hx]; simp [State.modCore, State.core]
      · simp [State.modCore, State.core, Tab.look_put_ne _ _ hx]
    · split
      · by_cases hx : coreOf s.cur = coreOf x
        · rw [hx]; simp [State.modCore, State.core]
        · simp [State.modCore, State.core, Tab.look_put_ne _ _ hx]
      · rfl
  · intro y _
    split
    · rfl
    · split <;> rfl

theorem tookToken_setCtx (i : Instr) (q : QueueNo) (s : State) (c d : Ctx) (h : d.start = c.start) :
    (tookToken i q (s.setCtx s.cur c)).setCtx s.cur d = tookToken i q (s.setCtx s.cur d) := by
  unfold tookToken
  split
  · simp
  · rename_i k _
    show ((s.setCtx s.cur c).tokenTaken s.cur q k).setCtx s.cur d = (s.setCtx s.cur d).tokenTaken s.cur q k
    rw [tokenTaken_setCtx s s.cur q k c d h, tokenTaken_setCtx s s.cur q k d d rfl]
    simp [State.setCtx, Tab.put_put]
theorem tookToken_cur (i : Instr) (q : QueueNo) (s : State) : (tookToken i q s).cur = s.cur := by
  unfold tookToken; split <;> simp [State.tokenTaken]

/-- The state in which an instruction issues, with another context in its place. -/
theorem issued_setCtx (i : Instr) (q : QueueNo) (s : State) (c d : Ctx) (h : d.start = c.start) :
    counted i (tookToken i q (s.setCtx s.cur d)) = (counted i (tookToken i q (s.setCtx s.cur c))).setCtx s.cur d := by
  have ht : (tookToken i q (s.setCtx s.cur c)).cur = s.cur := by rw [tookToken_cur]; rfl
  rw [← tookToken_setCtx i q s c d h]
  generalize tookToken i q (s.setCtx s.cur c) = t at ht
  rw [← ht, counted_setCtx]

/-- The entry of an instruction at dispatch, but for what it knows. -/
theorem entryOf_eq (i : Instr) (q : QueueNo) (f : Op64) (v : Bool) (s : State) :
    ∃ hb past, entryOf i q f v s = { (here s).entry q i f (if v then startOf (here s) else 0) with hb := hb, past := past } := by
  unfold entryOf State.known
  split
  · exact ⟨_, _, rfl⟩
  · exact ⟨_, _, rfl⟩

/-- The same for an instruction of which the front end keeps nothing else, which makes no access of the vector queue, and whose body
changes its context alone. -/
theorem runDef_leaves {i : Instr} {f : Op64} {d : QueueDef} {s : State} {c2 : Ctx}
    (hr : Ready s i d.queue) (hcpy : ∀ f, i ≠ .cpy f) (hv : vectorAccess i = none)
    (hc : d.check s.cur (here s) s = .ok () s) (hk : d.keeps = fun _ s => s)
    (hb : d.body s.cur (entryOf i d.queue f d.usesVstart s)
      (counted i (tookToken i d.queue (s.setCtx s.cur (retired d.queue i f d.usesVstart (here s))))) =
      .ok () (counted i (tookToken i d.queue (s.setCtx s.cur c2)))) :
    runDef i f d s = .next (pushed i d.queue s.cur (counted i (tookToken i d.queue (s.setCtx s.cur c2)))) := by
  have he : (entryOf i d.queue f d.usesVstart s).instr = i := by unfold entryOf State.known; split <;> rfl
  exact dispatch_ready (v := d.usesVstart) (keeps := d.keeps) (z := s) (c1 := here s) hr hcpy hc
    (by
      intro s' F h1 h2
      rw [hk]
      dsimp only
      unfold State.modCtx
      rw [h2]
      rcases h1 with h1 | ⟨c, h1⟩
      · rw [h1]
      · rw [h1, setCtx_setCtx]) rfl rfl rfl hr.quiet_ rfl (feedForks_none (by rw [he]; exact hv) _ _) hb

end Sys2Proof.Claims
end

