-- ==== Sys2Proof/Laws/Rows.lean ====
section
/-! SUPPORT. Fields of bit vectors and the elements of vector rows: what one reads after another is written. -/

namespace Sys2Proof.Machine

open Sys2Proof.Claims

/-! ## Fields -/

theorem getLsbD_ones {n w pos k : Nat} :
    ((BitVec.ofNat n (2 ^ w - 1) <<< pos).getLsbD k) = (decide (k < n) && decide (pos ≤ k) && decide (k < pos + w)) := by
  rw [BitVec.getLsbD_shiftLeft, BitVec.getLsbD_ofNat, Nat.testBit_two_pow_sub_one]
  by_cases h1 : k < n <;> by_cases h2 : pos ≤ k <;> by_cases h3 : k < pos + w <;>
    simp [h1, h2, h3, Nat.not_lt.mpr, Nat.not_le.mp] <;> omega

theorem getLsbD_val {n w pos k v : Nat} :
    ((BitVec.ofNat n (v % 2 ^ w) <<< pos).getLsbD k) =
      (decide (k < n) && decide (pos ≤ k) && decide (k < pos + w) && v.testBit (k - pos)) := by
  rw [BitVec.getLsbD_shiftLeft, BitVec.getLsbD_ofNat, Nat.testBit_mod_two_pow]
  by_cases h1 : k < n <;> by_cases h2 : pos ≤ k <;> by_cases h3 : k < pos + w <;>
    simp [h1, h2, h3, Nat.not_lt.mpr]
  · rw [decide_eq_true (by omega), decide_eq_true (by omega)]; simp
  · intro _ h; omega

/-- The bits of a number below a width decide its remainder. -/
theorem testBit_field {n : Nat} (x : BitVec n) (w pos j : Nat) :
    ((x >>> pos).toNat % 2 ^ w).testBit j = (decide (j < w) && x.getLsbD (pos + j)) := by
  rw [Nat.testBit_mod_two_pow, ← BitVec.getLsbD, BitVec.getLsbD_ushiftRight]

/-! ## Elements of a row (R72) -/

theorem Row.bad_eq (w : Row) (ew c : Nat) : w.bad ew c = (marks w ew c != 0) := rfl

theorem Row.put_bits (w : Row) (ew c v k : Nat) : (w.put ew c v).bits.getLsbD k =
    if k < 8192 ∧ c * ew ≤ k ∧ k < c * ew + ew then v.testBit (k - c * ew) else w.bits.getLsbD k := by
  unfold Row.put
  simp only [BitVec.getLsbD_or, BitVec.getLsbD_and, BitVec.getLsbD_not, getLsbD_ones, getLsbD_val]
  by_cases h1 : k < 8192 <;> by_cases h2 : c * ew ≤ k <;> by_cases h3 : k < c * ew + ew <;> simp [h1, h2, h3]
  all_goals first | rfl | exact BitVec.getLsbD_of_ge _ _ (by omega)

theorem Row.put_pois (w : Row) (ew c v k : Nat) : (w.put ew c v).pois.getLsbD k =
    (w.pois.getLsbD k && !(decide (c * ew / 4 ≤ k) && decide (k < c * ew / 4 + ew / 4))) := by
  unfold Row.put
  simp only [BitVec.getLsbD_and, BitVec.getLsbD_not, getLsbD_ones]
  by_cases h1 : k < 2048
  · simp [h1]
  · simp [h1, BitVec.getLsbD_of_ge _ _ (by omega : 2048 ≤ k)]

theorem Row.spoil_bits (w : Row) (ew c k : Nat) : (w.spoil ew c).bits.getLsbD k = (w.put ew c 0).bits.getLsbD k := rfl

theorem Row.spoil_pois (w : Row) (ew c k : Nat) : (w.spoil ew c).pois.getLsbD k =
    (w.pois.getLsbD k || (decide (k < 2048) && decide (c * ew / 4 ≤ k) && decide (k < c * ew / 4 + ew / 4))) := by
  unfold Row.spoil
  simp only [BitVec.getLsbD_or, Row.put_pois, getLsbD_ones]
  have h0 : w.pois.getLsbD k = true → k < 2048 := fun h => by
    by_cases h1 : k < 2048
    · exact h1
    · rw [BitVec.getLsbD_of_ge _ _ (by omega)] at h; cases h
  cases hw : w.pois.getLsbD k <;> by_cases h1 : k < 2048 <;> by_cases h2 : c * ew / 4 ≤ k <;> by_cases h3 : k < c * ew / 4 + ew / 4 <;>
    simp [h1, h2, h3] <;> exact absurd (h0 hw) h1

/-- Elements of one width do not share bits. -/
theorem apart {ew c k j : Nat} (h : c ≠ k) (hj : j < ew) : ¬ (c * ew ≤ k * ew + j ∧ k * ew + j < c * ew + ew) := by
  rintro ⟨h1, h2⟩
  rcases Nat.lt_or_gt_of_ne h with h3 | h3
  · have : (c + 1) * ew ≤ k * ew := Nat.mul_le_mul_right ew h3
    rw [Nat.add_mul] at this
    omega
  · have : (k + 1) * ew ≤ c * ew := Nat.mul_le_mul_right ew h3
    rw [Nat.add_mul] at this
    omega

/-- A column that a row of elements of a width has. -/
theorem fits {ew c j : Nat} (h : c < 8192 / ew) (hj : j < ew) : c * ew + j < 8192 := by
  have h1 : (c + 1) * ew ≤ 8192 / ew * ew := Nat.mul_le_mul_right ew h
  have h2 := Nat.div_mul_le_self 8192 ew
  rw [Nat.add_mul] at h1
  omega

theorem Row.elem_put_self {w : Row} {ew c v : Nat} (h : c < 8192 / ew) : (w.put ew c v).elem ew c = v % 2 ^ ew := by
  apply Nat.eq_of_testBit_eq
  intro j
  unfold Row.elem
  rw [testBit_field, Row.put_bits, Nat.testBit_mod_two_pow]
  by_cases hj : j < ew
  · have := fits h hj
    simp [hj, this]
  · simp [hj]

theorem Row.elem_put_ne {w : Row} {ew c k v : Nat} (h : c ≠ k) : (w.put ew c v).elem ew k = w.elem ew k := by
  apply Nat.eq_of_testBit_eq
  intro j
  unfold Row.elem
  rw [testBit_field, testBit_field, Row.put_bits]
  by_cases hj : j < ew
  · rw [if_neg fun e => apart h hj e.2]
  · simp [hj]

theorem pos4 {ew c : Nat} (h : 4 ∣ ew) : c * ew / 4 = c * (ew / 4) := by
  obtain ⟨k, rfl⟩ := h
  rw [Nat.mul_div_cancel_left _ (by omega), Nat.mul_left_comm, Nat.mul_div_cancel_left _ (by omega)]

theorem Row.marks_put_self {w : Row} {ew c v : Nat} : marks (w.put ew c v) ew c = 0 := by
  apply Nat.eq_of_testBit_eq
  intro j
  unfold marks
  rw [testBit_field, Row.put_pois]
  by_cases hj : j < ew / 4
  · simp [hj]
  · simp [hj]

theorem Row.marks_put_ne {w : Row} {ew c k v : Nat} (h4 : 4 ∣ ew) (h : c ≠ k) : marks (w.put ew c v) ew k = marks w ew k := by
  apply Nat.eq_of_testBit_eq
  intro j
  unfold marks
  rw [testBit_field, testBit_field, Row.put_pois, pos4 h4, pos4 h4]
  by_cases hj : j < ew / 4
  · have := apart h hj
    simp [hj]
    omega
  · simp [hj]

theorem Row.elem_spoil_self {w : Row} {ew c : Nat} (h : c < 8192 / ew) : (w.spoil ew c).elem ew c = 0 := by
  have : (w.spoil ew c).elem ew c = (w.put ew c 0).elem ew c := rfl
  rw [this, Row.elem_put_self h, Nat.zero_mod]
theorem Row.elem_spoil_ne {w : Row} {ew c k : Nat} (h : c ≠ k) : (w.spoil ew c).elem ew k = w.elem ew k := by
  have : (w.spoil ew c).elem ew k = (w.put ew c 0).elem ew k := rfl
  rw [this, Row.elem_put_ne h]

theorem fits4 {ew c j : Nat} (h4 : 4 ∣ ew) (h : c < 8192 / ew) (hj : j < ew / 4) : c * (ew / 4) + j < 2048 := by
  obtain ⟨k, rfl⟩ := h4
  rw [Nat.mul_div_cancel_left _ (by omega)] at hj ⊢
  have := fits (j := 4 * j) h (by omega)
  rw [Nat.mul_left_comm] at this
  omega

theorem Row.marks_spoil_self {w : Row} {ew c : Nat} (h4 : 4 ∣ ew) (h : c < 8192 / ew) :
    marks (w.spoil ew c) ew c = 2 ^ (ew / 4) - 1 := by
  apply Nat.eq_of_testBit_eq
  intro j
  unfold marks
  rw [testBit_field, Row.spoil_pois, Nat.testBit_two_pow_sub_one, pos4 h4]
  by_cases hj : j < ew / 4
  · have := fits4 h4 h hj
    simp [hj, this]
  · simp [hj]

theorem Row.marks_spoil_ne {w : Row} {ew c k : Nat} (h4 : 4 ∣ ew) (h : c ≠ k) : marks (w.spoil ew c) ew k = marks w ew k := by
  apply Nat.eq_of_testBit_eq
  intro j
  unfold marks
  rw [testBit_field, testBit_field, Row.spoil_pois, pos4 h4, pos4 h4]
  by_cases hj : j < ew / 4
  · have := apart h hj
    simp [hj]
    intro _ h1 h2
    exact absurd ⟨h1, h2⟩ this
  · simp [hj]

end Sys2Proof.Machine
end

