-- ==== Sys2Proof/Laws/Lanes.lean ====
section
/-! SUPPORT. The element-wise loop: what it leaves. -/

namespace Sys2Proof.Claims

open Sys2Proof.Machine

/-! ## One element -/

theorem row_setRow_self (c : Ctx) (r : Nat) (w : Row) : (c.setRow r w).row r = w := by simp [Ctx.row, Ctx.setRow]
theorem row_setRow_ne (c : Ctx) {r k : Nat} (w : Row) (h : r ≠ k) : (c.setRow r w).row k = c.row k := by
  simp [Ctx.row, Ctx.setRow, Tab.look_put_ne _ _ h]

theorem cell_putElem_self (c : Ctx) {row ew k v : Nat} (hk : k < 8192 / ew) :
    cell (c.putElem row ew k v) ew row k = (v % 2 ^ ew, 0) := by
  unfold cell Ctx.putElem
  rw [row_setRow_self, Row.elem_put_self hk, Row.marks_put_self]
theorem cell_putElem_ne (c : Ctx) {row ew k v row' k' : Nat} (h4 : 4 ∣ ew) (h : (row, k) ≠ (row', k')) :
    cell (c.putElem row ew k v) ew row' k' = cell c ew row' k' := by
  unfold cell Ctx.putElem
  by_cases hr : row = row'
  · subst hr
    have hk : k ≠ k' := fun e => h (by rw [e])
    rw [row_setRow_self, Row.elem_put_ne hk, Row.marks_put_ne h4 hk]
  · rw [row_setRow_ne _ _ hr]
theorem cell_markPoison_self (c : Ctx) {row ew k : Nat} (h4 : 4 ∣ ew) (hk : k < 8192 / ew) :
    cell (c.markPoison row ew k) ew row k = (0, 2 ^ (ew / 4) - 1) := by
  have : (c.markPoison row ew k).row row = (c.row row).spoil ew k := row_setRow_self c row _
  unfold cell
  rw [this, Row.elem_spoil_self hk, Row.marks_spoil_self h4 hk]
theorem cell_markPoison_ne (c : Ctx) {row ew k row' k' : Nat} (h4 : 4 ∣ ew) (h : (row, k) ≠ (row', k')) :
    cell (c.markPoison row ew k) ew row' k' = cell c ew row' k' := by
  unfold cell
  by_cases hr : row = row'
  · subst hr
    have hk : k ≠ k' := fun e => h (by rw [e])
    have : (c.markPoison row ew k).row row = (c.row row).spoil ew k := row_setRow_self c row _
    rw [this, Row.elem_spoil_ne hk, Row.marks_spoil_ne h4 hk]
  · have : (c.markPoison row ew k).row row' = c.row row' := row_setRow_ne c _ hr
    rw [this]

/-- What the loop makes of the context at one element. -/
def laneStep (ew vl : Nat) (mask : BitVec 2048) (pol : Bool) (dst : Nat → Nat → Nat × Nat) (res : Nat → Nat → Res) (c : Ctx) (i : Nat) :
    Ctx :=
  let d := dst (i / vl) (i % vl)
  if mask.getLsbD (i % vl) then
    match res (i / vl) (i % vl) with
    | .keep => c
    | .poison => c.markPoison d.1 ew d.2
    | .val b fl => { c.putElem d.1 ew d.2 b with vcsr := c.vcsr.raise fl }
  else if pol then c.putElem d.1 ew d.2 0
  else c

theorem RowsOnly.refl (c : Ctx) : RowsOnly c c := rfl
theorem RowsOnly.trans {a b c : Ctx} (h : RowsOnly a b) (h' : RowsOnly b c) : RowsOnly a c := by
  unfold RowsOnly at *
  rw [h']
  rw [h]
theorem laneStep_rowsOnly (ew vl : Nat) (mask : BitVec 2048) (pol : Bool) (dst : Nat → Nat → Nat × Nat) (res : Nat → Nat → Res)
    (c : Ctx) (i : Nat) : RowsOnly c (laneStep ew vl mask pol dst res c i) := by
  unfold laneStep
  dsimp only
  split
  · split <;> rfl
  · split <;> rfl

section
variable {ew vl : Nat} {mask : BitVec 2048} {pol : Bool} {dst : Nat → Nat → Nat × Nat} {res : Nat → Nat → Res}

theorem laneStep_self (h4 : 4 ∣ ew) (c : Ctx) (i : Nat) (hk : (dst (i / vl) (i % vl)).2 < 8192 / ew) :
    cell (laneStep ew vl mask pol dst res c i) ew (dst (i / vl) (i % vl)).1 (dst (i / vl) (i % vl)).2 =
      (if mask.getLsbD (i % vl) then
        Res.cell ew (cell c ew (dst (i / vl) (i % vl)).1 (dst (i / vl) (i % vl)).2) (res (i / vl) (i % vl))
       else if pol then (0, 0) else cell c ew (dst (i / vl) (i % vl)).1 (dst (i / vl) (i % vl)).2) := by
  unfold laneStep
  dsimp only
  split
  · split
    · rename_i hr; rw [hr]; rfl
    · rename_i hr; rw [hr]; exact cell_markPoison_self c h4 hk
    · rename_i hr; rw [hr]; exact cell_putElem_self c hk
  · split
    · rw [cell_putElem_self c hk]; simp
    · rfl

theorem laneStep_ne (h4 : 4 ∣ ew) (c : Ctx) (i row k : Nat) (h : dst (i / vl) (i % vl) ≠ (row, k)) :
    cell (laneStep ew vl mask pol dst res c i) ew row k = cell c ew row k := by
  unfold laneStep
  dsimp only
  split
  · split
    · rfl
    · exact cell_markPoison_ne c h4 h
    · exact cell_putElem_ne c h4 h
  · split
    · exact cell_putElem_ne c h4 h
    · rfl

theorem laneStep_row (c : Ctx) (i row : Nat) (h : (dst (i / vl) (i % vl)).1 ≠ row) :
    (laneStep ew vl mask pol dst res c i).row row = c.row row := by
  unfold laneStep
  dsimp only
  split
  · split
    · rfl
    · exact row_setRow_ne c _ h
    · exact row_setRow_ne c _ h
  · split
    · exact row_setRow_ne c _ h
    · rfl

theorem laneStep_flags (c : Ctx) (i n : Nat) (hn : n < 9) : (laneStep ew vl mask pol dst res c i).vcsr.flags.getLsbD n = true ↔
    c.vcsr.flags.getLsbD n = true ∨ mask.getLsbD (i % vl) = true ∧ (Res.flags (res (i / vl) (i % vl))).testBit n = true := by
  unfold laneStep
  dsimp only
  by_cases hm : mask.getLsbD (i % vl) = true
  · rw [if_pos hm]
    cases res (i / vl) (i % vl) with
    | keep => simp [Res.flags]
    | poison => simp [Res.flags, Ctx.markPoison, Ctx.setRow]
    | val b fl => rw [show (Vcsr.raise c.vcsr fl).flags = c.vcsr.flags ||| BitVec.ofNat 9 fl from rfl, BitVec.getLsbD_or,
        BitVec.getLsbD_ofNat, decide_eq_true hn]; simp [Res.flags, hm]
  · rw [if_neg hm]
    split
    · simp [hm, Ctx.putElem, Ctx.setRow]
    · simp [hm]

theorem bit_one {n k j : Nat} (hj : j < n) : ((1#n) <<< k).getLsbD j = decide (k = j) := by
  rw [BitVec.getLsbD_shiftLeft, BitVec.getLsbD_one]
  by_cases h1 : j < k <;> by_cases h2 : k = j <;> simp [h1, h2, hj] <;> omega

theorem laneStep_pm (c : Ctx) (i k : Nat) (hk : k < 2048) : (laneStep ew vl mask pol dst res c i).pm.getLsbD k = true ↔
    c.pm.getLsbD k = true ∨ mask.getLsbD (i % vl) = true ∧ res (i / vl) (i % vl) = .poison ∧ (dst (i / vl) (i % vl)).2 = k := by
  unfold laneStep
  dsimp only
  by_cases hm : mask.getLsbD (i % vl) = true
  · rw [if_pos hm]
    cases res (i / vl) (i % vl) with
    | keep => simp
    | poison => simp [Ctx.markPoison, Ctx.setRow, hm, bit_one hk]
    | val b fl => simp [Ctx.putElem, Ctx.setRow]
  · rw [if_neg hm]
    split
    · simp [hm, Ctx.putElem, Ctx.setRow]
    · simp [hm]

theorem laneStep_prows (c : Ctx) (i k : Nat) (hk : k < 64) : (laneStep ew vl mask pol dst res c i).prows.getLsbD k = true ↔
    c.prows.getLsbD k = true ∨ mask.getLsbD (i % vl) = true ∧ res (i / vl) (i % vl) = .poison ∧ (dst (i / vl) (i % vl)).1 / 4 = k := by
  unfold laneStep
  dsimp only
  by_cases hm : mask.getLsbD (i % vl) = true
  · rw [if_pos hm]
    cases res (i / vl) (i % vl) with
    | keep => simp
    | poison => simp [Ctx.markPoison, Ctx.setRow, hm, bit_one hk]
    | val b fl => simp [Ctx.putElem, Ctx.setRow]
  · rw [if_neg hm]
    split
    · simp [hm, Ctx.putElem, Ctx.setRow]
    · simp [hm]

/-! ## A list of elements -/

theorem fold_rowsOnly (L : List Nat) : ∀ c : Ctx, RowsOnly c (L.foldl (laneStep ew vl mask pol dst res) c) := by
  induction L with
  | nil => intro c; rfl
  | cons i L ih => intro c; exact (laneStep_rowsOnly ew vl mask pol dst res c i).trans (ih _)

theorem fold_ne (h4 : 4 ∣ ew) (row k : Nat) (L : List Nat) : ∀ c : Ctx, (∀ i ∈ L, dst (i / vl) (i % vl) ≠ (row, k)) →
    cell (L.foldl (laneStep ew vl mask pol dst res) c) ew row k = cell c ew row k := by
  induction L with
  | nil => intro c _; rfl
  | cons i L ih =>
    intro c h
    rw [List.foldl_cons, ih _ fun j hj => h j (by simp [hj]), laneStep_ne h4 c i row k (h i (by simp))]

theorem fold_row (row : Nat) (L : List Nat) : ∀ c : Ctx, (∀ i ∈ L, (dst (i / vl) (i % vl)).1 ≠ row) →
    (L.foldl (laneStep ew vl mask pol dst res) c).row row = c.row row := by
  induction L with
  | nil => intro c _; rfl
  | cons i L ih =>
    intro c h
    rw [List.foldl_cons, ih _ fun j hj => h j (by simp [hj]), laneStep_row c i row (h i (by simp))]

theorem fold_self (h4 : 4 ∣ ew) (L : List Nat) : ∀ c : Ctx, L.Pairwise (fun i j => dst (i / vl) (i % vl) ≠ dst (j / vl) (j % vl)) →
    ∀ i ∈ L, (dst (i / vl) (i % vl)).2 < 8192 / ew →
    cell (L.foldl (laneStep ew vl mask pol dst res) c) ew (dst (i / vl) (i % vl)).1 (dst (i / vl) (i % vl)).2 =
      (if mask.getLsbD (i % vl) then
        Res.cell ew (cell c ew (dst (i / vl) (i % vl)).1 (dst (i / vl) (i % vl)).2) (res (i / vl) (i % vl))
       else if pol then (0, 0) else cell c ew (dst (i / vl) (i % vl)).1 (dst (i / vl) (i % vl)).2) := by
  induction L with
  | nil => intro c _ i hi; cases hi
  | cons j L ih =>
    intro c hp i hi hk
    rw [List.pairwise_cons] at hp
    rw [List.foldl_cons]
    rcases List.mem_cons.mp hi with rfl | hi
    · rw [fold_ne h4 _ _ L _ fun j hj e => hp.1 j hj e.symm, laneStep_self h4 c i hk]
    · rw [ih _ hp.2 i hi hk, laneStep_ne h4 c j _ _ (hp.1 i hi)]

theorem fold_flags (n : Nat) (hn : n < 9) (L : List Nat) : ∀ c : Ctx,
    (L.foldl (laneStep ew vl mask pol dst res) c).vcsr.flags.getLsbD n = true ↔ c.vcsr.flags.getLsbD n = true ∨
      ∃ i ∈ L, mask.getLsbD (i % vl) = true ∧ (Res.flags (res (i / vl) (i % vl))).testBit n = true := by
  induction L with
  | nil => intro c; simp
  | cons i L ih => intro c; rw [List.foldl_cons, ih, laneStep_flags c i n hn]; simp [or_assoc]
theorem fold_pm (k : Nat) (hk : k < 2048) (L : List Nat) : ∀ c : Ctx,
    (L.foldl (laneStep ew vl mask pol dst res) c).pm.getLsbD k = true ↔ c.pm.getLsbD k = true ∨
      ∃ i ∈ L, mask.getLsbD (i % vl) = true ∧ res (i / vl) (i % vl) = .poison ∧ (dst (i / vl) (i % vl)).2 = k := by
  induction L with
  | nil => intro c; simp
  | cons i L ih => intro c; rw [List.foldl_cons, ih, laneStep_pm c i k hk]; simp [or_assoc]
theorem fold_prows (k : Nat) (hk : k < 64) (L : List Nat) : ∀ c : Ctx,
    (L.foldl (laneStep ew vl mask pol dst res) c).prows.getLsbD k = true ↔ c.prows.getLsbD k = true ∨
      ∃ i ∈ L, mask.getLsbD (i % vl) = true ∧ res (i / vl) (i % vl) = .poison ∧ (dst (i / vl) (i % vl)).1 / 4 = k := by
  induction L with
  | nil => intro c; simp
  | cons i L ih => intro c; rw [List.foldl_cons, ih, laneStep_prows c i k hk]; simp [or_assoc]

/-! ## The elements of an entry -/

theorem mem_elems {e : Entry} {g i : Nat} : i ∈ e.elems g ↔ e.vstart ≤ i ∧ i < g * e.vl := by
  unfold Entry.elems
  rw [List.mem_drop_iff_getElem]
  constructor
  · rintro ⟨j, hj, rfl⟩
    simp at hj ⊢
    omega
  · rintro ⟨h1, h2⟩
    exact ⟨i - e.vstart, by simp; omega, by simp; omega⟩

theorem elems_pairwise (e : Entry) (g : Nat) (p : Nat → Nat → Prop) (h : ∀ i < g * e.vl, ∀ j < g * e.vl, i < j → p i j) :
    (e.elems g).Pairwise p := by
  unfold Entry.elems
  apply List.Pairwise.drop
  refine List.Pairwise.imp_of_mem ?_ (List.pairwise_lt_range (n := g * e.vl))
  intro a b ha hb hab
  exact h a (List.mem_range.mp ha) b (List.mem_range.mp hb) hab

/-- Element numbers are rows and columns. -/
theorem elem_iff {g vl start : Nat} {P : Nat → Nat → Prop} :
    (∃ i, (start ≤ i ∧ i < g * vl) ∧ P (i / vl) (i % vl)) ↔ ∃ r < g, ∃ col < vl, start ≤ r * vl + col ∧ P r col := by
  constructor
  · rintro ⟨i, ⟨h1, h2⟩, h3⟩
    have hv : 0 < vl := by
      rcases Nat.eq_zero_or_pos vl with h | h
      · subst h; omega
      · exact h
    refine ⟨i / vl, Nat.div_lt_of_lt_mul (by rwa [Nat.mul_comm]), i % vl, Nat.mod_lt _ hv, ?_, h3⟩
    rw [Nat.mul_comm, Nat.div_add_mod]; exact h1
  · rintro ⟨r, hr, col, hc, h1, h3⟩
    have hv : 0 < vl := by omega
    have hd : (r * vl + col) / vl = r := by rw [Nat.mul_comm, Nat.mul_add_div hv, Nat.div_eq_of_lt hc, Nat.add_zero]
    have hm : (r * vl + col) % vl = col := by rw [Nat.mul_comm, Nat.mul_add_mod, Nat.mod_eq_of_lt hc]
    refine ⟨r * vl + col, ⟨h1, ?_⟩, by rw [hd, hm]; exact h3⟩
    calc r * vl + col < r * vl + vl := by omega
      _ = (r + 1) * vl := by rw [Nat.add_mul, Nat.one_mul]
      _ ≤ g * vl := Nat.mul_le_mul_right vl hr

/-- What the fold over the elements leaves. -/
theorem fold_lanes (h4 : 4 ∣ ew) (e : Entry) (g : Nat) (c : Ctx)
    (hinj : ∀ r < g, ∀ col < e.vl, ∀ r' < g, ∀ col' < e.vl, dst r col = dst r' col' → r = r' ∧ col = col')
    (hfit : ∀ r < g, ∀ col < e.vl, (dst r col).2 < 8192 / ew) :
    Lanes c ((e.elems g).foldl (laneStep ew e.vl mask pol dst res) c) g e.vl e.vstart ew mask pol dst res
      (fun r col => Res.flags (res r col)) := by
  have hdm : ∀ i < g * e.vl, i / e.vl < g ∧ i % e.vl < e.vl := by
    intro i hi
    have hv : 0 < e.vl := by
      rcases Nat.eq_zero_or_pos e.vl with h | h
      · rw [h] at hi; omega
      · exact h
    exact ⟨Nat.div_lt_of_lt_mul (by rwa [Nat.mul_comm]), Nat.mod_lt _ hv⟩
  have hpw : (e.elems g).Pairwise fun i j => dst (i / e.vl) (i % e.vl) ≠ dst (j / e.vl) (j % e.vl) := by
    apply elems_pairwise
    intro i hi j hj hij h
    have hi' := hdm i hi
    have hj' := hdm j hj
    have := hinj _ hi'.1 _ hi'.2 _ hj'.1 _ hj'.2 h
    have h1 := Nat.div_add_mod i e.vl
    have h2 := Nat.div_add_mod j e.vl
    rw [this.1, this.2] at h1
    omega
  constructor
  · intro r hr col hc hs
    obtain ⟨i, ⟨h1, h2⟩, h3, h5⟩ := (elem_iff (g := g) (vl := e.vl) (start := e.vstart) (P := fun a b => a = r ∧ b = col)).mpr
      ⟨r, hr, col, hc, hs, rfl, rfl⟩
    have := fold_self (mask := mask) (pol := pol) (res := res) h4 (e.elems g) c hpw i (mem_elems.mpr ⟨h1, h2⟩)
      (by rw [h3, h5]; exact hfit r hr col hc)
    rw [h3, h5] at this
    exact this
  · intro row k h
    apply fold_ne h4
    intro i hi hd
    rw [mem_elems] at hi
    have := hdm i hi.2
    apply h _ this.1 _ this.2 _ hd
    rw [Nat.mul_comm, Nat.div_add_mod]
    exact hi.1
  · intro n hn
    rw [fold_flags n hn]
    simp only [mem_elems]
    rw [elem_iff (P := fun r col => mask.getLsbD col = true ∧ (Res.flags (res r col)).testBit n = true)]
  · intro k hk
    rw [fold_pm k hk]
    simp only [mem_elems]
    rw [elem_iff (P := fun r col => mask.getLsbD col = true ∧ res r col = .poison ∧ (dst r col).2 = k)]
  · intro k hk
    rw [fold_prows k hk]
    simp only [mem_elems]
    rw [elem_iff (P := fun r col => mask.getLsbD col = true ∧ res r col = .poison ∧ (dst r col).1 / 4 = k)]

end

/-! ## The loop -/

theorem RowsOnly.effMask {c c' : Ctx} (h : RowsOnly c c') (f : Op64) : effMask c' f = effMask c f := by rw [h]; rfl
theorem RowsOnly.traps {c c' : Ctx} (h : RowsOnly c c') (fl : Nat) : c'.vcsr.traps fl = c.vcsr.traps fl := by rw [h]; rfl

/-- One element of the loop. -/
theorem element_run {x : CtxNo} {e : Entry} {f : Op64} {dew : Nat} {dst : Nat → Nat → Nat × Nat} {op : Ctx → (i r col : Nat) → Res}
    {c0 c : Ctx} {res : Nat → Nat → Res} {i : Nat} (s : State) (hr : RowsOnly c0 c)
    (hop : op c i (i / e.vl) (i % e.vl) = res (i / e.vl) (i % e.vl))
    (ht : (effMask c0 f).getLsbD (i % e.vl) = true → c0.vcsr.traps (Res.flags (res (i / e.vl) (i % e.vl))) = false) :
    (do
      let c ← ctxM x
      let r := i / e.vl
      let col := i % e.vl
      let (row, dcol) := dst r col
      if (effMask c f).getLsbD col then putRes x i r row dew dcol (op c i r col)
      else if opPol f then updCtx x fun c => c.putElem row dew dcol 0
      else pure () : M Unit) (s.setCtx x c) = .ok () (s.setCtx x (laneStep dew e.vl (effMask c0 f) (opPol f) dst res c i)) := by
  rw [bind_apply, ctxM_apply, ctx_setCtx]
  dsimp only
  rw [hop, hr.effMask]
  unfold laneStep
  by_cases hm : (effMask c0 f).getLsbD (i % e.vl) = true
  · rw [if_pos hm]
    have ht' := ht hm
    dsimp only
    rw [if_pos hm]
    cases hres : res (i / e.vl) (i % e.vl) with
    | keep => rfl
    | poison => simp [putRes, State.modCtx]
    | val b fl =>
      rw [hres] at ht'
      have ht'' : c.vcsr.traps fl = false := by rw [hr.traps]; exact ht'
      simp [putRes, State.modCtx, bind_apply, ht'']
  · rw [if_neg hm]
    dsimp only
    rw [if_neg hm]
    split
    · simp [State.modCtx]
    · rfl

/-- The element-wise loop comes to the fold over its elements, when the result of each does not depend on what the ones before
it wrote and none traps. -/
theorem elementwise_fold {x : CtxNo} {e : Entry} {f : Op64} {dew : Nat} {dst : Nat → Nat → Nat × Nat}
    {op : Ctx → (i r col : Nat) → Res} {c0 : Ctx} {res : Nat → Nat → Res} (s : State) (h4 : 4 ∣ dew)
    (hop : ∀ i ∈ e.elems e.vt.size, ∀ c, RowsOnly c0 c →
      (∀ row k, (∀ j ∈ e.elems e.vt.size, j < i → dst (j / e.vl) (j % e.vl) ≠ (row, k)) → cell c dew row k = cell c0 dew row k) →
      (∀ row, (∀ j ∈ e.elems e.vt.size, (dst (j / e.vl) (j % e.vl)).1 ≠ row) → c.row row = c0.row row) →
      op c i (i / e.vl) (i % e.vl) = res (i / e.vl) (i % e.vl))
    (ht : ∀ i ∈ e.elems e.vt.size, (effMask c0 f).getLsbD (i % e.vl) = true →
      c0.vcsr.traps (Res.flags (res (i / e.vl) (i % e.vl))) = false) :
    elementwise x e f dew dst op (s.setCtx x c0) =
      .ok () (s.setCtx x ((e.elems e.vt.size).foldl (laneStep dew e.vl (effMask c0 f) (opPol f) dst res) c0)) := by
  have hsort : (e.elems e.vt.size).Pairwise (· < ·) := elems_pairwise e _ _ fun i _ j _ h => h
  unfold elementwise
  suffices H : ∀ L P, e.elems e.vt.size = P ++ L →
      each L (fun i => do
        let c ← ctxM x
        let r := i / e.vl
        let col := i % e.vl
        let (row, dcol) := dst r col
        if (effMask c f).getLsbD col then putRes x i r row dew dcol (op c i r col)
        else if opPol f then updCtx x fun c => c.putElem row dew dcol 0
        else pure ())
        (s.setCtx x (P.foldl (laneStep dew e.vl (effMask c0 f) (opPol f) dst res) c0)) =
      .ok () (s.setCtx x (L.foldl (laneStep dew e.vl (effMask c0 f) (opPol f) dst res)
        (P.foldl (laneStep dew e.vl (effMask c0 f) (opPol f) dst res) c0))) by
    exact H _ [] rfl
  intro L
  induction L with
  | nil => intro P _; rfl
  | cons i L ih =>
    intro P hP
    have hi : i ∈ e.elems e.vt.size := by rw [hP]; simp
    rw [each_cons]
    have hrun := element_run (x := x) (e := e) (f := f) (dew := dew) (dst := dst) (op := op) (c0 := c0) (res := res) (i := i)
      (c := P.foldl (laneStep dew e.vl (effMask c0 f) (opPol f) dst res) c0) s (fold_rowsOnly P c0)
      (hop i hi _ (fold_rowsOnly P c0)
        (by
          intro row k h
          apply fold_ne h4
          intro j hj
          have hji : j < i := by
            rw [hP, List.pairwise_append] at hsort
            exact hsort.2.2 j hj i (by simp)
          exact h j (by rw [hP]; simp [hj]) hji)
        (by
          intro row h
          apply fold_row
          intro j hj
          exact h j (by rw [hP]; simp [hj])))
      (ht i hi)
    rw [hrun]
    have := ih (P ++ [i]) (by rw [hP]; simp)
    rw [List.foldl_append, List.foldl_cons, List.foldl_nil] at this
    exact this

end Sys2Proof.Claims
end

