-- ==== Sys2Proof/Laws/Forms.lean ====
section
/-! SUPPORT. Element-wise instructions: their dispatch checks, their operands, and what they leave. -/

namespace Sys2Proof.Claims

open Sys2Proof.Machine

/-! ## Checks -/

theorem group_pos (t : VType) : 0 < t.size := by
  unfold VType.size
  exact Nat.two_pow_pos _

/-- The operands of an arithmetic instruction that pass its check 5. -/
theorem Form.check {major : Nat} {f : Op64} {c : Ctx} {accepts : Ty → Bool} (h : Form major f c accepts) (s : State) :
    arithCheck major f accepts c s = .ok () s := by
  have h1 : checkAlign c major f c.vt.size s = .ok () s := by
    unfold checkAlign
    dsimp only
    cases hs : shape major with
    | none => rfl
    | some sh =>
      obtain ⟨ha, hb, hc⟩ := h.rows sh hs
      have hbad : ((sh.vd == .group && !aligned f.vd c.vt.size) || (vs1Opnd major sh f == .group && !aligned f.vs1 c.vt.size) ||
          (sh.vs2 == .group && !aligned f.vs2 c.vt.size)) = false := by
        unfold aligned
        by_cases e1 : sh.vd = .group <;> by_cases e2 : vs1Opnd major sh f = .group <;> by_cases e3 : sh.vs2 = .group <;>
          simp [e1, e2, e3, ha, hb, hc]
      dsimp only
      rw [hbad]
      rfl
  have h2 : checkType c major f accepts s = .ok () s := by
    unfold checkType
    have hbad : (!(accepts (opTy c.vt f)) || decide (8192 / (opTy c.vt f).width < c.vl) ||
        (decide (opTy c.vt f = .q4) && !c.vt.ks)) = false := by
      have := h.fits
      by_cases hq : opTy c.vt f = .q4
      · have hks := h.scale hq
        have ht := h.type
        simp [hks, ht]; omega
      · have ht := h.type
        simp [hq, ht]; omega
    rw [hbad]
    rfl
  have h3 : checkModifier c major f c.vt.size s = .ok () s := by
    unfold checkModifier
    dsimp only
    cases hs : shape major with
    | none => rfl
    | some sh =>
      have hm := h.mods sh hs
      have hbad : (sh.vd == .group &&
          ((f.mod12 != 0 && decide (sh.mod = .source) && sh.vs2 == .group && overlap f.vd.toNat c.vt.size f.vs2.toNat c.vt.size) ||
           (opMod1 f != 0 && vs1Opnd major sh f == .group && overlap f.vd.toNat c.vt.size f.vs1.toNat c.vt.size))) = false := by
        by_cases e1 : sh.vd = .group
        · obtain ⟨ha, hb⟩ := hm e1
          have h5 : (f.mod12 != 0 && decide (sh.mod = .source) && sh.vs2 == .group &&
              overlap f.vd.toNat c.vt.size f.vs2.toNat c.vt.size) = false := by
            by_cases e2 : f.mod12 = 0
            · simp [e2]
            · by_cases e3 : sh.mod = .source
              · by_cases e4 : sh.vs2 = .group
                · have := ha e2 e3 e4
                  unfold apartRows at this
                  simp [overlap]; omega
                · simp [e4]
              · simp [e3]
          have h6 : (opMod1 f != 0 && vs1Opnd major sh f == .group && overlap f.vd.toNat c.vt.size f.vs1.toNat c.vt.size) = false := by
            by_cases e2 : opMod1 f = 0
            · simp [e2]
            · by_cases e4 : vs1Opnd major sh f = .group
              · have := hb e2 e4
                unfold apartRows at this
                simp [overlap]; omega
              · simp [e4]
          rw [h5, h6]
          simp
        · simp [e1]
      dsimp only
      rw [hbad]
      rfl
  unfold arithCheck
  rw [bind_ok _ h1, bind_ok _ h2, h3]

/-! ## Operands -/

theorem operandA_eq (c : Ctx) (f : Op64) (w r col : Nat) : operandA c f w r col = opA c f w r col := rfl
theorem opA_congr {c c' : Ctx} {f : Op64} {w r col : Nat}
    (h : cell c' w (f.vs2.toNat + r) (srcCol f.mod12 col) = cell c w (f.vs2.toNat + r) (srcCol f.mod12 col)) :
    opA c' f w r col = opA c f w r col := by
  unfold opA
  rw [h]

theorem srcCol_zero (col : Nat) : srcCol 0 col = col := rfl

/-- Rows of two groups that start at multiples of their size. -/
theorem rows_apart {g a b r r' : Nat} (ha : a % g = 0) (hb : b % g = 0) (hr : r < g) (hr' : r' < g) (h : a + r = b + r') :
    a = b ∧ r = r' := by
  have hg : 0 < g := by omega
  obtain ⟨k, rfl⟩ := Nat.dvd_of_mod_eq_zero ha
  obtain ⟨l, rfl⟩ := Nat.dvd_of_mod_eq_zero hb
  have h1 : (g * k + r) / g = k := by rw [Nat.mul_add_div hg, Nat.div_eq_of_lt hr, Nat.add_zero]
  have h2 : (g * l + r') / g = l := by rw [Nat.mul_add_div hg, Nat.div_eq_of_lt hr', Nat.add_zero]
  have hkl : k = l := by rw [← h1, h, h2]
  subst hkl
  exact ⟨rfl, by omega⟩

/-- A source element is not one that the loop wrote before its own turn. -/
theorem source_fresh {g : Nat} {vd vs : BitVec 8} {m : BitVec 12} {e : Entry} {i : Nat}
    (hg : e.vt.size = g) (hd : vd.toNat % g = 0) (hs : vs.toNat % g = 0)
    (hm : m ≠ 0 → apartRows vd.toNat g vs.toNat g) (hi : i ∈ e.elems e.vt.size) :
    ∀ j ∈ e.elems e.vt.size, j < i →
      ((vd.toNat + j / e.vl, j % e.vl) : Nat × Nat) ≠ (vs.toNat + i / e.vl, srcCol m (i % e.vl)) := by
  intro j hj hji heq
  rw [mem_elems] at hi hj
  have hv : 0 < e.vl := by
    rcases Nat.eq_zero_or_pos e.vl with h | h
    · rw [h] at hi; omega
    · exact h
  have hir : i / e.vl < g := Nat.div_lt_of_lt_mul (by rw [Nat.mul_comm, ← hg]; exact hi.2)
  have hjr : j / e.vl < g := Nat.div_lt_of_lt_mul (by rw [Nat.mul_comm, ← hg]; exact hj.2)
  have h1 := (Prod.mk.inj heq).1
  have h2 := (Prod.mk.inj heq).2
  by_cases hm0 : m = 0
  · subst hm0
    rw [srcCol_zero] at h2
    have := rows_apart hd hs hjr hir h1
    have e1 := Nat.div_add_mod i e.vl
    have e2 := Nat.div_add_mod j e.vl
    rw [← this.2, ← h2] at e1
    omega
  · have := hm hm0
    unfold apartRows at this
    generalize i / e.vl = a at *
    generalize j / e.vl = b at *
    omega

/-- The context that a body starts from. -/
theorem started_fields (f : Op64) (v : Bool) (u : TokenUse) (c : Ctx) :
    past f v (tokensOwed u c) = { c with
      pc := (past f v (tokensOwed u c)).pc, seq := (past f v (tokensOwed u c)).seq,
      vstart := (past f v (tokensOwed u c)).vstart, tokens := (past f v (tokensOwed u c)).tokens } := by
  unfold past tokensOwed popTok oweTok Ctx.setTok
  cases u.pop <;> cases u.push <;> rfl

/-- The lane of an element-wise instruction. -/
theorem lane_run {i : Instr} {l : Lane} {s : State} {d : QueueDef} {op : Entry → Ctx → Nat → Nat → Nat → Res}
    (hexec : exec i s = runDef i l.f d s) (hq : d.queue = .vector) (hv : d.usesVstart = true) (hk : d.keeps = fun _ s => s)
    (hcpy : ∀ f, i ≠ .cpy f) (hva : vectorAccess i = none) (hst : l.start (here s) = startOf (here s)) (hmask : l.mask (here s) = effMask (here s) l.f)
    (hc : l.form (here s) → d.check s.cur (here s) s = .ok () s)
    (hbody : ∀ x e, e.vt = (here s).vt → d.body x e = elementwise x e l.f (l.ew (here s)) l.dst (op e))
    (h4 : 4 ∣ l.ew (here s))
    (hinj : ∀ r < (here s).vt.size, ∀ col < (here s).vl, ∀ r' < (here s).vt.size, ∀ col' < (here s).vl,
      l.dst r col = l.dst r' col' → r = r' ∧ col = col')
    (hfit : l.form (here s) → ∀ r < (here s).vt.size, ∀ col < (here s).vl, (l.dst r col).2 < 8192 / l.ew (here s))
    (hop : l.form (here s) → ∀ e : Entry, e.vl = (here s).vl → e.vt = (here s).vt →
      e.sa = (here s).scalarAt i l.f → ∀ i ∈ e.elems e.vt.size, ∀ c, RowsOnly (here s) { c with
        pc := (here s).pc, seq := (here s).seq, vstart := (here s).vstart, tokens := (here s).tokens } →
      (∀ row k, (∀ j ∈ e.elems e.vt.size, j < i → l.dst (j / e.vl) (j % e.vl) ≠ (row, k)) →
        cell c (l.ew (here s)) row k = cell (here s) (l.ew (here s)) row k) →
      (∀ row, (∀ j ∈ e.elems e.vt.size, (l.dst (j / e.vl) (j % e.vl)).1 ≠ row) → c.row row = (here s).row row) →
      op e c i (i / e.vl) (i % e.vl) = l.res (here s) (i / e.vl) (i % e.vl)) :
    LaneRuns i l s := by
  intro hr hf ht
  rw [hst, hmask] at ht ⊢
  let c0 := past l.f true (tokensOwed (instrTokens i .vector) (here s))
  obtain ⟨k1, k2, he⟩ := entryOf_eq i .vector l.f true s
  let e : Entry := { (here s).entry .vector i l.f (startOf (here s)) with hb := k1, past := k2 }
  have hc0 : c0 = { here s with pc := c0.pc, seq := c0.seq, vstart := c0.vstart, tokens := c0.tokens } :=
    started_fields l.f true (instrTokens i .vector) (here s)
  have heff : effMask c0 l.f = effMask (here s) l.f := by rw [hc0]; rfl
  have htr : ∀ fl, c0.vcsr.traps fl = (here s).vcsr.traps fl := by intro fl; rw [hc0]
  have hcell : ∀ w row k, cell c0 w row k = cell (here s) w row k := by intro w row k; rw [hc0]; rfl
  have hrow : ∀ row, c0.row row = (here s).row row := by intro row; rw [hc0]; rfl
  have hdm : ∀ j ∈ e.elems e.vt.size, j / e.vl < (here s).vt.size ∧ j % e.vl < (here s).vl := by
    intro j hj
    rw [mem_elems] at hj
    have hv : 0 < (here s).vl := by
      rcases Nat.eq_zero_or_pos (here s).vl with h | h
      · have : e.vl = 0 := h
        rw [this] at hj; omega
      · exact h
    exact ⟨Nat.div_lt_of_lt_mul (by rw [Nat.mul_comm]; exact hj.2), Nat.mod_lt _ hv⟩
  have hfold := elementwise_fold (x := s.cur) (e := e) (f := l.f) (dew := l.ew (here s)) (dst := l.dst) (op := op e) (c0 := c0)
    (res := l.res (here s)) (counted i (tookToken i .vector (s.setCtx s.cur c0))) h4
    (by
      intro j hj c hro hcl hrw
      refine hop hf e rfl rfl rfl j hj c ?_ ?_ ?_
      · have := hro
        unfold RowsOnly at this ⊢
        rw [this, hc0]
      · intro row k h
        rw [hcl row k h, hcell]
      · intro row h
        rw [hrw row h, hrow])
    (by
      intro j hj hm
      rw [htr]
      rw [heff] at hm
      have hb := hdm j hj
      have := ht _ hb.1 _ hb.2 (by rw [Nat.mul_comm, show (here s).vl = e.vl from rfl, Nat.div_add_mod]; exact (mem_elems.mp hj).1) hm
      unfold Vcsr.traps
      rw [this]
      rfl)
  let c2 := (e.elems e.vt.size).foldl (laneStep (l.ew (here s)) e.vl (effMask c0 l.f) (opPol l.f) l.dst (l.res (here s))) c0
  have hro : RowsOnly c0 c2 := fold_rowsOnly _ c0
  have hl : Lanes c0 c2 (here s).vt.size (here s).vl (startOf (here s)) (l.ew (here s)) (effMask c0 l.f) (opPol l.f) l.dst
      (l.res (here s)) (fun r col => Res.flags (l.res (here s) r col)) := fold_lanes h4 e (here s).vt.size c0 hinj (hfit hf)
  have hbd := hbody s.cur e rfl
  have hstart : c2.start = c0.start := by
    have := hro
    unfold RowsOnly at this
    rw [this]
    rfl
  have hdef := runDef_leaves (f := l.f) (d := d) (c2 := c2) (hq ▸ hr) hcpy hva (hc hf) hk
    (by
      rw [hq, hv, show entryOf i .vector l.f true s = e from he, hbd, issued_setCtx i .vector s c0 c2 hstart]
      exact (congrArg _ (issued_setCtx i .vector s c0 c0 rfl)).trans hfold)
  refine ⟨c2, ?_, ?_, ?_⟩
  · unfold Leaves
    rw [hexec, hdef, hq]
  · exact hro
  · rw [heff] at hl
    constructor
    · intro r hr' col hcol hst
      have := hl.written r hr' col hcol hst
      rw [hcell] at this
      exact this
    · intro row k h
      have := hl.kept row k h
      rw [hcell] at this
      exact this
    · intro n hn
      have := hl.flags n hn
      rw [hc0] at this
      exact this
    · intro k hk'
      have := hl.columns k hk'
      rw [hc0] at this
      exact this
    · intro k hk'
      have := hl.blocks k hk'
      rw [hc0] at this
      exact this

/-- The operand a does not depend on what the loop wrote before. -/
theorem operandA_fresh {major : Nat} {sh : Shape} {f : Op64} {c0 c : Ctx} {accepts : Ty → Bool} {e : Entry} {w i : Nat}
    (h : Form major f c0 accepts) (hs : shape major = some sh) (hd : sh.vd = .group) (h2 : sh.vs2 = .group) (hm : sh.mod = .source)
    (hvt : e.vt = c0.vt) (hi : i ∈ e.elems e.vt.size)
    (hc : ∀ row k, (∀ j ∈ e.elems e.vt.size, j < i → ((f.vd.toNat + j / e.vl, j % e.vl) : Nat × Nat) ≠ (row, k)) →
      cell c w row k = cell c0 w row k) :
    operandA c f w (i / e.vl) (i % e.vl) = opA c0 f w (i / e.vl) (i % e.vl) := by
  rw [operandA_eq]
  apply opA_congr
  apply hc
  have hr := h.rows sh hs
  exact source_fresh (g := c0.vt.size) (by rw [hvt]) (hr.1 hd) (hr.2.2 h2) (fun hm0 => (h.mods sh hs hd).1 hm0 hm h2) hi

theorem intBits_sext (w : Nat) (v : BitVec 8) : intBits w (sextNat 8 v.toNat) = (v.toInt % (2 ^ w : Nat)).toNat := by
  unfold intBits sextNat
  have h1 : v.toInt = if v.toNat % 2 ^ 8 < 2 ^ (8 - 1) then ((v.toNat % 2 ^ 8 : Nat) : Int) else ((v.toNat % 2 ^ 8 : Nat) : Int) - (2 ^ 8 : Nat) := by
    rw [BitVec.toInt_eq_toNat_cond]
    have := v.isLt
    rw [Nat.mod_eq_of_lt this]
    split <;> split <;> omega
  rw [h1]

/-- A code of a format fits a scalar register. -/
theorem roundTo_lt (fmt : Fmt) (mode : Rm) (sat8 : Bool) (idx : Nat) (x : Val) : (roundTo fmt mode sat8 idx x).1 < 2 ^ 64 := by
  have hs : fmt.signBit + fmt.maxCode + 1 < 2 ^ 64 ∧ fmt.nan < 2 ^ 64 ∧ fmt.signBit + 0x7F800000 < 2 ^ 64 := by cases fmt <;> decide
  obtain ⟨h1, h2, h3⟩ := hs
  unfold roundTo
  dsimp only
  repeat' split
  all_goals dsimp only
  all_goals omega

/-- The scalar of an instruction outside the float majors is the register. -/
theorem scalarAt_raw {c : Ctx} {i : Instr} {f : Op64} {major : Nat} {g : Op64} (hi : parts64 i = some (major, g))
    (h : major < 0x30 ∨ 0x40 < major) : c.scalarAt i f = c.rg (gpr f.vs1) := by
  unfold Ctx.scalarAt
  rw [hi]
  dsimp only
  rw [if_neg (by omega)]

/-- The scalar of a float instruction is the register, rounded once to the element type. -/
theorem scalarAt_float {c : Ctx} {i : Instr} {f : Op64} {major : Nat} {g : Op64} (hi : parts64 i = some (major, g))
    (h : 0x30 ≤ major ∧ major ≤ 0x40) (h0 : f.fn3.toNat ≠ 0) :
    (c.scalarAt i f).toNat =
      (roundTo (opTy c.vt f).fmt (opRm c f) c.vcsr.sat8 0 (Fmt.fp32.decode ((c.rg (gpr f.vs1)).toNat % 2 ^ 32))).1 := by
  unfold Ctx.scalarAt
  rw [hi]
  dsimp only
  rw [if_pos ⟨h.1, h.2, fun h => h0 (by rw [h]; rfl)⟩, BitVec.toNat_ofNat]
  exact Nat.mod_eq_of_lt (roundTo_lt _ _ _ _ _)

/-- The operand b of an integer instruction does not depend on what the loop wrote before. -/
theorem operandB_fresh {major : Nat} {sh : Shape} {f : Op64} {c0 c : Ctx} {accepts : Ty → Bool} {e : Entry} {w i : Nat}
    (h : Form major f c0 accepts) (hs : shape major = some sh) (hd : sh.vd = .group)
    (h1 : f.fn3.toNat = 0 → vs1Opnd major sh f = .group)
    (hvt : e.vt = c0.vt) (hsa : e.sa = c0.rg (gpr f.vs1)) (hi : i ∈ e.elems e.vt.size)
    (hc : ∀ row k, (∀ j ∈ e.elems e.vt.size, j < i → ((f.vd.toNat + j / e.vl, j % e.vl) : Nat × Nat) ≠ (row, k)) →
      cell c w row k = cell c0 w row k) :
    operandB c e f w (i / e.vl) (i % e.vl) = opB c0 f w (i / e.vl) (i % e.vl) := by
  unfold operandB opB
  rcases h0 : f.fn3.toNat with _ | _ | n
  · dsimp only
    have hr := h.rows sh hs
    have hg := h1 h0
    have hce : cell c w (f.vs1.toNat + i / e.vl) (srcCol (opMod1 f) (i % e.vl)) =
        cell c0 w (f.vs1.toNat + i / e.vl) (srcCol (opMod1 f) (i % e.vl)) :=
      hc _ _ (source_fresh (g := c0.vt.size) (by rw [hvt]) (hr.1 hd) (hr.2.1 hg) (fun hm0 => (h.mods sh hs hd).2 hm0 hg) hi)
    unfold Ctx.elem
    unfold cell at hce
    have ha := (Prod.mk.inj hce).1
    have hb := (Prod.mk.inj hce).2
    simp only [Row.bad_eq, ha, hb, cell]
  · dsimp only
    rw [hsa]
    rfl
  · dsimp only
    rw [intBits_sext]
    rfl

/-- The operand b of a float instruction does not depend on what the loop wrote before. -/
theorem operandFb_fresh {major : Nat} {sh : Shape} {f : Op64} {c0 c : Ctx} {accepts : Ty → Bool} {e : Entry} {fmt : Fmt} {i : Nat}
    (h : Form major f c0 accepts) (hs : shape major = some sh) (hd : sh.vd = .group)
    (h1 : f.fn3.toNat = 0 → vs1Opnd major sh f = .group)
    (hvt : e.vt = c0.vt) (hi : i ∈ e.elems e.vt.size)
    (hsa : f.fn3.toNat ≠ 0 → e.sa.toNat =
      (roundTo fmt (opRm c0 f) c0.vcsr.sat8 0 (Fmt.fp32.decode ((c0.rg (gpr f.vs1)).toNat % 2 ^ 32))).1)
    (hc : ∀ row k, (∀ j ∈ e.elems e.vt.size, j < i → ((f.vd.toNat + j / e.vl, j % e.vl) : Nat × Nat) ≠ (row, k)) →
      cell c fmt.width row k = cell c0 fmt.width row k) :
    operandFb c e f fmt (i / e.vl) (i % e.vl) = opBf c0 f fmt (i / e.vl) (i % e.vl) := by
  unfold operandFb opBf
  rcases h0 : f.fn3.toNat with _ | n
  · dsimp only
    have hr := h.rows sh hs
    have hg := h1 h0
    have hce : cell c fmt.width (f.vs1.toNat + i / e.vl) (srcCol (opMod1 f) (i % e.vl)) =
        cell c0 fmt.width (f.vs1.toNat + i / e.vl) (srcCol (opMod1 f) (i % e.vl)) :=
      hc _ _ (source_fresh (g := c0.vt.size) (by rw [hvt]) (hr.1 hd) (hr.2.1 hg) (fun hm0 => (h.mods sh hs hd).2 hm0 hg) hi)
    unfold Ctx.elem
    unfold cell at hce
    have ha := (Prod.mk.inj hce).1
    have hb := (Prod.mk.inj hce).2
    simp only [Row.bad_eq, ha, hb, cell]
  · dsimp only
    rw [hsa (by omega)]
    rfl

/-- The accumulator of an element is its place before the loop. -/
theorem dest_fresh {f : Op64} {c0 c : Ctx} {e : Entry} {w i : Nat}
    (hc : ∀ row k, (∀ j ∈ e.elems e.vt.size, j < i → ((f.vd.toNat + j / e.vl, j % e.vl) : Nat × Nat) ≠ (row, k)) →
      cell c w row k = cell c0 w row k) :
    cell c w (f.vd.toNat + i / e.vl) (i % e.vl) = cell c0 w (f.vd.toNat + i / e.vl) (i % e.vl) := by
  apply hc
  intro j hj hji heq
  have h1 := (Prod.mk.inj heq).1
  have h2 := (Prod.mk.inj heq).2
  have e1 := Nat.div_add_mod i e.vl
  have e2 := Nat.div_add_mod j e.vl
  have h3 : j / e.vl = i / e.vl := by omega
  rw [← h3, ← h2] at e1
  omega

/-- The usual destination gives every element its own place, which its row has. -/
theorem sameDst_inj (f : Op64) (r col r' col' : Nat) (h : ((f.vd.toNat + r, col) : Nat × Nat) = (f.vd.toNat + r', col')) :
    r = r' ∧ col = col' := by
  have h1 := (Prod.mk.inj h).1
  exact ⟨by omega, (Prod.mk.inj h).2⟩

theorem tyOfCode_width (n : Nat) : 4 ∣ (tyOfCode n).width := by
  unfold tyOfCode
  split <;> decide
theorem ty_width (t : VType) : 4 ∣ t.ty.width := by
  have hb : 4 ∣ t.bitsW := by unfold VType.bitsW ewBits; exact Nat.dvd_mul_right 4 _
  unfold VType.ty
  split
  · exact hb
  · exact hb
  · split <;> decide
  all_goals decide
/-- Every element type's width is a multiple of 4 bits. -/
theorem opTy_width (t : VType) (f : Op64) : 4 ∣ (opTy t f).width := by
  unfold opTy
  split
  · exact ty_width t
  · exact tyOfCode_width _

end Sys2Proof.Claims
end

