-- ==== Sys2Proof/Laws/Hash.lean ====
section
/-! SUPPORT. What the device signs with its identity key verifies under that key (R386). -/

namespace Sys2Proof.Machine

/-! ## Lengths -/

@[simp] theorem leBytes_length (n x : Nat) : (leBytes n x).length = n := by
  induction n generalizing x with
  | zero => rfl
  | succ n ih => simp [leBytes, ih]

theorem ofLe_lt (l : List Byte) : ofLe l < 256 ^ l.length := by
  induction l with
  | nil => simp [ofLe]
  | cons b t ih => simp only [ofLe, List.length_cons, Nat.pow_succ]; have := b.isLt; omega

theorem ofBe_lt (l : List Byte) : ofBe l < 256 ^ l.length := by simpa [ofBe] using ofLe_lt l.reverse

theorem keccakF_length (a : List Word) : (keccakF a).length = 25 := by
  have h (l : List Word) (hl : l ≠ []) (a : List Word) : (l.foldl keccakRound a).length = 25 := by
    induction l generalizing a with
    | nil => exact absurd rfl hl
    | cons r t ih =>
      by_cases ht : t = []
      · simp [ht, keccakRound]
      · exact ih ht _
  exact h _ (by decide) a

theorem keccakAbsorb_length (n : Nat) (a : List Word) (bs : List Byte) (ha : a.length = 25) : (keccakAbsorb n a bs).length = 25 := by
  induction n generalizing a bs with
  | zero => exact ha
  | succ n ih =>
    unfold keccakAbsorb
    split
    · exact keccakF_length _
    · exact ih _ _ (keccakF_length _)

theorem shake256_length (n : Nat) (h : n ≤ 136) (bs : List Byte) : (shake256 n bs).length = n := by
  have hl : ((keccakAbsorb (bs.length / 136 + 1) (List.replicate 25 0) bs).flatMap fun w => leBytes 8 w.toNat).length = 200 := by
    rw [List.length_flatMap, List.map_congr_left (g := fun _ => 8) fun w _ => leBytes_length 8 w.toNat, List.map_const', List.sum_replicate_nat,
      keccakAbsorb_length _ _ _ (by simp)]
  rw [shake256, List.length_take, hl]; omega

@[simp] theorem tweaked_length (seed addr m : List Byte) : (tweaked seed addr m).length = 32 := shake256_length 32 (by decide) _

/-! ## Parts of 32 bytes -/

theorem drop_parts {α : Type} (f : α → List Byte) (l : List α) (h : ∀ x ∈ l, (f x).length = 32) (j : Nat) :
    (l.flatMap f).drop (32 * j) = (l.drop j).flatMap f := by
  induction l generalizing j with
  | nil => simp
  | cons a t ih =>
    cases j with
    | zero => simp
    | succ j =>
      have ha := h a (by simp)
      rw [List.flatMap_cons, List.drop_append, ha, List.drop_of_length_le (by omega), List.nil_append,
        show 32 * (j + 1) - 32 = 32 * j by omega, ih (fun x hx => h x (by simp [hx]))]
      rfl

theorem part32_parts {α : Type} (f : α → List Byte) (l : List α) (h : ∀ x ∈ l, (f x).length = 32) (j : Nat) (hj : j < l.length) :
    part32 (l.flatMap f) j = f l[j] := by
  rw [part32, drop_parts f l h, List.drop_eq_getElem_cons hj, List.flatMap_cons, List.take_append, h _ (List.getElem_mem hj),
    List.take_of_length_le (Nat.le_of_eq (h _ (List.getElem_mem hj)))]
  simp

theorem parts_length {α : Type} (f : α → List Byte) (l : List α) (h : ∀ x ∈ l, (f x).length = 32) : (l.flatMap f).length = 32 * l.length := by
  induction l with
  | nil => rfl
  | cons a t ih => rw [List.flatMap_cons, List.length_append, h a (by simp), ih fun x hx => h x (by simp [hx]), List.length_cons]; omega

/-! ## Trees -/

theorem authPath_length (N : Nat → Nat → List Byte) (h : ∀ z i, (N z i).length = 32) (n i : Nat) : (authPath N n i).length = 32 * n := by
  rw [authPath, parts_length _ _ fun j _ => h _ _, List.length_range]

/-- From a leaf the authentication path leads to the root. -/
theorem climb_authPath (seed : List Byte) (addr : Nat → Nat → List Byte) (N : Nat → Nat → List Byte) (h : ∀ z i, (N z i).length = 32)
    (up : ∀ z i, N (z + 1) i = tweaked seed (addr (z + 1) i) (N z (2 * i) ++ N z (2 * i + 1))) (H i n j : Nat) (hj : j + n ≤ H) :
    climb seed addr (authPath N H i) n j (i / 2 ^ j) (N j (i / 2 ^ j)) = N (j + n) (i / 2 ^ (j + n)) := by
  induction n generalizing j with
  | zero => rfl
  | succ n ih =>
    have hp : part32 (authPath N H i) j = N j (if i / 2 ^ j % 2 = 0 then i / 2 ^ j + 1 else i / 2 ^ j - 1) := by
      rw [authPath, part32_parts _ _ (fun j _ => h _ _) j (by rw [List.length_range]; omega), List.getElem_range]
    have hd : i / 2 ^ j / 2 = i / 2 ^ (j + 1) := by rw [Nat.div_div_eq_div_mul, Nat.pow_succ]
    have hn : tweaked seed (addr (j + 1) (i / 2 ^ j / 2))
        (if i / 2 ^ j % 2 = 0 then N j (i / 2 ^ j) ++ part32 (authPath N H i) j else part32 (authPath N H i) j ++ N j (i / 2 ^ j)) =
        N (j + 1) (i / 2 ^ (j + 1)) := by
      rw [← hd, up, hp]
      generalize i / 2 ^ j = x
      by_cases hx : x % 2 = 0
      · rw [if_pos hx, if_pos hx, show 2 * (x / 2) = x by omega]
      · rw [if_neg hx, if_neg hx, show 2 * (x / 2) = x - 1 by omega, show x - 1 + 1 = x by omega]
    simp only [climb]
    rw [hn, hd, ih (j + 1) (by omega), show j + 1 + n = j + (n + 1) by omega]

/-! ## WOTS+ -/

theorem wotsChain_add (seed : List Byte) (addr : Nat → List Byte) (a b i : Nat) (x : List Byte) :
    wotsChain seed addr b (i + a) (wotsChain seed addr a i x) = wotsChain seed addr (a + b) i x := by
  induction a generalizing i x with
  | zero => simp [wotsChain]
  | succ a ih =>
    rw [show a + 1 + b = a + b + 1 by omega]
    simp only [wotsChain]
    rw [← ih (i + 1), show i + (a + 1) = i + 1 + a by omega]

theorem wotsChain_length (seed : List Byte) (addr : Nat → List Byte) (n i : Nat) (x : List Byte) (h : x.length = 32) :
    (wotsChain seed addr n i x).length = 32 := by
  induction n generalizing i x with
  | zero => exact h
  | succ n ih => exact ih _ _ (tweaked_length _ _ _)

/-- The digits that a WOTS+ signature of a node signs. -/
def wotsDigits (node : List Byte) : List Nat :=
  digits 4 64 node ++ digits 4 3 (beBytes 2 ((digits 4 64 node).foldl (fun s m => s + (15 - m)) 0 * 16))

theorem wotsDigits_length (node : List Byte) : (wotsDigits node).length = 67 := by simp [wotsDigits, digits]
theorem wotsDigits_lt (node : List Byte) : ∀ m ∈ wotsDigits node, m < 16 := by
  simp only [wotsDigits, digits, List.mem_append, List.mem_map]
  rintro m (⟨i, -, rfl⟩ | ⟨i, -, rfl⟩) <;> exact Nat.mod_lt _ (by decide)

/-- What a WOTS+ signature gives for a digit of a chain. -/
def SlhSecret.wotsPart (k : SlhSecret) (layer tree leaf : Nat) (m : Nat × Nat) : List Byte :=
  wotsChain k.seed (fun j => hashAddr layer tree 0 leaf m.2 j) m.1 0 (k.chainStart layer tree leaf m.2)
/-- The part of a signature of a node that its WOTS+ key gives. -/
def SlhSecret.wotsSig (k : SlhSecret) (layer tree leaf : Nat) (node : List Byte) : List Byte :=
  ((wotsDigits node).zip (List.range 67)).flatMap (k.wotsPart layer tree leaf)

theorem signNode_eq (k : SlhSecret) (layer tree leaf : Nat) (node : List Byte) :
    k.signNode layer tree leaf node = k.wotsSig layer tree leaf node ++ authPath (k.node layer tree) 8 leaf := rfl

theorem chainStart_length (k : SlhSecret) (layer tree leaf i : Nat) : (k.chainStart layer tree leaf i).length = 32 := tweaked_length _ _ _

theorem wotsPart_length (k : SlhSecret) (layer tree leaf : Nat) (m : Nat × Nat) : (k.wotsPart layer tree leaf m).length = 32 :=
  wotsChain_length _ _ _ _ _ (chainStart_length ..)
/-- The chain that a signature leaves off ends where the key's does. -/
theorem wotsPart_end (k : SlhSecret) (layer tree leaf : Nat) (m : Nat × Nat) (h : m.1 < 16) :
    wotsChain k.seed (fun j => hashAddr layer tree 0 leaf m.2 j) (15 - m.1) m.1 (k.wotsPart layer tree leaf m) =
      wotsChain k.seed (fun j => hashAddr layer tree 0 leaf m.2 j) 15 0 (k.chainStart layer tree leaf m.2) := by
  have := wotsChain_add k.seed (fun j => hashAddr layer tree 0 leaf m.2 j) m.1 (15 - m.1) 0 (k.chainStart layer tree leaf m.2)
  rwa [Nat.zero_add, Nat.add_sub_cancel' (by omega)] at this

theorem wotsSig_length (k : SlhSecret) (layer tree leaf : Nat) (node : List Byte) : (k.wotsSig layer tree leaf node).length = 2144 := by
  rw [SlhSecret.wotsSig, parts_length _ _ fun m _ => wotsPart_length .., List.length_zip, wotsDigits_length, List.length_range]; rfl

theorem wotsKey_wotsSig (k : SlhSecret) (layer tree leaf : Nat) (node : List Byte) :
    wotsKey k.seed layer tree leaf (k.wotsSig layer tree leaf node) node = k.leaf layer tree leaf := by
  let chain (i : Nat) : List Byte := wotsChain k.seed (fun j => hashAddr layer tree 0 leaf i j) 15 0 (k.chainStart layer tree leaf i)
  have he : ((wotsDigits node).zip (List.range 67)).map (fun m =>
        wotsChain k.seed (fun j => hashAddr layer tree 0 leaf m.2 j) (15 - m.1) m.1 (part32 (k.wotsSig layer tree leaf node) m.2)) =
      (((wotsDigits node).zip (List.range 67)).map Prod.snd).map chain := by
    rw [List.map_map]
    refine List.map_congr_left fun m hm => ?_
    obtain ⟨i, hi, rfl⟩ := List.mem_iff_getElem.mp hm
    have hp := part32_parts (k.wotsPart layer tree leaf) _ (fun m _ => wotsPart_length ..) i hi
    have h2 : ((wotsDigits node).zip (List.range 67))[i].2 = i := by simp
    have hs : part32 (k.wotsSig layer tree leaf node) ((wotsDigits node).zip (List.range 67))[i].2 =
        k.wotsPart layer tree leaf ((wotsDigits node).zip (List.range 67))[i] := by rw [h2]; exact hp
    rw [hs]
    exact wotsPart_end _ _ _ _ _ (wotsDigits_lt node _ (List.of_mem_zip hm).1)
  rw [List.map_snd_zip (by simp [wotsDigits_length])] at he
  show tweaked _ _ (((wotsDigits node).zip (List.range 67)).flatMap _) = tweaked _ _ ((List.range 67).flatMap chain)
  rw [List.flatMap_def, he, ← List.flatMap_def]

/-! ## The hypertree -/

theorem leaf_length (k : SlhSecret) (layer tree leaf : Nat) : (k.leaf layer tree leaf).length = 32 := tweaked_length _ _ _
theorem node_length (k : SlhSecret) (layer tree z i : Nat) : (k.node layer tree z i).length = 32 := by
  cases z <;> exact tweaked_length _ _ _
theorem signNode_length (k : SlhSecret) (layer tree leaf : Nat) (node : List Byte) : (k.signNode layer tree leaf node).length = 2400 := by
  rw [signNode_eq, List.length_append, wotsSig_length, authPath_length _ (node_length k layer tree)]
theorem signTree_length (k : SlhSecret) (n layer tree leaf : Nat) (node : List Byte) :
    (k.signTree n layer tree leaf node).length = 2400 * n := by
  induction n generalizing layer tree leaf node with
  | zero => rfl
  | succ n ih => rw [SlhSecret.signTree, List.length_append, signNode_length, ih]; omega

/-- A layer of a hypertree signature of a node gives its tree's root. -/
theorem treeRoot_signNode (k : SlhSecret) (m layer tree leaf : Nat) (node rest : List Byte) (h : leaf < 256) :
    treeRoot k.seed (m + 1) layer tree leaf (k.signNode layer tree leaf node ++ rest) node =
      treeRoot k.seed m (layer + 1) (tree / 256) (tree % 256) rest (k.node layer tree 8 0) := by
  have hw := wotsSig_length k layer tree leaf node
  have hp := authPath_length _ (node_length k layer tree) 8 leaf
  have h1 : (k.signNode layer tree leaf node ++ rest).take 2144 = k.wotsSig layer tree leaf node := by
    rw [signNode_eq, List.append_assoc, ← hw, List.take_left]
  have h2 : ((k.signNode layer tree leaf node ++ rest).drop 2144).take 256 = authPath (k.node layer tree) 8 leaf := by
    rw [signNode_eq, List.append_assoc, ← hw, List.drop_left, show 256 = (authPath (k.node layer tree) 8 leaf).length by rw [hp], List.take_left]
  have h3 : (k.signNode layer tree leaf node ++ rest).drop 2400 = rest := by rw [← signNode_length k layer tree leaf node, List.drop_left]
  have hc := climb_authPath k.seed (fun h i => hashAddr layer tree 2 0 h i) (k.node layer tree) (node_length k layer tree)
    (fun z i => rfl) 8 leaf 8 0 (by decide)
  rw [show leaf / 2 ^ 0 = leaf by simp, Nat.zero_add, show leaf / 2 ^ 8 = 0 by omega] at hc
  simp only [treeRoot]
  rw [h1, h2, h3, wotsKey_wotsSig]
  exact congrArg _ hc

/-- A hypertree signature of a node gives the root of its last tree. -/
theorem treeRoot_signTree (k : SlhSecret) (n layer tree leaf : Nat) (node : List Byte) (h : leaf < 256) :
    treeRoot k.seed (n + 1) layer tree leaf (k.signTree (n + 1) layer tree leaf node) node = k.node (layer + n) (tree / 256 ^ n) 8 0 := by
  induction n generalizing layer tree leaf node with
  | zero => rw [SlhSecret.signTree, treeRoot_signNode k _ _ _ _ _ _ h]; simp [treeRoot]
  | succ n ih =>
    rw [SlhSecret.signTree, treeRoot_signNode k _ _ _ _ _ _ h, ih _ _ _ _ (Nat.mod_lt _ (by decide)), Nat.div_div_eq_div_mul,
      ← Nat.pow_succ', show layer + 1 + n = layer + (n + 1) by omega]

/-! ## Signatures -/

theorem signFors_length (k : SlhSecret) (tree leaf : Nat) (md : List Byte) : (k.signFors tree leaf md).length = 10560 := by
  have hf (z i : Nat) : (k.fors tree leaf z i).length = 32 := by cases z <;> exact tweaked_length _ _ _
  have (l : List (Nat × Nat)) : (l.flatMap fun m =>
      k.value (hashAddr 0 tree 6 leaf 0 (m.2 * 2 ^ 14 + m.1)) ++ authPath (k.fors tree leaf) 14 (m.2 * 2 ^ 14 + m.1)).length = 480 * l.length := by
    induction l with
    | nil => rfl
    | cons a t ih => rw [List.flatMap_cons, List.length_append, ih, List.length_append, authPath_length _ hf, SlhSecret.value, tweaked_length,
        List.length_cons]; omega
  rw [SlhSecret.signFors, this]
  simp [digits]

/-- What is signed with a key verifies under its public key (R386). -/
theorem slhVerify_slhSign (k : SlhSecret) (hk : k.seed.length = 32) (random msg : List Byte) :
    slhVerify (slhPublic k) msg (slhSign k random msg) = true := by
  have hroot := node_length k 7 0 8 0
  have hseed : (slhPublic k).take 32 = k.seed := by rw [slhPublic, ← hk, List.take_left]
  have hpart : part32 (slhPublic k) 1 = k.node 7 0 8 0 := by
    rw [part32, slhPublic, show 32 * 1 = k.seed.length by omega, List.drop_left, List.take_of_length_le (by omega)]
  unfold slhVerify slhSign
  simp only [hseed, hpart]
  generalize hr : shake256 32 (k.prf ++ random ++ ([0, 0] ++ msg)) = r
  have hrl : r.length = 32 := by rw [← hr]; exact shake256_length 32 (by decide) _
  generalize hd : shake256 47 (r ++ k.seed ++ k.node 7 0 8 0 ++ ([0, 0] ++ msg)) = d
  have hdl : d.length = 47 := by rw [← hd]; exact shake256_length 47 (by decide) _
  generalize ht : ofBe ((d.drop 39).take 7) = tree
  have htl : tree < 256 ^ 7 := by
    rw [← ht]; have := ofBe_lt ((d.drop 39).take 7); rwa [List.length_take, List.length_drop, hdl] at this
  generalize hl : ofBe (d.drop 46) = leaf
  have hll : leaf < 256 := by rw [← hl]; have := ofBe_lt (d.drop 46); rwa [List.length_drop, hdl] at this
  have hfl := signFors_length k tree leaf (d.take 39)
  generalize hf : k.signFors tree leaf (d.take 39) = fors at hfl ⊢
  generalize hn : forsKey k.seed tree leaf fors (d.take 39) = node
  have hsl := signTree_length k 8 0 tree leaf node
  have h1 : (r ++ fors ++ k.signTree 8 0 tree leaf node).take 32 = r := by rw [List.append_assoc, ← hrl, List.take_left]
  have h2 : ((r ++ fors ++ k.signTree 8 0 tree leaf node).drop 32).take 10560 = fors := by
    rw [List.append_assoc, ← hrl, List.drop_left, ← hfl, List.take_left]
  have h3 : (r ++ fors ++ k.signTree 8 0 tree leaf node).drop 10592 = k.signTree 8 0 tree leaf node := by
    rw [show 10592 = (r ++ fors).length by rw [List.length_append, hrl, hfl], List.drop_left]
  have hlen : (r ++ fors ++ k.signTree 8 0 tree leaf node).length = 29792 := by
    rw [List.length_append, List.length_append, hrl, hfl, hsl]
  have hkey : (slhPublic k).length = 64 := by rw [slhPublic, List.length_append, hk, hroot]
  rw [h1, hd, ht, hl, h2, hn, h3, hlen, hkey, treeRoot_signTree k 7 0 tree leaf node hll, Nat.div_eq_of_lt htl]
  simp

/-- The identity key verifies what the device signs. -/
theorem identity_verifies (random msg : List Byte) :
    slhVerify (slhPublic identitySecret) msg (slhSign identitySecret random msg) = true :=
  slhVerify_slhSign _ (by simp [identitySecret]) random msg

end Sys2Proof.Machine
end

