-- ==== Sys2Proof/Laws/Memory.lean ====
section
/-! SUPPORT. Memory: a byte reads back, others stay, and every operation on memory keeps its canonical form. -/

namespace Sys2Proof.Machine

/-! ## The canonical form -/

/-- A lower bound of a canonical memory may be lowered. -/
theorem wfFrom_mono : ∀ (l : List Host.Cell) {n m : Nat}, m ≤ n → wfFrom n l = true → wfFrom m l = true
  | [], _, _, _, _ => rfl
  | (a, b) :: t, n, m, hm, h => by
    simp only [wfFrom, Bool.and_eq_true, decide_eq_true_eq] at h ⊢
    exact ⟨⟨by omega, h.1.2⟩, h.2⟩

/-- Putting a byte other than 0 keeps the form. -/
theorem wfFrom_put : ∀ (l : List Host.Cell) (n a : Nat) (b : Byte), n ≤ a → b ≠ 0 → wfFrom n l = true →
    wfFrom n (Tab.put l a b) = true
  | [], n, a, b, hn, hb, _ => by
    simp only [Tab.put, wfFrom, Bool.and_eq_true, decide_eq_true_eq, bne_iff_ne, ne_eq, and_true]
    exact ⟨hn, hb⟩
  | (k, c) :: t, n, a, b, hn, hb, h => by
    simp only [wfFrom, Bool.and_eq_true, decide_eq_true_eq] at h
    unfold Tab.put
    split
    · rename_i hk
      subst hk
      simp only [wfFrom, Bool.and_eq_true, decide_eq_true_eq, bne_iff_ne, ne_eq]
      exact ⟨⟨hn, hb⟩, h.2⟩
    · split
      · simp only [wfFrom, Bool.and_eq_true, decide_eq_true_eq, bne_iff_ne, ne_eq]
        exact ⟨⟨hn, hb⟩, ⟨by omega, by simpa using h.1.2⟩, h.2⟩
      · simp only [wfFrom, Bool.and_eq_true, decide_eq_true_eq]
        exact ⟨h.1, wfFrom_put t (k + 1) a b (by omega) hb h.2⟩

/-- Removing a byte keeps the form. -/
theorem wfFrom_del : ∀ (l : List Host.Cell) (n a : Nat), wfFrom n l = true → wfFrom n (Tab.del l a) = true
  | [], _, _, _ => rfl
  | (k, c) :: t, n, a, h => by
    simp only [wfFrom, Bool.and_eq_true, decide_eq_true_eq] at h
    unfold Tab.del
    split
    · exact wfFrom_del t n a (wfFrom_mono t (by omega) h.2)
    · simp only [wfFrom, Bool.and_eq_true, decide_eq_true_eq]
      exact ⟨h.1, wfFrom_del t (k + 1) a h.2⟩

/-- Keeping a part of the bytes keeps the form. -/
theorem wfFrom_filter (p : Host.Cell → Bool) : ∀ (l : List Host.Cell) (n : Nat), wfFrom n l = true → wfFrom n (l.filter p) = true
  | [], _, _ => rfl
  | (k, c) :: t, n, h => by
    simp only [wfFrom, Bool.and_eq_true, decide_eq_true_eq] at h
    rw [List.filter_cons]
    split
    · simp only [wfFrom, Bool.and_eq_true, decide_eq_true_eq]
      exact ⟨h.1, wfFrom_filter p t (k + 1) h.2⟩
    · exact wfFrom_filter p t n (wfFrom_mono t (by omega) h.2)

/-- Writing one byte keeps the form. -/
theorem wf_putByte {m : List Host.Cell} (h : Memory.wf m = true) (a : Nat) (b : Byte) : Memory.wf (putByte m a b) = true := by
  unfold putByte
  split
  · exact wfFrom_del m 0 a h
  · rename_i hb
    exact wfFrom_put m 0 a b (Nat.zero_le _) hb h

/-- Writing bytes keeps the form. -/
theorem wf_putBytes : ∀ (bs : List Byte) (m : List Host.Cell) (a : Nat), Memory.wf m = true → Memory.wf (putBytes m a bs) = true
  | [], _, _, h => h
  | b :: t, m, a, h => wf_putBytes t (putByte m a b) (a + 1) (wf_putByte h a b)

/-- Keeping a part of memory keeps the form. -/
theorem wf_filter {m : List Host.Cell} (p : Host.Cell → Bool) (h : Memory.wf m = true) : Memory.wf (m.filter p) = true :=
  wfFrom_filter p m 0 h

/-- A listed byte of a canonical memory is not below its bound. -/
theorem wfFrom_look_lt : ∀ (l : List Host.Cell) {n a : Nat}, wfFrom n l = true → a < n → Tab.look (0 : Byte) l a = 0
  | [], _, _, _, _ => rfl
  | (k, c) :: t, n, a, h, ha => by
    simp only [wfFrom, Bool.and_eq_true, decide_eq_true_eq] at h
    have hk : k ≠ a := by omega
    simp only [Tab.look, hk, if_false]
    exact wfFrom_look_lt t h.2 (by omega)

/-! ## Bytes -/

/-- A byte that was written reads back. -/
theorem getByte_putByte_self {m : List Host.Cell} (a : Nat) (b : Byte) : getByte (putByte m a b) a = b := by
  unfold getByte putByte
  split
  · rename_i hb
    rw [Tab.look_eq_find, Tab.find_del_self, hb]
    rfl
  · exact Tab.look_put_self _ _ _ _

/-- Writing a byte leaves every other byte. -/
theorem getByte_putByte_ne {m : List Host.Cell} {a c : Nat} (h : a ≠ c) (b : Byte) : getByte (putByte m a b) c = getByte m c := by
  unfold getByte putByte
  split
  · exact Tab.look_del_ne _ h _
  · exact Tab.look_put_ne _ _ h _

/-- Writing bytes leaves every byte outside them. -/
theorem getByte_putBytes_out : ∀ (bs : List Byte) (m : List Host.Cell) (a c : Nat), c < a ∨ a + bs.length ≤ c →
    getByte (putBytes m a bs) c = getByte m c
  | [], _, _, _, _ => rfl
  | b :: t, m, a, c, h => by
    simp only [List.length_cons] at h
    rw [show putBytes m a (b :: t) = putBytes (putByte m a b) (a + 1) t from rfl,
      getByte_putBytes_out t _ _ _ (by omega), getByte_putByte_ne (by omega)]

/-! ## Operations on memory -/

/-- Memory is canonical in a state. -/
abbrev State.memOk (s : State) : Prop := Memory.wf s.mem = true

/-- A fold of steps that keep the form keeps it. -/
theorem foldl_memOk {α : Type} (f : State → α → State) (hf : ∀ s a, s.memOk → (f s a).memOk) :
    ∀ (l : List α) (s : State), s.memOk → (l.foldl f s).memOk
  | [], _, h => h
  | a :: t, s, h => foldl_memOk f hf t (f s a) (hf s a h)

theorem foldl_wf {α : Type} (f : List Host.Cell → α → List Host.Cell) (hf : ∀ m a, Memory.wf m = true → Memory.wf (f m a) = true) :
    ∀ (l : List α) (m : List Host.Cell), Memory.wf m = true → Memory.wf (l.foldl f m) = true
  | [], _, h => h
  | a :: t, m, h => foldl_wf f hf t (f m a) (hf m a h)

theorem State.rawWrite_memOk {s : State} (h : s.memOk) (ln : Nat) (w : Patch) : (s.rawWrite ln w).memOk := by
  refine foldl_wf _ ?_ _ _ h
  intro m i hm
  split
  · exact wf_putByte hm _ _
  · exact hm

@[simp] theorem State.breakLine_mem (s : State) (ln : Nat) : (s.breakLine ln).mem = s.mem := by
  unfold State.breakLine; dsimp only; split <;> rfl
@[simp] theorem State.stamped_mem (s : State) (who : Nat) : (s.stamped who).mem = s.mem := rfl
@[simp] theorem State.stampLine_mem (s : State) (who ln : Nat) : (s.stampLine who ln).mem = s.mem := by
  unfold State.stampLine; split <;> rfl
@[simp] theorem State.access_mem (s : State) (x : CtxNo) (a : Access) : (s.access x a).mem = s.mem := by simp [State.access]
@[simp] theorem State.wroteWord_mem (s : State) (x : CtxNo) (word : Nat) (a : Access) : (s.wroteWord x word a).mem = s.mem := by
  simp [State.wroteWord]
@[simp] theorem State.sawWord_mem (s : State) (x : CtxNo) (word : Nat) (a : Access) : (s.sawWord x word a).mem = s.mem := by
  simp [State.sawWord]
@[simp] theorem State.publish_mem (s : State) (x : CtxNo) (scope word : Nat) (k : Clock) : (s.publish x scope word k).mem = s.mem := by
  simp [State.publish]

theorem State.l2Write_memOk {s : State} (h : s.memOk) (ln : Nat) (w : Patch) : (s.l2Write ln w).memOk := by
  unfold State.l2Write
  split
  · exact h
  · exact State.rawWrite_memOk h ..

@[simp] theorem State.l2Fill_mem (s : State) (ln : Nat) : (s.l2Fill ln).mem = s.mem := by
  unfold State.l2Fill; split <;> rfl

theorem State.dropL2_memOk {s : State} (h : s.memOk) (ln : Nat) : (s.dropL2 ln).memOk := by
  unfold State.dropL2
  split
  · exact State.rawWrite_memOk h ..
  · exact h

@[simp] theorem State.breakHome_mem (s : State) (h : Home) (addr : Nat) : (s.breakHome h addr).mem = s.mem := by
  unfold State.breakHome; split <;> simp

theorem State.homeWrite_memOk {s : State} (h : s.memOk) (x : Option CtxNo) (ln : Nat) (w : Patch) : (s.homeWrite x ln w).memOk := by
  unfold State.homeWrite
  split
  · exact h
  · split
    · exact h
    · simpa [State.memOk] using State.l2Write_memOk h ln w

theorem State.homePut_memOk {s : State} (h : s.memOk) (x : Option CtxNo) (pa n v : Nat) (pois : Bool) (who op : Nat) :
    (s.homePut x pa n v pois who op).memOk := by
  simpa [State.memOk, State.homePut] using State.homeWrite_memOk h ..

theorem State.unitPut_memOk {s : State} (h : s.memOk) (pa n v : Nat) (pois : Bool) : (s.unitPut pa n v pois).memOk :=
  State.rawWrite_memOk h ..

theorem State.pagePut_memOk {s : State} (h : s.memOk) (x : Option CtxNo) (pte : Word) (pa n v : Nat) (pois : Bool) (who op : Nat) :
    (s.pagePut x pte pa n v pois who op).memOk := by
  unfold State.pagePut
  split
  · exact State.unitPut_memOk h ..
  · exact State.homePut_memOk h ..

theorem State.acceptOne_memOk {s : State} (h : s.memOk) (w : DurableWrite) (rest : List DurableWrite) :
    (s.acceptOne w rest).memOk := State.rawWrite_memOk h w.line w.put

theorem State.acceptAll_memOk : ∀ (l : List DurableWrite) {s : State}, s.memOk → (s.acceptAll l).memOk
  | [], _, h => h
  | w :: t, _, h => State.acceptAll_memOk t (State.acceptOne_memOk h w t)

theorem State.acceptWaiting_memOk {s : State} (h : s.memOk) : s.acceptWaiting.memOk := State.acceptAll_memOk _ h

theorem State.acceptLine_memOk {s : State} (h : s.memOk) (ln : Nat) : (s.acceptLine ln).memOk :=
  foldl_memOk _ (fun _ _ ht => State.acceptOne_memOk ht _ _) _ _ h

@[simp] theorem State.settleHistory_mem (s : State) (kn : Tab Nat) : (s.settleHistory kn).mem = s.mem := rfl

theorem State.reachHome_memOk {s : State} (h : s.memOk) (ln : Nat) : (s.reachHome ln).memOk := by
  simpa [State.memOk, State.reachHome] using State.acceptLine_memOk h ln
theorem State.reachPage_memOk {s : State} (h : s.memOk) (pte : Word) (ln : Nat) : (s.reachPage pte ln).memOk := by
  unfold State.reachPage
  split
  · exact h
  · exact State.reachHome_memOk h ln

theorem State.quadFill_memOk {s : State} (h : s.memOk) (q ln : Nat) : (s.quadFill q ln).memOk := by
  unfold State.quadFill
  dsimp only
  split
  · split <;> exact h
  · split
    · exact State.reachHome_memOk h ln
    · split
      · exact State.reachHome_memOk h ln
      · exact State.reachHome_memOk h ln

theorem State.quadWrite_memOk {s : State} (h : s.memOk) (x : Option CtxNo) (q ln : Nat) (w : Patch) (win : Bool) :
    (s.quadWrite x q ln w win).memOk := by
  unfold State.quadWrite
  dsimp only
  split
  · exact h
  · split
    · simpa [State.memOk] using State.quadFill_memOk h q ln
    · exact State.homeWrite_memOk (State.quadFill_memOk h q ln) ..

theorem State.cleanL1_memOk {s : State} (h : s.memOk) (x : Option CtxNo) (c ln : Nat) : (s.cleanL1 x c ln).memOk := by
  unfold State.cleanL1
  split
  · exact State.quadWrite_memOk (by simpa [State.memOk] using h) ..
  · exact h

theorem State.cleanQuad_memOk {s : State} (h : s.memOk) (x : Option CtxNo) (q ln : Nat) (keep : Bool) : (s.cleanQuad x q ln keep).memOk := by
  unfold State.cleanQuad
  split
  · exact State.homeWrite_memOk (by simpa [State.memOk] using h) ..
  · exact h

theorem State.flushL1_memOk {s : State} (h : s.memOk) (x : Option CtxNo) (c : Nat) : (s.flushL1 x c).memOk :=
  foldl_memOk _ (fun _ _ ht => State.cleanL1_memOk ht ..) _ _ h

theorem State.flushQuad_memOk {s : State} (h : s.memOk) (x : Option CtxNo) (q : Nat) (keep : Bool) : (s.flushQuad x q keep).memOk :=
  foldl_memOk _ (fun _ _ ht => State.cleanQuad_memOk ht ..) _ _ h

theorem State.dropL1_memOk {s : State} (h : s.memOk) (x : Option CtxNo) (c ln : Nat) : (s.dropL1 x c ln).memOk := by
  simpa [State.memOk, State.dropL1] using State.cleanL1_memOk h x c ln

theorem State.dropQuad_memOk {s : State} (h : s.memOk) (x : Option CtxNo) (q ln : Nat) : (s.dropQuad x q ln).memOk := by
  simpa [State.memOk, State.dropQuad] using State.cleanQuad_memOk h x q ln false

theorem State.purge_memOk {s : State} (h : s.memOk) (x : CtxNo) (ln : Nat) : (s.purge x ln).memOk :=
  State.acceptLine_memOk (State.dropQuad_memOk (State.dropL1_memOk h ..) ..) _

theorem State.l1Fill_memOk {s : State} (h : s.memOk) (c ln : Nat) (pte : Word) : (s.l1Fill c ln pte).memOk := by
  unfold State.l1Fill
  dsimp only
  split
  · exact h
  · split <;> split <;> first | exact h | exact State.quadFill_memOk h ..

theorem State.storeFill_memOk {s : State} (h : s.memOk) (q o : Nat) : (s.storeFill q o).memOk := by
  unfold State.storeFill
  split
  · exact h
  · exact State.quadFill_memOk h ..

theorem State.storeWrite_memOk {s : State} (h : s.memOk) (q o n v : Nat) (pois : Bool) (who op : Nat) :
    (s.storeWrite q o n v pois who op).memOk := by
  unfold State.storeWrite
  dsimp only
  split
  · simpa [State.memOk] using h
  · simpa [State.memOk] using State.quadWrite_memOk h ..

theorem State.putPlace_memOk {s : State} (h : s.memOk) (x : CtxNo) (p : Place) (n v : Nat) (pois : Bool) (who op : Nat) :
    (s.putPlace x p n v pois who op).memOk := by
  have h1 (ln : Nat) (c : Nat) (pte : Word) : ((s.breakLine ln).l1Fill c ln pte).memOk :=
    State.l1Fill_memOk (by simpa [State.memOk] using h) ..
  unfold State.putPlace
  dsimp only
  split
  · exact State.storeWrite_memOk h ..
  · split
    · exact State.pagePut_memOk (State.dropL1_memOk h ..) ..
    · split
      · simpa [State.memOk] using h1 ..
      · simpa [State.memOk] using State.quadWrite_memOk (h1 ..) ..

theorem State.writePlace_memOk {s : State} (h : s.memOk) (x : CtxNo) (p : Place) (n v : Nat) (pois : Bool) (a : Access) :
    (s.writePlace x p n v pois a).memOk := by
  simpa [State.memOk, State.writePlace] using State.putPlace_memOk h ..

theorem State.readPlace_memOk {s : State} (h : s.memOk) (c : Nat) (p : Place) (n : Nat) : (s.readPlace c p n).1.memOk := by
  unfold State.readPlace
  dsimp only
  split
  · exact State.storeFill_memOk h ..
  · split
    · exact State.reachPage_memOk h ..
    · exact State.l1Fill_memOk h ..

theorem State.readBy_memOk {s : State} (h : s.memOk) (x : CtxNo) (p : Place) (n : Nat) (a : Access) : (s.readBy x p n a).1.memOk := by
  simpa [State.memOk, State.readBy] using State.readPlace_memOk h ..

theorem State.engineWrite_memOk {s : State} (h : s.memOk) (x : CtxNo) (p : Place) (n v : Nat) (pois : Bool) (no : Nat) :
    (s.engineWrite x p n v pois no).memOk := by
  unfold State.engineWrite
  dsimp only
  rw [State.memOk, State.modBefore_mem]
  split
  · exact State.storeWrite_memOk h ..
  · split
    · exact State.unitPut_memOk (State.purge_memOk h ..) ..
    · split
      · simpa [State.memOk] using State.purge_memOk h ..
      · exact State.homePut_memOk (State.purge_memOk h ..) ..

theorem State.acceptBack_memOk {s : State} (h : s.memOk) (q o : Nat) : (s.acceptBack q o).memOk := by
  unfold State.acceptBack
  split
  · exact h
  · exact State.acceptLine_memOk h _

theorem State.purgePlace_memOk {s : State} (h : s.memOk) (x : CtxNo) (p : Place) : (s.purgePlace x p).memOk := by
  unfold State.purgePlace
  split
  · exact State.acceptBack_memOk h ..
  · exact State.purge_memOk h ..

theorem State.atomWrite_memOk {s : State} (h : s.memOk) (x : CtxNo) (k : Home) (addr size v : Nat) (pois : Bool) (who : Nat) :
    (s.atomWrite x k addr size v pois who).memOk := by
  unfold State.atomWrite
  split
  · exact State.storeWrite_memOk h ..
  · exact State.unitPut_memOk h ..
  · exact State.acceptLine_memOk (State.homePut_memOk h ..) _
  · exact State.homePut_memOk h ..

theorem State.atomDo_memOk {s : State} (h : s.memOk) (x : CtxNo) (a : Atom) (who : Nat) : (s.atomDo x a who).1.memOk := by
  have h1 : (s.breakHome a.home a.addr).memOk := by simpa [State.memOk] using h
  unfold State.atomDo
  dsimp only
  split
  · exact State.atomWrite_memOk h1 ..
  · split
    · exact h1
    · exact State.atomWrite_memOk h1 ..

theorem State.atomBy_memOk {s : State} (h : s.memOk) (x : CtxNo) (b : Atom) (a : Access) : (s.atomBy x b a).1.memOk := by
  simpa [State.memOk, State.atomBy] using State.atomDo_memOk h ..

theorem State.purgeAtom_memOk {s : State} (h : s.memOk) (x : CtxNo) (a : Atom) : (s.purgeAtom x a).memOk := by
  unfold State.purgeAtom
  split
  · exact h
  · exact State.purge_memOk h ..

theorem State.performPosted_memOk {s : State} (h : s.memOk) (p : Posted) : (s.performPosted p).memOk := by
  have h1 : ∀ (l : List Atom) (a : State × Bool), a.1.memOk → (l.foldl (fun (a : State × Bool) b =>
      (((a.1.purgeAtom p.x b).atomDo p.x b p.thread).1, a.2 || ((a.1.purgeAtom p.x b).atomDo p.x b p.thread).2.2.2)) a).1.memOk := by
    intro l
    induction l with
    | nil => exact fun _ ha => ha
    | cons b t ih => exact fun a ha => ih _ (State.atomDo_memOk (State.purgeAtom_memOk ha ..) ..)
  have h2 := h1 p.atoms (s, false) h
  unfold State.performPosted
  dsimp only
  split
  · split <;> exact h2
  · refine foldl_memOk _ ?_ _ _ ?_
    · intro t a ht
      simpa [State.memOk] using ht
    · split <;> exact h2

theorem State.settleUnit_memOk {s : State} (h : s.memOk) (pa : Nat) : (s.settleUnit pa).memOk :=
  foldl_memOk _ (fun _ _ ht => State.performPosted_memOk ht _) _ _ h

theorem State.writeBacks_memOk {s : State} (h : s.memOk) (x : CtxNo) (scope : Nat) : (s.writeBacks x scope).memOk := by
  unfold State.writeBacks
  by_cases h2 : 2 ≤ scope <;> by_cases h3 : 3 ≤ scope <;> simp only [h2, h3, if_true, if_false]
  · exact State.flushQuad_memOk (State.flushL1_memOk h ..) ..
  · exact State.flushL1_memOk h ..
  · exact State.flushQuad_memOk h ..
  · exact h

theorem State.invalidate_memOk {s : State} (h : s.memOk) (x : CtxNo) (scope : Nat) : (s.invalidate x scope).memOk := by
  have h1 : State.memOk ((s.flushL1 none (coreOf x)).modCore (coreOf x) fun k => { k with l1 := [] }) := by
    simpa [State.memOk] using State.flushL1_memOk h none (coreOf x)
  unfold State.invalidate
  by_cases h2 : 2 ≤ scope <;> by_cases h3 : 3 ≤ scope <;> simp only [h2, h3, if_true, if_false]
  · simpa [State.memOk] using State.flushQuad_memOk h1 none (quadOf x) true
  · exact h1
  · simpa [State.memOk] using State.flushQuad_memOk h none (quadOf x) true
  · exact h

theorem State.flushDurable_memOk {s : State} (h : s.memOk) (x : CtxNo) (keep : Bool) : (s.flushDurable x keep).memOk :=
  foldl_memOk _ (fun _ _ ht => State.cleanQuad_memOk ht ..) _ _ (foldl_memOk _ (fun _ _ ht => State.cleanL1_memOk ht ..) _ _ h)

/-- The memory of the reset state lists nothing. -/
theorem State.reset_memOk : State.reset.memOk := rfl

end Sys2Proof.Machine
end

