-- ==== Sys2Proof/Laws/PerInstr.lean ====
section
/-! SUPPORT. Laws that hold of every instruction as syntax, one lemma for each constructor: the first word of an encoding gives
its length. -/

namespace Sys2Proof.Laws

/-- The first word of the encoding selects as many bytes as the encoding has (R26, R27); an event has no words. -/
def WordCount.Statement (i : Instr) : Prop :=
  ∀ ws, encode i = some ws → ∃ w t, ws = w :: t ∧ unitLength w = 4 * ws.length

/-- The low bits of a word put together from two parts. -/
theorem WordCount.low {n m : Nat} (y : BitVec n) (z : BitVec m) : (y ++ z).extractLsb' 0 m = z := by
  apply BitVec.eq_of_getLsbD_eq
  intro k hk
  rw [BitVec.getLsbD_extractLsb', BitVec.getLsbD_append]
  simp [hk]

/-- A word whose bit 0 is 0 is an instruction of 32 bits. -/
theorem WordCount.one (x : BitVec 31) : unitLength (x ++ 0#1) = 4 := by
  have h : (x ++ 0#1).getLsbD 0 = false := by rw [BitVec.getLsbD_append]; rfl
  have k : ∀ w : BitVec 32, w.getLsbD 0 = false → unitLength w = 4 := by
    intro w hw
    have h2 : ∀ z : BitVec 2, z.getLsbD 0 = true → w.extractLsb' 0 2 ≠ z := by
      intro z hz e
      rw [← e, BitVec.getLsbD_extractLsb', Nat.zero_add, hw] at hz
      exact absurd hz (by decide)
    unfold unitLength
    rw [if_neg (h2 1 rfl), if_neg (h2 3 rfl)]
  exact k _ h

/-- The words of a 64-bit instruction, with a prefix or without. -/
theorem WordCount.sixtyFour {i : Instr} {major : Nat} {f : Op64} (h32 : encode32 i = none) (h : parts64 i = some (major, f)) :
    WordCount.Statement i := by
  have low : ∀ y : BitVec 62, ((y ++ 1#2).extractLsb' 0 32).extractLsb' 0 2 = 1#2 := by
    intro y
    have e := WordCount.low y 1#2
    apply BitVec.eq_of_getLsbD_eq
    intro k hk
    have ek := congrArg (fun b : BitVec 2 => b.getLsbD k) e
    simp only [BitVec.getLsbD_extractLsb', hk, Nat.zero_add, decide_true, Bool.true_and] at ek ⊢
    rw [show decide (k < 32) = true from decide_eq_true (by omega), Bool.true_and]
    exact ek
  have pre : ∀ y : BitVec 30, (y ++ 3#2).extractLsb' 0 2 = 3#2 := fun y => WordCount.low y 3#2
  have l8 : ∀ w : BitVec 32, w.extractLsb' 0 2 = 1#2 → unitLength w = 8 := fun w hw => by unfold unitLength; exact if_pos hw
  have l12 : ∀ w : BitVec 32, w.extractLsb' 0 2 = 3#2 → unitLength w = 12 := fun w hw => by
    unfold unitLength; rw [if_neg (by rw [hw]; decide)]; exact if_pos hw
  intro ws hws
  unfold encode at hws
  rw [h32, h] at hws
  dsimp only at hws
  cases hp : f.pfx with
  | none =>
    rw [hp] at hws
    cases hws
    exact ⟨_, _, rfl, l8 _ (low _)⟩
  | some p =>
    rw [hp] at hws
    cases hws
    exact ⟨_, _, rfl, l12 _ (pre _)⟩

/-- The word of a 32-bit instruction. -/
theorem WordCount.thirtyTwo {i : Instr} {x : BitVec 31} (h : encode32 i = some (x ++ 0#1)) : WordCount.Statement i := by
  intro ws hws
  unfold encode at hws
  rw [h] at hws
  cases hws
  exact ⟨_, _, rfl, by rw [WordCount.one]; rfl⟩

/-- An event. -/
theorem WordCount.event {i : Instr} (h : encode i = none) : WordCount.Statement i := by
  intro ws hws
  rw [h] at hws
  cases hws

theorem WordCount.add (d a b : Reg) : WordCount.Statement (.add d a b) := WordCount.thirtyTwo rfl
theorem WordCount.sub (d a b : Reg) : WordCount.Statement (.sub d a b) := WordCount.thirtyTwo rfl
theorem WordCount.and (d a b : Reg) : WordCount.Statement (.and d a b) := WordCount.thirtyTwo rfl
theorem WordCount.or (d a b : Reg) : WordCount.Statement (.or d a b) := WordCount.thirtyTwo rfl
theorem WordCount.xor (d a b : Reg) : WordCount.Statement (.xor d a b) := WordCount.thirtyTwo rfl
theorem WordCount.andn (d a b : Reg) : WordCount.Statement (.andn d a b) := WordCount.thirtyTwo rfl
theorem WordCount.sll (d a b : Reg) : WordCount.Statement (.sll d a b) := WordCount.thirtyTwo rfl
theorem WordCount.srl (d a b : Reg) : WordCount.Statement (.srl d a b) := WordCount.thirtyTwo rfl
theorem WordCount.sra (d a b : Reg) : WordCount.Statement (.sra d a b) := WordCount.thirtyTwo rfl
theorem WordCount.slt (d a b : Reg) : WordCount.Statement (.slt d a b) := WordCount.thirtyTwo rfl
theorem WordCount.sltu (d a b : Reg) : WordCount.Statement (.sltu d a b) := WordCount.thirtyTwo rfl
theorem WordCount.min (d a b : Reg) : WordCount.Statement (.min d a b) := WordCount.thirtyTwo rfl
theorem WordCount.max (d a b : Reg) : WordCount.Statement (.max d a b) := WordCount.thirtyTwo rfl
theorem WordCount.minu (d a b : Reg) : WordCount.Statement (.minu d a b) := WordCount.thirtyTwo rfl
theorem WordCount.maxu (d a b : Reg) : WordCount.Statement (.maxu d a b) := WordCount.thirtyTwo rfl
theorem WordCount.mul (d a b : Reg) : WordCount.Statement (.mul d a b) := WordCount.thirtyTwo rfl
theorem WordCount.mulh (d a b : Reg) : WordCount.Statement (.mulh d a b) := WordCount.thirtyTwo rfl
theorem WordCount.mulhu (d a b : Reg) : WordCount.Statement (.mulhu d a b) := WordCount.thirtyTwo rfl
theorem WordCount.div (d a b : Reg) : WordCount.Statement (.div d a b) := WordCount.thirtyTwo rfl
theorem WordCount.divu (d a b : Reg) : WordCount.Statement (.divu d a b) := WordCount.thirtyTwo rfl
theorem WordCount.rem (d a b : Reg) : WordCount.Statement (.rem d a b) := WordCount.thirtyTwo rfl
theorem WordCount.remu (d a b : Reg) : WordCount.Statement (.remu d a b) := WordCount.thirtyTwo rfl
theorem WordCount.popc (d a : Reg) : WordCount.Statement (.popc d a) := WordCount.thirtyTwo rfl
theorem WordCount.clz (d a : Reg) : WordCount.Statement (.clz d a) := WordCount.thirtyTwo rfl
theorem WordCount.ctz (d a : Reg) : WordCount.Statement (.ctz d a) := WordCount.thirtyTwo rfl
theorem WordCount.sext (d a b : Reg) : WordCount.Statement (.sext d a b) := WordCount.thirtyTwo rfl
theorem WordCount.zext (d a b : Reg) : WordCount.Statement (.zext d a b) := WordCount.thirtyTwo rfl
theorem WordCount.bswap (d a : Reg) : WordCount.Statement (.bswap d a) := WordCount.thirtyTwo rfl
theorem WordCount.addi (d a : Reg) (imm : BitVec 16) : WordCount.Statement (.addi d a imm) := WordCount.thirtyTwo rfl
theorem WordCount.andi (d a : Reg) (imm : BitVec 16) : WordCount.Statement (.andi d a imm) := WordCount.thirtyTwo rfl
theorem WordCount.ori (d a : Reg) (imm : BitVec 16) : WordCount.Statement (.ori d a imm) := WordCount.thirtyTwo rfl
theorem WordCount.xori (d a : Reg) (imm : BitVec 16) : WordCount.Statement (.xori d a imm) := WordCount.thirtyTwo rfl
theorem WordCount.slli (d a : Reg) (sh : BitVec 6) : WordCount.Statement (.slli d a sh) := WordCount.thirtyTwo rfl
theorem WordCount.srli (d a : Reg) (sh : BitVec 6) : WordCount.Statement (.srli d a sh) := WordCount.thirtyTwo rfl
theorem WordCount.srai (d a : Reg) (sh : BitVec 6) : WordCount.Statement (.srai d a sh) := WordCount.thirtyTwo rfl
theorem WordCount.slti (d a : Reg) (imm : BitVec 16) : WordCount.Statement (.slti d a imm) := WordCount.thirtyTwo rfl
theorem WordCount.sltiu (d a : Reg) (imm : BitVec 16) : WordCount.Statement (.sltiu d a imm) := WordCount.thirtyTwo rfl
theorem WordCount.lih (d : Reg) (imm : BitVec 21) : WordCount.Statement (.lih d imm) := WordCount.thirtyTwo rfl
theorem WordCount.pca (d : Reg) (imm : BitVec 21) : WordCount.Statement (.pca d imm) := WordCount.thirtyTwo rfl
theorem WordCount.jal (d : Reg) (off : BitVec 21) : WordCount.Statement (.jal d off) := WordCount.thirtyTwo rfl
theorem WordCount.jalr (d a : Reg) (imm : BitVec 16) : WordCount.Statement (.jalr d a imm) := WordCount.thirtyTwo rfl
theorem WordCount.calli (slot : BitVec 16) : WordCount.Statement (.calli slot) := WordCount.thirtyTwo rfl
theorem WordCount.beq (a b : Reg) (off : BitVec 13) : WordCount.Statement (.beq a b off) := WordCount.thirtyTwo rfl
theorem WordCount.bne (a b : Reg) (off : BitVec 13) : WordCount.Statement (.bne a b off) := WordCount.thirtyTwo rfl
theorem WordCount.blt (a b : Reg) (off : BitVec 13) : WordCount.Statement (.blt a b off) := WordCount.thirtyTwo rfl
theorem WordCount.bge (a b : Reg) (off : BitVec 13) : WordCount.Statement (.bge a b off) := WordCount.thirtyTwo rfl
theorem WordCount.bltu (a b : Reg) (off : BitVec 13) : WordCount.Statement (.bltu a b off) := WordCount.thirtyTwo rfl
theorem WordCount.bgeu (a b : Reg) (off : BitVec 13) : WordCount.Statement (.bgeu a b off) := WordCount.thirtyTwo rfl
theorem WordCount.ld (d a : Reg) (cls : BitVec 4) (size : BitVec 2) (off : BitVec 10) : WordCount.Statement (.ld d a cls size off) := WordCount.thirtyTwo rfl
theorem WordCount.ldz (d a : Reg) (cls : BitVec 4) (size : BitVec 2) (off : BitVec 10) : WordCount.Statement (.ldz d a cls size off) := WordCount.thirtyTwo rfl
theorem WordCount.st (d a : Reg) (cls : BitVec 4) (size : BitVec 2) (off : BitVec 10) : WordCount.Statement (.st d a cls size off) := WordCount.thirtyTwo rfl
theorem WordCount.lda (d a : Reg) (cls : BitVec 4) (size : BitVec 2) (scope : BitVec 3) : WordCount.Statement (.lda d a cls size scope) := WordCount.thirtyTwo rfl
theorem WordCount.stl (d a : Reg) (cls : BitVec 4) (size : BitVec 2) (scope : BitVec 3) : WordCount.Statement (.stl d a cls size scope) := WordCount.thirtyTwo rfl
theorem WordCount.amoadd (d a b : Reg) (size : BitVec 2) (scope : BitVec 3) (ord : BitVec 2) : WordCount.Statement (.amoadd d a b size scope ord) := WordCount.thirtyTwo rfl
theorem WordCount.amoand (d a b : Reg) (size : BitVec 2) (scope : BitVec 3) (ord : BitVec 2) : WordCount.Statement (.amoand d a b size scope ord) := WordCount.thirtyTwo rfl
theorem WordCount.amoor (d a b : Reg) (size : BitVec 2) (scope : BitVec 3) (ord : BitVec 2) : WordCount.Statement (.amoor d a b size scope ord) := WordCount.thirtyTwo rfl
theorem WordCount.amoxor (d a b : Reg) (size : BitVec 2) (scope : BitVec 3) (ord : BitVec 2) : WordCount.Statement (.amoxor d a b size scope ord) := WordCount.thirtyTwo rfl
theorem WordCount.amomin (d a b : Reg) (size : BitVec 2) (scope : BitVec 3) (ord : BitVec 2) : WordCount.Statement (.amomin d a b size scope ord) := WordCount.thirtyTwo rfl
theorem WordCount.amomax (d a b : Reg) (size : BitVec 2) (scope : BitVec 3) (ord : BitVec 2) : WordCount.Statement (.amomax d a b size scope ord) := WordCount.thirtyTwo rfl
theorem WordCount.amominu (d a b : Reg) (size : BitVec 2) (scope : BitVec 3) (ord : BitVec 2) : WordCount.Statement (.amominu d a b size scope ord) := WordCount.thirtyTwo rfl
theorem WordCount.amomaxu (d a b : Reg) (size : BitVec 2) (scope : BitVec 3) (ord : BitVec 2) : WordCount.Statement (.amomaxu d a b size scope ord) := WordCount.thirtyTwo rfl
theorem WordCount.amoswap (d a b : Reg) (size : BitVec 2) (scope : BitVec 3) (ord : BitVec 2) : WordCount.Statement (.amoswap d a b size scope ord) := WordCount.thirtyTwo rfl
theorem WordCount.amofadd (d a b : Reg) (scope : BitVec 3) (ord : BitVec 2) : WordCount.Statement (.amofadd d a b scope ord) := WordCount.thirtyTwo rfl
theorem WordCount.amosadd (d a b : Reg) (size : BitVec 2) (scope : BitVec 3) (ord : BitVec 2) : WordCount.Statement (.amosadd d a b size scope ord) := WordCount.thirtyTwo rfl
theorem WordCount.cas (d a b : Reg) (size : BitVec 2) (scope : BitVec 3) (ord : BitVec 2) : WordCount.Statement (.cas d a b size scope ord) := WordCount.thirtyTwo rfl
theorem WordCount.csrr (d : Reg) (csr : BitVec 12) : WordCount.Statement (.csrr d csr) := WordCount.thirtyTwo rfl
theorem WordCount.csrw (d a : Reg) (csr : BitVec 12) : WordCount.Statement (.csrw d a csr) := WordCount.thirtyTwo rfl
theorem WordCount.csrs (d a : Reg) (csr : BitVec 12) : WordCount.Statement (.csrs d a csr) := WordCount.thirtyTwo rfl
theorem WordCount.csrc (d a : Reg) (csr : BitVec 12) : WordCount.Statement (.csrc d a csr) := WordCount.thirtyTwo rfl
theorem WordCount.fadd (d a b : Reg) (rm : BitVec 3) : WordCount.Statement (.fadd d a b rm) := WordCount.thirtyTwo rfl
theorem WordCount.fsub (d a b : Reg) (rm : BitVec 3) : WordCount.Statement (.fsub d a b rm) := WordCount.thirtyTwo rfl
theorem WordCount.fmul (d a b : Reg) (rm : BitVec 3) : WordCount.Statement (.fmul d a b rm) := WordCount.thirtyTwo rfl
theorem WordCount.fdiv (d a b : Reg) (rm : BitVec 3) : WordCount.Statement (.fdiv d a b rm) := WordCount.thirtyTwo rfl
theorem WordCount.fsqrt (d a : Reg) (rm : BitVec 3) : WordCount.Statement (.fsqrt d a rm) := WordCount.thirtyTwo rfl
theorem WordCount.fmin (d a b : Reg) : WordCount.Statement (.fmin d a b) := WordCount.thirtyTwo rfl
theorem WordCount.fmax (d a b : Reg) : WordCount.Statement (.fmax d a b) := WordCount.thirtyTwo rfl
theorem WordCount.fcvtFI (d a : Reg) (rm : BitVec 3) : WordCount.Statement (.fcvtFI d a rm) := WordCount.thirtyTwo rfl
theorem WordCount.fcvtIF (d a : Reg) (rm : BitVec 3) : WordCount.Statement (.fcvtIF d a rm) := WordCount.thirtyTwo rfl
theorem WordCount.fcvtFN (d a : Reg) (rm : BitVec 3) : WordCount.Statement (.fcvtFN d a rm) := WordCount.thirtyTwo rfl
theorem WordCount.fcvtNF (d a : Reg) (rm : BitVec 3) : WordCount.Statement (.fcvtNF d a rm) := WordCount.thirtyTwo rfl
theorem WordCount.feq (d a b : Reg) : WordCount.Statement (.feq d a b) := WordCount.thirtyTwo rfl
theorem WordCount.flt (d a b : Reg) : WordCount.Statement (.flt d a b) := WordCount.thirtyTwo rfl
theorem WordCount.fle (d a b : Reg) : WordCount.Statement (.fle d a b) := WordCount.thirtyTwo rfl
theorem WordCount.fclass (d a : Reg) : WordCount.Statement (.fclass d a) := WordCount.thirtyTwo rfl
theorem WordCount.fsgnj (d a b : Reg) : WordCount.Statement (.fsgnj d a b) := WordCount.thirtyTwo rfl
theorem WordCount.fsgnjn (d a b : Reg) : WordCount.Statement (.fsgnjn d a b) := WordCount.thirtyTwo rfl
theorem WordCount.fsgnjx (d a b : Reg) : WordCount.Statement (.fsgnjx d a b) := WordCount.thirtyTwo rfl
theorem WordCount.fence (scope : BitVec 5) (mask : BitVec 16) : WordCount.Statement (.fence scope mask) := WordCount.thirtyTwo rfl
theorem WordCount.ifence (scope : BitVec 5) : WordCount.Statement (.ifence scope) := WordCount.thirtyTwo rfl
theorem WordCount.cyc (d : Reg) : WordCount.Statement (.cyc d) := WordCount.thirtyTwo rfl
theorem WordCount.spawn (d a : Reg) : WordCount.Statement (.spawn d a) := WordCount.thirtyTwo rfl
theorem WordCount.joindec (a : Reg) : WordCount.Statement (.joindec a) := WordCount.thirtyTwo rfl
theorem WordCount.barArrive (d b : Reg) (scope : BitVec 3) : WordCount.Statement (.barArrive d b scope) := WordCount.thirtyTwo rfl
theorem WordCount.barWait (d b : Reg) (scope : BitVec 3) : WordCount.Statement (.barWait d b scope) := WordCount.thirtyTwo rfl
theorem WordCount.barArrwait (d b : Reg) (scope : BitVec 3) : WordCount.Statement (.barArrwait d b scope) := WordCount.thirtyTwo rfl
theorem WordCount.barDrop (d b : Reg) (scope : BitVec 3) : WordCount.Statement (.barDrop d b scope) := WordCount.thirtyTwo rfl
theorem WordCount.vsetvl (f : Op64) : WordCount.Statement (.vsetvl f) := WordCount.sixtyFour rfl rfl
theorem WordCount.vsettype (f : Op64) : WordCount.Statement (.vsettype f) := WordCount.sixtyFour rfl rfl
theorem WordCount.vloop (f : Op64) : WordCount.Statement (.vloop f) := WordCount.sixtyFour rfl rfl
theorem WordCount.vstrip (f : Op64) : WordCount.Statement (.vstrip f) := WordCount.sixtyFour rfl rfl
theorem WordCount.vnext (f : Op64) : WordCount.Statement (.vnext f) := WordCount.sixtyFour rfl rfl
theorem WordCount.vget (f : Op64) : WordCount.Statement (.vget f) := WordCount.sixtyFour rfl rfl
theorem WordCount.vadd (f : Op64) : WordCount.Statement (.vadd f) := WordCount.sixtyFour rfl rfl
theorem WordCount.vsub (f : Op64) : WordCount.Statement (.vsub f) := WordCount.sixtyFour rfl rfl
theorem WordCount.vrsub (f : Op64) : WordCount.Statement (.vrsub f) := WordCount.sixtyFour rfl rfl
theorem WordCount.vmul (f : Op64) : WordCount.Statement (.vmul f) := WordCount.sixtyFour rfl rfl
theorem WordCount.vmulh (f : Op64) : WordCount.Statement (.vmulh f) := WordCount.sixtyFour rfl rfl
theorem WordCount.vmulhu (f : Op64) : WordCount.Statement (.vmulhu f) := WordCount.sixtyFour rfl rfl
theorem WordCount.vmac (f : Op64) : WordCount.Statement (.vmac f) := WordCount.sixtyFour rfl rfl
theorem WordCount.vdiv (f : Op64) : WordCount.Statement (.vdiv f) := WordCount.sixtyFour rfl rfl
theorem WordCount.vdivu (f : Op64) : WordCount.Statement (.vdivu f) := WordCount.sixtyFour rfl rfl
theorem WordCount.vrem (f : Op64) : WordCount.Statement (.vrem f) := WordCount.sixtyFour rfl rfl
theorem WordCount.vremu (f : Op64) : WordCount.Statement (.vremu f) := WordCount.sixtyFour rfl rfl
theorem WordCount.vmin (f : Op64) : WordCount.Statement (.vmin f) := WordCount.sixtyFour rfl rfl
theorem WordCount.vmax (f : Op64) : WordCount.Statement (.vmax f) := WordCount.sixtyFour rfl rfl
theorem WordCount.vminu (f : Op64) : WordCount.Statement (.vminu f) := WordCount.sixtyFour rfl rfl
theorem WordCount.vmaxu (f : Op64) : WordCount.Statement (.vmaxu f) := WordCount.sixtyFour rfl rfl
theorem WordCount.vand (f : Op64) : WordCount.Statement (.vand f) := WordCount.sixtyFour rfl rfl
theorem WordCount.vor (f : Op64) : WordCount.Statement (.vor f) := WordCount.sixtyFour rfl rfl
theorem WordCount.vxor (f : Op64) : WordCount.Statement (.vxor f) := WordCount.sixtyFour rfl rfl
theorem WordCount.vandn (f : Op64) : WordCount.Statement (.vandn f) := WordCount.sixtyFour rfl rfl
theorem WordCount.vshl (f : Op64) : WordCount.Statement (.vshl f) := WordCount.sixtyFour rfl rfl
theorem WordCount.vshr (f : Op64) : WordCount.Statement (.vshr f) := WordCount.sixtyFour rfl rfl
theorem WordCount.vsra (f : Op64) : WordCount.Statement (.vsra f) := WordCount.sixtyFour rfl rfl
theorem WordCount.vshrr (f : Op64) : WordCount.Statement (.vshrr f) := WordCount.sixtyFour rfl rfl
theorem WordCount.vsadd (f : Op64) : WordCount.Statement (.vsadd f) := WordCount.sixtyFour rfl rfl
theorem WordCount.vsaddu (f : Op64) : WordCount.Statement (.vsaddu f) := WordCount.sixtyFour rfl rfl
theorem WordCount.vssub (f : Op64) : WordCount.Statement (.vssub f) := WordCount.sixtyFour rfl rfl
theorem WordCount.vssubu (f : Op64) : WordCount.Statement (.vssubu f) := WordCount.sixtyFour rfl rfl
theorem WordCount.vpmac (f : Op64) : WordCount.Statement (.vpmac f) := WordCount.sixtyFour rfl rfl
theorem WordCount.vpopc (f : Op64) : WordCount.Statement (.vpopc f) := WordCount.sixtyFour rfl rfl
theorem WordCount.vclz (f : Op64) : WordCount.Statement (.vclz f) := WordCount.sixtyFour rfl rfl
theorem WordCount.vctz (f : Op64) : WordCount.Statement (.vctz f) := WordCount.sixtyFour rfl rfl
theorem WordCount.vabsd (f : Op64) : WordCount.Statement (.vabsd f) := WordCount.sixtyFour rfl rfl
theorem WordCount.vcmp (f : Op64) : WordCount.Statement (.vcmp f) := WordCount.sixtyFour rfl rfl
theorem WordCount.vsel (f : Op64) : WordCount.Statement (.vsel f) := WordCount.sixtyFour rfl rfl
theorem WordCount.vbcast (f : Op64) : WordCount.Statement (.vbcast f) := WordCount.sixtyFour rfl rfl
theorem WordCount.viota (f : Op64) : WordCount.Statement (.viota f) := WordCount.sixtyFour rfl rfl
theorem WordCount.vfadd (f : Op64) : WordCount.Statement (.vfadd f) := WordCount.sixtyFour rfl rfl
theorem WordCount.vfsub (f : Op64) : WordCount.Statement (.vfsub f) := WordCount.sixtyFour rfl rfl
theorem WordCount.vfmul (f : Op64) : WordCount.Statement (.vfmul f) := WordCount.sixtyFour rfl rfl
theorem WordCount.vfma (f : Op64) : WordCount.Statement (.vfma f) := WordCount.sixtyFour rfl rfl
theorem WordCount.vfnma (f : Op64) : WordCount.Statement (.vfnma f) := WordCount.sixtyFour rfl rfl
theorem WordCount.vfdiv (f : Op64) : WordCount.Statement (.vfdiv f) := WordCount.sixtyFour rfl rfl
theorem WordCount.vfsqrt (f : Op64) : WordCount.Statement (.vfsqrt f) := WordCount.sixtyFour rfl rfl
theorem WordCount.vfrcp (f : Op64) : WordCount.Statement (.vfrcp f) := WordCount.sixtyFour rfl rfl
theorem WordCount.vfrsq (f : Op64) : WordCount.Statement (.vfrsq f) := WordCount.sixtyFour rfl rfl
theorem WordCount.vfexp2 (f : Op64) : WordCount.Statement (.vfexp2 f) := WordCount.sixtyFour rfl rfl
theorem WordCount.vflog2 (f : Op64) : WordCount.Statement (.vflog2 f) := WordCount.sixtyFour rfl rfl
theorem WordCount.vftanh (f : Op64) : WordCount.Statement (.vftanh f) := WordCount.sixtyFour rfl rfl
theorem WordCount.vfmin (f : Op64) : WordCount.Statement (.vfmin f) := WordCount.sixtyFour rfl rfl
theorem WordCount.vfmax (f : Op64) : WordCount.Statement (.vfmax f) := WordCount.sixtyFour rfl rfl
theorem WordCount.vfcmp (f : Op64) : WordCount.Statement (.vfcmp f) := WordCount.sixtyFour rfl rfl
theorem WordCount.vfclass (f : Op64) : WordCount.Statement (.vfclass f) := WordCount.sixtyFour rfl rfl
theorem WordCount.vfsgnj (f : Op64) : WordCount.Statement (.vfsgnj f) := WordCount.sixtyFour rfl rfl
theorem WordCount.vfsgnjn (f : Op64) : WordCount.Statement (.vfsgnjn f) := WordCount.sixtyFour rfl rfl
theorem WordCount.vfsgnjx (f : Op64) : WordCount.Statement (.vfsgnjx f) := WordCount.sixtyFour rfl rfl
theorem WordCount.vcvt (f : Op64) : WordCount.Statement (.vcvt f) := WordCount.sixtyFour rfl rfl
theorem WordCount.vquant (f : Op64) : WordCount.Statement (.vquant f) := WordCount.sixtyFour rfl rfl
theorem WordCount.vdeq (f : Op64) : WordCount.Statement (.vdeq f) := WordCount.sixtyFour rfl rfl
theorem WordCount.vnarrow (f : Op64) : WordCount.Statement (.vnarrow f) := WordCount.sixtyFour rfl rfl
theorem WordCount.vwiden (f : Op64) : WordCount.Statement (.vwiden f) := WordCount.sixtyFour rfl rfl
theorem WordCount.vld (f : Op64) : WordCount.Statement (.vld f) := WordCount.sixtyFour rfl rfl
theorem WordCount.vlds (f : Op64) : WordCount.Statement (.vlds f) := WordCount.sixtyFour rfl rfl
theorem WordCount.vldx (f : Op64) : WordCount.Statement (.vldx f) := WordCount.sixtyFour rfl rfl
theorem WordCount.vldr (f : Op64) : WordCount.Statement (.vldr f) := WordCount.sixtyFour rfl rfl
theorem WordCount.vst (f : Op64) : WordCount.Statement (.vst f) := WordCount.sixtyFour rfl rfl
theorem WordCount.vsts (f : Op64) : WordCount.Statement (.vsts f) := WordCount.sixtyFour rfl rfl
theorem WordCount.vstx (f : Op64) : WordCount.Statement (.vstx f) := WordCount.sixtyFour rfl rfl
theorem WordCount.vstr (f : Op64) : WordCount.Statement (.vstr f) := WordCount.sixtyFour rfl rfl
theorem WordCount.vgld (f : Op64) : WordCount.Statement (.vgld f) := WordCount.sixtyFour rfl rfl
theorem WordCount.vscc (f : Op64) : WordCount.Statement (.vscc f) := WordCount.sixtyFour rfl rfl
theorem WordCount.vldk (f : Op64) : WordCount.Statement (.vldk f) := WordCount.sixtyFour rfl rfl
theorem WordCount.vstk (f : Op64) : WordCount.Statement (.vstk f) := WordCount.sixtyFour rfl rfl
theorem WordCount.vamo (f : Op64) : WordCount.Statement (.vamo f) := WordCount.sixtyFour rfl rfl
theorem WordCount.vldff (f : Op64) : WordCount.Statement (.vldff f) := WordCount.sixtyFour rfl rfl
theorem WordCount.vperm (f : Op64) : WordCount.Statement (.vperm f) := WordCount.sixtyFour rfl rfl
theorem WordCount.vslup (f : Op64) : WordCount.Statement (.vslup f) := WordCount.sixtyFour rfl rfl
theorem WordCount.vsldn (f : Op64) : WordCount.Statement (.vsldn f) := WordCount.sixtyFour rfl rfl
theorem WordCount.vreshape (f : Op64) : WordCount.Statement (.vreshape f) := WordCount.sixtyFour rfl rfl
theorem WordCount.vcompr (f : Op64) : WordCount.Statement (.vcompr f) := WordCount.sixtyFour rfl rfl
theorem WordCount.vexpnd (f : Op64) : WordCount.Statement (.vexpnd f) := WordCount.sixtyFour rfl rfl
theorem WordCount.vred (f : Op64) : WordCount.Statement (.vred f) := WordCount.sixtyFour rfl rfl
theorem WordCount.vredx (f : Op64) : WordCount.Statement (.vredx f) := WordCount.sixtyFour rfl rfl
theorem WordCount.vscan (f : Op64) : WordCount.Statement (.vscan f) := WordCount.sixtyFour rfl rfl
theorem WordCount.vext (f : Op64) : WordCount.Statement (.vext f) := WordCount.sixtyFour rfl rfl
theorem WordCount.vsortk (f : Op64) : WordCount.Statement (.vsortk f) := WordCount.sixtyFour rfl rfl
theorem WordCount.vmv (f : Op64) : WordCount.Statement (.vmv f) := WordCount.sixtyFour rfl rfl
theorem WordCount.vmvRow (f : Op64) : WordCount.Statement (.vmvRow f) := WordCount.sixtyFour rfl rfl
theorem WordCount.mlog (f : Op64) : WordCount.Statement (.mlog f) := WordCount.sixtyFour rfl rfl
theorem WordCount.mpopc (f : Op64) : WordCount.Statement (.mpopc f) := WordCount.sixtyFour rfl rfl
theorem WordCount.mfirst (f : Op64) : WordCount.Statement (.mfirst f) := WordCount.sixtyFour rfl rfl
theorem WordCount.mpush (f : Op64) : WordCount.Statement (.mpush f) := WordCount.sixtyFour rfl rfl
theorem WordCount.minv (f : Op64) : WordCount.Statement (.minv f) := WordCount.sixtyFour rfl rfl
theorem WordCount.mpop (f : Op64) : WordCount.Statement (.mpop f) := WordCount.sixtyFour rfl rfl
theorem WordCount.bempty (f : Op64) : WordCount.Statement (.bempty f) := WordCount.sixtyFour rfl rfl
theorem WordCount.bany (f : Op64) : WordCount.Statement (.bany f) := WordCount.sixtyFour rfl rfl
theorem WordCount.mset (f : Op64) : WordCount.Statement (.mset f) := WordCount.sixtyFour rfl rfl
theorem WordCount.pmrd (f : Op64) : WordCount.Statement (.pmrd f) := WordCount.sixtyFour rfl rfl
theorem WordCount.pmclr (f : Op64) : WordCount.Statement (.pmclr f) := WordCount.sixtyFour rfl rfl
theorem WordCount.mshape (f : Op64) : WordCount.Statement (.mshape f) := WordCount.sixtyFour rfl rfl
theorem WordCount.wld (f : Op64) : WordCount.Statement (.wld f) := WordCount.sixtyFour rfl rfl
theorem WordCount.wswap (f : Op64) : WordCount.Statement (.wswap f) := WordCount.sixtyFour rfl rfl
theorem WordCount.mma (f : Op64) : WordCount.Statement (.mma f) := WordCount.sixtyFour rfl rfl
theorem WordCount.mmat (f : Op64) : WordCount.Statement (.mmat f) := WordCount.sixtyFour rfl rfl
theorem WordCount.mzero (f : Op64) : WordCount.Statement (.mzero f) := WordCount.sixtyFour rfl rfl
theorem WordCount.tmv (f : Op64) : WordCount.Statement (.tmv f) := WordCount.sixtyFour rfl rfl
theorem WordCount.tcol (f : Op64) : WordCount.Statement (.tcol f) := WordCount.sixtyFour rfl rfl
theorem WordCount.tld (f : Op64) : WordCount.Statement (.tld f) := WordCount.sixtyFour rfl rfl
theorem WordCount.cpy (f : Op64) : WordCount.Statement (.cpy f) := WordCount.sixtyFour rfl rfl
theorem WordCount.evcfgCnt (f : Op64) : WordCount.Statement (.evcfgCnt f) := WordCount.sixtyFour rfl rfl
theorem WordCount.evcfgTerm (f : Op64) : WordCount.Statement (.evcfgTerm f) := WordCount.sixtyFour rfl rfl
theorem WordCount.evpulse (f : Op64) : WordCount.Statement (.evpulse f) := WordCount.sixtyFour rfl rfl
theorem WordCount.tkwait (f : Op64) : WordCount.Statement (.tkwait f) := WordCount.sixtyFour rfl rfl
theorem WordCount.tkpush (f : Op64) : WordCount.Statement (.tkpush f) := WordCount.sixtyFour rfl rfl
theorem WordCount.waitc (f : Op64) : WordCount.Statement (.waitc f) := WordCount.sixtyFour rfl rfl
theorem WordCount.vfence (f : Op64) : WordCount.Statement (.vfence f) := WordCount.sixtyFour rfl rfl
theorem WordCount.nmopAdamw (f : Op64) : WordCount.Statement (.nmopAdamw f) := WordCount.sixtyFour rfl rfl
theorem WordCount.nmopSgdm (f : Op64) : WordCount.Statement (.nmopSgdm f) := WordCount.sixtyFour rfl rfl
theorem WordCount.nmopScadd (f : Op64) : WordCount.Statement (.nmopScadd f) := WordCount.sixtyFour rfl rfl
theorem WordCount.nmopClr (f : Op64) : WordCount.Statement (.nmopClr f) := WordCount.sixtyFour rfl rfl
theorem WordCount.nmfen (f : Op64) : WordCount.Statement (.nmfen f) := WordCount.sixtyFour rfl rfl
theorem WordCount.coll (f : Op64) : WordCount.Statement (.coll f) := WordCount.sixtyFour rfl rfl
theorem WordCount.dreg (f : Op64) : WordCount.Statement (.dreg f) := WordCount.sixtyFour rfl rfl
theorem WordCount.dunreg (f : Op64) : WordCount.Statement (.dunreg f) := WordCount.sixtyFour rfl rfl
theorem WordCount.dmodeOff (f : Op64) : WordCount.Statement (.dmodeOff f) := WordCount.sixtyFour rfl rfl
theorem WordCount.dmodeFwd (f : Op64) : WordCount.Statement (.dmodeFwd f) := WordCount.sixtyFour rfl rfl
theorem WordCount.dmodeRev (f : Op64) : WordCount.Statement (.dmodeRev f) := WordCount.sixtyFour rfl rfl
theorem WordCount.galset (f : Op64) : WordCount.Statement (.galset f) := WordCount.sixtyFour rfl rfl
theorem WordCount.galmark (f : Op64) : WordCount.Statement (.galmark f) := WordCount.sixtyFour rfl rfl
theorem WordCount.galcut (f : Op64) : WordCount.Statement (.galcut f) := WordCount.sixtyFour rfl rfl
theorem WordCount.adjld (f : Op64) : WordCount.Statement (.adjld f) := WordCount.sixtyFour rfl rfl
theorem WordCount.adjclr (f : Op64) : WordCount.Statement (.adjclr f) := WordCount.sixtyFour rfl rfl
theorem WordCount.pwb (f : Op64) : WordCount.Statement (.pwb f) := WordCount.sixtyFour rfl rfl
theorem WordCount.rsend (f : Op64) : WordCount.Statement (.rsend f) := WordCount.sixtyFour rfl rfl
theorem WordCount.rrecv (f : Op64) : WordCount.Statement (.rrecv f) := WordCount.sixtyFour rfl rfl
theorem WordCount.rredst (f : Op64) : WordCount.Statement (.rredst f) := WordCount.sixtyFour rfl rfl
theorem WordCount.rslot (f : Op64) : WordCount.Statement (.rslot f) := WordCount.sixtyFour rfl rfl
theorem WordCount.rpoll (f : Op64) : WordCount.Statement (.rpoll f) := WordCount.sixtyFour rfl rfl
theorem WordCount.ctxsv (f : Op64) : WordCount.Statement (.ctxsv f) := WordCount.sixtyFour rfl rfl
theorem WordCount.ctxrs (f : Op64) : WordCount.Statement (.ctxrs f) := WordCount.sixtyFour rfl rfl
theorem WordCount.tlbinv (f : Op64) : WordCount.Statement (.tlbinv f) := WordCount.sixtyFour rfl rfl
theorem WordCount.sysTrap : WordCount.Statement (.sysTrap) := WordCount.thirtyTwo rfl
theorem WordCount.tret : WordCount.Statement (.tret) := WordCount.thirtyTwo rfl
theorem WordCount.brk : WordCount.Statement (.brk) := WordCount.thirtyTwo rfl
theorem WordCount.snap : WordCount.Statement (.snap) := WordCount.thirtyTwo rfl
theorem WordCount.wfe : WordCount.Statement (.wfe) := WordCount.thirtyTwo rfl
theorem WordCount.exitRecord : WordCount.Statement (.exitRecord) := WordCount.thirtyTwo rfl
theorem WordCount.yieldRecord : WordCount.Statement (.yieldRecord) := WordCount.thirtyTwo rfl
theorem WordCount.waitcRecheck : WordCount.Statement (.waitcRecheck) := WordCount.event rfl
theorem WordCount.vqdrain : WordCount.Statement (.vqdrain) := WordCount.sixtyFour rfl rfl
theorem WordCount.nmopElement : WordCount.Statement (.nmopElement) := WordCount.event rfl
theorem WordCount.nmopCompletion : WordCount.Statement (.nmopCompletion) := WordCount.event rfl
theorem WordCount.collTransfer : WordCount.Statement (.collTransfer) := WordCount.event rfl
theorem WordCount.galleySpill : WordCount.Statement (.galleySpill) := WordCount.event rfl
theorem WordCount.psync : WordCount.Statement (.psync) := WordCount.sixtyFour rfl rfl
theorem WordCount.rfen : WordCount.Statement (.rfen) := WordCount.sixtyFour rfl rfl
theorem WordCount.tallotWrite : WordCount.Statement (.tallotWrite) := WordCount.event rfl
theorem WordCount.wallotWrite : WordCount.Statement (.wallotWrite) := WordCount.event rfl
theorem WordCount.vcsrWrite : WordCount.Statement (.vcsrWrite) := WordCount.event rfl
theorem WordCount.controlSpaceWrite : WordCount.Statement (.controlSpaceWrite) := WordCount.event rfl
theorem WordCount.termFire : WordCount.Statement (.termFire) := WordCount.event rfl
theorem WordCount.chainCopy : WordCount.Statement (.chainCopy) := WordCount.event rfl
theorem WordCount.chainGather : WordCount.Statement (.chainGather) := WordCount.event rfl
theorem WordCount.chainLoop : WordCount.Statement (.chainLoop) := WordCount.event rfl
theorem WordCount.chainIfz : WordCount.Statement (.chainIfz) := WordCount.event rfl
theorem WordCount.chainToken : WordCount.Statement (.chainToken) := WordCount.event rfl
theorem WordCount.chainPulse : WordCount.Statement (.chainPulse) := WordCount.event rfl
theorem WordCount.chainWaitw : WordCount.Statement (.chainWaitw) := WordCount.event rfl
theorem WordCount.chainEnd : WordCount.Statement (.chainEnd) := WordCount.event rfl
theorem WordCount.retirementTrackerFree : WordCount.Statement (.retirementTrackerFree) := WordCount.event rfl
theorem WordCount.drainingEnd : WordCount.Statement (.drainingEnd) := WordCount.event rfl
theorem WordCount.postedOperation : WordCount.Statement (.postedOperation) := WordCount.event rfl
theorem WordCount.homeUnitOperation : WordCount.Statement (.homeUnitOperation) := WordCount.event rfl
theorem WordCount.trapDelivery : WordCount.Statement (.trapDelivery) := WordCount.event rfl
theorem WordCount.recordPop : WordCount.Statement (.recordPop) := WordCount.event rfl
theorem WordCount.recordKill : WordCount.Statement (.recordKill) := WordCount.event rfl
theorem WordCount.preemptSignal : WordCount.Statement (.preemptSignal) := WordCount.event rfl
theorem WordCount.preemptTimeout : WordCount.Statement (.preemptTimeout) := WordCount.event rfl
theorem WordCount.wfeTimeout : WordCount.Statement (.wfeTimeout) := WordCount.event rfl
theorem WordCount.boundaryInterval : WordCount.Statement (.boundaryInterval) := WordCount.event rfl
theorem WordCount.boundaryMove : WordCount.Statement (.boundaryMove) := WordCount.event rfl
theorem WordCount.launch : WordCount.Statement (.launch) := WordCount.event rfl
theorem WordCount.kick : WordCount.Statement (.kick) := WordCount.event rfl
theorem WordCount.rootQueue : WordCount.Statement (.rootQueue) := WordCount.event rfl
theorem WordCount.counterReport : WordCount.Statement (.counterReport) := WordCount.event rfl
theorem WordCount.dieConfirm : WordCount.Statement (.dieConfirm) := WordCount.event rfl
theorem WordCount.launchComplete : WordCount.Statement (.launchComplete) := WordCount.event rfl
theorem WordCount.controllerTakeover : WordCount.Statement (.controllerTakeover) := WordCount.event rfl
theorem WordCount.hostWrite : WordCount.Statement (.hostWrite) := WordCount.event rfl
theorem WordCount.hostRead : WordCount.Statement (.hostRead) := WordCount.event rfl
theorem WordCount.acknowledgement : WordCount.Statement (.acknowledgement) := WordCount.event rfl
theorem WordCount.frameRetransmit : WordCount.Statement (.frameRetransmit) := WordCount.event rfl
theorem WordCount.imageFrame : WordCount.Statement (.imageFrame) := WordCount.event rfl
theorem WordCount.bootRom : WordCount.Statement (.bootRom) := WordCount.event rfl
theorem WordCount.bootStatus : WordCount.Statement (.bootStatus) := WordCount.event rfl
theorem WordCount.verifyImage : WordCount.Statement (.verifyImage) := WordCount.event rfl
theorem WordCount.attestation : WordCount.Statement (.attestation) := WordCount.event rfl
theorem WordCount.snapshotFrame : WordCount.Statement (.snapshotFrame) := WordCount.event rfl
theorem WordCount.dvfs : WordCount.Statement (.dvfs) := WordCount.event rfl
theorem WordCount.powerLimit : WordCount.Statement (.powerLimit) := WordCount.event rfl
theorem WordCount.quadBoundary : WordCount.Statement (.quadBoundary) := WordCount.event rfl
theorem WordCount.preEmptionMask : WordCount.Statement (.preEmptionMask) := WordCount.event rfl
theorem WordCount.drainShare : WordCount.Statement (.drainShare) := WordCount.event rfl
theorem WordCount.confirmVersion : WordCount.Statement (.confirmVersion) := WordCount.event rfl
theorem WordCount.retest : WordCount.Statement (.retest) := WordCount.event rfl
theorem WordCount.snapshotRequest : WordCount.Statement (.snapshotRequest) := WordCount.event rfl
theorem WordCount.logsRequest : WordCount.Statement (.logsRequest) := WordCount.event rfl
theorem WordCount.queueSetup : WordCount.Statement (.queueSetup) := WordCount.event rfl
theorem WordCount.podJoin : WordCount.Statement (.podJoin) := WordCount.event rfl
theorem WordCount.linkPin : WordCount.Statement (.linkPin) := WordCount.event rfl
theorem WordCount.podBarrierReset : WordCount.Statement (.podBarrierReset) := WordCount.event rfl
theorem WordCount.governorStep : WordCount.Statement (.governorStep) := WordCount.event rfl
theorem WordCount.thermalThrottle : WordCount.Statement (.thermalThrottle) := WordCount.event rfl
theorem WordCount.thermalShutdown : WordCount.Statement (.thermalShutdown) := WordCount.event rfl
theorem WordCount.powerLoss : WordCount.Statement (.powerLoss) := WordCount.event rfl
theorem WordCount.persistAccept : WordCount.Statement (.persistAccept) := WordCount.event rfl
theorem WordCount.persistDrain : WordCount.Statement (.persistDrain) := WordCount.event rfl
theorem WordCount.uncorrectableError : WordCount.Statement (.uncorrectableError) := WordCount.event rfl
theorem WordCount.dieLinkFailure : WordCount.Statement (.dieLinkFailure) := WordCount.event rfl
theorem WordCount.hubLinkFailure : WordCount.Statement (.hubLinkFailure) := WordCount.event rfl
theorem WordCount.flitReplay : WordCount.Statement (.flitReplay) := WordCount.event rfl
theorem WordCount.linkStepDown : WordCount.Statement (.linkStepDown) := WordCount.event rfl
theorem WordCount.linkStepUp : WordCount.Statement (.linkStepUp) := WordCount.event rfl
theorem WordCount.linkDown : WordCount.Statement (.linkDown) := WordCount.event rfl
theorem WordCount.deviceFailure : WordCount.Statement (.deviceFailure) := WordCount.event rfl
theorem WordCount.slotWrite : WordCount.Statement (.slotWrite) := WordCount.event rfl
theorem WordCount.remoteReduce : WordCount.Statement (.remoteReduce) := WordCount.event rfl
theorem WordCount.slotReleaseNotice : WordCount.Statement (.slotReleaseNotice) := WordCount.event rfl
theorem WordCount.remoteAcknowledgement : WordCount.Statement (.remoteAcknowledgement) := WordCount.event rfl
theorem WordCount.podBarrierArrival : WordCount.Statement (.podBarrierArrival) := WordCount.event rfl
theorem WordCount.recordTransitArrival : WordCount.Statement (.recordTransitArrival) := WordCount.event rfl
theorem WordCount.collTransferAtPeer : WordCount.Statement (.collTransferAtPeer) := WordCount.event rfl
theorem WordCount.hostAbort : WordCount.Statement (.hostAbort) := WordCount.event rfl

end Sys2Proof.Laws
end

