-- ==== Sys2Proof/Tests/Slice0.lean ====
section
/-! SUPPORT. Tests: ill-formed terms, words written out from the spec's encodings, single steps whose results the spec or hand
calculation gives, and for every statement a state and operands that meet its hypotheses. -/

namespace Sys2Proof.Tests

open Sys2Proof.Machine Sys2Proof.Claims

-- the theorems are checked one after another: many at once need more threads than the check allows
set_option Elab.async false

/-! ## Well-formedness: each check refuses a term -/

/-- A 64-bit instruction with every field 0. -/
def z : Op64 := ⟨none, 0, 0, 0, 0, 0, 0, 0, 0, 0, 0, 0, 0⟩
/-- A prefix with a mask register. -/
def px : Pfx := ⟨0, 0, 0, 6, 1, 2⟩

theorem test_wf_zero_word : (Instr.add 0 0 0).wf = false := by decide
theorem test_wf_scope_of_lda : (Instr.lda 1 2 0 3 7).wf = false ∧ (Instr.stl 1 2 0 3 7).wf = false := by decide
theorem test_wf_size_and_scope_of_amo :
    (Instr.amoadd 1 2 3 1 0 0).wf = false ∧ (Instr.amoadd 1 2 3 2 7 0).wf = false ∧ (Instr.amofadd 1 2 3 7 0).wf = false ∧
    (Instr.cas 1 2 3 0 0 0).wf = false := by decide
theorem test_wf_rounding_of_fpu : (Instr.fadd 1 2 3 7).wf = false ∧ (Instr.fsqrt 1 2 7).wf = false := by decide
theorem test_wf_scope_of_fences : (Instr.fence 7 0).wf = false ∧ (Instr.ifence 7).wf = false := by decide
theorem test_wf_scope_of_bar : (Instr.barArrive 1 2 0).wf = false ∧ (Instr.barWait 1 2 6).wf = false := by decide
/-- Unlisted field values (reason 2). -/
theorem test_wf_listed_values :
    (Instr.vadd { z with fn3 := 3 }).wf = false ∧ (Instr.vget { z with fn4 := 4 }).wf = false ∧
    (Instr.mset { z with fn4 := 3 }).wf = false ∧ (Instr.nmfen { z with fn3 := 7 }).wf = false := by decide
/-- Fields that must be 0 (reason 3). -/
theorem test_wf_zero_fields :
    (Instr.pmclr { z with vd := 1 }).wf = false ∧ (Instr.vsetvl { z with c1 := 1 }).wf = false ∧
    (Instr.wswap { z with vs1 := 1 }).wf = false := by decide
/-- Prefixes where none may stand, and a prefix that selects nothing (reason 4). -/
theorem test_wf_prefixes :
    (Instr.vsetvl { z with pfx := some px }).wf = false ∧ (Instr.nmfen { z with pfx := some px }).wf = false ∧
    (Instr.vmvRow { z with pfx := some px, fn4 := 1 }).wf = false := by decide
/-- Sub-operations that name another constructor. -/
theorem test_wf_suboperations :
    (Instr.vfsgnj { z with fn4 := 1 }).wf = false ∧ (Instr.vmv { z with fn4 := 1 }).wf = false ∧
    (Instr.evcfgCnt { z with fn4 := 1 }).wf = false ∧ (Instr.nmopAdamw { z with fn4 := 3 }).wf = false ∧
    (Instr.dmodeOff { z with fn4 := 1 }).wf = false := by decide

/-! ## Decoding: words from the examples of the spec, or written out from the formats of R29, R30 and R51-R64 -/

/-- A 64-bit instruction's word: low word, high word. -/
def w64 (lo hi : Nat) : Nat := lo + hi * 2 ^ 32

/-- addi g0, g0, 0 (R28); add g3, g1, g2: 0x00 << 1 + 3 << 6 + 1 << 11 + 2 << 16. -/
theorem test_decode_alu : decodeTableWord 32 2 = some (.addi 0 0 0) ∧ decodeTableWord 32 0x000208C0 = some (.add 3 1 2) := by
  decide +kernel
/-- amoadd.d.die g9, g11, (g10) (R69), and stl.d.c0.pkg g11, (g10). -/
theorem test_decode_memory :
    decodeTableWord 32 0x1E0B5266 = some (.amoadd 9 10 11 3 3 0) ∧ decodeTableWord 32 0x013052E4 = some (.stl 11 10 0 3 4) := by
  decide +kernel
/-- arrwait.quad g9, g10 (R260), and ifence.pkg (R352). -/
theorem test_decode_system :
    decodeTableWord 32 0x024A0274 = some (.barArrwait 9 10 2) ∧ decodeTableWord 32 0x00640030 = some (.ifence 4) := by decide +kernel
/-- 0x3E and 0x3FD stay ILLEGAL for good (R67). -/
theorem test_decode_illegal : decodeTableWord 32 0x3E = none ∧ decodeTableWord 64 0x3FD = none ∧ decodeTableWord 32 0 = none := by
  decide +kernel
/-- vfadd.rne v16:8, v8:8, v24:8.rot(8,3), m2: 2B 00 00 00 C1 40 20 60 8C A1 00 00 (R38). -/
theorem test_decode_prefixed : decodeTableWord 96 0x0000A18C602040C10000002B =
    some (.vfadd { z with pfx := some ⟨0, 0, 0, 0, 1, 2⟩, vd := 16, vs1 := 8, vs2 := 24, c1 := 1, c2 := 1, mod12 := 0x50C }) := by
  decide +kernel
/-- vsettype i, 16, 4 (R138). -/
theorem test_decode_configuration : decodeTableWord 64 (w64 0x04080005 0x40000000) =
    some (.vsettype { z with vs1 := 2, vs2 := 1, fn3 := 2 }) := by decide +kernel
/-- vcmp.lt m3, v8:4, v16:4 (R69). -/
theorem test_decode_compare : decodeTableWord 64 (w64 0x40200CA1 0x0004000C) =
    some (.vcmp { z with vd := 3, vs1 := 8, vs2 := 16, c1 := 1, c2 := 1, fn4 := 2 }) := by decide +kernel
/-- vnarrow.i16 v2:1, v4:2 (R162). -/
theorem test_decode_conversion : decodeTableWord 64 (w64 0x1000094D 0x00040008) =
    some (.vnarrow { z with vd := 2, vs2 := 4, c2 := 1, fn4 := 2 }) := by decide +kernel
/-- vscan.seg.sum v16:1, m5, v8:1 (R174). -/
theorem test_decode_scan : decodeTableWord 64 (w64 0x201441E1 0x60000008) =
    some (.vscan { z with vd := 16, vs1 := 5, vs2 := 8, c2 := 1, fn3 := 3 }) := by decide +kernel
/-- vldx.acq.die v8:2, (g12), v4:2 and vlds.c2 v16:4, (g9), g10 (R188). -/
theorem test_decode_vector_memory :
    decodeTableWord 64 (w64 0x10302169 0x60020008) = some (.vldx { z with vd := 8, vs1 := 12, vs2 := 4, c2 := 1, fn4 := 1, fn3 := 3 }) ∧
    decodeTableWord 64 0x0040000028244165 = some (.vlds { z with vd := 16, vs1 := 9, vs2 := 10, cls4 := 2 }) := by decide +kernel
/-- mset m1 with fn4 2 and g5: 0x1 + 0x88 << 2 + 1 << 10 + 5 << 18, fn4 at bit 49 (R180). -/
theorem test_decode_mask : decodeTableWord 64 (w64 (0x1 + 0x88 * 4 + 1 * 1024 + 5 * 2 ^ 18) (2 * 2 ^ 17)) =
    some (.mset { z with vd := 1, vs1 := 5, fn4 := 2 }) := by decide +kernel
/-- wld.q4sp.c15 w3, (g9) (R238), and mma t2[16], v32:4, w1 (R242). -/
theorem test_decode_matrix :
    decodeTableWord 64 (w64 0x00240E45 0x01EA0000) = some (.wld { z with vd := 3, vs1 := 9, fn4 := 5, cls4 := 15 }) ∧
    decodeTableWord 64 (w64 0x04800A4D 0x00000204) = some (.mma { z with vd := 2, vs1 := 32, vs2 := 1, c1 := 1, mod12 := 16 }) := by
  decide +kernel
/-- cpy.c15.die.push.v g9, g10, vld.pop.c v0:8, (g11) (R226) and evcfg.cnt 0, g9 (R216). -/
theorem test_decode_engines :
    decodeTableWord 64 (w64 0x28240281 0x69E00000) = some (.cpy { z with vs1 := 9, vs2 := 10, cls4 := 15, tkpush := 1, fn3 := 3 }) ∧
    decodeTableWord 64 0x04000000002C0161 = some (.vld { z with vs1 := 11, tkpop := 2 }) ∧
    decodeTableWord 64 0x0010000000240285 = some (.evcfgCnt { z with vs1 := 9, fn4 := 8 }) := by decide +kernel
/-- nmop.adamw.c15.die g9, g10 (R365) and nmfen.die (R367). -/
theorem test_decode_package_memory :
    decodeTableWord 64 (w64 0x282402A1 0x61E00000) = some (.nmopAdamw { z with vs1 := 9, vs2 := 10, cls4 := 15, fn3 := 3 }) ∧
    decodeTableWord 64 (w64 0x000002A5 0x60000000) = some (.nmfen { z with fn3 := 3 }) := by decide +kernel
/-- dreg g8, g9 (R266), dmode.rev (R268), galset g9, g10 (R276) and adjld.c0.die v8:2, (g9) (R277). -/
theorem test_decode_differentiation :
    decodeTableWord 64 0x00000000002422C1 = some (.dreg { z with vd := 8, vs1 := 9 }) ∧
    decodeTableWord 64 0x00040000000002C9 = some (.dmodeRev { z with fn4 := 2 }) ∧
    decodeTableWord 64 0x00000000282402CD = some (.galset { z with vs1 := 9, vs2 := 10 }) ∧
    decodeTableWord 64 0x60000000002422D9 = some (.adjld { z with vd := 8, vs1 := 9, fn3 := 3 }) := by decide +kernel
/-- pwb.c15 g9, g10 (R373) and psync (R374). -/
theorem test_decode_durable :
    decodeTableWord 64 (w64 0x282402E1 0x01E00000) = some (.pwb { z with vs1 := 9, vs2 := 10, cls4 := 15 }) ∧
    decodeTableWord 64 0x00000000000002E5 = some .psync := by decide +kernel
/-- rsend.c0.pod g9, v16:8 (R403), rrecv.c0 v8:8, (g10) (R404) and rpoll g12, g13 (R405). -/
theorem test_decode_remote :
    decodeTableWord 64 0xA000000840240301 = some (.rsend { z with vs1 := 9, vs2 := 16, c2 := 1, fn3 := 5 }) ∧
    decodeTableWord 64 0x0000000000282305 = some (.rrecv { z with vd := 8, vs1 := 10 }) ∧
    decodeTableWord 64 0x0000000000343315 = some (.rpoll { z with vd := 12, vs1 := 13 }) := by decide +kernel
/-- ctxsv g16, ctxrs g3 (R292-R294), vqdrain (R291) and tlbinv.pkg g9, g10, g11 (R351). -/
theorem test_decode_context :
    decodeTableWord 64 0x0000000000400321 = some (.ctxsv { z with vs1 := 16 }) ∧
    decodeTableWord 64 0x00000000000C0325 = some (.ctxrs { z with vs1 := 3 }) ∧ decodeTableWord 64 0x29D = some .vqdrain ∧
    decodeTableWord 64 (w64 0x2C282729 0x80000000) = some (.tlbinv { z with vd := 9, vs1 := 10, vs2 := 11, fn3 := 4 }) := by
  decide +kernel

/-! ## States for tests and witnesses -/

/-- A page of the core's TLB: number of a 64 KiB page, its physical address and its leaf's flags (R345). -/
def page (n pa fl : Nat) : TlbEntry := ⟨0, false, n, BitVec.ofNat 64 (pa + fl)⟩
/-- Pages 0 normal, 1 MS, 2 durable, 3 NC, 4 read-only. -/
def pages : List TlbEntry := [page 0 0 0x11F, page 1 0x10000 0x13F, page 2 0x20000000000 0x15F, page 3 0x30000 0x19F, page 4 0x40000 0x11B]
/-- A machine in RUN whose current context, number 5 of core 1, runs at 0x1000. -/
def one (f : Ctx → Ctx) : State :=
  { ctxs := [(5, f { status := .running, pc := 0x1000, trap := { tvec := 0x8000 } })], cur := 5, cores := [(1, { tlb := pages })], hub := { boot := .run } }
/-- The same with register values. -/
def with_ (g : List (Nat × Word)) (f : Ctx → Ctx := id) : State := one fun c => f { c with g := g }
/-- The context that a step leaves, and the state. -/
def ran (o : Out) : State := match o with | .next t => t | _ => {}
/-- The current context after an instruction. -/
def after (i : Instr) (s : State) : Ctx := (ran (exec i s)).ctx 5
/-- Bytes in memory. -/
def bytesAt (a : Nat) (l : List Nat) (s : State) : State := { s with mem := (List.range l.length).map fun i => (a + i, BitVec.ofNat 8 (l.getD i 0)) }

/-! ## Single steps: results from the spec's examples or by hand -/

/-- A step fetches and runs the instruction at the pc. -/
theorem test_step_runs_fetched : ((ran (step (State.reset.withFetchWord 32 0x000208C0))).ctx (State.reset.withFetchWord 32 0x000208C0).cur).pc =
    ((State.reset.withFetchWord 32 0x000208C0).ctx (State.reset.withFetchWord 32 0x000208C0).cur).pc + 4 := by decide +kernel
theorem test_add_wraps : (after (.add 3 1 2) (with_ [(1, 0xFFFFFFFFFFFFFFFF), (2, 2)])).rg 3 = 1 := by decide +kernel
/-- INT_MIN / -1 is INT_MIN with IOV, and 7 / 0 is INT_MAX with DZ (R111). -/
theorem test_div_corners :
    (after (.div 3 1 2) (with_ [(1, 0x8000000000000000), (2, 0xFFFFFFFFFFFFFFFF)])).rg 3 = 0x8000000000000000 ∧
    (after (.div 3 1 2) (with_ [(1, 7)])).rg 3 = 0x7FFFFFFFFFFFFFFF ∧ (after (.div 3 1 2) (with_ [(1, 7)])).vcsr.flags = 2 := by decide +kernel
theorem test_branch_back : (after (.beq 1 1 0x1FFF) (with_ [])).pc = 0xFFC := by decide +kernel
/-- A byte 0x80 at address 3 is read with its sign. -/
theorem test_ld_sign : (after (.ld 3 1 0 0 3) (bytesAt 3 [0x80] (with_ []))).rg 3 = 0xFFFFFFFFFFFFFF80 := by decide +kernel
theorem test_st_then_ld : (after (.ldz 4 1 0 3 0) (ran (exec (.st 2 1 0 3 0) (with_ [(1, 0x40), (2, 0x1122334455667788)])))).rg 4 =
    0x1122334455667788 := by decide +kernel
theorem test_ld_misaligned_traps : (after (.ld 3 1 0 3 0) (with_ [(1, 4)])).trap.tcause = 5 ∧
    (after (.ld 3 1 0 3 0) (with_ [(1, 4)])).trap.taddr = 4 := by decide +kernel
theorem test_amoadd_old : (after (.amoadd 3 1 2 2 3 0) (bytesAt 0x40 [5] (with_ [(1, 0x40), (2, 7)]))).rg 3 = 5 ∧
    ((ran (exec (.amoadd 3 1 2 2 3 0) (bytesAt 0x40 [5] (with_ [(1, 0x40), (2, 7)])))).homeRead 0x40 4).1 = 12 := by decide +kernel
/-- 1.5 + 2.25 = 3.75. -/
theorem test_fadd : (after (.fadd 3 1 2 0) (with_ [(1, 0x3FC00000), (2, 0x40100000)])).rg 3 = 0x40700000 := by decide +kernel
/-- fclass of 2.5 is 0x02 and of -0 is 0x18 (R124). -/
theorem test_fclass : (after (.fclass 3 1) (with_ [(1, 0x40200000)])).rg 3 = 2 ∧
    (after (.fclass 3 1) (with_ [(1, 0x80000000)])).rg 3 = 0x18 := by decide +kernel
theorem test_csrw_vrem : (after (.csrw 0 1 0x004) (with_ [(1, 9)])).vrem = 9 := by decide +kernel
theorem test_trap_entry : (after .sysTrap (with_ [])).trap.tcause = 0x12 ∧ (after .sysTrap (with_ [])).pc = 0x8000 ∧
    (after .sysTrap (with_ [])).level = .s := by decide +kernel
/-- The second strip of the example of R83: 344 columns left of 600, 256 in a strip. -/
theorem test_vnext_strip : (after (.vnext { z with vs1 := 0xFE, vs2 := 0x1F }) (one fun c => { c with vrem := 600 })).vrem = 344 ∧
    (after (.vnext { z with vs1 := 0xFE, vs2 := 0x1F }) (one fun c => { c with vrem := 600 })).pc = 0xFF8 := by decide +kernel
/-- The example of R174: n32, G = 1, vl = 8, column 4 inactive, segments at columns 0, 3 and 6. -/
theorem test_vscan_example :
    (let row (l : List Nat) : Row := { bits := BitVec.ofNat 8192 ((List.range 8).foldl (fun a i => a + l.getD i 0 * 2 ^ (32 * i)) 0) }
     let s := one fun c => { c with vl := 8, vt := { kind := 1, ew := 3 }, v := [(8, row [5, 1, 2, 7, 9, 3, 4, 4]), (16, row [0, 0, 0, 0, 99, 0, 0, 0])],
                                    m := [(5, 0x49)], stack := [0xEF] }
     (List.range 8).map fun k => (cell (after (.vscan { z with vd := 16, vs1 := 5, vs2 := 8, c2 := 1, fn3 := 3 }) s) 32 16 k).1) =
    [5, 6, 8, 7, 99, 10, 4, 8] := by decide +kernel
theorem test_mpush : (after (.mpush { z with vs2 := 1 }) (one fun c => { c with m := [(1, 0x0F)], stack := [0x3C] })).stack = [0x0C, 0x3C] := by
  decide +kernel
theorem test_vqdrain_is_privileged : (after .vqdrain (with_ [])).trap.tcause = 4 := by decide +kernel
/-- A tile row of an owned tile, moved out and back exactly (R243). -/
theorem test_tld : ((ran (exec (.tld { z with vd := 1, vs1 := 4, mod12 := 7 }) (one fun c => { c with
    vl := 1, vt := { kind := 2, ew := 3 }, v := [(4, { bits := 0x3F800000 })] }))).core 1).tileRow 1 7 = { bits := 0x3F800000 } := by decide +kernel
/-- The power limit at reset is 3600 W (R388); 105 °C lowers the step by one. -/
theorem test_thermal : (((ran (exec .thermalThrottle { with_ [] with arg := .dieTemp 0 105 })).die 0).clock) = 7 := by decide +kernel

/-! ## Witnesses: states and operands that meet the hypotheses of the statements, clause by clause -/

/-- The value of a computation, if it completes. -/
def valOf {α : Type} (m : M α) (s : State) : Option α := match m s with | .ok a _ => some a | .error _ _ => none
/-- The state that it leaves. -/
def endOf {α : Type} (m : M α) (s : State) : State := match m s with | .ok _ t => t | .error _ t => t
/-- The trap that it raises. -/
def trapOf {α : Type} (m : M α) (s : State) : Option TrapInfo := match m s with | .error (.trap t) _ => some t | _ => none
theorem ok_at {α : Type} {m : M α} {s : State} {v : α} (h : valOf m s = some v) : m s = .ok v (endOf m s) := by
  unfold valOf at h; unfold endOf; split at h <;> simp_all
theorem trap_at {α : Type} {m : M α} {s : State} {v : TrapInfo} (h : trapOf m s = some v) : m s = .error (.trap v) (endOf m s) := by
  unfold trapOf at h; unfold endOf; split at h <;> simp_all

/-- The computation completes, with a value and a state of which `p` holds. -/
def Yields {α : Type} (m : M α) (s : State) (p : α → State → Bool) : Prop := ∃ a t, m s = .ok a t ∧ p a t = true
theorem yields {α : Type} {m : M α} {s : State} {p : α → State → Bool}
    (h : (match m s with | .ok a t => p a t | .error _ _ => false) = true) : Yields m s p := by
  unfold Yields; split at h
  · exact ⟨_, _, ‹_›, h⟩
  · exact absurd h (by simp)
/-- A partial result exists, of which `p` holds. -/
def Gives {α : Type} (o : Option α) (p : α → Bool) : Prop := ∃ a, o = some a ∧ p a = true
theorem gives {α : Type} {o : Option α} {p : α → Bool} (h : (match o with | some a => p a | none => false) = true) : Gives o p := by
  cases o with
  | none => exact absurd h (by simp)
  | some a => exact ⟨a, rfl, h⟩

/-- The current context has no entry in its queues and no remote operation: every hypothesis about what waits there holds. -/
theorem calm {s : State} (h : (here s).queue = [] ∧ (here s).remote = []) : Idle s ∧ NoAccess s ∧ ∀ sc, Acked s sc := by
  refine ⟨?_, ?_, ?_⟩ <;> simp [Idle, NoAccess, Acked, Ctx.vecBusy, Ctx.behindLoad, h.1, h.2]

/-- Doublewords in memory. -/
def wordsAt (a : Nat) (ws : List Nat) (s : State) : State :=
  { s with mem := (ws.zip (List.range ws.length)).flatMap fun w => (List.range 8).filterMap fun i =>
      let b := w.1 / 256 ^ i % 256; if b = 0 then none else some (a + 8 * w.2 + i, BitVec.ofNat 8 b) }
/-- Then no access of the current context is blocked either. -/
theorem unblocked {s : State} (h : (here s).queue = []) : ∀ cls st va n, (here s).memBlocked cls st va n = false := by
  simp [Ctx.memBlocked, h]

/-- The conditions of `Ready` as a test. -/
def readyB (s : State) (i : Instr) (q : QueueNo) : Bool :=
  (here s).queue.all (fun e => e.parked && decide (e.seq ≤ (here s).seq)) && !s.shareFull s.cur q &&
  decide (s.upset = none) && (s.core (coreOf s.cur)).terms.all (fun t => decide (t.2.owner = s.cur → t.2.armed = false ∧ t.2.phase = .low)) &&
  (s.core (coreOf s.cur)).terms.all (fun t => decide (t.2.owner ≠ s.cur → t.2.look (s.termTrue (coreOf s.cur) t.2) = t.2)) &&
  (match (instrTokens i q).pop with
   | none => true
   | some k => decide (0 < ((here s).tok k).held ∧ (0 < ((here s).tok k).u ∨ (k = .cv ∨ k = .cm) ∧ (here s).chained = true))) &&
  (match (instrTokens i q).push with
   | none => true
   | some k => decide (((here s).tok k).u ≠ 16 ∧ ((here s).tok k).f ≠ 16))
theorem ready {s : State} {i : Instr} {q : QueueNo} (h : readyB s i q = true) : Ready s i q := by
  simp only [readyB, Bool.and_eq_true, List.all_eq_true, decide_eq_true_eq, Bool.not_eq_true'] at h
  obtain ⟨⟨⟨⟨⟨⟨h1, h2⟩, h3⟩, h4⟩, h4'⟩, h5⟩, h6⟩ := h
  refine ⟨h1, h2, h3, h4, h4', fun k hk => ?_, fun k hk => ?_⟩
  · simpa [hk] using h5
  · simpa [hk] using h6

/-- The conditions of `Form` as a test. -/
def formB (major : Nat) (f : Op64) (c : Ctx) (accepts : Ty → Bool) : Bool :=
  let apart (a b : Nat) : Bool := decide (a + c.vt.size ≤ b ∨ b + c.vt.size ≤ a)
  (match shape major with
   | none => true
   | some sh => decide ((sh.vd = .group → f.vd.toNat % c.vt.size = 0) ∧ (vs1Opnd major sh f = .group → f.vs1.toNat % c.vt.size = 0) ∧
       (sh.vs2 = .group → f.vs2.toNat % c.vt.size = 0)) &&
     (!decide (sh.vd = .group) || (!decide (f.mod12 ≠ 0 ∧ sh.mod = .source ∧ sh.vs2 = .group) || apart f.vd.toNat f.vs2.toNat) &&
       (!decide (opMod1 f ≠ 0 ∧ vs1Opnd major sh f = .group) || apart f.vd.toNat f.vs1.toNat))) &&
  accepts (opTy c.vt f) && decide (c.vl ≤ 8192 / (opTy c.vt f).width) && decide (opTy c.vt f = .q4 → c.vt.ks = true)
theorem form {major : Nat} {f : Op64} {c : Ctx} {accepts : Ty → Bool} (h : formB major f c accepts = true) : Form major f c accepts := by
  simp only [formB, Bool.and_eq_true, decide_eq_true_eq] at h
  obtain ⟨⟨⟨h1, h2⟩, h3⟩, h4⟩ := h
  refine ⟨fun sh hs => ?_, h2, h3, h4, fun sh hs hg => ?_⟩
  · simp only [hs, Bool.and_eq_true, decide_eq_true_eq] at h1; exact h1.1
  · simp only [hs, Bool.and_eq_true, decide_eq_true_eq, hg] at h1
    refine ⟨fun a b c => ?_, fun a b => ?_⟩
    · have := h1.2; simp_all [apartRows]
    · have := h1.2; simp_all [apartRows]

theorem witness_DecodeOfEncode : (Instr.vcmp { z with vd := 3, vs1 := 8, vs2 := 16, c1 := 1, c2 := 1, fn4 := 9 }).wf = true ∧
    encode (.vcmp { z with vd := 3, vs1 := 8, vs2 := 16, c1 := 1, c2 := 1, fn4 := 9 }) ≠ none ∧
    (Instr.bgeu 31 31 0x1FFF).wf = true ∧ encode (.bgeu 31 31 0x1FFF) ≠ none := by decide +kernel
theorem witness_EncodeOfDecode : ∃ d, decodeBytes [0x2B, 0, 0, 0, 0xC1, 0x40, 0x20, 0x60, 0x8C, 0xA1, 0, 0] = .ok d :=
  match h : decodeBytes [0x2B, 0, 0, 0, 0xC1, 0x40, 0x20, 0x60, 0x8C, 0xA1, 0, 0] with
  | .ok d => ⟨d, rfl⟩
  | .error e => absurd h (by
      have : (match decodeBytes [0x2B, 0, 0, 0, 0xC1, 0x40, 0x20, 0x60, 0x8C, 0xA1, 0, 0] with | .ok _ => true | .error _ => false) = true := by
        decide +kernel
      intro h2; rw [h2] at this; simp at this)

/-- A state whose turn it is, with code at the pc. -/
def coded (l : List Nat) : State := { bytesAt 0x1000 l (with_ []) with yours := true }
theorem turns_coded {s : State} (h : (s.agenda = [] ∧ s.hub.boot ≠ .off ∧ s.yours = true ∧ (here s).status = .running) ∧
    (s.pump s.cur).isNone = true ∧ (here s).queue = [] ∧ (here s).async = []) : Turns s := by
  obtain ⟨⟨h1, h2, h3, h4⟩, h5, h6, h7⟩ := h
  exact ⟨h1, h2, .inl h3, h4, fun _ => h7, Option.isNone_iff_eq_none.mp h5, by simp [h6]⟩
/-- One word: add g3, g1, g2. -/
theorem witness_StepRunsDecoded_one : let s := coded [0xC0, 0x08, 0x02, 0]; let m := fetchWord (agentOf s.cur (here s)) (here s).pc
    Turns s ∧ (here s).pc.toNat % 4 = 0 ∧ Fetches (agentOf s.cur (here s)) (here s).pc s 0x208C0 0 0 (endOf m s) ∧
    decodeWords 0x208C0 0 0 = .ok ⟨.add 3 1 2, 4⟩ ∧ unimplCheck (.add 3 1 2) (here s).pc (endOf m s) = .ok () (endOf m s) ∧
    ∀ r ∈ readRegs (.add 3 1 2), r.toNat ∉ (here s).gp := by
  refine ⟨turns_coded (by decide +kernel), by decide, ?_, rfl, ?_, by decide +kernel⟩
  · refine ⟨_, endOf (fetchWord (agentOf 5 (here (coded [0xC0, 0x08, 0x02, 0]))) 0x1000) (coded [0xC0, 0x08, 0x02, 0]), ok_at (by decide +kernel), ?_, ?_⟩
    · rw [if_neg (by decide)]; exact ⟨rfl, rfl⟩
    · rw [if_neg (by decide)]; exact ⟨rfl, rfl⟩
  · exact (ok_at (v := ()) (by decide +kernel)).trans (congrArg (EStateM.Result.ok ()) (by decide +kernel))

/-- Two words (`vqdrain`), and three (the prefixed `vfadd` of R38). -/
theorem witness_StepRunsDecoded_more :
    (let s := coded [0x9D, 2, 0, 0, 0, 0, 0, 0]; let ag := agentOf s.cur (here s)
     ∃ s1 s2, fetchWord ag (here s).pc s = .ok 0x29D s1 ∧ fetchWord ag ((here s).pc + 4) s1 = .ok 0 s2 ∧ 8 ≤ unitLength 0x29D ∧
       ¬ (unitLength 0x29D = 12 ∧ (0 : BitVec 32).toNat % 4 = 1)) ∧
    (let s := coded [0x2B, 0, 0, 0, 0xC1, 0x40, 0x20, 0x60, 0x8C, 0xA1, 0, 0]; let ag := agentOf s.cur (here s)
     ∃ s1 s2 s3, fetchWord ag (here s).pc s = .ok 0x2B s1 ∧ fetchWord ag ((here s).pc + 4) s1 = .ok 0x602040C1 s2 ∧
       fetchWord ag ((here s).pc + 8) s2 = .ok 0xA18C s3 ∧ unitLength 0x2B = 12 ∧ (0x602040C1 : BitVec 32).toNat % 4 = 1) :=
  ⟨⟨_, _, ok_at (by decide +kernel), ok_at (by decide +kernel), by decide, by decide⟩,
   ⟨_, _, _, ok_at (by decide +kernel), ok_at (by decide +kernel), ok_at (by decide +kernel), by decide, by decide⟩⟩
/-- Memory at reset is canonical, and the first step answers. -/
theorem witness_StepKeepsCanonical : Canonical State.reset ∧ ∃ t, step State.reset = .next t := by
  refine ⟨by unfold Canonical; decide, ?_⟩
  have h : (match step State.reset with | .next _ => true | _ => false) = true := by decide +kernel
  revert h; cases step State.reset <;> simp

theorem witness_ScalarIntegers :
    (3 : Reg) ≠ 0 ∧ (4 : Reg) ≠ 3 ∧
    -- 7 / 0 raises DZ: no enable is set
    (here (with_ [(1, 7)])).vcsr.enables.toNat &&& (divWord true 7 0).2.2 = 0 ∧
    -- the enable of DZ is set, and nothing waits
    (let s := one fun c => { c with g := [(1, 7)], vcsr := { enables := 2 } }
     (here s).vcsr.enables.toNat &&& (divWord true ((here s).rg 1) ((here s).rg 2)).2.2 ≠ 0 ∧ ∀ e ∈ (here s).queue, e.parked = true) := by
  decide +kernel
theorem witness_ControlTransfers :
    (BitVec.ofInt 64 (((here (with_ [(1, 0x2000)])).rg 1).toNat + (4 : BitVec 16).toInt)).toNat % 4 = 0 ∧
    ((BitVec.ofInt 64 (((here (with_ [(1, 0x2002)])).rg 1).toNat + (4 : BitVec 16).toInt)).toNat % 4 ≠ 0 ∧
      ∀ e ∈ (here (with_ [(1, 0x2002)])).queue, e.parked = true) := by decide +kernel
/-- A slot that is not aligned. -/
theorem witness_CallThroughSlot_misaligned : let s := with_ [(4, 0x44)]
    Idle s ∧ (BitVec.ofInt 64 (((here s).rg 4).toNat + (1 : BitVec 16).toInt * 8)).toNat % 8 ≠ 0 := ⟨(calm (by decide)).1, by decide⟩
/-- A slot at 0x48 whose target is aligned, and one whose target is not. -/
theorem witness_CallThroughSlot (b : Bool) : let s := bytesAt 0x48 [if b then 2 else 0, 0x20] (with_ [(4, 0x40)])
    (here s).memBlocked 0 false 0x48 8 = false ∧ Idle s ∧ (BitVec.ofInt 64 (((here s).rg 4).toNat + (1 : BitVec 16).toInt * 8)).toNat % 8 = 0 ∧
    Yields (place (self s) (.core (coreOf s.cur)) .read false 0x48) s fun p s1 => let r := s1.readPlace (coreOf s.cur) p 8
      !r.2.2 && (decide ((BitVec.ofNat 64 r.2.1).toNat % 4 = 0) != b) := by
  cases b <;> exact ⟨unblocked (by decide) .., (calm (by decide)).1, by decide, yields (by decide +kernel)⟩

/-- Canonical memory with a byte, and a granule that ends where another access begins. -/
theorem witness_MemoryWrites : Canonical (bytesAt 0x40 [1, 2] (with_ [])) ∧ 0x41 % 8 + 7 ≤ 8 ∧ 5 < 2 ^ (8 * 7) ∧ 0x40 % 8 + 1 ≤ 8 ∧
    0x40 + 1 ≤ 0x41 ∧ isDurable 0x40 = false ∧ isDurable 0x20000000040 = true := by unfold Canonical; decide +kernel
/-- Each kind of page, and the window. -/
theorem witness_MemoryWrites_stores :
    -- ordinary and durable pages
    (Canonical (with_ []) ∧ (with_ []).hub.waiting = [] ∧ 0x41 % 8 + 7 ≤ 8 ∧ 5 < 2 ^ (8 * 7) ∧ pteMs 0x11F = false ∧ pteNc 0x11F = false ∧ pteMs 0x15F = false ∧ pteNc 0x15F = false ∧
      (0 : Nat) ≠ coreOf 5 ∧ ((with_ []).core (coreOf 5)).l1Room 1 = true) ∧
    -- MS and NC pages
    (Canonical (with_ []) ∧ pteMs 0x13F = true ∧ pteNc 0x19F = true ∧ pteMs 0x1DF = false ∧ pteNc 0x1DF = true ∧ isDurable 0x20000000040 = true) ∧
    -- the last byte of a quad's part of the window
    (let s : State := { with_ [] with quads := [(0, { bound := 1 })] }
     0x3FFFF / 0x40000 < (s.quad (quadOf 5)).bound ∧ 0x3FFF8 + 7 ≤ 0x3FFFF) := by unfold Canonical; decide +kernel
theorem witness_AccessesKeepData : Yields (place (self (with_ [])) (.core 1) .read false 0x40) (with_ []) (fun _ _ => true) ∧ (with_ []).hub.waiting = [] ∧ (with_ []).posted = [] ∧
    (∃ t, place (self (with_ [])) (.core 1) .write false 0x40000 (with_ []) = .error (.trap t) (endOf (place (self (with_ [])) (.core 1)
      .write false 0x40000) (with_ []))) :=
  ⟨yields (by decide +kernel), rfl, rfl, Option.get _ (by decide +kernel : (trapOf (place (self (with_ [])) (.core 1) .write false 0x40000) (with_ [])).isSome = true),
    trap_at (by simp)⟩
/-- A posted operation of covered scope, a dirty line in the core and one in the quad. -/
theorem witness_ReleaseAndAcquire : let s : State := { with_ [] with
      cores := [(1, { l1 := [(1, { dirty := 1 })] })], quads := [(0, { cache := [(2, { dirty := 2 })] })]
      posted := [{ no := 0, x := 5, tag := 0, cls := 15, scope := 3, vector := false, adj := false, arrived := false, atoms := [] }] }
    (3 : Nat) ≤ 6 ∧ (6 : Nat) ≤ 6 ∧ scopeCovers 6 3 = true ∧ (∃ p ∈ s.posted, p.x = 5 ∧ scopeCovers 3 p.scope = true) ∧ (∃ l, Tab.find (s.core (coreOf 5)).l1 1 = some l ∧ l.dirty ≠ 0) ∧
    ∃ l, Tab.find (s.quad (quadOf 5)).cache 2 = some l ∧ l.dirty ≠ 0 :=
  ⟨by decide, by decide, by decide, ⟨_, .head _, by decide, by decide⟩, ⟨_, rfl, by decide⟩, ⟨_, rfl, by decide⟩⟩

/-- A load of 8 bytes at 0x40: sound, misaligned, and poisoned. -/
theorem witness_LoadsAndStores_loads :
    (let s := with_ [(1, 0x44)]; (BitVec.ofInt 64 (((here s).rg 1).toNat + (0 : BitVec 10).toInt * 8)).toNat % 8 ≠ 0 ∧ Idle s) ∧
    ∀ b : Bool, let s := { with_ [(1, 0x40)] with marks := if b then [9] else [] }
      let va : Word := BitVec.ofInt 64 (((here s).rg 1).toNat + (1 : BitVec 10).toInt * 8)
      va.toNat % 8 = 0 ∧ (here s).memBlocked 7 false va 8 = false ∧ Idle s ∧
      Yields (place (self s) (.core (coreOf s.cur)) .read false va) s fun p s1 => (s1.readBy s.cur p 8 (scalarAccess (here s) 7)).2.2 == b := by
  refine ⟨⟨by decide, (calm (by decide)).1⟩, fun b => ?_⟩
  cases b <;> exact ⟨by decide, unblocked (by decide) .., (calm (by decide)).1, yields (by decide +kernel)⟩
/-- A store: allowed, misaligned, and to a read-only page. -/
theorem witness_LoadsAndStores :
    (let s := with_ [(1, 0x44)]; (BitVec.ofInt 64 (((here s).rg 1).toNat + (0 : BitVec 10).toInt * 8)).toNat % 8 ≠ 0 ∧ Idle s) ∧
    (let s := with_ [(1, 0x40)]; (0x40 : Word).toNat % 8 = 0 ∧ (here s).memBlocked 0 true 0x40 8 = false ∧
      Yields (place (self s) (.core (coreOf s.cur)) .write false 0x40) s fun _ _ => true) ∧
    (let s := with_ [(1, 0x40000)]; (0x40000 : Word).toNat % 8 = 0 ∧ (here s).memBlocked 0 true 0x40000 8 = false ∧ Idle s ∧
      ∃ t, place (self s) (.core (coreOf s.cur)) .write false 0x40000 s =
        .error (.trap t) (endOf (place (self s) (.core (coreOf s.cur)) .write false 0x40000) s)) :=
  ⟨⟨by decide, (calm (by decide)).1⟩, ⟨by decide, unblocked (by decide) .., yields (by decide +kernel)⟩, by decide, unblocked (by decide) .., (calm (by decide)).1,
    Option.get _ (by decide +kernel : (trapOf (place (self (with_ [(1, 0x40000)])) (.core (coreOf (with_ [(1, 0x40000)]).cur)) .write false 0x40000) (with_ [(1, 0x40000)])).isSome = true),
    trap_at (by simp)⟩
theorem witness_AcquireLoadReleaseStore : let s := with_ [(1, 0x40)]
    (here s).memBlocked 0 false 0x40 8 = false ∧ NoAccess s ∧ Acked s 5 ∧ Yields (place (self s) (.core (coreOf s.cur)) .write false 0x40) s (fun _ _ => true) ∧
    Yields (place (self s) (.core (coreOf s.cur)) .read false 0x40) s fun p s1 =>
      !((s1.acquire s.cur 4).readBy s.cur p 8 (scalarAccess (here s) 0)).2.2 :=
  ⟨unblocked (by decide) .., (calm (by decide)).2.1, (calm (by decide)).2.2 _, yields (by decide +kernel), yields (by decide +kernel)⟩
/-- An atomic on a sound location, on a poisoned one, and a misaligned one. -/
theorem witness_ScalarAtomics :
    ((Instr.amoadd 3 1 2 3 5 3, AtomOp.add, 8) ∈ amos 3 1 2 3 5 3 ∧ (4 = 4 ∧ 0xFFFFFFFF < 2 ^ (8 * 4))) ∧
    ((0x44 : Word).toNat % 8 ≠ 0 ∧ Idle (with_ [(1, 0x44)])) ∧
    ∀ b : Bool, let s := { with_ [(1, 0x40)] with marks := if b then [8] else [] }
      (0x40 : Word).toNat % 8 = 0 ∧ NoAccess s ∧ Idle s ∧ Acked s 5 ∧ Yields (place (self s) (.core (coreOf s.cur)) .atomic false 0x40) s fun p s1 =>
        (((s1.release s.cur 5).purgePlace s.cur p).atomBy s.cur ⟨p.home.1, p.home.2, 8, .add, 0, false⟩ (scalarAccess (here s) 15)).2.2.1 == b &&
        match p with | .phys _ _ => true | .window _ _ => false := by
  refine ⟨by decide, ⟨by decide, (calm (by decide)).1⟩, fun b => ?_⟩
  cases b <;> exact ⟨by decide, (calm (by decide)).2.1, (calm (by decide)).1, (calm (by decide)).2.2 _, yields (by decide +kernel)⟩
theorem witness_CompareAndSwap :
    ((0x44 : Word).toNat % 8 ≠ 0 ∧ Idle (with_ [(1, 0x44)])) ∧
    ∀ b : Bool, let s := { with_ [(1, 0x40)] with marks := if b then [8] else [] }
      (0x40 : Word).toNat % 8 = 0 ∧ NoAccess s ∧ Idle s ∧ Acked s 5 ∧ Yields (place (self s) (.core (coreOf s.cur)) .atomic false 0x40) s fun p s1 =>
        (((s1.purgePlace s.cur p).breakHome p.home.1 p.home.2).atomRead p.home.1 p.home.2 8).2 == b := by
  refine ⟨⟨by decide, (calm (by decide)).1⟩, fun b => ?_⟩
  cases b <;> exact ⟨by decide, (calm (by decide)).2.1, (calm (by decide)).1, (calm (by decide)).2.2 _, yields (by decide +kernel)⟩
/-- 1 / 0 raises DZ: with its enable clear, and set. -/
theorem witness_FloatResults : ∀ b : Bool, let s := one fun c => { c with g := [(1, 0x3F800000)], vcsr := { enables := if b then 2 else 0 } }
    let k := (fpuTable (here s) 3 1 2 0).getD 3 (.wfe, 0, 0)
    k ∈ fpuTable (here s) 3 1 2 0 ∧ Idle s ∧ decide ((here s).vcsr.enables.toNat &&& k.2.2 ≠ 0) = b := by
  intro b; cases b <;> exact ⟨by decide +kernel, (calm (by decide)).1, by decide +kernel⟩
/-- A CSR that is not listed, one read below its level, one written below it, and one accessed at it. -/
theorem witness_ControlRegisters : Idle (with_ []) ∧
    (∀ r ∈ csrTable, r.1 ≠ (0x009 : BitVec 12).toNat) ∧
    ((0x100, Level.s, some Level.s) ∈ csrTable ∧ (here (with_ [])).level.code < Level.s.code) ∧
    ((0x110, Level.s, some Level.f) ∈ csrTable ∧ Level.s.code < Level.f.code) ∧
    ((0x004, Level.u, some Level.u) ∈ csrTable ∧ Level.u.code ≤ (here (with_ [])).level.code ∧ (0x004 : BitVec 12) ≠ 0x020 ∧
      (here (with_ [])).level ≠ .f) ∧ (2 : Nat) ≠ 3 :=
  ⟨(calm (by decide)).1, by decide, by decide, by decide, by decide, by decide⟩

/-- Page tables of asid 0 for address 0: a root at 0x100000, and two more tables behind it; the entry of level 2 or 3 is `e`. -/
def tables (e2 e3 : Nat) (root : Nat := 0x100000) : State :=
  { mem := (wordsAt 0x100000 [0x110001] {}).mem ++ (wordsAt 0x110000 [e2] {}).mem ++ (wordsAt 0x120000 [e3] {}).mem
    dies := [(0, { root0 := [(0, root)] })] }
/-- How a walk of address 5 ends. -/
def walkEnd (s : State) : Nat × Nat × Option (Nat × Nat) :=
  match walkDown s 5 [(1, 42), (2, 29), (3, 16)] (Tab.look 0 (s.die 0).root0 0) with
  | .ok (e, lvl) => (e.toNat, lvl, none)
  | .error r => r
/-- An address that is not canonical; a TLB entry that allows a read and refuses a write; walks that end at a leaf of level 3 and of level 2,
a leaf that refuses, and each failure; no TLB entry and no walk cache. -/
theorem witness_Translation :
    ((0x0080000000000000 : Word).toNat / 2 ^ 56 ≠ 255 ∧ (0xFF80000000000000 : Word).toNat / 2 ^ 56 = 255) ∧
    (let s := with_ []; let hit := (s.tlbs (.core 1)).find? fun k => k.maps 0 (0x40000 : Word).toNat
     (∃ k, hit = some k ∧ refusal k.pte .read .u = 0 ∧ refusal k.pte .write .u = 0x12) ∧ refusal 0x107 .fetch .u = 0x13 ∧ refusal 0x10F .read .u = 0x14 ∧
     refusal 0x119 .read .u = 0x11) ∧
    (let s := tables 0x120001 0x5011F; (s.tlbs (.core 0)).find? (fun k => k.maps 0 5) = none ∧ (s.die 0).walks = [] ∧
     walkEnd s = (0x5011F, 3, none) ∧ walkEnd (tables 0x2000011F 0) = (0x2000011F, 2, none)) ∧
    [walkEnd (tables 0x120001 0), walkEnd (tables 0x120041 0), walkEnd (tables 0x120001 0x130001), walkEnd (tables 0x1011F 0),
      walkEnd (tables 0x120001 0x5011D), walkEnd (tables 0 0 0x8000000000), walkEnd (tables 0 0 0xF000000000000),
      walkEnd { tables 0x120001 0x5011F with marks := [0x120000 / 8] }] =
     [(0x01, 3, none), (0x02, 2, none), (0x03, 3, none), (0x04, 2, none), (0x05, 3, none), (0x07, 1, some (0x8000000000, 1)),
      (0x07, 1, some (0xF000000000000, 2)), (0x08, 3, none)] := by
  refine ⟨by decide, ⟨⟨_, rfl, by decide, by decide⟩, by decide, by decide, by decide⟩, by decide +kernel, by decide +kernel⟩
/-- The window's last byte and the one behind it; a store of another launch, and of the own one within and beyond its part; translations to
ordinary, MS and durable memory, to control space and to no memory. -/
theorem witness_Translation_places :
    (0x00FFFF0000000000 ≤ (0x00FFFF00007FFFFF : Word).toNat ∧ (0x00FFFF00007FFFFF : Word).toNat < 0x00FFFF0000800000 ∧
      0x00FFFF0000800000 ≤ (0x00FFFF0000800000 : Word).toNat) ∧
    (let s (o : Option (BitVec 32)) : State := { with_ [] with quads := [(0, { owner := o, dmax := 1 })] }; let ag := self (s none)
     ((s none).quad (ag.x.toNat / 16)).owner ≠ some ag.tag ∧ ((s (some 0)).quad (ag.x.toNat / 16)).owner = some ag.tag ∧ ag.noWindow = false ∧
     ((s (some 0)).quad 0).dmax * 0x40000 ≤ 0x40000 ∧ 0x3FFFF < ((s (some 0)).quad 0).dmax * 0x40000) ∧
    (∀ pa ∈ [0x0, 0x10000, 0x20000000000, 0xF000000000000, 0x8000000000], let s : State := { with_ [] with cores := [(1, { tlb := [page 0 pa 0x11F] })] }
     Yields (xlate (.core 1) (self s).asid (self s).level .read false 8) s fun r _ => r.1 == pa + 8) ∧ (self (with_ [])).level ≠ .f ∧
    (∃ e, xlate (.core 1) 0 .u .read false 0x90000 (with_ []) = .error e (endOf (xlate (.core 1) 0 .u .read false 0x90000) (with_ []))) := by
  refine ⟨by decide, by decide, fun pa h => ?_, by decide, .trap (Option.get _ (by decide +kernel :
    (trapOf (xlate (.core 1) 0 .u .read false 0x90000) (with_ [])).isSome = true)), trap_at (by simp)⟩
  simp only [List.mem_cons, List.not_mem_nil, or_false] at h
  rcases h with rfl | rfl | rfl | rfl | rfl <;> exact yields (by decide +kernel)

/-- Words of every kind that check 2 refuses, and a plain one: a reserved major, an unlisted scope, a field that must be 0, an unlisted form, a
scalar register above 31 and a chain bit in the VX form, a modifier out of range, and the prefixes that may not stand. -/
theorem witness_DispatchChecks :
    (∀ m ∈ [0x08, 0x1D, 0x1F, 0x22, 0x29], let w : BitVec 32 := BitVec.ofNat 32 (1 + m * 4)
      plainBinary (w.extractLsb' 2 8).toNat ∧ w.extractLsb' 0 2 = 1) ∧
    (∀ m ∈ [0x06, 0x41, 0xFF], ¬ listed8 m) ∧ (∀ m ∈ [0x8A, 0xCA], listed8 m) ∧
    (goodModifier 0x50C ∧ ¬ goodModifier 0x004 ∧ ¬ goodModifier 0x684 ∧ ¬ goodModifier 0x408 ∧ ¬ goodModifier 0x401) ∧
    (decodeWords (1 + 0x08 * 4) 0 0).toBool = true ∧
    ((3 + 0x3E * 4 : BitVec 32).extractLsb' 0 2 = 3 ∧ (3 : BitVec 32).getLsbD 5 = false ∧ (7 : BitVec 32).extractLsb' 2 3 ≠ 0) := by
  refine ⟨by unfold plainBinary; decide +kernel, by unfold listed8; decide +kernel, by unfold listed8; decide +kernel,
    ⟨?_, ?_, ?_, ?_, ?_⟩, by decide +kernel, by decide +kernel⟩ <;> unfold goodModifier <;> decide +kernel
/-- A word that does not decode at the pc, with its turn; an encoding that the fount table marks absent; operands that fail each dynamic
check alone. -/
theorem witness_DispatchChecks_traps :
    (let s := coded [0x3E, 0, 0, 0]; Turns s ∧ Idle s ∧ (here s).pc.toNat % 4 = 0 ∧
     Yields (fetchWord (agentOf s.cur (here s)) (here s).pc) s (fun w _ => w == 0x3E) ∧ decodeWords 0x3E 0 0 = .error ⟨1, false, false, 0x1F⟩) ∧
    (encodingOf (.add 3 1 2) = some ⟨false, 0, 0⟩ ∧
      (let s := coded [0xC0, 8, 2, 0]; ({ s with hub := { s.hub with absent := [⟨false, 0, 0⟩] } } : State).hub.absent.contains ⟨false, 0, 0⟩ = true)) ∧
    (let c (v : VType) : Ctx := (one fun c => { c with vl := 3, vt := v }).ctx 5; let f : Op64 := { z with vd := 8, vs1 := 4, vs2 := 16 }
     Idle (one fun c => { c with vl := 3, vt := { kind := 0, ew := 3, g := 5 } }) ∧ parts64 (.vadd f) = some (0x08, f) ∧
     f.vd.toNat % (c { kind := 0, ew := 3, g := 4 }).vt.size ≠ 0 ∧
     (¬ admits 0x08 (opTy (c { kind := 2, ew := 3 }).vt f) ∧ admits 0x08 (opTy (c { kind := 0, ew := 3 }).vt f) ∧ 8192 / (opTy (c { kind := 0, ew := 3 }).vt f).width = 256) ∧
     (let h : Op64 := { f with vs2 := 8, mod12 := 0x400 }; h.mod12 ≠ 0 ∧ h.vs2.toNat < h.vd.toNat + 1 ∧ h.vd.toNat < h.vs2.toNat + 1)) := by
  refine ⟨⟨turns_coded (by decide +kernel), (calm (by decide)).1, by decide, yields (by decide +kernel), rfl⟩, ⟨by decide +kernel, by decide +kernel⟩,
    (calm (by decide)).1, rfl, by decide +kernel, ⟨?_, ?_, by decide +kernel⟩, by decide +kernel⟩
  · rintro ⟨sg, w, h⟩; cases h
  · exact ⟨true, 32, rfl⟩

/-- Nothing waits; and a fence of class 0 with a posted operation that it covers and one that it does not. -/
theorem witness_FencesAndSnapshots : Idle (with_ []) ∧ Acked (with_ []) 5 ∧
    let s : State := { with_ [] with posted := [{ no := 0, x := 5, tag := 0, cls := 0, scope := 3, vector := false, adj := false, arrived := false, atoms := [] },
      { no := 1, x := 5, tag := 0, cls := 1, scope := 3, vector := false, adj := false, arrived := false, atoms := [] }] }
    (3 : Nat) ≤ 5 ∧ (1 : Nat) ≠ 0 ∧ (∃ p ∈ s.posted, p.x = 5 ∧ Nat.testBit 1 p.cls = true) ∧ ∃ p ∈ s.posted, p.x = 5 ∧ Nat.testBit 1 p.cls = false :=
  ⟨(calm (by decide)).1, (calm (by decide)).2.2 _, by decide, by decide, ⟨_, .head _, by decide, by decide⟩, _, .tail _ (.head _), by decide, by decide⟩
theorem witness_FencesAndSnapshots_trigger : ∀ b : Bool, let s : State := { (one fun c => { c with level := .s }) with hub := { boot := .run, snap := { armed := b } } }
    (here s).level = .s ∧ s.hub.snap.armed = b ∧ ∃ c, Tab.find s.ctxs 5 = some c := by
  intro b; cases b <;> exact ⟨rfl, rfl, _, rfl⟩
theorem witness_Privilege : Idle (with_ []) ∧ (here (with_ [])).level = .u ∧ (here (one fun c => { c with level := .s })).level = .s ∧
    Idle (one fun c => { c with level := .s }) ∧ 0x100 ≤ (0x100 : BitVec 12).toNat ∧ (0x106 : BitVec 12).toNat ≤ 0x106 ∧
    0x110 ≤ (0x110 : BitVec 12).toNat ∧ (0x112 : BitVec 12).toNat ≤ 0x112 ∧ (1 : Reg) ≠ 0 :=
  ⟨(calm (by decide)).1, rfl, rfl, (calm (by decide)).1, by decide, by decide, by decide, by decide, by decide⟩
/-- A trap at U with an entry that waits, one at S, and one of a context without a handler. -/
theorem witness_TrapEntry : (0x12 : Nat) < 256 ∧ Idle (with_ []) ∧
    (let c := (one fun c => { c with trap := {} }).ctx 5; c.trap.tvec = 0 ∧ c.status = .running ∧ c.level ≠ .f) ∧
    (let c := (with_ []).ctx 5; c.trap.tvec ≠ 0 ∧ c.level = .u) ∧
    (let c := (one fun c => { c with level := .s }).ctx 5; c.trap.tvec ≠ 0 ∧ c.level = .s ∧ c.level ≠ .f) ∧ (6 : CtxNo) ≠ 5 :=
  ⟨by decide, (calm (by decide)).1, by decide, by decide, by decide, by decide⟩
/-- Returns to an aligned and to a misaligned address. -/
theorem witness_TrapReturn : ∀ b : Bool, let s := one fun c => { c with level := .s, held := 1, trap := { c.trap with tepc := if b then 0x2000 else 0x2002, tcause := 0x12 } }
    (here s).level ≠ .u ∧ Idle s ∧ decide ((here s).trap.tepc.toNat % 4 = 0) = b := by
  intro b; cases b <;> exact ⟨by decide, (calm (by decide)).1, by decide⟩
/-- A return to U with the entry that trapped at the head of its queue. -/
theorem witness_TrapReturn_restart : let s := one fun c => { c with level := .s, held := 1, trap := { c.trap with tepc := 0x1000, tcause := 0x8009 }
                                                                    queue := [{ (c.entry .vector (.vadd z) z 0) with parked := true, trapped := true }] }
    (here s).level ≠ .u ∧ Idle s ∧ ∃ e rest, (here s).trappedEntry = some e ∧ (here s).queue = e :: rest ∧ wholeRestart e.instr = false :=
  ⟨by decide, by unfold Idle; decide +kernel, _, _, rfl, rfl, by decide +kernel⟩
/-- The record at 0x40 with a priority: 2 passes, 1 needs F, 12 does not exist; its queue has room or none. -/
def spawner (prio : Nat) : State := bytesAt 0x47 [prio] (with_ [(1, 0x40)])
theorem witness_SpawnResults : ∀ p ∈ [1, 2, 12], let s := spawner p
    (0x40 : Word).toNat % 8 = 0 ∧ NoAccess s ∧ Idle s ∧
    Yields (loadWords (self s) 0x40 4) s fun w s1 => decide (w = [BitVec.ofNat 64 (p * 2 ^ 56), 0, 0, 0]) && !s1.queueFull 0 2 := by
  intro p hp; simp only [List.mem_cons, List.not_mem_nil, or_false] at hp
  rcases hp with rfl | rfl | rfl <;> exact ⟨by decide, (calm (by decide)).2.1, (calm (by decide)).1, yields (by decide +kernel)⟩
/-- A queue whose buffer holds 4,096 records and whose ring has no place. -/
def fullQueue : Die := { queues := [(2, List.replicate 4096 { w0 := 2 * 2 ^ 56, w1 := 0, w2 := 0, w3 := 0, tag := 0, asid := 0, cr := 0, scope := 3, waited := 0, pops := 0 })], rings := [(2, ⟨0, 0⟩)] }
theorem witness_SpawnResults_misaligned : (0x44 : Word).toNat % 8 ≠ 0 ∧ Idle (with_ [(1, 0x44)]) := ⟨by decide, (calm (by decide)).1⟩
theorem witness_SpawnResults_full : (({ spawner 2 with dies := [(0, fullQueue)] } : State).drainReserve 0 2).queueFull 0 2 = true := by decide +kernel
/-- Counts of 2, 0, and a poisoned one; a count of 1 whose record stays on the die and is queued. -/
theorem witness_JoinDecrement : (∀ n ∈ [(2, false), (0, false), (2, true)],
      let s := { bytesAt 0x40 [n.1] (with_ [(1, 0x40)]) with marks := if n.2 then [8] else [] }
      (0x40 : Word).toNat % 64 = 0 ∧ NoAccess s ∧ Idle s ∧ Acked s 5 ∧
      Yields (place (self s) (.core (coreOf s.cur)) .atomic false 0x40) s fun p s1 =>
        decide ((s1.purgePlace s.cur p).atomRead p.home.1 p.home.2 8 = n)) ∧
    let s := bytesAt 0x40 [1, 0, 0, 0, 0, 0, 0, 0, 0, 0x10, 0, 0, 0, 0, 0, 2] (with_ [(1, 0x40)])
    Yields (place (self s) (.core (coreOf s.cur)) .atomic false 0x40) s fun p s1 =>
      let sc := joinScope 0 p
      let base := s1.base s.cur
      let dec := (((s1.release s.cur sc).purgePlace s.cur p).atomDo s.cur ⟨p.home.1, p.home.2, 8, .add, 2 ^ 64 - 1, false⟩ (base + 15)).1.wakePlace s.cur p
      let less := dec.publish s.cur sc p.word (dec.releaseClock base sc)
      let got := (less.acquire s.cur sc).modBefore fun b => b.acquires base {} (metClock (Tab.look [] b.words p.word) s.cur sc)
      decide (((s1.release s.cur sc).purgePlace s.cur p).atomRead p.home.1 p.home.2 8 = (1, false)) &&
      (match loadWords (self s) 0x48 4 got with
       | .ok [w0, w1, w2, w3] t => (recCheck (here s).level w0).isNone && decide (w0 = 0x0200000000001000) &&
           ((if sc < recScope 0 w0 then t.release s.cur 4 else t).sendJoin 0 { w0 := w0, w1 := w1, w2 := w2, w3 := w3, tag := 0, asid := 0, cr := 0x48, scope := recScope 0 w0, waited := 0, pops := 0 }).isSome
       | _ => false) := by
  refine ⟨fun n hn => ?_, yields (by decide +kernel)⟩
  simp only [List.mem_cons, List.not_mem_nil, or_false] at hn
  rcases hn with rfl | rfl | rfl <;>
    exact ⟨by decide, (calm (by decide)).2.1, (calm (by decide)).1, (calm (by decide)).2.2 _, yields (by decide +kernel)⟩
/-- A quad barrier of three, id 15, count n, in a state. -/
def atBar (b : Barrier) (n : Nat) (parts : Tab Part := []) : State :=
  { (one fun c => { c with g := [(2, BitVec.ofNat 64 (n * 2 ^ 32 + 15))], parts := parts }) with bars := [(2 * 65536 + 15, b)] }
theorem witness_Barriers : ∀ b ∈ [({} : Barrier), { state := .open_, n := 3, a := 1 }, { state := .open_, n := 3, a := 2 }, { state := .broken, n := 2 }],
    let s := atBar b 3
    Idle s ∧ Acked s 2 ∧ barGood s 2 2 ∧ Tab.find (here s).barWaits (here s).barAt = none ∧ s.bar (barHere s 2 2).1 = b := by
  intro b hb; simp only [List.mem_cons, List.not_mem_nil, or_false] at hb
  rcases hb with rfl | rfl | rfl | rfl <;>
    exact ⟨(calm (by decide)).1, (calm (by decide)).2.2 _, by unfold barGood; decide +kernel, by decide, by decide +kernel⟩
/-- A participant of the open phase, and one that is not; one participant's barrier completes at once. -/
theorem witness_BarrierWaitsAndDrops : (let s := atBar { state := .open_, n := 3, a := 1 } 3 [(2 * 65536 + 15, .phase 0)];
      Idle s ∧ Tab.find (here s).parts (barHere s 2 2).1 = some (.phase (s.bar (barHere s 2 2).1).phase)) ∧
    (let s := atBar { state := .open_, n := 3, a := 1 } 3;
      Tab.find (here s).parts (barHere s 2 2).1 ≠ some (.phase 0) ∧ (s.bar (barHere s 2 2).1).a + 1 < (s.bar (barHere s 2 2).1).n) ∧
    (let s := atBar {} 1; barGood s 2 2 ∧ (s.bar (barHere s 2 2).1).brks.contains 0 = false) :=
  ⟨⟨(calm (by decide)).1, by decide⟩, by decide, by unfold barGood; decide +kernel, by decide⟩
/-- A record of launch 7 that runs; the queue of its continuation has room, or is full. -/
theorem witness_RecordEnds : ∀ b : Bool, let s : State := { (one fun c => { c with rec_ := some ⟨2 * 2 ^ 56, 0, 7, 0⟩ }) with
      dies := [(0, if b then fullQueue else {})] }
    Idle s ∧ (here s).rec_ = some ⟨2 * 2 ^ 56, 0, 7, 0⟩ ∧ (here s).parts = [] ∧ (here s).galBuf = [] ∧ s.outstanding s.cur = false ∧
    s.ordinary s.cur = [] ∧ (here s).chained = false ∧ (here s).tag ≠ 0 ∧ ((s.drainReserve 0 2).release s.cur 3).queueFull 0 2 = b ∧
    Acked s 3 ∧ ((s.drainReserve 0 2).release s.cur 3).outstanding s.cur = false ∧ recDie 0 (2 * 2 ^ 56) = 0 := by
  intro b; cases b <;>
    exact ⟨(calm (by decide)).1, rfl, rfl, rfl, by decide +kernel, by decide +kernel, by decide, by decide, by decide +kernel, (calm (by decide)).2.2 _, by decide +kernel, by decide +kernel⟩

/-- Valid type images at the ends of their ranges (n64, 32 rows; q4 with k15), an invalid one, and each selector of `vget`. -/
theorem witness_VectorTypes : (∃ t, vtypeOf (4 + 8 + 5 * 128) = some t) ∧ (∃ t, vtypeOf (6 * 8 + 15 * 1024 + 16384) = some t) ∧
    vtypeOf 0 = none ∧ Idle (with_ []) ∧ ∀ n < 4, ({ z with fn4 := BitVec.ofNat 4 n } : Op64).fn4.toNat = n :=
  ⟨⟨_, rfl⟩, ⟨_, rfl⟩, rfl, (calm (by decide)).1, by decide⟩

/-- A context with i32 groups of two rows and 3 columns, the top of its mask stack clear in column 1, element 5 of v4 poisoned. -/
def lanes : State := one fun c => { c with vl := 3, vt := { kind := 0, ew := 3, g := 1 }, stack := [5], vstart := 2
                                           v := [(4, { bits := 7 }), (5, { bits := 9 * 2 ^ 64, pois := 0xFF0000 }), (6, { bits := 2 })] }
/-- The same in FP32. -/
def floats : State := one fun c => { c with vl := 3, vt := { kind := 2, ew := 3, g := 1 }, v := [(4, { bits := 0x3F800000 })] }
/-- The same in q4 with scale register k1. -/
def quarters : State := one fun c => { c with vl := 32, vt := { ks := true, k := 1, kind := 6, ew := 0, g := 1 }, v := [(4, { bits := 5 })] }
/-- vd v8:2, vs1 v6:2, vs2 v4:2. -/
def vop : Op64 := { z with vd := 8, vs1 := 6, vs2 := 4 }
/-- No active element of a lane raises a flag whose enable is set. -/
def untrapped (l : Lane) (s : State) : Bool :=
  (List.range (here s).vt.size).all fun r => (List.range (here s).vl).all fun col =>
    !(decide (l.start (here s) ≤ r * (here s).vl + col) && (l.mask (here s)).getLsbD col) ||
    decide ((here s).vcsr.enables.toNat &&& Res.flags (l.res (here s) r col) = 0)
theorem calmLanes {l : Lane} {s : State} (h : untrapped l s = true) :
    ∀ r < (here s).vt.size, ∀ col < (here s).vl, l.start (here s) ≤ r * (here s).vl + col → (l.mask (here s)).getLsbD col = true →
      (here s).vcsr.enables.toNat &&& Res.flags (l.res (here s) r col) = 0 := by
  intro r hr col hc h1 h2
  simp only [untrapped, List.all_eq_true, List.mem_range, Bool.or_eq_true, Bool.not_eq_true', Bool.and_eq_false_iff, decide_eq_false_iff_not,
    decide_eq_true_eq] at h
  rcases h r hr col hc with (h | h) | h
  · exact absurd h1 h
  · simp [h2] at h
  · exact h
theorem witness_IntegerLanes : ∃ l, intTable (.vadd vop) = some l ∧ Ready lanes (.vadd vop) .vector ∧ l.form (here lanes) ∧ untrapped l lanes = true :=
  ⟨_, rfl, ready (by decide +kernel), form (by decide +kernel), by decide +kernel⟩
theorem witness_FloatLanes : ∃ l, fpTable (.vfma vop) = some l ∧ Ready floats (.vfma vop) .vector ∧ l.form (here floats) ∧ untrapped l floats = true :=
  ⟨_, rfl, ready (by decide +kernel), form (by decide +kernel), by decide +kernel⟩
/-- The element (r, col) of a lane is the first active one that raises a flag whose trap is enabled. -/
def trapsAt (l : Lane) (s : State) (r col : Nat) : Bool :=
  let c := here s
  let raised (r col : Nat) : Bool := decide (l.start c ≤ r * c.vl + col) && (l.mask c).getLsbD col &&
    decide (c.vcsr.enables.toNat &&& Res.flags (l.res c r col) ≠ 0)
  decide (r < c.vt.size ∧ col < c.vl ∧ c.trap.tvec ≠ 0 ∧ c.level ≠ .f) && raised r col &&
  (List.range c.vt.size).all fun r' => (List.range c.vl).all fun col' => !(decide (r' * c.vl + col' < r * c.vl + col) && raised r' col')
/-- Integers and floats with every trap enabled: 0 / 0 in element 2 of the integers, and a NaN in element 0 of the floats. -/
def strict (s : State) (b : Nat) : State := s.modCtx 5 fun c => { c with vcsr := { enables := 511 }, v := Tab.put c.v 4 { bits := BitVec.ofNat 8192 b } }
theorem witness_IntegerLanes_trap : ∃ l, intTable (.vdivu vop) = some l ∧ Ready (strict lanes 0) (.vdivu vop) .vector ∧ l.form (here (strict lanes 0)) ∧
    trapsAt l (strict lanes 0) 0 2 = true :=
  ⟨_, rfl, ready (by decide +kernel), form (by decide +kernel), by decide +kernel⟩
/-- 1 / 0. -/
theorem witness_FloatLanes_trap : let s := strict floats 0x3F800000
    ∃ l, fpTable (.vfdiv vop) = some l ∧ Ready s (.vfdiv vop) .vector ∧ l.form (here s) ∧ trapsAt l s 0 0 = true :=
  ⟨_, rfl, ready (by decide +kernel), form (by decide +kernel), by decide +kernel⟩
/-- A NaN to i32. -/
theorem witness_ConversionLanes_trap : let s := strict floats 0x7FC00000; let i : Instr := .vcvt { vop with vs1 := 0, fn4 := 3 }
    ∃ l, convTable i = some l ∧ Ready s i .vector ∧ l.form (here s) ∧ trapsAt l s 0 0 = true :=
  ⟨_, rfl, ready (by decide +kernel), ⟨form (by decide +kernel), by decide +kernel, by decide +kernel, by unfold apartRows; decide +kernel⟩, by decide +kernel⟩
/-- FP32 to i32, i32 to i16, i32 to i64, and q4 to FP16. -/
theorem witness_ConversionLanes :
    (let i : Instr := .vcvt { vop with vs1 := 0, fn4 := 3 }; ∃ l, convTable i = some l ∧ Ready floats i .vector ∧ l.form (here floats) ∧ untrapped l floats = true) ∧
    (let i : Instr := .vnarrow { vop with vs1 := 0, fn4 := 2 }; ∃ l, convTable i = some l ∧ Ready lanes i .vector ∧ l.form (here lanes) ∧ untrapped l lanes = true) ∧
    (let i : Instr := .vwiden { vop with vs1 := 0, fn4 := 4 }; ∃ l, convTable i = some l ∧ Ready lanes i .vector ∧ l.form (here lanes) ∧ untrapped l lanes = true) ∧
    (let i : Instr := .vdeq { vop with vs1 := 0, fn4 := 9 }; ∃ l, convTable i = some l ∧ Ready quarters i .vector ∧ l.form (here quarters) ∧ untrapped l quarters = true) :=
  ⟨⟨_, rfl, ready (by decide +kernel), ⟨form (by decide +kernel), by decide +kernel, by decide +kernel, by unfold apartRows; decide +kernel⟩, by decide +kernel⟩,
   ⟨_, rfl, ready (by decide +kernel), ⟨⟨by decide +kernel, by decide +kernel, by decide +kernel, by unfold apartRows; decide +kernel⟩, by decide +kernel, by decide +kernel⟩, by decide +kernel⟩,
   ⟨_, rfl, ready (by decide +kernel), ⟨⟨by decide +kernel, by decide +kernel, by decide +kernel, by unfold apartRows; decide +kernel⟩, by decide +kernel, by decide +kernel⟩, by decide +kernel⟩,
   ⟨_, rfl, ready (by decide +kernel), by unfold apartRows; decide +kernel, by decide +kernel⟩⟩
/-- A rotation by one column, a permutation, and a reshape whose divisor divides the elements. -/
theorem witness_MoveLanes :
    (let i : Instr := .vslup { vop with vs1 := 1, fn3 := 2, fn4 := 2 }; ∃ l, moveTable i = some l ∧ Ready lanes i .vector ∧ l.form (here lanes) ∧ untrapped l lanes = true) ∧
    (let i : Instr := .vperm vop; ∃ l, moveTable i = some l ∧ Ready lanes i .vector ∧ l.form (here lanes) ∧ untrapped l lanes = true) ∧
    (let i : Instr := .vreshape { vop with vs1 := 2, fn3 := 2 }; ∃ l, moveTable i = some l ∧ Ready lanes i .vector ∧ l.form (here lanes) ∧ untrapped l lanes = true) :=
  ⟨⟨_, rfl, ready (by decide +kernel), ⟨form (by decide +kernel), by unfold apartRows; decide +kernel, trivial⟩, by decide +kernel⟩,
   ⟨_, rfl, ready (by decide +kernel), ⟨form (by decide +kernel), by unfold apartRows; decide +kernel, by unfold apartRows; decide +kernel⟩, by decide +kernel⟩,
   ⟨_, rfl, ready (by decide +kernel), ⟨form (by decide +kernel), by unfold apartRows; decide +kernel, by decide +kernel⟩, by decide +kernel⟩⟩
theorem witness_CompareMasks : (Ready lanes (.vcmp { vop with vd := 3, fn4 := 9 }) .vector ∧ Form 0x28 { vop with vd := 3, fn4 := 9 } (here lanes) intTy) ∧
    Ready floats (.vfcmp { vop with vd := 3, fn4 := 7 }) .vector ∧ Form 0x3E { vop with vd := 3, fn4 := 7 } (here floats) fpTy ∧
    (9 : BitVec 4).toNat < 10 ∧ (7 : BitVec 4).toNat < 8 :=
  ⟨⟨ready (by decide +kernel), form (by decide +kernel)⟩, ready (by decide +kernel), form (by decide +kernel), by decide, by decide⟩
/-- q4e from FP32. -/
theorem witness_BlockQuantisation : let f : Op64 := { vop with vs1 := 0, cls4 := 10, fn4 := 1 }
    Ready quarters (.vquant f) .vector ∧ Form 0x51 f (here quarters) fpTy ∧ f.cls4 = 10 ∧ quantAgrees (here quarters).vt f = true ∧
    apartRows f.vd.toNat (here quarters).vt.size f.vs2.toNat (here quarters).vt.size ∧ (here quarters).vcsr.enables = 0 ∧
    (here quarters).trap.tvec ≠ 0 ∧
    -- with the traps enabled, an infinity raises a flag where it is encoded
    (let s := strict quarters 0x7F800000; Ready s (.vquant f) .vector ∧ Form 0x51 f (here s) fpTy ∧ startOf (here s) = 0 ∧
      (effMask (here s) f).getLsbD 0 = true ∧
      ((blockElems (here s) ((here s).entry .vector (.vquant f) f 0) f .fp32 0 0).find? fun y => y.2.isInf).map (fun y => y.1) = some 0) :=
  ⟨ready (by decide +kernel), form (by decide +kernel), rfl, by decide +kernel, by unfold apartRows; decide +kernel, rfl, by decide +kernel,
    ready (by decide +kernel), form (by decide +kernel), by decide +kernel, by decide +kernel, by decide +kernel⟩
/-- Six elements in a tree of eight leaves; the last op. -/
theorem witness_ReductionsAndScans : (here lanes).vt.size * (here lanes).vl ≤ 2 ^ 3 ∧ 2 ^ (3 - 1) < (here lanes).vt.size * (here lanes).vl ∧
    Ready lanes (.vred { vop with fn4 := 12 }) .vector ∧ Form 0x76 { vop with fn4 := 12 } (here lanes) (redTypes 12) :=
  ⟨by decide, by decide, ready (by decide +kernel), form (by decide +kernel)⟩
/-- A poisoned active element, no active element, and a best one. -/
theorem witness_ReductionsAndScans_extreme : let f : Op64 := { vop with vs1 := 0, fn4 := 3 }
    (Ready lanes (.vredx f) .vector ∧ Form 0x77 f (here lanes) (fun t => intTy t && decide (16 ≤ t.width)) ∧
      (effMask (here lanes) f).getLsbD (5 % 3) = true ∧ (opA (here lanes) f 32 1 2).2 = true) ∧
    (let s := one fun c => { (here lanes) with stack := [0], tokens := c.tokens }; ∀ i < 6, (effMask (here s) f).getLsbD (i % 3) = false) ∧
    (let s := one fun c => { (here lanes) with vl := 2, tokens := c.tokens };
      (effMask (here s) f).getLsbD 0 = true ∧ ∀ j < 4, (effMask (here s) f).getLsbD (j % 2) = true →
        (opA (here s) f 32 (j / 2) (j % 2)).2 = false ∧ beats 3 (.int true 32) (opA (here s) f 32 (j / 2) (j % 2)).1 (opA (here s) f 32 0 0).1 = false) :=
  ⟨⟨ready (by decide +kernel), form (by decide +kernel), by decide +kernel, by decide +kernel⟩, by decide +kernel, by decide +kernel⟩
/-- Every form of the scan. -/
theorem witness_ReductionsAndScans_scans : ∀ n ∈ [0, 3, 4, 5], let f : Op64 := { vop with fn3 := BitVec.ofNat 3 n, fn4 := 12 }
    (n = 0 ∨ n = 3 ∨ n = 4 ∨ n = 5) ∧ f.vs1.toNat < 8 ∧ Ready lanes (.vscan f) .vector ∧ Form 0x78 f (here lanes) (redTypes 12) ∧
    apartRows f.vd.toNat (here lanes).vt.size f.vs2.toNat (here lanes).vt.size := by
  intro n hn; simp only [List.mem_cons, List.not_mem_nil, or_false] at hn
  rcases hn with rfl | rfl | rfl | rfl <;>
    exact ⟨by decide, by decide, ready (by decide +kernel), form (by decide +kernel), by unfold apartRows; decide +kernel⟩
/-- An extraction of a clean element, of a poisoned one and one beyond the end; a whole-row move; and a sort with three disjoint groups. -/
theorem witness_ExtractSortAndCopyRows :
    (let f : Op64 := { vop with vd := 9, vs1 := 0, fn3 := 2 }; Ready lanes (.vext f) .vector ∧ Form 0x79 f (here lanes) rawTy ∧
      (opA (here lanes) f 32 0 0).2 = false) ∧
    (let f : Op64 := { vop with vd := 9, vs1 := 5, fn3 := 2 }; Ready lanes (.vext f) .vector ∧ Form 0x79 f (here lanes) rawTy ∧
      amountOf (here lanes) f = 5 ∧ (opA (here lanes) f 32 1 2).2 = true ∧ (here lanes).trap.tvec ≠ 0) ∧
    (let f : Op64 := { vop with vd := 9, vs1 := 6, fn3 := 2 }; (here lanes).vt.size * (here lanes).vl ≤ amountOf (here lanes) f) ∧
    (let f : Op64 := { vop with vs1 := 0, fn4 := 1 }; Ready lanes (.vmvRow f) .vector ∧ Form 0x7B f (here lanes) rawTy) ∧
    (let f : Op64 := { vop with fn4 := 9 }; f.fn4.toNat % 8 < 3 ∧ Ready lanes (.vsortk f) .vector ∧
      Form 0x7A f (here lanes) (fun t => decide (t = .int true 32 ∨ t = .int false 32 ∨ t = .flt .fp32)) ∧ apartRows f.vd.toNat 2 f.vs1.toNat 2 ∧
      apartRows f.vd.toNat 2 f.vs2.toNat 2 ∧ apartRows f.vs1.toNat 2 f.vs2.toNat 2) :=
  ⟨⟨ready (by decide +kernel), form (by decide +kernel), by decide +kernel⟩,
    ⟨ready (by decide +kernel), form (by decide +kernel), by decide +kernel, by decide +kernel, by decide +kernel⟩, by decide +kernel,
    ⟨ready (by decide +kernel), form (by decide +kernel)⟩,
    by decide, ready (by decide +kernel), form (by decide +kernel), by unfold apartRows; decide, by unfold apartRows; decide, by unfold apartRows; decide⟩
/-- Mask instructions with fields at their ends, and mask stacks of no entry, one, fifteen and sixteen. -/
theorem witness_Masks : Ready lanes (.mlog { z with vd := 7, fn4 := 15 }) .vector ∧ Ready lanes (.mset { z with vd := 7, fn4 := 2 }) .vector ∧
    (2 : BitVec 4).toNat ≤ 2 ∧ Ready lanes (.pmrd z) .vector ∧ Ready lanes (.pmclr z) .vector ∧ Ready lanes (.mpopc z) .vector ∧
    Ready lanes (.mfirst z) .vector ∧
    (let s := one fun c => { c with stack := List.replicate 15 0 }; Ready s (.mpush z) .vector ∧ (here s).stack.length < 16) ∧
    (let s := one fun c => { c with stack := List.replicate 16 0 }; Idle s ∧ (here s).stack.length = 16) ∧
    ((here lanes).stack = 5 :: [] ∧ Ready lanes (.minv z) .vector ∧ Ready lanes (.mpop z) .vector ∧ Idle lanes) ∧ (here floats).stack = [] ∧ Idle floats :=
  ⟨ready (by decide +kernel), ready (by decide +kernel), by decide, ready (by decide +kernel), ready (by decide +kernel), ready (by decide +kernel),
    ready (by decide +kernel), ⟨ready (by decide +kernel), by decide⟩, ⟨(calm (by decide)).1, by decide⟩,
    ⟨rfl, ready (by decide +kernel), ready (by decide +kernel), (calm (by decide)).1⟩, rfl, (calm (by decide)).1⟩

/-- Three i32 columns read and written in each way, at 0x40 on an ordinary page. -/
def moving : State := bytesAt 0x40 [1, 2, 3, 4] (with_ [(1, 0x40), (2, 8)] fun c => { c with vl := 3, vt := { kind := 0, ew := 3 }, v := [(4, { bits := 8 }), (8, { bits := 7 })] })
def mop : Op64 := { z with vd := 8, vs1 := 1, vs2 := 2 }
/-- The reads of a load's elements, in order, and the stores of a store's. -/
def loads (s : State) (k : Course) (first : Bool) (f : Op64) (l : List Nat) : Option (List (Nat × Bool) × State) :=
  let i := loadOf k first f
  let s0 := issuing i .vector f true s
  readsAt (self s) (entryReads (entryOf i .vector f true s) f s.cur (bytesOfElem (here s).vt.bitsW)) (l.map fun e => (addrOf k (here s) f e).1)
    (if f.fn4 = 1 then s0.acquire s.cur f.fn3.toNat else s0)
def saves (s : State) (k : Course) (f : Op64) (l : List Nat) : Option State :=
  let i := storeOf k f
  let o := entryOf i .vector f true s
  let s0 := issuing i .vector f true s
  storesAt (self s) (here s).vt.bitsW (entryWrites o f s.cur) (l.map fun e =>
    let v := cell (here s) (here s).vt.bitsW (f.vd.toNat + e / (here s).vl) (e % (here s).vl); (addrOf k (here s) f e, v.1, v.2 != 0))
    (if f.fn4 = 2 then s0.release s.cur f.fn3.toNat (s0.entryAccess s.cur o f.cls4.toNat) o.past else s0)
theorem grouped {k : Course} {c : Ctx} {f : Op64} {p : Ty → Bool} (h : decide (f.vd.toNat % c.vt.size = 0 ∧
    (k = .index → f.vs2.toNat % c.vt.size = 0) ∧ p c.vt.ty = true) = true) : Grouped k c f p := by
  rw [decide_eq_true_eq] at h; exact h
theorem witness_VectorLoads : (∀ k ∈ [Course.unit, .stride, .row], ∀ a ∈ [0, 1], let f : Op64 := { mop with fn4 := BitVec.ofNat 4 a, fn3 := 5 }
      Ready moving (loadOf k false f) .vector ∧ Grouped k (here moving) f (accepted k) ∧ (here moving).mode ≠ .rev ∧
      (∀ e ∈ liveAt k (here moving) f (startOf (here moving)), alignedAt k (here moving) f e = true) ∧
      Gives (loads moving k false f (liveAt k (here moving) f (startOf (here moving)))) fun _ => true) ∧
    (let f : Op64 := { mop with vs2 := 4 }
     Ready moving (.vldx f) .vector ∧ Grouped .index (here moving) f (accepted .index) ∧
      (∀ e ∈ liveAt .index (here moving) f 0, alignedAt .index (here moving) f e = true) ∧
      Gives (loads moving .index false f (liveAt .index (here moving) f 0)) fun _ => true) := by
  refine ⟨fun k hk a ha => ?_, ready (by decide +kernel), grouped (by decide +kernel), by decide +kernel, gives (by decide +kernel)⟩
  simp only [List.mem_cons, List.not_mem_nil, or_false] at hk ha
  rcases hk with rfl | rfl | rfl <;> rcases ha with rfl | rfl <;>
    exact ⟨ready (by decide +kernel), grouped (by decide +kernel), by decide, by decide +kernel, gives (by decide +kernel)⟩
/-- Columns whose first two elements end page 4, which is read-only, and whose third has no page; and others with a misaligned element. -/
def leaving : State := with_ [(1, 0x4FFF8)] fun c => { c with vl := 3, vt := { kind := 0, ew := 3 } }
/-- A `vldff` that ends behind element 1, one that traps at element 0, and a `vld` that traps at element 2; a strided load with a misaligned
element 1. -/
theorem witness_VectorLoads_faults : let s := leaving
    (∀ first : Bool, Ready s (loadOf .unit first mop) .vector ∧ Grouped .unit (here s) mop (accepted .unit) ∧ (here s).vt.size = 1 ∧ startOf (here s) = 0 ∧
      liveAt .unit (here s) mop 0 = [0, 1] ++ 2 :: [] ∧ (∀ o ∈ [0, 1], alignedAt .unit (here s) mop o = true) ∧
      (here s).trap.tvec ≠ 0 ∧ (here s).level ≠ .f ∧
      Gives (loads s .unit first mop [0, 1]) fun r => match faultAt .unit (here s) mop (self s) .read 2 r.2 with
        | some (tr, _) => decide (tr.cause = 0x06 ∧ tr.info.toNat / 256 % 256 ≠ 6) | none => false) ∧
    (let s := s.modCtx 5 fun c => c.wg 1 0x50000
     Ready s (.vldff mop) .vector ∧ liveAt .unit (here s) mop 0 = [] ++ 0 :: [1, 2] ∧
     Gives (loads s .unit true mop []) fun r => (faultAt .unit (here s) mop (self s) .read 0 r.2).isSome) ∧
    (let s := moving.modCtx 5 fun c => c.wg 2 2
     Ready s (.vlds mop) .vector ∧ liveAt .stride (here s) mop 0 = [0] ++ 1 :: [2] ∧ alignedAt .stride (here s) mop 0 = true ∧
     Gives (loads s .stride false mop [0]) fun r => (faultAt .stride (here s) mop (self s) .read 1 r.2).isSome) :=
  ⟨fun b => by cases b <;> exact ⟨ready (by decide +kernel), grouped (by decide +kernel), by decide, by decide, by decide +kernel, by decide +kernel,
      by decide, by decide, gives (by decide +kernel)⟩,
    ⟨ready (by decide +kernel), by decide +kernel, gives (by decide +kernel)⟩,
    ready (by decide +kernel), by decide +kernel, by decide +kernel, gives (by decide +kernel)⟩
theorem witness_VectorStores : (∀ k ∈ [Course.unit, .stride, .row], ∀ a ∈ [0, 2], let f : Op64 := { mop with fn4 := BitVec.ofNat 4 a, fn3 := 5 }
      Ready moving (storeOf k f) .vector ∧ Acked moving 5 ∧ Grouped k (here moving) f (accepted k) ∧ (here moving).mode = .off ∧
      (∀ e ∈ liveAt k (here moving) f (startOf (here moving)), alignedAt k (here moving) f e = true) ∧
      Gives (saves moving k f (liveAt k (here moving) f (startOf (here moving)))) fun _ => true) ∧
    (let f : Op64 := { mop with vs2 := 4 }; Ready moving (.vstx f) .vector ∧ Gives (saves moving .index f (liveAt .index (here moving) f 0)) fun _ => true) ∧
    -- a store whose first element is refused: the page is read-only
    (let s := leaving; Ready s (.vst mop) .vector ∧ liveAt .unit (here s) mop 0 = [] ++ 0 :: [1, 2] ∧
     Gives (saves s .unit mop []) fun t => (faultAt .unit (here s) mop (self s) .write 0 t).isSome) := by
  refine ⟨fun k hk a ha => ?_, ⟨ready (by decide +kernel), gives (by decide +kernel)⟩, ready (by decide +kernel), by decide +kernel, gives (by decide +kernel)⟩
  simp only [List.mem_cons, List.not_mem_nil, or_false] at hk ha
  rcases hk with rfl | rfl | rfl <;> rcases ha with rfl | rfl <;>
    exact ⟨ready (by decide +kernel), (calm (by decide)).2.2 _, grouped (by decide +kernel), rfl, by decide +kernel, gives (by decide +kernel)⟩
/-- The state in which a vector instruction on `moving` issues, and its entry. -/
def began (i : Instr) (f : Op64) (s : State := moving) : State := issuing i .vector f true s
def asEntry (i : Instr) (f : Op64) (s : State := moving) : Entry := entryOf i .vector f true s
/-- Scale bytes, linked reads and conditional writes, and atomics with and without a result. -/
theorem witness_ScalesLinksAndAtomics : let c := here moving; let f : Op64 := { mop with vs2 := 4, fn3 := 5 }
    (let g : Op64 := { mop with fn4 := 2, fn3 := 5 }
     Ready moving (.vldk mop) .vector ∧ Ready moving (.vstk g) .vector ∧ Acked moving 5 ∧
      Gives (readsAt (self moving) (entryReads (asEntry (.vldk mop) mop) mop moving.cur 1) [0x40] (began (.vldk mop) mop)) (fun _ => true) ∧
      Gives (storesAt (self moving) 8 (entryWrites (asEntry (.vstk g) g) g moving.cur) [((0x40, false), 5, false)]
        ((began (.vstk g) g).release moving.cur 5 ((began (.vstk g) g).entryAccess moving.cur (asEntry (.vstk g) g) 0) (asEntry (.vstk g) g).past)) fun _ => true) ∧
    (Ready moving (.vgld f) .vector ∧ Ready moving (.vscc { f with fn4 := 7 }) .vector ∧
      Grouped .index c f (fun ty => ty != .q4) ∧ (∀ i ∈ liveAt .index c f 0, alignedAt .index c f i = true) ∧ c.vt.size = 1 ∧
      Gives (linksAt (self moving) (asEntry (.vgld f) f) 0 5 4 ((liveAt .index c f 0).map fun e => (addrOf .index c f e).1) (began (.vgld f) f)) (fun _ => true) ∧
      Gives (scatterAt (self moving) ((liveAt .index c f 0).map fun e => (e, (addrOf .index c f e).1)) (began (.vscc f) f)) fun _ => true) ∧
    ∀ r ∈ [0, 8], let f : Op64 := { f with fn4 := BitVec.ofNat 4 (r + 7), fn3 := 0 }
      Ready moving (.vamo f) .vector ∧ Grouped .index c f (vamoTy f) ∧ (!(f.fn4.getLsbD 3)) = decide (r = 0) ∧
      Gives (amosAt (self moving) (asEntry (.vamo f) f) 0 4 .xor (!(f.fn4.getLsbD 3)) ((liveAt .index c f 0).map fun e => ((addrOf .index c f e).1, 7))
        (began (.vamo f) f)) fun _ => true := by
  refine ⟨⟨ready (by decide +kernel), ready (by decide +kernel), (calm (by decide)).2.2 _, gives (by decide +kernel), gives (by decide +kernel)⟩,
    ⟨ready (by decide +kernel), ready (by decide +kernel), grouped (by decide +kernel), by decide +kernel, rfl, gives (by decide +kernel), gives (by decide +kernel)⟩,
    fun r hr => ?_⟩
  simp only [List.mem_cons, List.not_mem_nil, or_false] at hr
  rcases hr with rfl | rfl <;> exact ⟨ready (by decide +kernel), grouped (by decide +kernel), rfl, gives (by decide +kernel)⟩
/-- Two indices of which the second leads to a page that refuses: a durable page for the linked accesses, a read-only one for the atomic; and
scale bytes whose second has no page. -/
def straying (far : Nat) : State := moving.modCtx 5 fun c => { c with vl := 2, v := [(4, { bits := BitVec.ofNat 8192 ((far - 0x40) / 4 * 2 ^ 32) }), (8, { bits := 7 })] }
theorem witness_ScalesLinksAndAtomics_traps : let f : Op64 := { mop with vs2 := 4 }
    (∀ store : Bool, let s := straying 0x20000; let i : Instr := if store then .vscc f else .vgld f
      Ready s i .vector ∧ Grouped .index (here s) f (fun ty => ty != .q4) ∧ (here s).vt.size = 1 ∧ liveAt .index (here s) f (startOf (here s)) = [0] ++ 1 :: [] ∧
      alignedAt .index (here s) f 0 = true ∧ (here s).trap.tvec ≠ 0 ∧ (here s).level ≠ .f ∧
      (if store then Gives (scatterAt (self s) [(0, (addrOf .index (here s) f 0).1)] (began i f s)) fun r => (linkFault (here s) f (self s) .write 1 r.2).isSome
       else Gives (linksAt (self s) (asEntry i f s) 0 0 4 [(addrOf .index (here s) f 0).1] (began i f s)) fun r =>
         (linkFault (here s) f (self s) .read 1 r.2).map (fun v => v.1.info) == some 0x1600)) ∧
    (∀ r ∈ [0, 8], let s := straying 0x40000; let f : Op64 := { f with fn4 := BitVec.ofNat 4 r }
      Ready s (.vamo f) .vector ∧ Grouped .index (here s) f (vamoTy f) ∧ liveAt .index (here s) f (startOf (here s)) = [0] ++ 1 :: [] ∧
      (cell (here s) 32 8 1).2 = 0 ∧
      Gives (amosAt (self s) (asEntry (.vamo f) f s) 0 4 (vamoOp f (here s).vt.ty) (!(f.fn4.getLsbD 3)) [((addrOf .index (here s) f 0).1, 7)] (began (.vamo f) f s))
        fun v => (faultAt .index (here s) f (self s) .atomic 1 v.2).isSome) ∧
    (let s := moving.modCtx 5 fun c => { c.wg 1 0x4FFFF with vl := 33 }
     Ready s (.vldk mop) .vector ∧ 1 < (here s).vt.size * ((33 + 31) / 32) ∧
     Gives (readsAt (self s) (entryReads (asEntry (.vldk mop) mop s) mop s.cur 1) [0x4FFFF] (began (.vldk mop) mop s)) fun v =>
       (trapOf (place (self s) (.core (coreOf s.cur)) .read false 0x50000) v.2).isSome) := by
  refine ⟨fun b => ?_, fun r hr => ?_, ready (by decide +kernel), by decide, gives (by decide +kernel)⟩
  · cases b <;> exact ⟨ready (by decide +kernel), grouped (by decide +kernel), rfl, by decide +kernel, by decide +kernel, by decide, by decide, gives (by decide +kernel)⟩
  · simp only [List.mem_cons, List.not_mem_nil, or_false] at hr
    rcases hr with rfl | rfl <;> exact ⟨ready (by decide +kernel), grouped (by decide +kernel), by decide +kernel, by decide +kernel, gives (by decide +kernel)⟩

/-- A context of core 1, which owns tile 1 and forme 1, with an active bf16 plane of depth 2 and width 1, and a shape of 1. -/
def matrix : State :=
  let p : Plane := ⟨⟨0, 2, 1⟩, [(0, 0x3F803F80)], [], [], []⟩
  { (with_ [(1, 128), (2, 0x40)] fun c => { c with vl := 2, shape := 1, vt := { kind := 3, ew := 2 }, v := [(4, { bits := 0x3F803F80 })] }) with
    cores := [(1, { tlb := pages, formes := [(1, { active := some p, activeTag := some ⟨0, 2, 1⟩ })] })] }
/-- The reads of a weight image's granules, behind the fork of its `wld`. -/
def images (s : State) (f : Op64) (m : Nat) : Option (List (Nat × Bool) × State) :=
  readsAt (self s) (fun p u => u.readPlace (coreOf s.cur) p 8) ((List.range m).map fun j => (here s).rg (gpr f.vs1) + BitVec.ofNat 64 (8 * j))
    ((((issuing (.wld f) .matrix f false s).modForme s.cur f.vd.toNat fun w => { w with shadowTag := some ⟨f.fn4.toNat, (here s).vl, (here s).shape⟩ }).modBefore
      fun b => b.learn (s.base s.cur + queuePart .matrix) (entryOf (.wld f) .matrix f false s).hb).settle (forkCovers s.cur f.cls4.toNat))
theorem witness_MatrixState : let k := matrix.core (coreOf matrix.cur)
    (Ready matrix (.mshape { z with vs1 := 1, fn3 := 1 }) .matrix ∧ ((here matrix).rg 1).toNat = 128) ∧
    (let f : Op64 := { z with vd := 1, vs1 := 2 }; Ready matrix (.wld f) .matrix ∧ Owned k.wallot f.vd matrix.cur ∧ depthFits f.fn4.toNat (here matrix).vl ∧
      ((here matrix).rg 2).toNat % 64 = 0 ∧ Gives (images matrix f ((wimage (wfmt 0) 2 1).bytes / 8)) fun _ => true) ∧
    (Ready matrix (.wswap { z with vd := 1 }) .matrix ∧ Owned k.wallot 1 matrix.cur) ∧
    Ready matrix (.mzero { z with vd := 1, mod12 := 127 }) .matrix ∧ Owned k.tallot 1 matrix.cur ∧ (127 : BitVec 12).toNat + (here matrix).vt.size ≤ 128 :=
  ⟨⟨ready (by decide +kernel), rfl⟩, ⟨ready (by decide +kernel), by unfold Owned; decide +kernel, by unfold depthFits; decide +kernel, by decide, gives (by decide +kernel)⟩,
    ⟨ready (by decide +kernel), by unfold Owned; decide +kernel⟩, ready (by decide +kernel), by unfold Owned; decide +kernel, by decide⟩
/-- An image whose first granule is misaligned, and one whose page ends before it does. -/
theorem witness_MatrixState_faults : ∀ b : Bool, let a : Word := if b then 0x44 else 0x4FFC0
    let s := matrix.modCtx 5 fun c => { c.wg 2 a with vl := 128, shape := 128 }; let f : Op64 := { z with vd := 1, vs1 := 2 }
    Ready s (.wld f) .matrix ∧ Owned (s.core (coreOf s.cur)).wallot f.vd s.cur ∧ depthFits f.fn4.toNat (here s).vl ∧ (here s).trap.tvec ≠ 0 ∧
    (here s).level ≠ .f ∧ decide (((here s).rg 2).toNat % 64 ≠ 0) = b ∧ 8 < (wimage (wfmt 0) 128 128).bytes / 8 ∧
    (b = false → Gives (images s f 8) fun r => (trapOf (place (self s) (.core (coreOf s.cur)) .read false (a + 64)) r.2).isSome) := by
  intro b; cases b
  · exact ⟨ready (by decide +kernel), by unfold Owned; decide +kernel, by unfold depthFits; decide +kernel, by decide, by decide, by decide, by decide +kernel,
      fun _ => gives (by decide +kernel)⟩
  · exact ⟨ready (by decide +kernel), by unfold Owned; decide +kernel, by unfold depthFits; decide +kernel, by decide, by decide, by decide, by decide +kernel,
      fun h => absurd h (by decide)⟩
/-- Units of another context, of the own one, an empty plane, and a plane that the type, the depth or the format does not fit. -/
theorem witness_MatrixState_refusals :
    let s (l : CtxNo) (t : Option PlaneTag) : State := { matrix with cores := [(1, { tallot := 0x88888888, wallot := 0x88888888, formes := [(1, { activeTag := t })] })], cur := l
                                                                     ctxs := [(l.toNat, here matrix)] }
    Idle matrix ∧ Idle (s 5 none) ∧ (here matrix).vt.ty = .flt .bf16 ∧
    ¬ Owned ((s 5 none).core 1).wallot 1 5 ∧ ¬ Owned ((s 5 none).core 1).tallot 1 5 ∧ Owned ((s 4 none).core 1).wallot 1 4 ∧ Owned ((s 4 none).core 1).tallot 1 4 ∧
    ¬ depthFits 0 0 ∧ ¬ depthFits 0 129 ∧ ¬ depthFits 5 2 ∧ depthFits 6 512 ∧ (4 : BitVec 8).toNat % (here matrix).vt.size = 0 ∧
    ((s 4 none).core 1 |>.forme 1).activeTag = none ∧ ((s 4 (some ⟨1, 2, 1⟩)).core 1 |>.forme 1).activeTag = some ⟨1, 2, 1⟩ ∧
    ¬ (2 ≤ 1 ∧ 1 ≤ 1) ∧ 4 ≤ 5 := by
  refine ⟨(calm (by decide)).1, (calm (by decide)).1, rfl, ?_, ?_, ?_, ?_, ?_, ?_, ?_, ?_, by decide, by decide +kernel, by decide +kernel, by decide, by decide⟩ <;>
    first | (unfold Owned; decide +kernel) | (unfold depthFits; decide +kernel)
/-- Direct and transposed products with the plane; the transpose needs N ≤ K as the context's `vl` and shape. -/
theorem witness_MatrixProducts : ∀ trans : Bool,
    let s : State := if trans then { matrix with ctxs := [(5, { (here matrix) with vl := 1, shape := 2 })] } else matrix
    let f : Op64 := { z with vd := 1, vs1 := 4, vs2 := 1, mod12 := 127 }; let i : Instr := if trans then .mmat f else .mma f
    let k := s.core (coreOf s.cur); let p : Plane := ⟨⟨0, 2, 1⟩, [(0, 0x3F803F80)], [], [], []⟩
    Ready s i .matrix ∧ f.mod12.toNat + (here s).vt.size ≤ 128 ∧ Owned k.tallot f.vd s.cur ∧ Owned k.wallot f.vs2 s.cur ∧
    (k.forme 1).active = some p ∧ (k.forme 1).activeTag = some p.tag ∧ (here s).vt.ty = .flt .bf16 ∧
    (trans = false → (here s).vl ≤ p.tag.k ∧ (here s).shape ≤ p.tag.n) ∧ (trans = true → (here s).vl ≤ p.tag.n ∧ (here s).shape ≤ p.tag.k) := by
  intro t; cases t <;>
    exact ⟨ready (by decide +kernel), by decide, by unfold Owned; decide +kernel, by unfold Owned; decide +kernel, by decide +kernel, by decide +kernel,
      by decide +kernel, by decide, by decide⟩
theorem witness_TileMoves : let f : Op64 := { z with vd := 4, vs1 := 1, mod12 := 127 }; let k := matrix.core (coreOf matrix.cur)
    (127 : BitVec 12).toNat + (here matrix).vt.size ≤ 128 ∧ (here matrix).vl ≤ 128 ∧ Ready matrix (.tmv f) .matrix ∧ Ready matrix (.tcol f) .matrix ∧
    (∃ t, (here matrix).vt.ty = .flt t) ∧ (here matrix).vt.ks = false ∧ Owned k.tallot f.vs1 matrix.cur ∧
    Ready matrix (.tld { f with vd := 1, vs1 := 4 }) .matrix ∧ Owned k.tallot 1 matrix.cur :=
  ⟨by decide, by decide, ready (by decide +kernel), ready (by decide +kernel), ⟨_, rfl⟩, rfl, by unfold Owned; decide +kernel, ready (by decide +kernel),
    by unfold Owned; decide +kernel⟩

/-- A running launch of tag 7, with one die at most. -/
def launch7 : Launch :=
  { tag := 7, queue := 0, entry := 0, entryVa := 0, asid := 0, root := 0x1000, frame := 0, arg := 0, prio := 2, dmin := 1, dmax := 1, back := 0, pages := [],
    handles := [], die := 0, deps := [], dab := false, rooted := true, total := 0, asked := false, confirmed := [], complete := false, aborted := false,
    kwhy := 0, kcause := 0, kctx := 0, nviol := 0 }
/-- Counter and term words at the ends of their ranges, and one with a reserved bit; tokens; a wait that ends and one that goes on; and a
chain in the launch's window. -/
theorem witness_EngineInstructions :
    (let w : Nat := 2 ^ 25 + 0xFFFF * 256 + 31; w / 2 ^ 26 = 0 ∧ w / 2 ^ 24 % 2 = 0 ∧ w / 64 % 4 = 0 ∧ w % 64 < 32 ∧ w / 2 ^ 8 % 2 ^ 16 ≠ 0) ∧
    (let w : Nat := 0x7FFFE0 * 2 ^ 40 + 4 * 2 ^ 32 + 1; w / 2 ^ 36 % 16 = 0 ∧ w / 2 ^ 32 % 8 ≤ 4 ∧ w / 2 ^ 40 % 32 = 0 ∧ w / 2 ^ 40 < 0x800000 ∧
      w / 2 ^ 14 % 4 = 0 ∧ w / 2 ^ 30 % 4 = 0 ∧ w % 2 ^ 32 ≠ 0) ∧ Idle (with_ []) ∧
    (∀ n ∈ [0, 1, 2], Ready (with_ []) (.evpulse { z with fn3 := BitVec.ofNat 3 n, fn4 := 7 })
      (match ({ z with fn3 := BitVec.ofNat 3 n } : Op64).fn3.toNat with | 0 => .vector | 1 => .matrix | _ => .copy)) ∧ (here (with_ [])).copying = false ∧
    (let s := one fun c => { c with tokens := [(5, { u := 1, f := 1, held := 1 })] }; Ready s (.tkwait { z with fn4 := 5 }) .matrix) ∧
    Ready (with_ []) (.tkpush { z with fn4 := 5 }) .copy ∧
    (∀ v ∈ [5, 6], let s := bytesAt 0x40 [5] (with_ [(1, 0x40), (2, BitVec.ofNat 64 v)]); (here s).memBlocked 15 false 0x40 8 = false ∧
      Yields (place (self s) (.core (coreOf s.cur)) .read false 0x40) s fun p s1 => let r := (s1.acquire s.cur 5).readBy s.cur p 8
        !r.2.2 && (decide (v ≤ r.2.1) == decide (v = 5))) ∧
    ((0x44 : Word).toNat % 8 ≠ 0) ∧ (Ready (with_ []) (.vfence z) .vector ∧ Ready (with_ []) (.vfence { z with mod12 := 3, fn3 := 5 }) .vector ∧ Acked (with_ []) 5) ∧
    let s : State := { (one fun c => { c with g := [(1, 0x00FFFF0000000020), (2, 0x40)], rec_ := some ⟨0, 0, 7, 0⟩ }) with
      hub := { boot := .run, launches := [(7, launch7)] } }
    ((here s).rg 1).toNat % 32 = 0 ∧ ((here s).rg 2).toNat % 8 = 0 ∧ ((here s).rg 1).toNat / 2 ^ 23 = 0x00FFFF0000000000 / 2 ^ 23 ∧
      ((here s).rg 1).toNat % 2 ^ 23 < 1 * 0x40000 ∧ (Tab.find s.hub.launches (here s).tag.toNat).map (fun l => l.dmax) = some 1 ∧
      Ready s (.cpy { z with vs1 := 1, vs2 := 2 }) .copy ∧ (here s).chain = none := by
  refine ⟨by decide, by decide, (calm (by decide)).1, fun n hn => ?_, by decide, ready (by decide +kernel), ready (by decide +kernel), fun v hv => ?_,
    by decide, ⟨ready (by decide +kernel), ready (by decide +kernel), (calm (by decide)).2.2 _⟩,
    by decide, by decide, by decide, by decide, by decide +kernel, ready (by decide +kernel), rfl⟩
  · simp only [List.mem_cons, List.not_mem_nil, or_false] at hn; rcases hn with rfl | rfl | rfl <;> exact ready (by decide +kernel)
  · simp only [List.mem_cons, List.not_mem_nil, or_false] at hv; rcases hv with rfl | rfl <;> exact ⟨unblocked (by decide) .., yields (by decide +kernel)⟩

/-- The location that `waitc` reads is poisoned. -/
theorem witness_EngineInstructions_poison : let s := { with_ [(1, 0x40)] with marks := [8] }
    (here s).memBlocked 15 false 0x40 8 = false ∧ Idle s ∧
    Yields (place (self s) (.core (coreOf s.cur)) .read false 0x40) s fun p s1 => ((s1.acquire s.cur 5).readBy s.cur p 8).2.2 :=
  ⟨unblocked (by decide) .., (calm (by decide)).1, yields (by decide +kernel)⟩

/-- Context 5 with the counts of the FIFO from the matrix to the copy engine, number 5. -/
def fifo (u f : Int) (held : Nat) : State := { lanes with ctxs := [(5, { here lanes with tokens := [(5, { u := u, f := f, held := held }), (3, { u := u, f := f, held := held })] })] }
/-- A pop from an empty FIFO and a push to a full one, by `tkwait`, `tkpush` and a `vadd`; a push where none is taken; and at the head of a queue
a pop of the copy engine's tokens whose last chain has ended, or ends now, without one. -/
theorem witness_QueueTraps_tokens :
    (let f : Op64 := { z with fn4 := 5 }
     f.fn4.toNat = (Fifo.cm).ix ∧ (Idle (fifo 0 0 0) ∧ ((here (fifo 0 0 0)).tok .cm).u ≤ 0 ∧ (here (fifo 0 0 0)).chained = false) ∧
     (Idle (fifo 16 0 0) ∧ ((here (fifo 16 0 0)).tok .cm).u = 16) ∧ ((here (fifo 15 16 0)).tok .cm).u ≠ 16 ∧ ((here (fifo 15 16 0)).tok .cm).f = 16) ∧
    (∃ l, intTable (.vadd { vop with tkpop := 2 }) = some l ∧ l.form (here (fifo 0 0 0)) ∧ (instrTokens (.vadd { vop with tkpop := 2 }) .vector).pop = some .cv) ∧
    (∃ l, intTable (.vadd { vop with tkpush := 2 }) = some l ∧ l.form (here (fifo 0 0 0)) ∧ (instrTokens (.vadd { vop with tkpush := 2 }) .vector).pop = none ∧
      (instrTokens (.vadd { vop with tkpush := 1 }) .vector).push = some .vm ∧ ((here (fifo 0 0 0)).tok .vm).u ≠ 16) ∧
    ∀ b : Bool, let i : Instr := .tkwait { z with fn4 := 3 }
      let e : Entry := { (here (fifo 0 0 0)).entry .vector i { z with fn4 := 3 } 0 with doomed := b }
      let s := (fifo (if b then 1 else -1) 0 0).modCtx 5 fun c => { c with queue := [e] }; let c := s.ctx 5
      c.queue = [] ++ e :: [] ∧ e.parked = false ∧ (instrTokens e.instr e.queue).pop = some .cv ∧ e.popped = false ∧
      (e.doomed = true ∨ (c.tok .cv).held = 0 ∧ (c.tok .cv).u < 0 ∧ c.chained = false ∧ ∀ o ∈ c.queue, o.parked = true ∨ ∀ g, o.instr ≠ .cpy g) ∧
      c.trap.tvec ≠ 0 ∧ c.level = e.level ∧ c.level ≠ .f := by
  refine ⟨⟨rfl, ⟨(calm (by decide)).1, by decide, rfl⟩, ⟨(calm (by decide)).1, by decide⟩, by decide, by decide⟩, ⟨_, rfl, form (by decide +kernel), by decide⟩,
    ⟨_, rfl, form (by decide +kernel), by decide, by decide, by decide⟩, fun b => ?_⟩
  cases b
  · exact ⟨rfl, rfl, by decide, rfl, .inr ⟨by decide, by decide, rfl, fun o ho => .inr fun g => by
      obtain rfl := List.mem_singleton.mp (show o ∈ [_] from ho); exact Instr.noConfusion⟩, by decide, rfl, by decide⟩
  · exact ⟨rfl, rfl, by decide, rfl, .inl rfl, by decide, rfl, by decide⟩

/-- A context whose 40 places of the vector queue are taken by entries that a term holds, if there is one with the word. -/
def held (word : Option Word) (ct : Counter) : State :=
  let s := one fun c => { c with queue := (List.range 40).map fun j => { (c.entry .vector (.vadd z) z 0) with seq := j } }
  { s with cores := [(1, { tlb := pages, counters := [(0, ct)], terms := (word.map fun w => (2, ⟨5, w, true, .low, 0, .u, 0⟩)).toList })] }
/-- A full share without a term; a term that waits for two pulses of which one has come, and one for tokens that nobody gives. -/
theorem witness_QueueTraps_holds : let f : Op64 := z
    let ct : Counter := ⟨5, 2 ^ 25 + 2 * 256, 1⟩
    (held none ct).shareFull 5 .vector = true ∧ f.fn3.toNat = 0 ∧ ((held none ct).core 1).terms = [] ∧
    ∀ w ∈ [2 ^ 32 + 1, 2 ^ 32 + 2 ^ 24 + 2 ^ 29], let s := held (some (BitVec.ofNat 64 w)) ct; let t : Term := ⟨5, BitVec.ofNat 64 w, true, .low, 0, .u, 0⟩
      s.shareFull 5 .vector = true ∧ Tab.find (s.core 1).terms 2 = some t ∧ t.owner = s.cur ∧ t.armed = true ∧ t.word.toNat / 2 ^ 32 % 8 = 1 ∧
      (∀ j ≠ 2, Tab.find (s.core 1).terms j = none) ∧ (∀ e ∈ (here s).queue, e.parked = true ∨ s.heldEntry s.cur e = true) ∧
      (w = 2 ^ 32 + 1 → t.word.getLsbD 0 = true ∧ deadInput s s.cur 0) ∧
      (w ≠ 2 ^ 32 + 1 → ∀ b < 16, t.word.getLsbD (16 + b) = true → deadInput s s.cur b) := by
  refine ⟨by decide +kernel, rfl, rfl, fun w hw => ?_⟩
  simp only [List.mem_cons, List.not_mem_nil, or_false] at hw
  rcases hw with rfl | rfl <;> refine ⟨by decide +kernel, rfl, rfl, rfl, by decide, ?_, by decide +kernel, ?_, ?_⟩
  · intro j hj; simp [held, State.core, Tab.look, Tab.find, Ne.symm hj]
  · exact fun _ => ⟨by decide, .inl ⟨by decide, _, rfl, by decide, by decide, by decide, by decide +kernel⟩⟩
  · exact fun h => absurd rfl h
  · intro j hj; simp [held, State.core, Tab.look, Tab.find, Ne.symm hj]
  · exact fun h => absurd h (by decide)
  · intro _ b hb h
    have : b = 8 ∨ b = 13 := by revert b; decide
    rcases this with rfl | rfl <;> exact .inr ⟨by decide, by decide, by decide, by decide⟩

/-- A mismatch that replays, one at which firmware withdraws, and a second one, of a `vadd` and of products with a plane. -/
theorem witness_QueueTraps_checks : ∀ twice first : Bool,
    (let s := { lanes with upset := some (5, twice), cores := [(1, { tlb := pages, firstMismatch := first })] }
     s.upset = some (s.cur, twice) ∧ (here s).trap.tvec ≠ 0 ∧ (here s).level ≠ .f ∧ (s.core 1).firstMismatch = first ∧
     ∃ l, intTable (.vadd vop) = some l ∧ Ready { s with upset := none } (.vadd vop) .vector ∧ l.form (here s)) ∧
    ∀ trans : Bool, let f : Op64 := { z with vd := 1, vs1 := 4, vs2 := 1, mod12 := 127 }; let i : Instr := if trans then .mmat f else .mma f
      let s := { matrix with upset := some (5, twice), ctxs := [(5, { (here matrix) with vl := 1 })] }
      Ready { s with upset := none } i .matrix ∧ mmaCheck (if trans then 0x94 else 0x93) f s.cur (here s) s = .ok () s := by
  intro a b; cases a <;> cases b <;> exact ⟨⟨rfl, by decide, by decide, rfl, _, rfl, ready (by decide +kernel), form (by decide +kernel)⟩, fun t => by
    cases t <;> exact ⟨ready (by decide +kernel), (ok_at (v := ()) (by decide +kernel)).trans (congrArg (EStateM.Result.ok ()) (by decide +kernel))⟩⟩

/-- The front end reads the words at an address. -/
def readsOk (ag : Agent) (a : Nat) (ws : List Nat) (s : State) : Prop :=
  Gives (readsAt ag (frontReads s.cur) ((List.range ws.length).map fun k => BitVec.ofNat 64 (a + 8 * k)) s) fun r => decide (r.1 = ws.map fun w => (w, false))
/-- The block of an optimiser command at 0x40: n, the bases of x, g, m and v, and words 8 to 11. -/
def block (n : Nat) (bases : List Nat) (tail : List Nat := [0, 0, 0, 0]) : List Nat := [n] ++ bases ++ [0, 0, 0] ++ tail
/-- The MS arrays of one element, 64 bytes apart; the record at 0x40 has been read. -/
def arrays : List Nat := [0x10000, 0x10040, 0x10080, 0x100C0]
def commanding (ws : List Nat) : State := wordsAt 0x40 ws (with_ [(1, 0x40), (2, 0x80)])
/-- Blocks whose fields are in range, with a reserved word, a half beyond 1 and a misaligned base; arrays in one page and apart, and a first array
that leaves its page, or a second one that meets the first; misaligned operands, and an object of 0. -/
theorem witness_EngineCommands :
    (∀ ws ∈ [block 1 arrays, block 1 arrays [0, 1, 0, 0], block 1 arrays [2 ^ 33, 0, 0, 0], block 1 [0x10004, 0x10040, 0x10080, 0x100C0],
        block 0x5000 arrays, block 32 [0x10000, 0x10040, 0x18000, 0x1C000]],
      let s := commanding ws; NoAccess s ∧ Idle s ∧ ws.length = 12 ∧ readsOk { self s with noWindow := true } 0x40 ws s ∧
      ∀ k ∈ [1, 2, 3, 4], Gives (s.peek (.core (coreOf s.cur)) (here s).asid (BitVec.ofNat 64 (ws.getD k 0))) fun r => !r.2.2) ∧
    ((0x80 : Word).toNat % 8 = 0 ∧ (0x80 : Word) ≠ 0 ∧ (0x40 : Word).toNat % 32 = 0) ∧
    (let ws := block 1 arrays; let s := commanding ws
     Yields (nmBases { self s with noWindow := true } (nmArrays 0 (ws.map (BitVec.ofNat 64)))) s (fun b _ => decide (b.length = 4)) ∧
     inWindow 0x80 = false ∧ ∀ cls, Forked s cls) ∧
    (0x10000 % 2 ^ 16 + 0x5000 * 4 > 2 ^ 16 ∧ ¬ (0x10000 + 32 * 4 ≤ 0x10040 ∨ 0x10040 + 32 * 4 ≤ 0x10000)) ∧
    (Idle (with_ [(1, 0x44)]) ∧ (0x44 : Word).toNat % 32 ≠ 0) ∧ (0x44 : Word).toNat % 8 ≠ 0 := by
  refine ⟨fun ws hw => ?_, by decide, ⟨yields (by decide +kernel), by decide, fun cls r hr => (List.not_mem_nil (show r ∈ [] from hr)).elim⟩, by decide,
    ⟨(calm (by decide)).1, by decide⟩, by decide⟩
  refine ⟨(calm ⟨rfl, rfl⟩).2.1, (calm ⟨rfl, rfl⟩).1, ?_⟩
  simp only [List.mem_cons, List.not_mem_nil, or_false] at hw
  rcases hw with rfl | rfl | rfl | rfl | rfl | rfl <;> exact ⟨rfl, gives (by decide +kernel), fun k hk => by
    simp only [List.mem_cons, List.not_mem_nil, or_false] at hk
    rcases hk with rfl | rfl | rfl | rfl <;> exact gives (by decide +kernel)⟩
/-- A good record and one with a reserved bit, with a free record of the die; and a die whose 64 records are taken. -/
theorem witness_EngineCommands_coll :
    (∀ b : Bool, let ws := (if b then 2 ^ 32 else 2 ^ 32 + 2 ^ 11) :: List.replicate 15 0; let s := commanding ws
     (0x40 : Word).toNat % 64 = 0 ∧ ws.length = 16 ∧ NoAccess s ∧ Idle s ∧ readsOk (self s) 0x40 ws s ∧ (RecordValid (ws.map (BitVec.ofNat 64)) ↔ b = true) ∧
     (∀ cls, Forked s cls) ∧ Tab.find (s.die (dieOf s.cur)).coll 0 = none) ∧
    (let c : Coll := { x := 5, tag := 0, asid := 0, level := .u, scope := 0, obj := 0x80, words := [], next := 0, flight := [], failed := false, start := 0 }
     let d : Die := { coll := (List.range 64).map fun k => (k, c) }; ∀ j < 64, Tab.find d.coll j ≠ none) ∧
    (Idle (with_ [(1, 0x44)]) ∧ (0x44 : Word).toNat % 64 ≠ 0) := by
  refine ⟨fun b => ?_, by decide, (calm (by decide)).1, by decide⟩
  refine ⟨by decide, by cases b <;> rfl, (calm ⟨rfl, rfl⟩).2.1, (calm ⟨rfl, rfl⟩).1, ?_, ?_, fun cls r hr => (List.not_mem_nil (show r ∈ [] from hr)).elim, by cases b <;> rfl⟩
  · cases b <;> exact gives (by decide +kernel)
  · cases b <;> (unfold RecordValid; decide +kernel)

/-- A descriptor at 0x40 of a region of 64 bytes at 0x10000 whose cells are at 0x11000, on a table that holds `rs`. -/
def region (n : Nat) (rs : Tab Region) (m : DMode := .off) : State :=
  { wordsAt 0x40 [0x10000, n, 0x11000, 0] (with_ [(1, 0x40)] fun c => { c with mode := m }) with regions := rs }
/-- A good region on an empty table; an empty region; one that meets another; a full table; and a context whose mode is not OFF. -/
theorem witness_RegionsAndModes :
    (∀ n ∈ [64, 0], let s := region n []; NoAccess s ∧ Idle s ∧ (here s).mode = .off ∧ readsOk (self s) 0x40 [0x10000, n, 0x11000, 0] s ∧
      (0x10000 % 64 = 0 ∧ 0x11000 % 64 = 0 ∧ 0 / 1024 = 0)) ∧
    (let s := region 64 [(3, ⟨0x10020, 64, 0, 0x12000, false, false⟩)]; ∃ o, Tab.find s.regions 3 = some o ∧ 0x10000 < o.base.toNat + o.len.toNat ∧
      o.base.toNat < 0x10000 + 64) ∧
    (let s := region 64 ((List.range 64).map fun k => (k, ⟨BitVec.ofNat 64 (0x20000 + 64 * k), 64, 0, BitVec.ofNat 64 (0x30000 + 64 * k), false, false⟩))
     ∀ k < 64, Tab.find s.regions k ≠ none) ∧
    (let s := { region 64 [(63, ⟨0x10000, 64, 0, 0x11000, false, false⟩)] with ctxs := [(5, { status := .running, g := [(1, 63)] })] }
     NoAccess s ∧ ((here s).rg 1).toNat < 64 ∧ Tab.find s.regions (0 * 64 + 63) ≠ none) ∧
    (let s := with_ [(1, 64)]; 64 ≤ ((here s).rg 1).toNat ∧ Idle s) ∧
    ((here (region 64 [] .rev)).mode ≠ .off ∧ Idle (region 64 [] .rev) ∧ NoAccess (region 64 [] .rev)) := by
  refine ⟨fun n hn => ?_, ⟨_, rfl, by decide, by decide⟩, by decide +kernel, ⟨(calm (by decide)).2.1, by decide, by decide⟩, ⟨by decide, (calm (by decide)).1⟩,
    by decide, (calm (by decide)).1, (calm (by decide)).2.1⟩
  simp only [List.mem_cons, List.not_mem_nil, or_false] at hn
  rcases hn with rfl | rfl <;> exact ⟨(calm (by decide)).2.1, (calm (by decide)).1, rfl, gives (by decide +kernel), by decide⟩
/-- A galley at 0x100 that holds one marker and has room for one entry more; two FP32 columns of a region. -/
theorem witness_GalleyAndAdjoint :
    (let s := wordsAt 0x100 [2] (with_ [(1, 0x100), (2, 0x400)] fun c => { c with galbase := 0x100, galptr := 0x180, gallim := 0x200 })
     let f : Op64 := { z with vs1 := 1 }
     Ready s (.galset { z with vs1 := 1, vs2 := 2 }) .vector ∧ ((here s).rg 2).toNat % 64 = 0 ∧ ((here s).rg 1).toNat ≤ ((here s).rg 2).toNat ∧
     ((here s).rg 1) ≠ 0 ∧ ((here s).rg 1).toNat % 64 = 0 ∧ (here s).mode = .off ∧ (here s).galptr.toNat ≤ ((here s).rg 2).toNat ∧
     (here s).galptr.toNat + 128 ≤ (here s).gallim.toNat ∧ (here s).galBuf.length < 32 ∧ Ready s (.galmark z) .vector ∧
     Yields (checkVa (self s) .write false (here s).galptr) (issuing (.galmark z) .vector z false s) (fun _ _ => true) ∧
     Ready s (.galcut f) .vector ∧ (here s).galbase.toNat ≤ ((here s).rg 1).toNat ∧ ((here s).rg 1).toNat < (here s).galptr.toNat ∧
     (((here s).rg 1).toNat - (here s).galbase.toNat) % 128 = 0 ∧
     Yields (galleyRead (self s) ((began (.galcut f) f s).entryAccess s.cur (asEntry (.galcut f) f s) 15) 0x100 0) (issuing (.galcut f) .vector f false s)
       fun r _ => decide (r.1 % 4 = 2)) ∧
    let s : State := { (with_ [(1, 0x10000)] fun c => { c with vl := 2, vt := { kind := 2, ew := 3 } }) with regions := [(63, ⟨0x10000, 64, 0, 0x11000, false, false⟩)] }
    let f : Op64 := { z with vd := 8, vs1 := 1, fn3 := 5 }; let g : Op64 := { z with vs1 := 1, fn3 := 5 }
    Ready s (.adjld f) .vector ∧ Ready s (.adjclr g) .vector ∧ Acked s 5 ∧
    s.region (here s).asid 63 = some ⟨0x10000, 64, 0, 0x11000, false, false⟩ ∧ (∀ j < 63, s.region (here s).asid j = none) ∧
    (here s).vt.ty = .flt .fp32 ∧ (here s).vt.ks = false ∧ f.pfx = none ∧
    ((List.range ((here s).vt.size * (here s).vl)).filter fun e => (here s).top.getLsbD (e % (here s).vl)) ≠ [] ∧
    Gives (cellsAt (self s) (asEntry (.adjld f) f s) 0 5 [0x11000, 0x11004] (began (.adjld f) f s)) (fun _ => true) ∧
    Gives (clearsAt (self s) (asEntry (.adjclr g) g s) 0 5 [0x11000, 0x11004] (began (.adjclr g) g s)) (fun _ => true) ∧
    -- and no region holds both elements
    ∀ j < 64, ∀ q, (with_ [(1, 0x10000)]).region (here s).asid j = some q → False :=
  ⟨⟨ready (by decide +kernel), by decide, by decide, by decide, by decide, rfl, by decide, by decide, by decide, ready (by decide +kernel),
    yields (by decide +kernel), ready (by decide +kernel), by decide, by decide, by decide, yields (by decide +kernel)⟩,
    ready (by decide +kernel), ready (by decide +kernel), (calm (by decide)).2.2 _, by decide +kernel, by decide +kernel, by decide, rfl, rfl, by decide +kernel,
    gives (by decide +kernel), gives (by decide +kernel), fun j _ q h => by cases h⟩
/-- A galley set to a misaligned base, one set while the context's mode is not OFF, a full one, and a cut beside the marks and at a data entry. -/
theorem witness_GalleyAndAdjoint_traps :
    (∀ a ∈ [0x44, 0x100], let s := with_ [(1, BitVec.ofNat 64 a), (2, 0x400)] fun c => { c with mode := .fwd }
      let f : Op64 := { z with vs1 := 1, vs2 := 2 }
      Ready s (.galset f) .vector ∧ (a % 64 ≠ 0 ∨ (here s).mode ≠ .off) ∧ ((here s).rg 1) ≠ 0 ∧ (here s).trap.tvec ≠ 0 ∧ (here s).level ≠ .f) ∧
    (let s := with_ [] fun c => { c with galptr := 0x180, gallim := 0x1FF }; Ready s (.galmark z) .vector ∧ (here s).gallim.toNat < (here s).galptr.toNat + 128) ∧
    (let s := with_ [(1, 0x140)] fun c => { c with galbase := 0x100, galptr := 0x180 }
     Ready s (.galcut { z with vs1 := 1 }) .vector ∧ ¬ (((here s).rg 1).toNat - (here s).galbase.toNat) % 128 = 0) ∧
    let s := wordsAt 0x100 [1] (with_ [(1, 0x100)] fun c => { c with galbase := 0x100, galptr := 0x180 }); let f : Op64 := { z with vs1 := 1 }
    Ready s (.galcut f) .vector ∧
    Yields (galleyRead (self s) ((began (.galcut f) f s).entryAccess s.cur (asEntry (.galcut f) f s) 15) 0x100 0) (issuing (.galcut f) .vector f false s)
       fun r _ => decide (r.1 % 4 ≠ 2) := by
  refine ⟨fun a ha => ?_, ⟨ready (by decide +kernel), by decide⟩, ⟨ready (by decide +kernel), by decide⟩, ready (by decide +kernel), yields (by decide +kernel)⟩
  simp only [List.mem_cons, List.not_mem_nil, or_false] at ha
  rcases ha with rfl | rfl <;> exact ⟨ready (by decide +kernel), by decide, by decide, by decide, by decide⟩

/-- Two FP32 columns at 0x10000, in region 63 with its cells at 0x11000, and a galley from 0x100 to 0x200 that is filled up to `p`. -/
def inverting (m : DMode) (p : Word) (ws : List Nat := []) : State :=
  { wordsAt 0x100 ws (with_ [(1, 0x10000)] fun c =>
      { c with vl := 2, vt := { kind := 2, ew := 3 }, mode := m, v := [(8, { bits := 0x3F8000003F800000 })], galbase := 0x100, galptr := p, gallim := 0x200 })
    with regions := [(63, ⟨0x10000, 64, 0, 0x11000, false, false⟩)] }
def iop : Op64 := { z with vd := 8, vs1 := 1 }
/-- The state in which the elements of a store are taken. -/
def stored (s : State) (k : Course) (f : Op64) : State :=
  let s0 := began (storeOf k f) f s
  if f.fn4 = 2 then s0.release s.cur f.fn3.toNat (s0.entryAccess s.cur (asEntry (storeOf k f) f s) f.cls4.toNat) (asEntry (storeOf k f) f s).past else s0
/-- The conditions on an inverted store or load that its context and fields meet. -/
def inverted (s : State) (k : Course) (f : Op64) (i : Instr) : Prop :=
  let v := invertedOf s k f 0
  Ready s i .vector ∧ Grouped k (here s) f (accepted k) ∧ (∃ e ∈ v.elems, v.reg e ≠ none) ∧ (∀ e ∈ v.elems, v.typed e ∧ alignedAt k (here s) f e = true) ∧
  (here s).trap.tvec ≠ 0 ∧ (here s).level ≠ .f
/-- Both elements are of region 63. -/
theorem inverted_of {s : State} {f : Op64} {i : Instr} (hr : readyB s i .vector = true) (hg : decide (f.vd.toNat % (here s).vt.size = 0 ∧ True ∧
      accepted .unit (here s).vt.ty = true) = true) (he : (invertedOf s .unit f 0).elems = [0, 1])
    (h : ∀ e ∈ [0, 1], (invertedOf s .unit f 0).reg e = some ⟨0x10000, 64, 0, 0x11000, false, false⟩ ∧ alignedAt .unit (here s) f e = true)
    (ht : (here s).vt.ty = .flt .fp32 ∧ (here s).vt.ks = false) (hv : (here s).trap.tvec ≠ 0 ∧ (here s).level ≠ .f) : inverted s .unit f i := by
  refine ⟨ready hr, ?_, ⟨0, by rw [he]; simp, by rw [(h 0 (by simp)).1]; simp⟩, fun e hm => ?_, hv⟩
  · rw [decide_eq_true_eq] at hg; exact ⟨hg.1, (fun h => by cases h), hg.2.2⟩
  · rw [he] at hm
    exact ⟨fun r hr => by rw [(h e hm).1] at hr; cases hr; exact ht, (h e hm).2⟩

/-- A store that tapes one line: the checks, the old granules, the pushed entry and the stores. -/
def taping (s : State) (f : Op64) : Option State :=
  let v := invertedOf s .unit f 0; let o := asEntry (.vst f) f s
  (checksAt (self s) (v.checks false) (stored s .unit f)).bind fun t1 =>
    (checksAt (self s) [(.write, false, (here s).galptr)] t1).bind fun t2 =>
      (readsAt (self s) (fun p u => u.readBy s.cur p 8 (t2.entryAccess s.cur o f.cls4.toNat)) [0x10000] t2).bind fun r =>
        storesAt (self s) 32 (entryWrites o f s.cur) v.stores
          (v.lines.foldl (fun t ln => pushEntry (self s) (v.entry ln fun _ => r.1.headD (0, false)).1 (v.entry ln fun _ => r.1.headD (0, false)).2 t) r.2)
/-- A line of one granule, with room for its entry and without. -/
theorem witness_InvertedAccesses_taping : ∀ a ∈ [0, 2], let f : Op64 := { iop with fn4 := BitVec.ofNat 4 a, fn3 := 5 }
    (let s := inverting .fwd 0x180; let v := invertedOf s .unit f 0
     inverted s .unit f (.vst f) ∧ Acked s 5 ∧ v.lines = [0x400] ∧ v.granules 0x400 = [0] ∧ Gives (taping s f) fun _ => true) ∧
    let s := inverting .fwd 0x1C0
    inverted s .unit f (.vst f) ∧ (here s).gallim.toNat < (here s).galptr.toNat + 128 * 1 ∧
      Gives (checksAt (self s) ((invertedOf s .unit f 0).checks false) (stored s .unit f)) fun _ => true := by
  intro a ha; simp only [List.mem_cons, List.not_mem_nil, or_false] at ha
  rcases ha with rfl | rfl <;>
  exact ⟨⟨inverted_of (by decide +kernel) (by decide +kernel) (by decide +kernel) (by decide +kernel) (by decide) (by decide), (calm (by decide)).2.2 _,
      by decide +kernel, by decide +kernel, gives (by decide +kernel)⟩,
    inverted_of (by decide +kernel) (by decide +kernel) (by decide +kernel) (by decide +kernel) (by decide) (by decide), by decide, gives (by decide +kernel)⟩
theorem witness_InvertedAccesses_accumulating : ∀ a ∈ [0, 1], let f : Op64 := { iop with fn4 := BitVec.ofNat 4 a, fn3 := 5 }
    let s := inverting .rev 0x180; let s0 := began (.vld f) f s
    inverted s .unit f (.vld f) ∧ startOf (here s) = 0 ∧
    Gives (addsAt (invertedOf s .unit f 0) (self s) (asEntry (.vld f) f s) [0, 1] (if f.fn4 = 1 then s0.acquire s.cur 5 else s0)) fun _ => true := by
  intro a ha; simp only [List.mem_cons, List.not_mem_nil, or_false] at ha
  rcases ha with rfl | rfl <;>
  exact ⟨inverted_of (by decide +kernel) (by decide +kernel) (by decide +kernel) (by decide +kernel) (by decide) (by decide), rfl, gives (by decide +kernel)⟩

/-- The galley entry of the line, with its head, mask and tag. -/
def taped (head mask tag : Nat) : List Nat := [head, mask, tag, 0, 0, 0, 0, 0, 0x4000000040000000]
/-- A store that restores one line: the checks, the comparison, the cells and the old bytes. -/
def restoring (s : State) (f : Op64) : Option State :=
  let v := invertedOf s .unit f 0; let o := asEntry (.vst f) f s
  (checksAt (self s) (v.checks true) (stored s .unit f)).bind fun t1 =>
    (popsAt v (self s) (t1.entryAccess s.cur o f.cls4.toNat) (here s).galptr v.lines.reverse t1).bind fun r =>
      (takesAt v (self s) o v.elems r.2).bind fun q =>
        writesAt (self s) (t1.entryAccess s.cur o f.cls4.toNat) (r.1.flatMap fun w => v.restores w.1 fun g => w.2.getD g (0, false)) q.2
/-- An entry that matches; an empty galley; and a marker, an entry of another line, one of other bytes, and one of another region. -/
theorem witness_InvertedAccesses_restoring : ∀ a ∈ [0, 2], let f : Op64 := { iop with fn4 := BitVec.ofNat 4 a, fn3 := 5 }
    (let s := inverting .rev 0x180 (taped 0x10001 0xFF 63)
     inverted s .unit f (.vst f) ∧ Acked s 5 ∧ (invertedOf s .unit f 0).lines = [0x400] ∧ Gives (restoring s f) fun _ => true) ∧
    (let s := inverting .rev 0x100
     inverted s .unit f (.vst f) ∧ ((here s).galptr.toNat - (here s).galbase.toNat) / 128 < 1 ∧
      Gives (checksAt (self s) ((invertedOf s .unit f 0).checks true) (stored s .unit f)) fun _ => true) ∧
    ∀ w ∈ [(2, taped 2 0xFF 63), (3, taped 0x10041 0xFF 63), (4, taped 0x10001 0x7F 63), (5, taped 0x10001 0xFF 62)],
      let s := inverting .rev 0x180 w.2; let v := invertedOf s .unit f 0
      inverted s .unit f (.vst f) ∧ v.lines = [] ++ 0x400 :: [] ∧
      Gives ((checksAt (self s) (v.checks true) (stored s .unit f)).bind fun t1 =>
        entryWords (self s) (t1.entryAccess s.cur (asEntry (.vst f) f s) f.cls4.toNat) ((here s).galptr - 128) (List.range (if w.1 ≤ 3 then 1 else w.1 - 2)) t1) fun r =>
          v.differs 0x400 (r.1.getD 0 (0, false)).1 (r.1.getD 1 (0, false)).1 (r.1.getD 2 (0, false)).1 == some w.1 := by
  intro a ha; simp only [List.mem_cons, List.not_mem_nil, or_false] at ha
  rcases ha with rfl | rfl <;>
  exact ⟨⟨inverted_of (by decide +kernel) (by decide +kernel) (by decide +kernel) (by decide +kernel) (by decide) (by decide), (calm (by decide)).2.2 _,
      by decide +kernel, gives (by decide +kernel)⟩,
    ⟨inverted_of (by decide +kernel) (by decide +kernel) (by decide +kernel) (by decide +kernel) (by decide) (by decide), by decide, gives (by decide +kernel)⟩,
    fun w hw => by
      simp only [List.mem_cons, List.not_mem_nil, or_false] at hw
      rcases hw with rfl | rfl | rfl | rfl <;>
      exact ⟨inverted_of (by decide +kernel) (by decide +kernel) (by decide +kernel) (by decide +kernel) (by decide) (by decide), by decide +kernel,
        gives (by decide +kernel)⟩⟩
/-- Elements of another type than the region's; a second element that is misaligned, one on a page that may not be written, and one whose cell has
no page. -/
theorem witness_InvertedAccesses_checks :
    (∀ m ∈ [DMode.fwd, .rev], let s := (inverting m 0x180).modCtx 5 fun c => { c with vt := { kind := 0, ew := 3 } }; let v := invertedOf s .unit iop 0
      Ready s (.vst iop) .vector ∧ Grouped .unit (here s) iop (accepted .unit) ∧ v.elems = [0, 1] ∧ ∃ r, v.reg 0 = some r ∧ (here s).vt.ty ≠ .flt (fmtOf r)) ∧
    (let s := (inverting .fwd 0x180).modCtx 5 fun c => c.wg 2 2; let f := { iop with vs2 := 2 }; let v := invertedOf s .stride f 0
     Ready s (.vsts f) .vector ∧ v.elems = [0] ++ 1 :: [] ∧ v.reg 0 ≠ none ∧ alignedAt .stride (here s) f 0 = true ∧ alignedAt .stride (here s) f 1 = false ∧
      Gives (checksAt (self s) (Sys2Proof.Claims.Inverted.checks { v with elems := [0] } false) (stored s .stride f)) fun _ => true) ∧
    (let s := (inverting .fwd 0x180).modCtx 5 fun c => c.wg 2 0x30000; let f := { iop with vs2 := 2 }; let v := invertedOf s .stride f 0
     Ready s (.vsts f) .vector ∧ v.elems = [0] ++ 1 :: [] ∧ v.reg 0 ≠ none ∧ v.reg 1 = none ∧ alignedAt .stride (here s) f 1 = true ∧
      Gives (checksAt (self s) (Sys2Proof.Claims.Inverted.checks { v with elems := [0] } false) (stored s .stride f)) fun t =>
        (trapOf (checkVa (self s) .write false (v.at_ 1)) t).isSome) ∧
    let s := { inverting .rev 0x180 with regions := [(63, ⟨0x10000, 64, 0, 0x50000, false, false⟩)] }; let v := invertedOf s .unit iop 0
    Ready s (.vst iop) .vector ∧ v.elems = [] ++ 0 :: [1] ∧ v.reg 0 = some ⟨0x10000, 64, 0, 0x50000, false, false⟩ ∧ alignedAt .unit (here s) iop 0 = true ∧
      Gives (checksAt (self s) [(.write, false, v.at_ 0)] (stored s .unit iop)) fun t => (trapOf (checkVa (self s) .atomic true 0x50000) t).isSome := by
  refine ⟨fun m hm => ?_, ⟨ready (by decide +kernel), by decide +kernel, by decide +kernel, by decide +kernel, by decide +kernel, gives (by decide +kernel)⟩,
    ⟨ready (by decide +kernel), by decide +kernel, by decide +kernel, by decide +kernel, by decide +kernel, gives (by decide +kernel)⟩,
    ready (by decide +kernel), by decide +kernel, by decide +kernel, by decide +kernel, gives (by decide +kernel)⟩
  simp only [List.mem_cons, List.not_mem_nil, or_false] at hm
  rcases hm with rfl | rfl <;> exact ⟨ready (by decide +kernel), grouped (by decide +kernel), by decide +kernel, ⟨0x10000, 64, 0, 0x11000, false, false⟩, by decide +kernel, by decide⟩


/-- A channel descriptor at 0x40: slots of 2^11 bytes at 0x1000 of this device, one of them, and its reduce target. -/
def channel (kind : Nat) (f : Ctx → Ctx := id) : State :=
  wordsAt 0x40 [0, 0x1000, (if kind = 0 then 11 * 2 ^ 16 else 0) + kind * 2 ^ 22, 0, 0, 0, 0, 0]
    (with_ [(1, 0x40), (2, 8)] fun c => f { c with vl := 1, vt := { kind := 0, ew := 3 }, v := [(4, { bits := 7 })] })
/-- A slot at 0x40 that holds one i32 element. -/
def slot : State := wordsAt 0x40 [1, 0x10000 + 3, 0, 0, 0, 0, 0, 0, 9] (with_ [(1, 0x40)] fun c => { c with vl := 1, vt := { kind := 0, ew := 3 } })
/-- A range of 0 bytes, of 1 GiB, and one that is too long. -/
theorem witness_RemoteInstructions : ∀ b ∈ [0, 2 ^ 30, 2 ^ 30 + 1], let s := with_ [(1, 0x40), (2, BitVec.ofNat 64 b)]; let a := ((here s).rg 1).toNat
    NoAccess s ∧ Idle s ∧ a + b ≤ 2 ^ 64 := by
  intro b hb; simp only [List.mem_cons, List.not_mem_nil, or_false] at hb
  rcases hb with rfl | rfl | rfl <;> exact ⟨(calm (by decide)).2.1, (calm (by decide)).1, by decide⟩
/-- A channel with a free slot, and one with a reduce target of this device. -/
theorem witness_RemoteInstructions_sends :
    (let s := channel 0; let f : Op64 := { z with vs1 := 1, vs2 := 4 }; let s0 := began (.rsend f) f s; let ag := { self s with noWindow := true }
     let a := s0.entryAccess s.cur (entryOf (.rsend f) .vector f false s) 15
     Ready s (.rsend f) .vector ∧ f.vs2.toNat % (here s).vt.size = 0 ∧
     Yields (readChan ag a 0 0x40) (issuing (.rsend f) .vector f false s) (fun w _ => decide (64 + 1024 ≤ 2 ^ ((w.getD 2 0).toNat / 2 ^ 16 % 32))) ∧
     Yields (do let _ ← readChan ag a 0 0x40; claimSlot ag 0x40 1) (issuing (.rsend f) .vector f false s) fun n _ => n == 0) ∧
    let s := channel 1; let f : Op64 := { z with vs1 := 1, vs2 := 4 }
    Ready s (.rredst f) .vector ∧ Yields (readChan { self s with noWindow := true }
      ((began (.rredst f) f s).entryAccess s.cur (entryOf (.rredst f) .vector f false s) 15) 1 0x40) (issuing (.rredst f) .vector f false s) fun _ _ => true :=
  ⟨⟨ready (by decide +kernel), by decide, yields (by decide +kernel), yields (by decide +kernel)⟩, ready (by decide +kernel), yields (by decide +kernel)⟩
/-- A slot with an element, one whose header names another `vl`, and one whose header is poisoned. -/
theorem witness_RemoteInstructions_receives : let f : Op64 := { z with vd := 4, vs1 := 1 }
    let rd (s : State) (n : Nat) (p : Place) (u : State) :=
      u.readBy s.cur p n ((issuing (.rrecv f) .vector f false s).entryAccess s.cur (entryOf (.rrecv f) .vector f false s) f.cls4.toNat)
    (let s := slot; let ag := { self s with noWindow := true }
     Ready s (.rrecv f) .vector ∧ f.vd.toNat % (here s).vt.size = 0 ∧ 0x10003 % 2 ^ 15 = (here s).vt.word ∧ 0x10003 / 2 ^ 16 % 2 ^ 12 = (here s).vl ∧
     Gives ((readsAt ag (rd s 8) [0x48] (issuing (.rrecv f) .vector f false s)).bind fun r =>
       (readsAt ag (rd s 4) [0x80] r.2).map fun v => (r.1, v.1)) fun r => decide (r = ([(0x10003, false)], [(9, false)]))) ∧
    (let s := slot.modCtx 5 fun c => { c with vl := 2 }
     Ready s (.rrecv f) .vector ∧ 0x10003 / 2 ^ 16 % 2 ^ 12 ≠ (here s).vl ∧ (here s).trap.tvec ≠ 0 ∧ (here s).level ≠ .f ∧
     Gives (readsAt { self s with noWindow := true } (rd s 8) [0x48] (issuing (.rrecv f) .vector f false s)) fun r => decide (r.1 = [(0x10003, false)])) ∧
    let s := { slot with marks := [9] }
    Ready s (.rrecv f) .vector ∧ Gives (readsAt { self s with noWindow := true } (rd s 8) [0x48] (issuing (.rrecv f) .vector f false s)) fun r =>
      (r.1.getD 0 (0, false)).2 :=
  ⟨⟨ready (by decide +kernel), by decide, by decide, by decide, gives (by decide +kernel)⟩,
    ⟨ready (by decide +kernel), by decide, by decide, by decide, gives (by decide +kernel)⟩, ready (by decide +kernel), gives (by decide +kernel)⟩
/-- The head of a descriptor, clean and poisoned, and one on an MS page. -/
theorem witness_RemoteInstructions_slots :
    (∀ b : Bool, let s := { channel 0 with marks := if b then [10, 12] else [] }
     NoAccess s ∧ Idle s ∧ (here s).memBlocked 15 false 0x60 8 = false ∧ readsOk (self s) 0x40 [0, 0x1000] (s.settle fun q => q.x == s.cur && decide (q.scope ≠ 7)) ∧
     Yields (place (self s) (.core (coreOf s.cur)) .atomic false 0x50) s (fun p t =>
       ((t.purgePlace s.cur p).atomDo s.cur ⟨p.home.1, p.home.2, 8, .add, 1, false⟩ (t.base s.cur + 15)).2.2.1 == b) ∧
     Yields (place (self s) (.core (coreOf s.cur)) .read false 0x60) s fun p t => (match p with | .phys _ pte => !pteMs pte && !pteD pte | _ => false) &&
       ((t.acquire s.cur 4).readBy s.cur p 8).2.2 == b) ∧
    (let s := with_ [(1, 0x10000)]; Idle s ∧ (here s).memBlocked 15 false 0x10020 8 = false ∧
     Yields (place (self s) (.core (coreOf s.cur)) .read false 0x10020) s fun p _ => (match p with | .phys _ pte => pteMs pte | _ => false)) ∧
    (0x44 : Word).toNat % 64 ≠ 0 := by
  refine ⟨fun b => ?_, ⟨(calm (by decide)).1, unblocked (by decide) .., yields (by decide +kernel)⟩, by decide⟩
  cases b <;> exact ⟨(calm (by decide)).2.1, (calm (by decide)).1, unblocked (by decide) .., gives (by decide +kernel), yields (by decide +kernel),
    yields (by decide +kernel)⟩
/-- Operations answered, refused and not answered. -/
theorem witness_RemoteInstructions_fence :
    let made (o : List Remote) : State := one fun c => { c with remote := o }
    let good : Remote := ⟨1, 0xC0, 7, 0, none, true, 0⟩; let bad : Remote := ⟨2, 0xC2, 5, 3, some ⟨0x02, 0x1000⟩, true, 0⟩; let late : Remote := ⟨3, 0xC3, 7, 0, none, false, 0⟩
    Idle (made [good, bad, late]) ∧ (∀ l ∈ [[], [good], [good, bad]], Idle (made l) ∧ ∀ r ∈ (here (made l)).remote, r.acked = true) ∧
    ((here (made [good, bad])).remote.filter fun r => r.refused.isSome) = [bad] ∧ ∃ r ∈ (here (made [good, bad, late])).remote, r.acked = false :=
  ⟨by unfold Idle; decide, by unfold Idle; decide, by decide, by decide⟩

/-- A context at level S with a mask stack, a token and parked entries; the words of its block; and the state with that block on an NC page. -/
def saved (q : List Instr := []) : State := one fun c =>
  { c with level := .s, g := [(1, 0x30000), (2, 0x10000)], stack := [5], vl := 3, vt := { kind := 0, ew := 3 }, tokens := [(5, { u := 1, f := 1, held := 1 })]
           seq := q.length, queue := (q.zip (List.range q.length)).map fun i =>
             { (c.entry (if (matrixUnits i.1).1 = none then .vector else .matrix) i.1 z 0) with seq := i.2, parked := true } }
def savedWords (q : List Instr := []) : List Word := let bytes := ((saved q).queueImage 5).bytes; (saved q).blockWords 5 (packWords bytes.length bytes)
def restored (q : List Instr := []) (put : List Word → List Word := id) : State := wordsAt 0x30000 ((put (savedWords q)).map fun w => w.toNat) (saved [])
theorem witness_CtxsvCompletes : ∀ q ∈ [[], [.vadd z, .tkwait z]], let s := saved q; let words := savedWords q
    (here s).level ≠ .u ∧ Idle s ∧ ((here s).rg 1).toNat % 64 = 0 ∧ s.spillGalley 5 = s ∧ (s.queueImage 5).bytes.length ≤ 4096 ∧
    Gives (storesAt (self s) 64 (fun p n v bad u => u.writePlace s.cur p n v bad) ((words.zip ((List.range words.length).map fun i => 0x30000 + BitVec.ofNat 64 (8 * i))).map fun v =>
      ((v.2, false), v.1.toNat, false)) s) fun _ => true := by
  intro q hq; simp only [List.mem_cons, List.not_mem_nil, or_false] at hq
  rcases hq with rfl | rfl <;> exact ⟨by decide, by unfold Idle; decide +kernel, by decide, by decide +kernel, by decide +kernel, gives (by decide +kernel)⟩

/-- More waiting entries than an image holds, and a misaligned block. -/
theorem witness_CtxsvCompletes_full : (let s := saved (List.replicate 150 (.tkwait z)); (here s).level ≠ .u ∧ (here s).queue.all (fun e => e.parked) = true ∧
    4096 < ((((s.spillGalley 5).drainParked 5).queueImage 5).bytes).length) ∧ (0x44 : Word).toNat % 64 ≠ 0 :=
  ⟨by decide +kernel, by decide⟩

/-- The words at an offset of the block. -/
def ofBlock (o n : Nat) : List Word := (List.range n).map fun i => 0x30000 + BitVec.ofNat 64 (o + 8 * i)
/-- The block with entries, as `ctxrs` takes it apart. -/
def whole (q : List Instr) (put : List Word → List Word := id) (p : State → QueueImage → Bool) : Bool :=
  let ws := put (savedWords q); let s := restored q put; let w := ws.take 16; let image := ws.drop 576; let qbytes := (w.getD 0 0).toNat / 2 ^ 48
  decide ((here s).level ≠ .u ∧ ((ws.drop 16).take 32).length = 32 ∧ ((ws.drop 64).take 512).length = 512 ∧ image.length = (qbytes + 7) / 8 ∧
    (w.getD 0 0).toNat % 2 ^ 48 = 0x4B515342 + 2 ^ 32 ∧ qbytes ≤ 4096 ∧ vtypeOf (w.getD 5 0).toNat = some { kind := 0, ew := 3 } ∧
    (w.getD 4 0).toNat ≤ 256 ∧ (w.getD 10 0).toNat ≤ 16 ∧ (w.getD 11 0).toNat < 3) &&
  match readsAt (self s) (frontReads s.cur) (ofBlock 0 16 ++ ofBlock 0x80 32 ++ ofBlock 0x180 16 ++ ofBlock 0x200 512 ++ ofBlock 0x1200 image.length) s with
  | some r => decide (r.1 = ws.map fun (v : Word) => (v.toNat, false)) && p r.2 (imageFrom 5 (here s).seq ((unpackWords image).take qbytes))
  | none => false
/-- A valid block; one of another errata word; one that names a tile of another context; and one for whose entries there is no room. -/
theorem witness_CtxrsCompletes : Idle (saved []) ∧
    whole [.vadd z, .tkwait z] id (fun s q => decide (q.entries.length = 2) && (strangerUnit (s.core 1) 5 q.entries).isNone && s.imageFits 5 q.entries &&
      decide ((savedWords [.vadd z, .tkwait z]).getD 1 0 = errataWord s.hub)) = true ∧
    whole [] (fun ws => ws.set 1 0xFFFF) (fun s _ => decide (0xFFFF ≠ errataWord s.hub)) = true ∧
    whole [.mma { z with vd := 1 }] id (fun s q => decide (q.entries.map (fun e => matrixUnits e.instr) = [(some 1, some 0)]) &&
      owns ({ s.core 1 with tallot := 0x88888888 } : Core).tallot 1 5 == false) = true ∧
    whole (List.replicate 9 (.vadd z)) id (fun s q => decide (q.entries.length = 9) &&
      !(State.imageFits { s with ctxs := s.ctxs ++ [(4, { queue := List.replicate 40 ((here s).entry .vector (.vadd z) z 0) })] } 5 q.entries)) = true :=
  ⟨by unfold Idle; decide, by decide +kernel, by decide +kernel, by decide +kernel, by decide +kernel⟩
/-- A block with another header, one with a reserved value of `vtype`, and a misaligned one. -/
theorem witness_CtxrsCompletes_bad :
    (let s := restored [] fun ws => ws.set 0 1
     Gives (readsAt (self s) (frontReads s.cur) (ofBlock 0 16) s) fun r => decide ((r.1.getD 0 (0, false)).1 % 2 ^ 48 ≠ 0x4B515342 + 2 ^ 32)) ∧
    (let s := restored [] fun ws => ws.set 5 0x7FFF
     Gives (readsAt (self s) (frontReads s.cur) (ofBlock 0 16 ++ ofBlock 0x80 32 ++ ofBlock 0x180 16) s) fun r =>
       decide ((r.1.getD 0 (0, false)).1 % 2 ^ 48 = 0x4B515342 + 2 ^ 32 ∧ vtypeOf (r.1.getD 5 (0, false)).1 = none)) ∧ (0x44 : Word).toNat % 64 ≠ 0 :=
  ⟨gives (by decide +kernel), gives (by decide +kernel), by decide⟩
/-- No chain and no parked copy: nothing parked; one entry that issues and completes; and two whose older one waits for a token. -/
theorem witness_VqdrainCompletes : let armed (s : State) : State := s.modCtx s.cur Ctx.unpark
    (∀ q ∈ [[], [.vadd z], [.tkwait z, .vadd z]], let s := saved q
      (here s).level ≠ .u ∧ Idle s ∧ (here s).chain = none ∧ (here s).chainQueue = [] ∧ ∀ e ∈ (here s).queue, e.queue ≠ .copy) ∧
    (let s := saved [.vadd z]; ∃ e d, ((armed s).ctx 5).queue = [e] ∧ queueDef e.instr = some d ∧ (armed s).ready 5 e = true ∧
      Yields (runEntry d.body 5 e) ((armed s).without 5 e) fun _ t => decide ((t.ctx 5).queue = [] ∧ (t.ctx 5).copying = false)) ∧
    let s := saved [.tkwait z, .vadd z]
    (∀ e ∈ ((armed s).ctx 5).queue, (∀ o ∈ ((armed s).ctx 5).queue, o.queue = e.queue → e.seq ≤ o.seq) → (armed s).ready 5 e = false) := by
  refine ⟨fun q hq => ?_, ⟨_, _, rfl, rfl, by decide +kernel, yields (by decide +kernel)⟩, by decide +kernel⟩
  simp only [List.mem_cons, List.not_mem_nil, or_false] at hq
  rcases hq with rfl | rfl | rfl <;> exact ⟨by decide, by unfold Idle; decide +kernel, rfl, rfl, by decide +kernel⟩
/-- Operands of `tlbinv` in order and out of it. -/
theorem witness_TlbinvCompletes : Acked (saved []) 6 ∧ NoAccess (saved []) ∧ (saved []).nmops = [] ∧
    (let c := (with_ [(1, 0x10000), (2, 0), (3, 5), (4, 0x10001)]).ctx 5
     let good (a n d : Reg) : Bool := decide ((c.rg d).toNat < 2 ^ 16 ∧ (c.rg a).toNat % 2 ^ 16 = 0 ∧ (c.rg n).toNat % 2 ^ 16 = 0)
     good 1 2 3 = true ∧ good 4 2 3 = false ∧ good 1 2 4 = false) :=
  ⟨(calm (by decide)).2.2 _, (calm (by decide)).2.1, rfl, by decide⟩

theorem nexts {o : Out} (h : (match o with | .next _ => true | _ => false) = true) : ∃ t, o = .next t := by split at h <;> simp_all

/-- A context whose copy chain stands at an entry. -/
def link : Chain :=
  { head := 0x40, at_ := 0x40, obj := 0x400, chase := false, scope := 0, push := 0, level := .u, asid := 0, fwd := false, tag := 0, loops := [], start := 0, exited := false }
def chained (ws : List Nat) (h : Chain := link) : State := { wordsAt 0x40 ws (one fun c => { c with chain := some h }) with arg := .ctx 5 }
def fetches (ws : List Nat) (h : Chain := link) : Prop :=
  Yields (chainFetch 5 h) (chained ws h) fun w _ => decide (w = ws.map (BitVec.ofNat 64))
def engine : Agent := { x := 5, level := .u, asid := 0, tag := 0, engine := true }
/-- A term that fires on a counter that has passed its target, and one that fires a chain on a token. -/
theorem witness_ChaseAndChains_terms :
    ∀ p ∈ [TermPhase.low, .due, .fired], ∀ n ∈ [0, 1], ∀ a ∈ [false, true],
     let tm : Term := ⟨5, 0x0000004400000301, a, p, 0, .u, 0⟩
     let s : State := { one (fun c => { c with tokens := [(0, { u := 1, f := 1, held := 1 })] }) with arg := .coreIx 1 3, cores := [(1, { tlb := pages, terms := [(3, tm)], counters := [(0, ⟨5, 0x2000100, n⟩)] })] }
     Tab.find (s.core 1).terms 3 = some tm ∧ tm.phase = p ∧ tm.armed = a ∧ ((List.range 14).filter fun b => (tm.word.toNat / 2 ^ b) % 2 == 1) = [0, 8, 9] ∧
     (0x2000100 : Word).getLsbD 25 = true ∧ decide (0x2000100 / 2 ^ 8 % 2 ^ 16 ≤ n) = decide (n = 1) ∧ 0 < ((s.ctx 5).tok (fifoIx 0)).held ∧
     0 < ((s.ctx 5).tok (fifoIx 1)).held + 1 ∧ ((List.range 14).filter fun b => (tm.word.toNat / 2 ^ (16 + b)) % 2 == 1) = [] := by decide +kernel
/-- The refusal of an access, with its code. -/
def refuses {α : Type} (o : Moved α) (code : Nat) : Bool := match o with | some (.error e) => decide (e.1 = code) | _ => false
/-- The accesses all take place. -/
def completes {α : Type} (o : Moved α) : Bool := match o with | some (.ok _) => true | _ => false
/-- A copy of one byte, one with a reserved element type, one whose source has no page, one whose destination is misaligned, and one into a region
under FWD; a gather of one row, one of no row, one with a row length of 4, and one whose index is misaligned. -/
theorem witness_ChaseAndChains_moves :
    (let ws := [1 + 2 ^ 16 + 2 ^ 32 + 2 ^ 48, 0x80, 0x90, 0]; fetches ws ∧ completes (movesAt engine link 1 [(0x80, 0x90)] [] (chained ws)) = true) ∧
    fetches [1 + 3 * 2 ^ 8 + 2 ^ 16 + 2 ^ 32 + 2 ^ 48, 0x80, 0x90, 0] ∧
    refuses (movesAt engine link 1 [(0x50000, 0x90)] [] (chained [])) 2 = true ∧ refuses (movesAt engine link 4 [(0x80, 0x92)] [] (chained [])) 5 = true ∧
    refuses (movesAt engine { link with fwd := true } 4 [(0x80, 0x90)] [] { chained [] with regions := [(0, ⟨0x80, 64, 0, 0x200, false, false⟩)] }) 7 = true ∧
    (∀ n ∈ [0, 1], let ws := [2 + 2 * 2 ^ 10 + n * 2 ^ 16 + 8 * 2 ^ 32, 0x80, 0x90, 0xA0]; fetches ws ∧ completes (rowsAt engine link 4 8 0x80 0x90 0xA0 n 0 [] (chained ws)) = true) ∧
    fetches [2 + 2 * 2 ^ 10 + 2 ^ 16 + 4 * 2 ^ 32, 0x80, 0x90, 0xA0] ∧ refuses (rowsAt engine link 4 8 0x80 0x90 0xA2 1 0 [] (chained [])) 5 = true := by
  refine ⟨⟨yields (by decide +kernel), by decide +kernel⟩, yields (by decide +kernel), by decide +kernel, by decide +kernel, by decide +kernel, fun n hn => ?_,
    yields (by decide +kernel), by decide +kernel⟩
  simp only [List.mem_cons, List.not_mem_nil, or_false] at hn
  rcases hn with rfl | rfl <;> exact ⟨yields (by decide +kernel), by decide +kernel⟩
/-- A loop that goes back, one that is over and a fifth one; a skip, at a good, a misaligned and a refused word; a token with room, without, and of a record
that has exited; a pulse; a wait that ends and one that goes on; an end with an object, with none in a chain of the chase, and in a region under FWD;
entries of an unknown type and with a reserved bit; and a chain whose entry has no page. -/
theorem witness_ChaseAndChains :
    (let ws (n : Nat) := [3 + n * 2 ^ 16 + 2 ^ 32, 8, 8, 0]; let l (a : Word) : OpenLoop := ⟨a, 1, 1, 8, 8⟩
     fetches (ws 1) ∧ fetches (ws 65535) ∧ fetches (ws 0) ∧ fetches (ws 2) { link with loops := [l 0x40] } ∧
     fetches (ws 2) { link with loops := [l 0x60, l 0x80, l 0xA0] } ∧ fetches (ws 2) { link with loops := [l 0x60, l 0x80, l 0xA0, l 0xC0] }) ∧
    (let ws (a : Nat) := [4 + 2 ^ 16, a, 0, 0]; fetches (ws 0x80) ∧ fetches (ws 0x84) ∧ fetches (ws 0x50000) ∧ Yields (place engine (.core 1) .read false 0x80) (chained (ws 0x80)) (fun _ _ => true) ∧
      (trapOf (place engine (.core 1) .read false 0x50000) (chained (ws 0x50000))).map (fun t => codeOf t) = some 2) ∧
    (let s (n : Nat) : State := (chained [5, 0, 0, 0]).modCtx 5 fun c => c.setTok .cv { held := n }
     fetches [5, 0, 0, 0] ∧ fetches [5 + 256, 0, 0, 0] ∧ fetches [5, 0, 0, 0] { link with exited := true } ∧ ((s 15).ctx 5).tok .cv = { held := 15 } ∧
     Yields (chainFetch 5 link) (s 16) fun _ t => decide (16 ≤ ((t.ctx 5).tok .cv).held)) ∧
    fetches [6 + 7 * 256, 0, 0, 0] ∧
    (∀ n ∈ [0, 1], let ws := [7, 0x80, n, 0]; fetches ws ∧ Yields (place engine (.core 1) .read false 0x80) (chained ws) fun p t =>
      decide (n ≤ (((t.acquire 5 link.scope).engineReach 1 p).engineRead 1 p 8).1) == decide (n = 0)) ∧
    (∀ n ∈ [0, 0x80], let ws := [8, n, 0, 0]; fetches ws ∧ Yields (place engine (.core 1) .atomic false (if n = 0 then link.obj else 0x80)) (chained ws) fun _ _ => true) ∧
    (fetches [8, 0, 0, 0] { link with chase := true } ∧ fetches [9, 0, 0, 0] ∧ fetches [8, 0, 0, 1] ∧ fetches [8, 0x80, 0, 0] { link with fwd := true }) ∧
    (trapOf (chainFetch 5 { link with at_ := 0x50000 }) (chained [])).map (fun t => codeOf t) = some 2 := by
  refine ⟨⟨yields (by decide +kernel), yields (by decide +kernel), yields (by decide +kernel), yields (by decide +kernel), yields (by decide +kernel), yields (by decide +kernel)⟩,
    ⟨yields (by decide +kernel), yields (by decide +kernel), yields (by decide +kernel), yields (by decide +kernel), by decide +kernel⟩,
    ⟨yields (by decide +kernel), yields (by decide +kernel), yields (by decide +kernel), by decide +kernel, yields (by decide +kernel)⟩, yields (by decide +kernel),
    fun n hn => ?_, fun n hn => ?_, ⟨yields (by decide +kernel), yields (by decide +kernel), yields (by decide +kernel), yields (by decide +kernel)⟩, by decide +kernel⟩
  all_goals
    simp only [List.mem_cons, List.not_mem_nil, or_false] at hn
    rcases hn with rfl | rfl <;> exact ⟨yields (by decide +kernel), yields (by decide +kernel)⟩

/-- The blocks of a tracked record that joins, with a queue and a reserve that are full, with a count of 0 and without a page; and a draining context
without a block. -/
theorem witness_WorkOfTheEngines_drains : let ag : Agent := { x := 5, level := .u, asid := 0, tag := 7, start := some 0, engine := true }
    (let tr (j : Word) : Tracker := ⟨5, 7, 0, .u, j, 0, [3]⟩; let s (j : Word) : State := { bytesAt 0x40 [2] (one id) with cores := [(1, { tlb := pages, tracker := [(2, tr j)] })] }
     (∀ j, Tab.find ((s j).core 1).tracker 2 = some (tr j) ∧ (s j).posted = [] ∧ ((s j).ctx 5).chain = none ∧ ((s j).ctx 5).chainQueue = []) ∧
     Yields (joinM ag 0x40) (s 0x40) (fun e _ => e matches .done) ∧ Yields (joinM ag 0x80) (s 0x80) (fun e _ => e matches .zero) ∧
     (trapOf (joinM ag 0x50000) (s 0x50000)).isSome) ∧
    (let r : Rec := { w0 := 3 * 2 ^ 56, w1 := 0, w2 := 0, w3 := 0, tag := 0, asid := 0, cr := 0, scope := 3, waited := 0, pops := 0 }
     let s : State := { bytesAt 0x40 [1, 0, 0, 0, 0, 0, 0, 0, 0, 0x10, 0, 0, 0, 0, 0, 2] (one id) with dies := [(0, { fullQueue with reserve := List.replicate 1024 r })] }
     Yields (joinM ag 0x40) s fun e _ => e matches .full) ∧
    let s := one fun c => { c with status := .draining, rec_ := some ⟨0, 0, 7, 0⟩ }
    (s.ctx 5).status = .draining ∧ s.outstanding 5 = false ∧ s.ordinary 5 = [] ∧ (s.ctx 5).chaining (s.ctx 5).start = false ∧
       ∃ r, (s.ctx 5).rec_ = some r ∧ r.w2 = 0 :=
  ⟨⟨fun j => ⟨rfl, rfl, rfl, rfl⟩, yields (by decide +kernel), yields (by decide +kernel), by decide +kernel⟩, yields (by decide +kernel),
    by decide, by decide +kernel, by decide +kernel, by decide, _, rfl, rfl⟩
/-- A `waitc` whose word has come and one whose word has not, a `wfe`, a buffered galley entry, and pending traps, with and without a synchronous one
that is ready. -/
theorem witness_WorkOfTheEngines_contexts :
    (∀ n ∈ [0, 1], let f : Op64 := { z with vs1 := 1, vs2 := 2 }
     let s := { with_ [(1, 0x40), (2, BitVec.ofNat 64 n)] with cores := [(1, { tlb := pages, icache := [(0x40, { data := (encode64 0xA5 f).setWidth 512 })] })] }
     (here s).memBlocked 15 false 0x40 8 = false ∧ Yields (fetchInstr (agentOf 5 (s.ctx 5)) (s.ctx 5).pc) s (fun d s1 => decide (d = ⟨.waitc f, 8⟩) &&
       match place (self s) (.core 1) .read false 0x40 { s1 with cur := 5 } with
       | .ok p t => let r := (t.acquire 5 0).readBy 5 p 8; !r.2.2 && decide (n ≤ r.2.1) == decide (n = 0)
       | .error _ _ => false)) ∧
    (let s := one fun c => { c with wfeLooks := 1 }; 0 < (s.ctx 5).wfeLooks) ∧
    (let s := one fun c => { c with galBuf := [⟨0x100, [1], []⟩] }; (s.ctx 5).galBuf = ⟨0x100, [1], []⟩ :: []) ∧
    (let a : AsyncTrap := ⟨0x15, 0x40, 1⟩; let b : AsyncTrap := ⟨0x11, 0, 3⟩; (let l := [b, a]; a ∈ l ∧ a.cause ≠ 0x11 ∧ l.find? (fun b => b.cause != 0x11) = some a) ∧
     (let l := [b]; b ∈ l ∧ l.head? = some b ∧ ∀ c ∈ l, c.cause = 0x11)) ∧
    ∀ u ∈ [(-1 : Int), 0], let s := (fifo u 0 0).modCtx 5 fun c => { c with async := [⟨0x15, 0x40, 1⟩], queue := [c.entry .vector (.tkwait { z with fn4 := 3 }) { z with fn4 := 3 } 0] }
      (∀ e ∈ (s.ctx 5).queue, e.coupled = true → e.parked = true) ∧ ∀ e ∈ (s.ctx 5).queue, e.parked = false ∧ decide (s.underrun 5 e = none) = decide (u = 0) := by
  refine ⟨fun n hn => ?_, by decide, rfl, by decide, by decide +kernel⟩
  simp only [List.mem_cons, List.not_mem_nil, or_false] at hn
  rcases hn with rfl | rfl <;> exact ⟨unblocked (by decide) .., yields (by decide +kernel)⟩
/-- Posted operations on their way and arrived, a command with one element and with none, and a collective with a transfer to make and with none. -/
theorem witness_WorkOfTheEngines :
    (let p (n pa : Nat) (h : Home) (arr : Bool) : Posted :=
       { no := n, x := 5, tag := 7, cls := 0, scope := 0, vector := true, adj := false, arrived := arr, atoms := [⟨h, pa, 4, .add, 1, false⟩] }
     let l := [p 1 0x10040 .unit true, p 2 0x10080 .unit false, p 3 0x40 .slice false]
     (∀ n ∈ [2, 3], ∃ q, l.find? (fun o => o.no == n) = some q ∧ q.arrived = false ∧ ((q.unit.1 = .unit) ↔ n = 2) ∧
       ∀ o ∈ l.takeWhile fun o => o.no != n, o.x = q.x → o.arrived = true ∨ o.unit ≠ q.unit) ∧
     (l.find? fun o => o.arrived && decide (o.unit.1 = .unit) && o.unit.2 == homeUnit 0x10040) = some (p 1 0x10040 .unit true)) ∧
    (let c (l : List Nat) : Nmop :=
       { no := 4, x := 5, tag := 7, asid := 0, level := .u, op := 0, scope := 0, obj := 0x80, block := [], bases := [], left := l }
     let s := with_ []
     (∃ q, [c [0]].find? (fun o => o.no == 4) = some q ∧ 0 ∈ q.left) ∧ (∃ q, [c []].find? (fun o => o.no == 4) = some q ∧ q.left = []) ∧
     Yields (place { x := 5, level := .u, asid := 0, tag := 7, engine := true } (.core 1) .atomic false 0x80) { s with nmops := [] } fun _ _ => true) ∧
    (let q (n : Nat) : Coll := { x := 5, tag := 7, asid := 0, level := .u, scope := 0, obj := 0x80
                                 words := [2 ^ 32, 0x40, 0x48, 0, 0, 0, 0, 0, 0, 0, 0, 0, 0, 0, 0, 0], next := n, flight := [], failed := false, start := 0 }
     let s (n : Nat) : State := { one id with dies := [(0, { coll := [(63, q n)], collTlb := pages })] }
     collTotal (q 0).words = 1 ∧ (q 0).failed = false ∧ Tab.find ((s 0).die 0).coll 63 = some (q 0) ∧
     Yields (collMove 0 63 (q 0)) (s 0) (fun b _ => b) ∧ (q 1).flight = [] ∧
     Yields (place { x := 5, level := .u, asid := 0, tag := 7, engine := true, noWindow := true } (.coll 0) .atomic false 0x80) (s 1) fun _ _ => true) := by
  refine ⟨⟨?_, by decide +kernel⟩, ⟨⟨_, rfl, by decide⟩, ⟨_, rfl, rfl⟩, yields (by decide +kernel)⟩, by decide, rfl, rfl, yields (by decide +kernel), rfl, yields (by decide +kernel)⟩
  decide +kernel

/-- A live launch with tag 7 that every die has confirmed. -/
def live : Launch := { launch7 with queue := 1, dmin := 0, dmax := 0, confirmed := [0, 1, 2, 3] }
/-- The same machine with launch 7, and what else is said. -/
def scheduled (l : Launch := live) (f : State → State := id) : State :=
  f { (one fun c => { c with rec_ := some ⟨0x0200000000001000, 0, 7, 3⟩ }) with hub := { boot := .run, launches := [(7, l)] } }
/-- A record of priority `p` for die `d`. -/
def record (p d : Nat) : Rec :=
  { w0 := BitVec.ofNat 64 (2 ^ 63 + d * 2 ^ 61 + p * 2 ^ 56 + 0x1000), w1 := 0, w2 := 0, w3 := 0, tag := 7, asid := 0, cr := 0, scope := 4, waited := 0, pops := 1024 }
/-- A record that an idle context may take and whose header is in order; a running one to kill, signalled and not; a record in transit;
a root with a queue that has room, and with one whose records wait in the reserve; counts of an empty quad and die; a launch that waits for a die, and one
that all have confirmed; a take-over; an abort without and with a running record. -/
theorem witness_Scheduling :
    (let s := scheduled live fun s => { s with dies := [(0, { queues := [(11, [record 11 0])] })], ctxs := [], cores := [(0, { tlb := pages })], mem := [(0, 0x31), (1, 0x47), (2, 0x51), (3, 0x4B), (4, 1), (8, 0x20)] }
     let r := record 11 0; let x : CtxNo := 0; let d := s.die 0
     (s.ctx x).status = .idle ∧ (s.core 0).withdrawn = false ∧ (s.core 0).retired = false ∧ d.withdrawn = false ∧ (∀ y : CtxNo, y.toNat < x.toNat → s.pops y = false) ∧
     s.pops x = true ∧ s.popLevel x = some 11 ∧
     s.takeAt x 11 = some 0 ∧ (d.level 11)[0]? = some r ∧
     Yields (readHeader { x := 0, level := .u, asid := 0, tag := 7 } 0x1000) s fun g _ => g == 0x20) ∧
    ((scheduled.ctx 5).status = .running ∧ ((scheduled live fun s => s.modCtx 5 fun c => { c with signalled := true }).ctx 5).signalled = true) ∧
    (let s := scheduled live fun s => { s with dies := [(0, { tested := false, queues := [(2, [{ record 2 0 with pops := 1023 }, record 2 0])] })] }
     (s.modCtx 5 fun c => { c with rec_ := some ⟨0x0300000000001000, 0, 7, 3⟩ }).victim 0 2 = some 5 ∧ (s.die 0).overdue = [(2, 1)] ∧
     (s.die 0).takeover = false ∧ (s.die 0).controllers ≠ 0 ∧ (s.die 0).tested = false ∧ (s.ctx 5).status = .running ∧ (s.ctx 5).signalled = false ∧
     ∀ r ∈ (s.die 0).overdue, ({ s with ctxs := [] } : State).victim 0 r.1 = none) ∧
    (let pre := [record 2 1]; let r := record 2 3; recDie 0 r.w0 = 3 ∧ ∀ o ∈ pre, recDie 0 o.w0 ≠ 3) ∧
    (let l := { live with rooted := false, prio := 2 }
     let s (d : Die) := scheduled l fun s => { s with dies := [(0, d)] }
     let u (d : Die) := ((s d).acquireAll.journal 0).drainReserve 0 2
     ((s {}).launch 7 = some l ∧ l.rooted = false ∧ l.aborted = false ∧ ((s {}).die 0).takeover = false ∧ ((s {}).die 0).withdrawn = false ∧ l.deps = [] ∧
       (u {}).queueFull 0 2 = false) ∧
     ((u fullQueue).queueFull 0 2 = true ∧ ((u fullQueue).die 0).reserve.length < 1024) ∧
     let busy : Die := { fullQueue with reserve := List.replicate 1024 (record 3 0) }
     (u busy).queueFull 0 2 = true ∧ 1024 ≤ ((u busy).die 0).reserve.length) ∧
    (let s := scheduled live fun s => { s with ctxs := [], quads := [(17, { counts := [(7, -1)] })], dies := [(2, { counts := [(7, 1)] })] }
     Tab.find (s.quad 17).counts 7 = some (-1) ∧ s.presentQuad 17 7 = false ∧ Tab.find (s.die 2).counts 7 = some 1 ∧ s.presentDie 2 7 = false) ∧
    (let s := scheduled { live with confirmed := [0, 1, 2] } fun s => { s with ctxs := [] }
     s.launch 7 = some { live with confirmed := [0, 1, 2] } ∧ live.total = 0 ∧ live.rooted = true ∧ s.dieClear 3 7 = true ∧ 3 ∉ [0, 1, 2]) ∧
    (scheduled.launch 7 = some live ∧ (∀ d < 4, d ∈ live.confirmed) ∧ scheduled.quiet 7 = true ∧ (∀ e ∈ scheduled.dies, e.2.takeover = false) ∧
      (7 ∈ [9, 7] ∧ ∀ n ∈ [9, 7], 7 ≤ n) ∧ 7 ∈ [7, 5] ∧ ∃ n ∈ [7, 5], n < 7) ∧
    ((scheduled live fun s => s.modDie 3 fun d => { d with takeover := true }).die 3).takeover = true ∧
    (live.aborted = false ∧ (∀ e ∈ (scheduled live fun s => { s with ctxs := [] }).ctxs, e.2.status = .running → e.2.tag ≠ 7) ∧
      (scheduled.ctxs.find? fun e => decide (e.2.status = .running) && e.2.tag == 7) ≠ none) := by
  refine ⟨⟨by decide +kernel, by decide +kernel, by decide +kernel, by decide +kernel, fun y h => absurd h (Nat.not_lt_zero _), by decide +kernel, by decide +kernel,
      by decide +kernel, by decide +kernel, yields (by decide +kernel)⟩,
    by decide +kernel, by decide +kernel, by decide +kernel, ⟨by decide +kernel, by decide +kernel, by decide +kernel⟩, by decide +kernel, by decide +kernel,
    by decide +kernel, by decide +kernel, by decide +kernel⟩

/-- A frame of the host on a queue. -/
def hostFrame (typ queue seq : Nat) (addr aux : Nat) (len : Nat) (payload : List Byte) : Frame :=
  ⟨0x88B5, 1, BitVec.ofNat 8 typ, 0, BitVec.ofNat 16 queue, BitVec.ofNat 32 seq, BitVec.ofNat 64 addr, BitVec.ofNat 32 len, 0, BitVec.ofNat 64 aux, payload⟩
/-- A hub in RUN whose queue 255 has a ring of two entries at 0x1000. -/
def hosted (f : Frame) (q : HostQueue := { rbase := 0x1000, rlog := 1, setUp := true, seqIn := 5 }) : State :=
  { arg := .frame f, hub := { boot := .run, tlb := pages, queues := [(255, q)] } }
/-- Frames in turn, ahead, and received before, on a queue that is set up, on one that is not and on queue 0; a launch of 64 and of 256
bytes; a kick up to the ring's end; a write and a read; an acknowledgement; and a frame sent again for the last time and once more. -/
theorem witness_HostFrames :
    (∀ typ ∈ [1, 2, 3, 4], ∀ h ∈ [0, 255, 254], ∀ n ∈ [4, 5, 6, 0], let f := hostFrame typ h n 0 0 0 []; Frames (hosted f) f typ) ∧
    (let q := (hosted (hostFrame 1 255 0 0 0 0 [])).hostQ 255; (q.seqIn - (6 : BitVec 32)).toNat ≥ 2 ^ 31 ∧ (q.seqIn - (4 : BitVec 32)).toNat < 2 ^ 31 ∧
      q.setUp = true ∧ ((hosted (hostFrame 1 254 0 0 0 0 [])).hostQ 254).setUp = false ∧ ((hosted (hostFrame 1 254 0 0 0 0 [])).hostQ 0).seqIn = 0) ∧
    (∀ n ∈ [64, 256], let f := hostFrame 1 255 5 0 0 n (List.replicate n 7); let s := hosted f; let q := s.hostQ 255
     let t := s.modHostQ 255 fun q => { q with seqIn := q.seqIn + 1 }
     Frames s f 1 ∧ q.rbase ≠ 0 ∧ q.tail - q.free ≠ 2 ^ q.rlog ∧
     Yields (do hubCheck q.asid .s .write (q.entryVa q.tail) 256
                hubWrite q.asid .s false 255 33 (q.entryVa q.tail) (f.payload ++ List.replicate (256 - f.payload.length) 0) : M Unit) t fun _ _ => true) ∧
    (∀ n ∈ [0, 2], let f := hostFrame 2 255 5 0 n 0 []; let s := hosted f; let q := s.hostQ 255
     Frames s f 2 ∧ q.tail ≤ f.aux.toNat ∧ f.aux.toNat ≤ q.free + 2 ^ q.rlog ∧ q.rbase ≠ 0 ∧
     Yields (each (List.range (f.aux.toNat - q.tail)) fun i => hubCheck q.asid .s .read (q.entryVa (q.tail + i)) 256) s fun _ _ => true) ∧
    (let f := hostFrame 3 255 5 0xFFF0 0 16 (List.replicate 16 7); Frames (hosted f) f 3 ∧
     Yields (do hubCheck 0 .s .write f.addr 16; hubWrite 0 .s false 255 17 f.addr f.payload : M Unit) (hosted f) fun _ _ => true) ∧
    (let f := hostFrame 4 255 5 0xFFF0 0 16 []; Frames (hosted f) f 4 ∧
     Yields (do hubCheck 0 .s .read f.addr 16; hubRead 0 .s 17 f.addr 16 : M (List Byte)) (hosted f) fun b _ => decide (b.length = 16)) ∧
    (let f := hostFrame 7 255 0 0 9 0 []; (hosted f).arg = .frame f ∧ f.typ = 7 ∧ (hosted f).hub.boot ≠ .off ∧ f.ether = (hosted f).hub.etherType) ∧
    (let u (n : Nat) : Unacked := ⟨hostFrame 5 255 0 0 0 0 [], n⟩; [u 63, u 64][0]? = some (u 63) ∧ (u 63).sent < 64 ∧ [u 63, u 64][1]? = some (u 64) ∧ 64 ≤ (u 64).sent) := by
  refine ⟨fun typ ht h hh n hn => ?_, by decide +kernel, fun n hn => ?_, fun n hn => ?_, ⟨⟨rfl, rfl, by decide, by decide, by decide +kernel, rfl⟩, yields (by decide +kernel)⟩,
    ⟨⟨rfl, rfl, by decide, by decide, by decide +kernel, rfl⟩, yields (by decide +kernel)⟩, by decide +kernel, by decide +kernel⟩
  · simp only [List.mem_cons, List.not_mem_nil, or_false] at ht hh hn
    rcases ht with rfl | rfl | rfl | rfl <;> rcases hh with rfl | rfl | rfl <;> rcases hn with rfl | rfl | rfl | rfl <;>
      exact ⟨rfl, rfl, by decide, by decide, by decide +kernel, rfl⟩
  · simp only [List.mem_cons, List.not_mem_nil, or_false] at hn
    rcases hn with rfl | rfl <;> exact ⟨⟨rfl, rfl, by decide, by decide, by decide +kernel, rfl⟩, by decide, by decide, yields (by decide +kernel)⟩
  · simp only [List.mem_cons, List.not_mem_nil, or_false] at hn
    rcases hn with rfl | rfl <;> exact ⟨⟨rfl, rfl, by decide, by decide, by decide +kernel, rfl⟩, by decide, by decide, by decide, yields (by decide +kernel)⟩

/-- Frames of queue 0 in turn, in each state of the hub, and each request with operands at the ends of their ranges and outside them. -/
theorem witness_BootAndManagement :
    (∀ b ∈ [Boot.off, .rom, .wait, .verify, .run], ∃ s : State, s.hub.boot = b) ∧
    (∀ typ ∈ [8, 13], let f := hostFrame typ 0 0 0 0 1 [7]; frameOk f = true ∧ f.queue = 0 ∧ f.seq = ((hosted f).hostQ 0).seqIn ∧ f.ether = (hosted f).hub.etherType) ∧
    (let f := hostFrame 12 0 0 0 0 32 (List.replicate 32 7); frameOk f = true ∧ f.payload.length = 32) ∧
    (let dvfs (w : Nat) : Bool := decide (w / 2 ^ 16 % 16 ≤ 8 ∧ (w % 1024 = 0 ∨ 100 ≤ w % 1024 ∧ w % 1024 ≤ 900))
     dvfs 0x80080000 = true ∧ dvfs 100 = true ∧ dvfs 900 = true ∧ dvfs 99 = false ∧ dvfs 901 = false ∧ dvfs 0x90000 = false) ∧
    (1500 ≤ 1500 ∧ 1500 ≤ 3600 ∧ ¬ 1500 ≤ 1499 ∧ ¬ 3601 ≤ 3600 ∧ 4095 < 4096 ∧ ¬ 4096 < 4096 ∧ 1 ≤ 8 ∧ ¬ 1 ≤ 0 ∧ ¬ 9 ≤ 8) ∧
    (let s (b : Bool) : State := { (hosted (hostFrame 10 0 0 0 0 0 [])) with cores := [(255, { withdrawn := b })] }
     ((s true).core 255).withdrawn = true ∧ ((s false).core 255).withdrawn = false ∧ 255 < 256 ∧ (0x1000 : Word).toNat % 4096 = 0 ∧ (s true).hub.launches = []) ∧
    (1 ≤ 64 ∧ (63 : BitVec 6).toNat < 64 ∧ ¬ (63 : BitVec 6).toNat < 63) ∧
    (let key := 5 * 1024 * 64 + 15; let s (b : BarState) : State := { bars := [(key, { state := b })] }; 15 < 16 ∧ ((s .broken).bar key).state = .broken ∧ ((s .open_).bar key).state ≠ .broken) := by
  refine ⟨fun b _ => ⟨{ hub := { boot := b } }, rfl⟩, by decide +kernel, by decide +kernel, by decide +kernel, by decide, by decide +kernel, by decide, by decide +kernel⟩

/-- A new allotment of units that no queued entry names; a `vcsr` write; each control register; an interval that decides; and a move up, one
down, and one towards the pinned boundary. -/
theorem witness_FirmwareAndBoundary :
    (let s : State := { one id with cores := [(1, { tallot := 0x88, wallot := 0x88, withdrawn := true })] }
     (∀ y : CtxNo, coreOf y = 1 → (s.ctx y).queue = []) ∧ (s.core 1).withdrawn = true ∧ (s.quad 63).retired < 32 ∧
     ((s.core 1).tallot.getLsbD 3 ≠ (0xBA98BA98 &&& 0xBBBBBBBB#64 : Word).getLsbD 0) ∧ (∀ o ∈ (s.ctx 5).queue, o.parked = true ∨ o.queue = .copy)) ∧
    (∀ n ∈ [12, 20], 12 ≤ n ∧ n ≤ 20 ∧ (BitVec.ofNat 64 (2 ^ n)).toNat = 2 ^ n) ∧ 31 ∈ ({ banks := [31] } : Quad).banks ∧ 0 ∉ ({ banks := [31] } : Quad).banks ∧ (11 : BitVec 4).toNat < 12 ∧
    (let e : Quad := { bound := 4, dmin := 2, dmax := 8, moving := some true }; let pin : Quad := { e with cfg := { pin := true, pbnd := 40 } }
     let s (e : Quad) : State := { quads := [(3, e)] }
     ((s e).quad 3).cfg.pin = false ∧ ((s e).quad 3).moving = some true ∧ 4 < ((s e).quad 3).dmax ∧
     ((s { e with moving := some false }).quad 3).moving = some false ∧ ((s e).quad 3).dmin < 4 ∧
     Nat.max pin.dmin (Nat.min (Nat.min pin.cfg.pbnd.toNat 32) pin.dmax) = 8 ∧ pin.bound < 8 ∧ ((s { pin with dmax := 3 }).quad 3).dmax < pin.bound) := by
  refine ⟨⟨fun y hy => ?_, by decide, by decide, by decide, by decide⟩, by decide, by decide, by decide +kernel⟩
  by_cases h : y = 5
  · subst h; rfl
  · have : y.toNat ≠ 5 := fun e => h (BitVec.eq_of_toNat_eq e)
    simp [one, State.ctx, Tab.look, Ne.symm this]
/-- A write that waits and that the buffer accepts, a line that it holds when it is full; a loss of power; temperatures on both sides of 105
and 115 degrees; an error at each place, with both controllers working and with the last. -/
theorem witness_PowerAndErrors :
    (let w : DurableWrite := ⟨9, { data := 0, mask := 0, pois := 0 }, none⟩; let v : DurableWrite := ⟨8, { data := 0, mask := 0, pois := 0 }, none⟩
     [v, w][1]? = some w ∧ (∀ u ∈ [v, w].take 1, u.line ≠ w.line) ∧ [8].length < 131072 ∧ w.line ∈ [9]) ∧
    ((hosted (hostFrame 1 255 0 0 0 0 [])).hub.boot ≠ .off) ∧ isDurable (8 * (0x20000000040 / 8)) = true ∧ (0 : DieNo) ≠ 3 ∧ (115 ≤ 115 ∧ ¬ 105 ≤ 104) ∧ (31 : Reg) ≠ 0 ∧
    (let s (n : Nat) : State := { dies := [(3, { controllers := n })] }; ((s 2).die 3).controllers = 2 ∧ ((s 1).die 3).controllers = 1) ∧ (3 : DieNo) ≠ 0 := by
  decide +kernel
/-- Links and devices that work; each message about a pod barrier that is open with two of three arrived, broken and counted; packets of
another device for pages that its table has and for one that it has not; and an answer to the one operation of a context. -/
theorem witness_TorusAndPackets :
    (let s := hosted (hostFrame 1 255 0 0 0 0 []); let dev : Coord3 := ⟨63, 0, 0⟩; dev ≠ s.hub.me ∧ dev ∉ s.hub.failed ∧
      ∀ i < 16, (s.bar (5 * 65536 + i)).devs.find? (fun d => d.dev == dev) = none) ∧
    -- an operation with a route, and one whose device has failed
    (let s (l : List Coord3) : State := { one fun c => { c with remote := [⟨9, 0xC3, 7, 0, none, false, 0⟩] } with
       hub := { boot := .run, dims := (2, 1, 1), failed := l, outNotices := [⟨⟨0, 0, 0⟩, ⟨1, 0, 0⟩, 5, 9, 0, 0x1000, 1⟩] } }
     (s []).unanswered = [9] ∧ (s []).hub.target 9 = some (⟨1, 0, 0⟩, 0x1020) ∧ (s [⟨1, 0, 0⟩]).hub.route ⟨1, 0, 0⟩ = none ∧
     (s []).hub.route ⟨1, 0, 0⟩ ≠ none ∧ (s []).hub.rerouted (s []).hub ⟨1, 0, 0⟩ = false) ∧
    -- a port within its rates, one at the lowest, a pinned one, and one that is down
    (∀ e ∈ [({ st := 2, cur := 3 } : Port), { st := 2, cur := 4 }, { st := 2, pin := true }, { st := 0 }], ∃ s : State, Tab.look {} s.hub.ports (portIx .zMinus) = e) ∧
    (let key := 5 * 65536 + (15 : BitVec 4).toNat; let dev : Coord3 := ⟨63, 0, 0⟩
     let s (b : BarState) (a : Nat) : State := { bars := [(key, { state := b, n := 3, a := a, devs := [⟨dev, 1, 2⟩] })] }
     ((s .open_ 1).bar key).state = .open_ ∧ ((s .broken 1).bar key).state = .broken ∧ ((s .open_ 1).bar key).a + 1 < ((s .open_ 1).bar key).n ∧
     ((s .open_ 2).bar key).n ≤ ((s .open_ 2).bar key).a + 1 ∧ (({} : State).bar key).state = .idle ∧
     ((s .open_ 1).bar key).devs.find? (fun d => d.dev == dev) = some ⟨dev, 1, 2⟩) ∧
    (let s := hosted (hostFrame 1 255 0 0 0 0 []); let src : Coord3 := ⟨1, 0, 0⟩; let me : Coord3 := ⟨0, 0, 0⟩; src ≠ s.hub.me ∧ me = s.hub.me ∧
     Yields (slotEffect ⟨src, me, 5, 1, 0, 0x1000, 1, 3, [(0x40, [7])], [0x40]⟩) s (fun r _ => decide (r = (none, false))) ∧
     (trapOf (slotEffect ⟨src, me, 5, 1, 0, 0x90000, 1, 3, [], []⟩) s).map (fun t => t.addr) = some 0x90000 ∧
     Yields (reduceEffect 0 .int32 0x1000 [⟨3, 5, false, 0⟩]) s (fun r _ => decide (r = (none, false))) ∧
     (∀ m ∈ [[], [0x1020 / 8]], Yields (hubPlace 0 .u .atomic (0x1000 + 0x20)) { s with marks := m } fun p t => match p with
       | .phys pa pte => decide ((t.pageRead pte pa 8).2 = (m != [])) | .window _ _ => false) ∧
     Yields (collEffect ⟨src, me, 0, 3, 0, 1, 0, none, 4, 0x1000, 0x2000, [⟨0, 5, false, 0⟩]⟩) s (fun r _ => decide (r = (none, false)))) ∧
    ∀ b : Bool, let np : NoticePacket := ⟨⟨0, 0, 0⟩, ⟨0, 0, 0⟩, 5, 9, 0, 0x1000, 1⟩
      let s : State := { hosted (hostFrame 1 255 0 0 0 0 []) with hub := { (hosted (hostFrame 1 255 0 0 0 0 [])).hub with outNotices := if b then [np] else [] } }
      np.src = s.hub.me ∧ np.dst = s.hub.me ∧ (np ∈ s.hub.outNotices ↔ b = true) ∧ (First s.hub 5 9) ∧ s.hub.boot = .run := by
  refine ⟨by decide +kernel, by decide +kernel, fun e _ => ⟨{ hub := { ports := [(portIx .zMinus, e)] } }, rfl⟩, by decide +kernel, ⟨by decide, by decide, yields (by decide +kernel), by decide +kernel, yields (by decide +kernel), fun m hm => ?_,
    yields (by decide +kernel)⟩, fun b => by unfold First; cases b <;> decide +kernel⟩
  simp only [List.mem_cons, List.not_mem_nil, or_false] at hm
  rcases hm with rfl | rfl <;> exact yields (by decide +kernel)

/-- An answer to the one operation of a context that runs, and of one that drains; to a transfer of a collective whose record runs, and of one
whose record has ended; and one that nothing waits for. -/
theorem witness_TorusAndPackets_answers :
    (∀ st ∈ [Status.running, .draining], let o : Remote := ⟨9, 0xC0, 7, 0, none, false, 0⟩; let s := one fun c => { c with status := st, remote := [o] }
     o ∈ (s.ctx 5).remote ∧ o.op = 9 ∧ o.acked = false ∧ (∀ e ∈ s.ctxs, e.1 = 5) ∧ (s.ctx 5).status = st ∧ ∀ r ∈ (s.ctx 5).remote, r = o) ∧
    (∀ n ∈ [3, 4], let q : Coll := { x := 5, tag := 7, asid := 0, level := .u, scope := 0, obj := 0x80, words := [], next := 1, flight := [(9, 0)], failed := false, start := n }
     let s : State := { one (fun c => { c with rec_ := some ⟨0, 0, 7, 3⟩ }) with dies := [(0, { coll := [(63, q)] })] }
     (∀ e ∈ s.ctxs, ¬ ∃ r ∈ e.2.remote, r.op = 9 ∧ r.acked = false) ∧ (63, q) ∈ (s.die 0).coll ∧ Tab.find q.flight 9 = some 0 ∧
     (∀ e ∈ s.dies, ∀ c ∈ e.2.coll, e.1 = 0 ∧ c = (63, q)) ∧ (s.ctx q.x).status = .running ∧ (s.ctx q.x).rec_ = some ⟨0, 0, 7, 3⟩ ∧
     decide (((⟨0, 0, 7, 3⟩ : Running).start = q.start)) = decide (n = 3)) ∧
    let s := one id; (∀ e ∈ s.ctxs, ¬ ∃ r ∈ e.2.remote, r.op = 9 ∧ r.acked = false) ∧ ∀ e ∈ s.dies, ∀ c ∈ e.2.coll, Tab.find c.2.flight 9 = none := by
  decide +kernel
end Sys2Proof.Tests
end

section
/-! SUPPORT. The opcode map: what decodes is the encoding of a well-formed instruction (R26-R30, R36, R51-R68). -/

namespace Sys2Proof.OpcodeMap

open Sys2Proof Sys2Proof.Machine Sys2Proof.Claims

/-! ## Words put together from their own fields (R29, R30, R36) -/

theorem ofNat_of_toNat {n m : Nat} {x : BitVec n} (h : x.toNat = m) : BitVec.ofNat n m = x := by
  rw [← h, BitVec.ofNat_toNat, BitVec.setWidth_eq]

section
variable {w : BitVec 32} {m : Nat} (hb : w.extractLsb' 0 1 = 0#1) (hm : (w.extractLsb' 1 5).toNat = m)
include hb hm

theorem encSR_fields :
    encSR (BitVec.ofNat 5 m) (w.extractLsb' 21 11) (w.extractLsb' 16 5) (w.extractLsb' 11 5) (w.extractLsb' 6 5) = w := by
  rw [encSR, ofNat_of_toNat hm, ← hb]
  simp only [BitVec.extractLsb'_append_extractLsb'_eq_extractLsb']
  exact BitVec.extractLsb'_eq_self

theorem encSI_fields : encSI (BitVec.ofNat 5 m) (w.extractLsb' 16 16) (w.extractLsb' 11 5) (w.extractLsb' 6 5) = w := by
  rw [encSI, ofNat_of_toNat hm, ← hb]
  simp only [BitVec.extractLsb'_append_extractLsb'_eq_extractLsb']
  exact BitVec.extractLsb'_eq_self

theorem encSU_fields : encSU (BitVec.ofNat 5 m) (w.extractLsb' 11 21) (w.extractLsb' 6 5) = w := by
  rw [encSU, ofNat_of_toNat hm, ← hb]
  simp only [BitVec.extractLsb'_append_extractLsb'_eq_extractLsb']
  exact BitVec.extractLsb'_eq_self

theorem encSM_fields : encSM (BitVec.ofNat 5 m) (w.extractLsb' 22 10) (w.extractLsb' 20 2) (w.extractLsb' 16 4) (w.extractLsb' 11 5)
    (w.extractLsb' 6 5) = w := by
  rw [encSM, ofNat_of_toNat hm, ← hb]
  simp only [BitVec.extractLsb'_append_extractLsb'_eq_extractLsb']
  exact BitVec.extractLsb'_eq_self

end

theorem encSB_fields {w : BitVec 32} (hb : w.extractLsb' 0 1 = 0#1) (hm : (w.extractLsb' 1 5).toNat = 0x0D) :
    encSB (w.extractLsb' 16 3) (w.extractLsb' 19 13) (w.extractLsb' 11 5) (w.extractLsb' 6 5) = w := by
  rw [encSB, show 0x0D#5 = w.extractLsb' 1 5 from ofNat_of_toNat hm, ← hb]
  simp only [BitVec.extractLsb'_append_extractLsb'_eq_extractLsb']
  exact BitVec.extractLsb'_eq_self

theorem encodePrefix_prefixOf {w : BitVec 32} (h : w.extractLsb' 0 2 = 3#2) (hz : w.extractLsb' 30 2 = 0#2) :
    encodePrefix (prefixOf w) = w := by
  rw [encodePrefix, ← h, ← hz]
  simp only [prefixOf, BitVec.extractLsb'_append_extractLsb'_eq_extractLsb']
  exact BitVec.extractLsb'_eq_self

theorem encode64_fields64 {p : Option Pfx} {w : BitVec 64} (h : w.extractLsb' 0 2 = 1#2) :
    encode64 (w.extractLsb' 2 8).toNat (fields64 p w) = w := by
  rw [encode64, ofNat_of_toNat rfl, ← h]
  simp only [fields64, BitVec.extractLsb'_append_extractLsb'_eq_extractLsb']
  exact BitVec.extractLsb'_eq_self

/-- A field whose upper part is zero is its lower part, extended. -/
theorem zeros_append_low {n k l i j : Nat} {w : BitVec n} (hj : j = i + l) (h : w.extractLsb' j k = 0#k) :
    0#k ++ w.extractLsb' i l = w.extractLsb' i (k + l) := by
  rw [← h, BitVec.extractLsb'_append_extractLsb'_eq_extractLsb' hj]

/-- A word of three fields whose upper one is zero. -/
theorem eq_zeros_append {k l i : Nat} {x : BitVec (k + l + i)} (h : x.extractLsb' (i + l) k = 0#k) :
    x = 0#k ++ x.extractLsb' i l ++ x.extractLsb' 0 i := by
  rw [zeros_append_low rfl h, BitVec.extractLsb'_append_extractLsb'_eq_extractLsb' (Nat.zero_add i).symm]
  exact BitVec.extractLsb'_eq_self.symm

/-! ## 32-bit instructions (R52-R56) -/

/-- The instruction is well formed and `w` is its word. -/
structure IsWord (i : Instr) (w : BitVec 32) : Prop where
  wf : i.wf = true
  word : encode32 i = some w

/-- A value behind a condition. -/
theorem guarded_ok {ε α : Type} {p : Prop} [Decidable p] {r : ε} {i j : α} :
    (if p then .ok i else .error r : Except ε α) = .ok j ↔ p ∧ i = j := by
  by_cases h : p <;> simp [h]

/-- A value in front of which a condition must fail. -/
theorem refused_ok {ε α : Type} {p : Prop} [Decidable p] {r : ε} {e : Except ε α} {j : α} :
    (if p then .error r else e) = .ok j ↔ ¬p ∧ e = .ok j := by
  by_cases h : p <;> simp [h]

/-- The values of a field of two bits. -/
theorem twoBits : ∀ x : BitVec 2, x = 0 ∨ x = 1 ∨ x = 2 ∨ x = 3 := by decide

theorem isWord_of_decodeAlu {n : Nat} {b a d : Reg} {i : Instr} (hz : ¬(n = 0 ∧ b = 0 ∧ a = 0 ∧ d = 0))
    (h : decodeAlu n b a d = .ok i) : IsWord i (encSR 0x00 (BitVec.ofNat 11 n) b a d) := by
  unfold decodeAlu at h
  split at h
  case h_1 =>
    cases h
    refine ⟨(Bool.not_eq_true' _).mpr (Bool.eq_false_iff.mpr fun hzero => hz ?_), rfl⟩
    simp only [Bool.and_eq_true, beq_iff_eq] at hzero
    obtain ⟨⟨hd, ha⟩, hb⟩ := hzero
    exact ⟨rfl, hb, ha, hd⟩
  -- popc, clz, ctz and bswap
  case h_23 | h_24 | h_25 | h_28 =>
    obtain ⟨rfl, rfl⟩ := guarded_ok.mp h
    exact ⟨rfl, rfl⟩
  all_goals cases h
  all_goals exact ⟨rfl, rfl⟩

theorem isWord_of_decodeShi {imm : BitVec 16} {a d : Reg} {i : Instr} (h : decodeShi imm a d = .ok i) :
    IsWord i (encSI 0x05 imm a d) := by
  simp only [decodeShi, refused_ok] at h
  obtain ⟨h3, hz, h⟩ := h
  rw [eq_zeros_append (k := 8) (l := 2) (i := 6) (x := imm) (Decidable.not_not.mp hz)]
  generalize imm.extractLsb' 6 2 = kind at h3 h
  rcases twoBits kind with rfl | rfl | rfl | rfl
  case inr.inr.inr => exact absurd rfl h3
  all_goals cases h; exact ⟨rfl, rfl⟩

theorem isWord_of_decodeBr {n : Nat} {off : BitVec 13} {a b : Reg} {i : Instr} (h : decodeBr n off a b = .ok i) :
    IsWord i (encSB (BitVec.ofNat 3 n) off a b) := by
  unfold decodeBr at h
  split at h
  all_goals cases h
  all_goals exact ⟨rfl, rfl⟩

theorem amoFn_fields (fn : BitVec 11) :
    amoFn (fn.extractLsb' 9 2) (fn.extractLsb' 6 3) (fn.extractLsb' 4 2) (fn.extractLsb' 0 4) = fn := by
  unfold amoFn
  simp only [BitVec.extractLsb'_append_extractLsb'_eq_extractLsb']
  exact BitVec.extractLsb'_eq_self

theorem isWord_of_decodeAmo {cas : Bool} {fn : BitVec 11} {b a d : Reg} {i : Instr} (h : decodeAmo cas fn b a d = .ok i) :
    IsWord i (encSR (if cas then 0x14 else 0x13) fn b a d) := by
  simp only [decodeAmo, refused_ok] at h
  obtain ⟨hs, h⟩ := h
  rw [← amoFn_fields fn, ← ofNat_of_toNat (x := fn.extractLsb' 0 4) rfl]
  generalize (fn.extractLsb' 0 4).toNat = op at h
  generalize fn.extractLsb' 4 2 = size at hs h
  generalize fn.extractLsb' 6 3 = scope at hs h
  obtain ⟨hscope, hsize⟩ := not_or.mp hs
  have hscope : (scope != 7) = true := bne_iff_ne.mpr hscope
  have hwf : (decide (2 ≤ size.toNat) && scope != 7) = true := by rw [hscope, decide_eq_true (Nat.not_lt.mp hsize)]; rfl
  cases cas with
  | true =>
    obtain ⟨rfl, rfl⟩ := guarded_ok.mp h
    exact ⟨hwf, rfl⟩
  | false =>
    simp only [Bool.false_eq_true, if_false] at h
    split at h
    -- amofadd
    case h_10 =>
      obtain ⟨rfl, rfl⟩ := guarded_ok.mp h
      exact ⟨hscope, rfl⟩
    all_goals cases h
    all_goals exact ⟨hwf, rfl⟩

theorem isWord_of_decodeCsr {imm : BitVec 16} {a d : Reg} {i : Instr} (h : decodeCsr imm a d = .ok i) :
    IsWord i (encSI 0x15 imm a d) := by
  simp only [decodeCsr, refused_ok] at h
  obtain ⟨hz, h⟩ := h
  rw [eq_zeros_append (k := 2) (l := 2) (i := 12) (x := imm) (Decidable.not_not.mp hz)]
  generalize imm.extractLsb' 12 2 = op at h
  rcases twoBits op with rfl | rfl | rfl | rfl
  -- csrr, whose ga is 0
  case inl => obtain ⟨rfl, rfl⟩ := guarded_ok.mp h; exact ⟨rfl, rfl⟩
  all_goals cases h; exact ⟨rfl, rfl⟩

theorem isWord_of_decodeFpu {rm : BitVec 3} {n : Nat} {b a d : Reg} {i : Instr} (h : decodeFpu rm n b a d = .ok i) :
    IsWord i (encSR 0x16 (rm ++ BitVec.ofNat 8 n) b a d) := by
  simp only [decodeFpu, refused_ok] at h
  obtain ⟨hrm, h⟩ := h
  have hwf : (rm != 7) = true := bne_iff_ne.mpr hrm
  split at h
  -- the four binary operations that round
  case h_1 | h_2 | h_3 | h_4 => cases h; exact ⟨hwf, rfl⟩
  -- fsqrt and the conversions
  case h_5 | h_8 | h_9 | h_10 | h_11 => obtain ⟨rfl, rfl⟩ := guarded_ok.mp h; exact ⟨hwf, rfl⟩
  -- fclass, with one operand and no rounding
  case h_15 =>
    split at h
    next hb => obtain ⟨rfl, rfl⟩ := guarded_ok.mp h; subst hb; exact ⟨rfl, rfl⟩
    next => cases h
  case h_19 => cases h
  -- those that do not round
  all_goals obtain ⟨rfl, rfl⟩ := guarded_ok.mp h
  all_goals exact ⟨rfl, rfl⟩

theorem isWord_of_decodeSys {n : Nat} {b a d : Reg} {i : Instr} (h : decodeSys n b a d = .ok i) :
    IsWord i (encSR 0x18 (BitVec.ofNat 11 n) b a d) := by
  unfold decodeSys at h
  dsimp only at h
  split at h
  -- ifence, with its scope in b
  case h_4 =>
    obtain ⟨hs, h⟩ := refused_ok.mp h
    obtain ⟨⟨rfl, rfl⟩, rfl⟩ := guarded_ok.mp h
    exact ⟨decide_eq_true (by omega), rfl⟩
  -- cyc, with its destination
  case h_6 => obtain ⟨⟨rfl, rfl⟩, rfl⟩ := guarded_ok.mp h; exact ⟨rfl, rfl⟩
  case h_8 => cases h
  all_goals obtain ⟨⟨rfl, rfl, rfl⟩, rfl⟩ := guarded_ok.mp h
  all_goals exact ⟨rfl, rfl⟩

theorem isWord_of_decodeTask {n : Nat} {b a d : Reg} {i : Instr} (h : decodeTask n b a d = .ok i) :
    IsWord i (encSR 0x19 (BitVec.ofNat 11 n) b a d) := by
  unfold decodeTask at h
  split at h
  · obtain ⟨rfl, rfl⟩ := guarded_ok.mp h; exact ⟨rfl, rfl⟩
  · obtain ⟨⟨rfl, rfl⟩, rfl⟩ := guarded_ok.mp h; exact ⟨rfl, rfl⟩
  · obtain ⟨⟨rfl, rfl, rfl⟩, rfl⟩ := guarded_ok.mp h; exact ⟨rfl, rfl⟩
  · obtain ⟨⟨rfl, rfl, rfl⟩, rfl⟩ := guarded_ok.mp h; exact ⟨rfl, rfl⟩
  · cases h

theorem isWord_of_decodeBar {fn : BitVec 11} {b a d : Reg} {i : Instr} (h : decodeBar fn b a d = .ok i) :
    IsWord i (encSR 0x1A fn b a d) := by
  simp only [decodeBar, refused_ok, not_or, ne_eq, Decidable.not_not] at h
  obtain ⟨⟨h0, h6⟩, ⟨hz, rfl⟩, h⟩ := h
  rw [eq_zeros_append (k := 6) (l := 2) (i := 3) (x := fn) hz]
  generalize fn.extractLsb' 3 2 = op at h
  have hwf : (fn.extractLsb' 0 3 != 0 && decide ((fn.extractLsb' 0 3).toNat < 6)) = true := by
    rw [bne_iff_ne.mpr h0, decide_eq_true (Nat.not_le.mp h6)]; rfl
  rcases twoBits op with rfl | rfl | rfl | rfl
  all_goals cases h; exact ⟨hwf, rfl⟩

/-- An instruction of 32 bits is well formed, and its encoding is the word that it was decoded from. -/
theorem isWord_of_decode32 {w : BitVec 32} {i : Instr} (hb : w.extractLsb' 0 1 = 0#1) (h : decode32 w = .ok i) : IsWord i w := by
  simp only [decode32, refused_ok] at h
  obtain ⟨hw, h⟩ := h
  generalize hm : (w.extractLsb' 1 5).toNat = m at h
  have sr := encSR_fields hb hm
  have si := encSI_fields hb hm
  have su := encSU_fields hb hm
  have sm := encSM_fields hb hm
  split at h
  -- ALU
  case h_1 =>
    rw [← sr, ← ofNat_of_toNat (x := w.extractLsb' 21 11) rfl]
    refine isWord_of_decodeAlu (fun ⟨h1, h2, h3, h4⟩ => hw ?_) h
    rw [← sr, ← ofNat_of_toNat (x := w.extractLsb' 21 11) h1, h2, h3, h4]
    rfl
  -- format SI
  case h_2 | h_3 | h_4 | h_5 | h_7 | h_8 | h_12 => cases h; exact ⟨rfl, congrArg some si⟩
  case h_6 => rw [← si]; exact isWord_of_decodeShi h
  -- format SU
  case h_9 | h_10 | h_11 => cases h; exact ⟨rfl, congrArg some su⟩
  -- calli
  case h_13 =>
    obtain ⟨⟨ha, hd⟩, rfl⟩ := guarded_ok.mp h
    rw [ha, hd] at si
    exact ⟨rfl, congrArg some si⟩
  case h_14 =>
    rw [← encSB_fields hb hm, ← ofNat_of_toNat (x := w.extractLsb' 16 3) rfl]
    exact isWord_of_decodeBr h
  -- ld, ldz and st
  case h_15 | h_16 | h_17 => cases h; exact ⟨rfl, congrArg some sm⟩
  -- lda and stl
  case h_18 | h_19 =>
    simp only [refused_ok, ne_eq, Decidable.not_not] at h
    obtain ⟨hs, hz, h⟩ := h
    cases h
    rw [← zeros_append_low (i := 22) (l := 3) rfl hz] at sm
    exact ⟨bne_iff_ne.mpr hs, congrArg some sm⟩
  case h_20 => rw [← sr]; exact isWord_of_decodeAmo (cas := false) h
  case h_21 => rw [← sr]; exact isWord_of_decodeAmo (cas := true) h
  case h_22 => rw [← si]; exact isWord_of_decodeCsr h
  case h_23 =>
    rw [← sr, ← BitVec.extractLsb'_append_extractLsb' (w := 3) (len := 8) (x := w.extractLsb' 21 11),
      ← ofNat_of_toNat (x := (w.extractLsb' 21 11).extractLsb' 0 8) rfl]
    exact isWord_of_decodeFpu h
  -- fence
  case h_24 =>
    simp only [refused_ok, guarded_ok] at h
    obtain ⟨hs, ha, rfl⟩ := h
    rw [ha] at si
    exact ⟨decide_eq_true (by omega), congrArg some si⟩
  case h_25 =>
    rw [← sr, ← ofNat_of_toNat (x := w.extractLsb' 21 11) rfl]
    exact isWord_of_decodeSys h
  case h_26 =>
    rw [← sr, ← ofNat_of_toNat (x := w.extractLsb' 21 11) rfl]
    exact isWord_of_decodeTask h
  case h_27 => rw [← sr]; exact isWord_of_decodeBar h
  case h_28 => cases h

/-! ## 64-bit instructions (R58-R64) -/

/-- The instruction is well formed, has no word of 32 bits, and has a major and fields. -/
structure IsOp64 (i : Instr) (major : Nat) (f : Op64) : Prop where
  wf : i.wf = true
  not32 : encode32 i = none
  parts : parts64 i = some (major, f)

/-- Checks that find nothing wrong: the first does not, nor the rest. -/
theorem refused_none {p : Prop} [Decidable p] {r : Nat} {e : Option Nat} : (if p then some r else e) = none ↔ ¬p ∧ e = none := by
  by_cases h : p <;> simp [h]

/-- What passes the static checks has a row, has a `pfx` below major 0x90 alone, and has zeros where its row demands them. -/
theorem of_static64_none {major : Nat} {f : Op64} {sh : Shape} (hsh : shape major = some sh) (h : static64 major f = none) :
    (0x90 ≤ major → f.pfx = none) ∧ zerosOk major sh f = true := by
  unfold static64 at h
  simp only [hsh, refused_none, Bool.not_eq_true', Bool.not_eq_false] at h
  obtain ⟨hp, -, -, hz, -⟩ := h
  exact ⟨fun hm => Option.not_isSome_iff_eq_none.mp fun hs => hp ⟨hs, hm⟩, hz⟩

theorem fn4_of_static64_none {major : Nat} {f : Op64} {sh : Shape} (hsh : shape major = some sh) (h : static64 major f = none) :
    f.fn4.toNat ∈ sh.fn4 := by
  have hz := (of_static64_none hsh h).2
  simp only [zerosOk, Bool.and_eq_true, decide_eq_true_eq, and_assoc] at hz
  obtain ⟨-, hfn4, -⟩ := hz
  exact hfn4

/-- The engines' and the package's majors, from 0x90 on, have vs1 as their row gives it. -/
theorem vs1Opnd_of_ge {major : Nat} {sh : Shape} {f : Op64} (hm : 0x90 ≤ major) (hx : sh.vs1x = false) : vs1Opnd major sh f = sh.vs1 := by
  have hne : major ≠ 0x01 ∧ major ≠ 0x78 ∧ major ≠ 0x88 := by omega
  simp [vs1Opnd, hx, hne]

/-- And vs2 as their row gives it. -/
theorem vs2Ok_of_ge {major : Nat} {sh : Shape} {f : Op64} (hm : 0x90 ≤ major) : vs2Ok major sh f = opndOk sh.vs2 f.vs2 := by
  have hne : major ≠ 0x01 ∧ major ≠ 0x04 ∧ major ≠ 0x86 ∧ major ≠ 0x87 := by omega
  simp [vs2Ok, hne]

/-- An instruction of a row without operands has all its fields zero. -/
theorem eq_blank64 {major r3 r4 : Nat} {f : Op64} (hm : 0x90 ≤ major)
    (hsh : shape major = some { fn3Reason := r3, fn4Reason := r4, tok := false }) (h : static64 major f = none) : f = blank64 := by
  obtain ⟨hp, hz⟩ := of_static64_none hsh h
  have hp := hp hm
  obtain ⟨pfx, fn3, tkpush, tkpop, cls4, fn4, mod12, dt, c2, c1, vs2, vs1, vd⟩ := f
  simp only [zerosOk, vs1Opnd_of_ge hm, vs2Ok_of_ge hm, opndOk, dtUsed, c1Used, List.mem_cons, List.not_mem_nil, or_false, ne_eq,
    not_true_eq_false, reduceCtorEq, decide_false, Bool.false_or, Bool.not_and, Bool.false_and, Bool.or_false, Bool.and_eq_true,
    decide_eq_true_eq, beq_iff_eq, and_assoc] at hz
  obtain ⟨hfn3, hfn4, rfl, rfl, rfl, rfl, rfl, rfl, rfl, rfl, rfl, rfl⟩ := hz
  obtain rfl : fn3 = 0 := BitVec.eq_of_toNat_eq hfn3
  obtain rfl : fn4 = 0 := BitVec.eq_of_toNat_eq hfn4
  subst hp
  rfl

theorem eq_of_mem_two : ∀ {x : BitVec 4}, x.toNat ∈ [0, 1] → x = 0 ∨ x = 1 := by decide
theorem eq_of_mem_three : ∀ {x : BitVec 4}, x.toNat ∈ [0, 1, 2] → x = 0 ∨ x = 1 ∨ x = 2 := by decide
theorem eq_of_mem_four : ∀ {x : BitVec 4}, x.toNat ∈ [0, 1, 2, 3] → x = 0 ∨ x = 1 ∨ x = 2 ∨ x = 3 := by decide

/-- The well-formedness of an instruction that shares its major. -/
theorem and_fn4 {major : Nat} {f : Op64} {k : BitVec 4} (hok : op64Ok major f = true) (h : f.fn4 = k) :
    (op64Ok major f && f.fn4 == k) = true :=
  Bool.and_eq_true_iff.mpr ⟨hok, beq_iff_eq.mpr h⟩

/-- The instruction that a major and its checked fields build has that major and those fields. -/
theorem isOp64_of_build64 {major : Nat} {f : Op64} {i : Instr} (hs : static64 major f = none) (h : build64 major f = some i) :
    IsOp64 i major f := by
  have hok : op64Ok major f = true := by rw [op64Ok, hs]; rfl
  unfold build64 at h
  split at h
  -- vfsgnj, vfsgnjn and vfsgnjx; the three modes of dmode
  case h_59 | h_124 =>
    rcases eq_of_mem_three (fn4_of_static64_none rfl hs) with h0 | h0 | h0
    all_goals rw [h0] at h; cases h; exact ⟨and_fn4 hok h0, rfl, rfl⟩
  -- vmv and vmv.row
  case h_90 =>
    rcases eq_of_mem_two (fn4_of_static64_none rfl hs) with h0 | h0
    all_goals rw [h0] at h; cases h; exact ⟨and_fn4 hok h0, rfl, rfl⟩
  -- the two forms of evcfg
  case h_112 =>
    split at h
    next hlt => cases h; exact ⟨Bool.and_eq_true_iff.mpr ⟨hok, decide_eq_true hlt⟩, rfl, rfl⟩
    next hlt => cases h; exact ⟨Bool.and_eq_true_iff.mpr ⟨hok, decide_eq_true (Nat.not_lt.mp hlt)⟩, rfl, rfl⟩
  -- the four operations of nmop
  case h_119 =>
    rcases eq_of_mem_four (fn4_of_static64_none rfl hs) with h0 | h0 | h0 | h0
    all_goals rw [h0] at h; cases h; exact ⟨and_fn4 hok h0, rfl, rfl⟩
  -- vqdrain, psync and rfen, which have no operands
  case h_118 | h_131 | h_136 =>
    obtain rfl : f = blank64 := eq_blank64 (by decide) rfl hs
    cases h
    exact ⟨rfl, rfl, rfl⟩
  all_goals cases h
  all_goals exact ⟨hok, rfl, rfl⟩

/-- What decodes as a 64-bit instruction encodes to the same word, with the same `pfx`. -/
theorem isOp64_of_decode64 {p : Option Pfx} {w : BitVec 64} {i : Instr} (hw : w.extractLsb' 0 2 = 1#2) (h : decode64 p w = .ok i) :
    ∃ major f, IsOp64 i major f ∧ f.pfx = p ∧ encode64 major f = w := by
  refine ⟨(w.extractLsb' 2 8).toNat, fields64 p w, ?_, rfl, encode64_fields64 hw⟩
  unfold decode64 at h
  dsimp only at h
  split at h
  next => cases h
  next hs =>
    split at h
    next hi => cases h; exact isOp64_of_build64 hs hi
    next => cases h

/-! ## Units and their bytes (R26, R27) -/

theorem encode_of_isWord {i : Instr} {w : BitVec 32} (h : IsWord i w) : encode i = some [w] := by rw [encode, h.word]

theorem encode_of_isOp64 {i : Instr} {major : Nat} {f : Op64} (h : IsOp64 i major f) :
    encode i = some ((f.pfx.map encodePrefix).toList ++
      [(encode64 major f).extractLsb' 0 32, (encode64 major f).extractLsb' 32 32]) := by
  unfold encode
  rw [h.not32, h.parts]
  dsimp only
  cases f.pfx <;> rfl

/-- The low bits of a 64-bit instruction are those of its first word. -/
theorem low_append {a b : BitVec 32} {v : BitVec 2} (h : b.extractLsb' 0 2 = v) : (a ++ b).extractLsb' 0 2 = v := by
  rw [BitVec.extractLsb'_append_eq_of_add_le (by decide), h]

theorem low_bit_zero : ∀ {v : BitVec 2}, v ≠ 1 → v ≠ 3 → v.extractLsb' 0 1 = 0#1 := by decide

/-- A unit that decodes is an instruction of 64 bits without `pfx`, one with it, or one of 32 bits. -/
theorem decodeWords_ok {w0 w1 w2 : BitVec 32} {d : Decoded} (h : decodeWords w0 w1 w2 = .ok d) :
    (w0.extractLsb' 0 2 = 1 ∧ ∃ i, decode64 none (w1 ++ w0) = .ok i ∧ d = ⟨i, 8⟩) ∨
    (w0.extractLsb' 0 2 = 3 ∧ w0.extractLsb' 30 2 = 0 ∧ w1.extractLsb' 0 2 = 1 ∧
      ∃ i, decode64 (some (prefixOf w0)) (w2 ++ w1) = .ok i ∧ d = ⟨i, 12⟩) ∨
    (w0.extractLsb' 0 1 = 0 ∧ ∃ i, decode32 w0 = .ok i ∧ d = ⟨i, 4⟩) := by
  unfold decodeWords at h
  split at h
  next h1 =>
    split at h
    next i hi => cases h; exact .inl ⟨h1, i, hi, rfl⟩
    next => cases h
  next h1 =>
    split at h
    next h3 =>
      simp only [refused_ok, ne_eq, Decidable.not_not] at h
      obtain ⟨-, hl, hz, h⟩ := h
      split at h
      next i hi => cases h; exact .inr (.inl ⟨h3, hz, hl, i, hi, rfl⟩)
      next => cases h
    next h3 =>
      split at h
      next i hi =>
        cases h
        refine .inr (.inr ⟨?_, i, hi, rfl⟩)
        rw [← BitVec.extractLsb'_extractLsb'_of_le (len' := 2) (by decide)]
        exact low_bit_zero h1 h3
      next => cases h

/-- What a unit decodes to is well formed, and its words are those that the unit took. -/
theorem encode_of_decodeWords {w0 w1 w2 : BitVec 32} {d : Decoded} (h : decodeWords w0 w1 w2 = .ok d) :
    d.instr.wf = true ∧ ∃ k ≤ 3, encode d.instr = some ([w0, w1, w2].take k) ∧ d.bytes = 4 * k := by
  rcases decodeWords_ok h with ⟨hl, i, hi, rfl⟩ | ⟨h3, hz, hl, i, hi, rfl⟩ | ⟨hb, i, hi, rfl⟩
  · obtain ⟨major, f, hop, hp, hw⟩ := isOp64_of_decode64 (low_append hl) hi
    refine ⟨hop.wf, 2, by decide, ?_, rfl⟩
    rw [encode_of_isOp64 hop, hp, hw, BitVec.extractLsb'_append_eq_right, BitVec.extractLsb'_append_eq_left]
    rfl
  · obtain ⟨major, f, hop, hp, hw⟩ := isOp64_of_decode64 (low_append hl) hi
    refine ⟨hop.wf, 3, by decide, ?_, rfl⟩
    rw [encode_of_isOp64 hop, hp, hw, BitVec.extractLsb'_append_eq_right, BitVec.extractLsb'_append_eq_left,
      Option.map_some, encodePrefix_prefixOf h3 hz]
    rfl
  · have hword := isWord_of_decode32 hb hi
    exact ⟨hword.wf, 1, by decide, encode_of_isWord hword, rfl⟩

/-- The bytes of a number that bytes hold. -/
theorem leBytes_ofLe : ∀ l : List Byte, leBytes l.length (ofLe l) = l
  | [] => rfl
  | b :: t => by
    have hb := b.isLt
    rw [List.length_cons, leBytes, ofLe, Nat.add_mul_div_left _ _ (by decide), Nat.div_eq_of_lt hb, Nat.zero_add, leBytes_ofLe t]
    congr 1
    apply BitVec.eq_of_toNat_eq
    rw [BitVec.toNat_ofNat]
    omega

theorem leBytes_wordOfBytes {bs : List Byte} (h : 4 ≤ bs.length) : leBytes 4 (wordOfBytes bs).toNat = bs.take 4 := by
  have hl : (bs.take 4).length = 4 := by rw [List.length_take, Nat.min_eq_left h]
  have hlt := ofLe_lt (bs.take 4)
  rw [hl] at hlt
  rw [wordOfBytes, BitVec.toNat_ofNat, Nat.mod_eq_of_lt (b := 2 ^ 32) hlt]
  simpa only [hl] using leBytes_ofLe (bs.take 4)

theorem bytesOf_take (ws : List (BitVec 32)) : ∀ k, bytesOf (ws.take k) = (bytesOf ws).take (4 * k) := by
  induction ws with
  | nil => intro k; simp [bytesOf]
  | cons w t ih =>
    rintro (_ | k)
    · rfl
    · rw [List.take_succ_cons, bytesOf, List.flatMap_cons, bytesOf, List.flatMap_cons]
      rw [show 4 * (k + 1) = (leBytes 4 w.toNat).length + 4 * k by rw [leBytes_length]; omega, List.take_length_add_append]
      exact congrArg _ (ih k)

/-- Three words read from bytes have those bytes. -/
theorem bytesOf_words {bs : List Byte} (h : 12 ≤ bs.length) :
    bytesOf [wordOfBytes bs, wordOfBytes (bs.drop 4), wordOfBytes (bs.drop 8)] = bs.take 12 := by
  simp only [bytesOf, List.flatMap_cons, List.flatMap_nil, List.append_nil]
  rw [leBytes_wordOfBytes (by omega), leBytes_wordOfBytes (by rw [List.length_drop]; omega),
    leBytes_wordOfBytes (by rw [List.length_drop]; omega), show 8 = 4 + 4 from rfl, ← List.drop_drop, ← List.take_add, ← List.take_add]

/-- Settles O2: each format's word is put together again from its own fields, and the static checks leave no other field free. -/
theorem encodeOfDecode : Obligations.EncodeOfDecode := by
  intro bs d hlen h
  obtain ⟨hwf, k, hk, henc, hbytes⟩ := encode_of_decodeWords h
  refine ⟨hwf, _, henc, ?_⟩
  rw [bytesOf_take, bytesOf_words hlen, List.take_take, hbytes, Nat.min_eq_left (by omega)]

end Sys2Proof.OpcodeMap
end

section
/-! SUPPORT. Instructions that need a level above U trap below it, before anything is written (R65, R129). -/

namespace Sys2Proof.OpcodeMap

open Sys2Proof Sys2Proof.Machine Sys2Proof.Claims

/-- Where nothing but parked entries is queued, a trap is taken at once. -/
theorem trapWaits_of_idle {s : State} {t : TrapInfo} (hi : Idle s) (ht : t.cause ≠ 0x16) : s.trapWaits s.cur t = false := by
  rw [State.trapWaits, if_neg ht, Ctx.busy, List.any_eq_false]
  exact fun e he => by simp [hi e he]

/-- A front-end instruction whose body begins with a check that raises PRIV traps with the state as it was. -/
theorem front_check_priv {s : State} {check : CtxNo → Ctx → M Unit} {rest : CtxNo → Ctx → M Word} (hi : Idle s)
    (hc : check s.cur (here s) s = .error (.trap (privTrap (here s).pc)) s) :
    front (fun x c => check x c >>= fun _ => rest x c) s =
      .next (s.enterTrap s.cur (privTrap (here s).pc) false false (here s).pc) :=
  front_trap (bind_error _ hc) (trapWaits_of_idle hi (by simp [privTrap]))

/-- The instruction is one of the front end whose first check is for level S. -/
def NeedsS (i : Instr) : Prop :=
  ∃ rest : CtxNo → Ctx → M Word, ∀ s, exec i s = front (fun x c => needS c >>= fun _ => rest x c) s

theorem needsS_tret : NeedsS .tret := ⟨_, fun s => show execTret s = _ from rfl⟩
theorem needsS_snap : NeedsS .snap := ⟨_, fun s => show execSnap s = _ from rfl⟩
theorem needsS_vqdrain : NeedsS .vqdrain := ⟨_, fun s => show execVqdrain s = _ from rfl⟩
theorem needsS_ctxsv (f : Op64) : NeedsS (.ctxsv f) := ⟨_, fun s => show execCtxsv f s = _ from rfl⟩
theorem needsS_ctxrs (f : Op64) : NeedsS (.ctxrs f) := ⟨_, fun s => show execCtxrs f s = _ from rfl⟩
theorem needsS_tlbinv (f : Op64) : NeedsS (.tlbinv f) := ⟨_, fun s => show execTlbinv f s = _ from rfl⟩

theorem NeedsS.traps {i : Instr} {s : State} (h : NeedsS i) (hi : Idle s) (hu : (here s).level = .u) :
    Traps i s s (privTrap (here s).pc) := by
  obtain ⟨rest, he⟩ := h
  exact (he s).trans (front_check_priv (check := fun _ => needS) hi (by rw [needS, if_pos hu, raise_apply]))

/-! ## Control and status registers -/

/-- The allotments and the asid are written at level F. -/
theorem csrLevels_of_allot {n : Nat} (h : 0x110 ≤ n ∧ n ≤ 0x112) : csrLevels n = some (.s, some .f) := by
  unfold csrLevels
  rw [if_neg (by omega), if_neg (by omega), if_neg (by omega), if_neg (by omega), if_neg (by omega), if_pos h]

/-- The trap registers, the allotments and the asid are read at level S. -/
theorem csrLevels_of_trap_or_allot {n : Nat} (h : 0x100 ≤ n ∧ n ≤ 0x106 ∨ 0x110 ≤ n ∧ n ≤ 0x112) :
    ∃ wr, csrLevels n = some (.s, wr) := by
  rcases h with h | h
  · unfold csrLevels
    rw [if_neg (by omega), if_neg (by omega), if_neg (by omega)]
    split
    · exact ⟨_, rfl⟩
    · rw [if_pos (by omega)]
      exact ⟨_, rfl⟩
  · exact ⟨_, csrLevels_of_allot h⟩

/-- Below the level that reads a register every access raises PRIV. -/
theorem csrCheck_below_read {c : Ctx} {n : Nat} {rd : Level} {wr : Option Level} {w : Bool} {s : State}
    (hn : csrLevels n = some (rd, wr)) (hl : c.level.code < rd.code) : csrCheck c n w s = .error (.trap (privTrap c.pc)) s := by
  rw [csrCheck, hn]
  dsimp only
  rw [if_pos hl, raise_apply]

/-- Below the level that writes a register a write raises PRIV. -/
theorem csrCheck_below_write {c : Ctx} {n : Nat} {rd l : Level} {s : State} (hn : csrLevels n = some (rd, some l))
    (hl : c.level.code < l.code) : csrCheck c n true s = .error (.trap (privTrap c.pc)) s := by
  rw [csrCheck, hn]
  dsimp only
  rw [if_pos (⟨rfl, hl⟩ : true = true ∧ _)]
  split <;> rfl

/-- An access whose check raises PRIV traps with the state as it was. -/
theorem traps_of_csrCheck {i : Instr} {s : State} {d : Reg} {n : BitVec 12} {w : Bool} {new : Ctx → Word → Word}
    (he : exec i s = csrOp d n w new s) (hi : Idle s)
    (hc : csrCheck (here s) n.toNat w s = .error (.trap (privTrap (here s).pc)) s) : Traps i s s (privTrap (here s).pc) :=
  he.trans (front_check_priv (check := fun _ c => csrCheck c n.toNat w) hi hc)

theorem exec_csrr (d : Reg) (n : BitVec 12) (s : State) : exec (.csrr d n) s = csrOp d n false (fun _ old => old) s := rfl
theorem exec_csrw (d a : Reg) (n : BitVec 12) (s : State) : exec (.csrw d a n) s = csrOp d n true (fun c _ => c.rg a) s := rfl
theorem exec_csrs (d a : Reg) (n : BitVec 12) (s : State) :
    exec (.csrs d a n) s = csrOp d n (a != 0) (fun c old => old ||| c.rg a) s := rfl
theorem exec_csrc (d a : Reg) (n : BitVec 12) (s : State) :
    exec (.csrc d a n) s = csrOp d n (a != 0) (fun c old => old &&& ~~~(c.rg a)) s := rfl

/-- Settles O22: each instruction's first check is of the level, and it traps before anything is written. -/
theorem privilege : Obligations.Privilege := by
  intro s d a f n hi
  refine ⟨fun hu => ⟨needsS_tret.traps hi hu, needsS_snap.traps hi hu, needsS_vqdrain.traps hi hu, (needsS_ctxsv f).traps hi hu,
    (needsS_ctxrs f).traps hi hu, (needsS_tlbinv f).traps hi hu, fun hn => ?_⟩, fun hs hn => ?_⟩
  · obtain ⟨wr, hr⟩ := csrLevels_of_trap_or_allot hn
    have hc (w : Bool) : csrCheck (here s) n.toNat w s = .error (.trap (privTrap (here s).pc)) s :=
      csrCheck_below_read hr (by rw [hu]; decide)
    exact ⟨traps_of_csrCheck (exec_csrr d n s) hi (hc _), traps_of_csrCheck (exec_csrw d a n s) hi (hc _),
      traps_of_csrCheck (exec_csrs d a n s) hi (hc _), traps_of_csrCheck (exec_csrc d a n s) hi (hc _)⟩
  · have hc (w : Bool) (hw : w = true) : csrCheck (here s) n.toNat w s = .error (.trap (privTrap (here s).pc)) s :=
      hw ▸ csrCheck_below_write (csrLevels_of_allot hn) (by rw [hs]; decide)
    refine ⟨traps_of_csrCheck (exec_csrw d a n s) hi (hc _ rfl), fun ha => ?_⟩
    have hwrites := hc _ (bne_iff_ne.mpr ha)
    exact ⟨traps_of_csrCheck (exec_csrs d a n s) hi hwrites, traps_of_csrCheck (exec_csrc d a n s) hi hwrites⟩

end Sys2Proof.OpcodeMap
end
